-- ==== Sys2Proof/Word.lean ====
section
/-! DEFINITION. The number types of the LX-16: bytes and 16-bit words, the numbers that name things, and sets laid
out as bits (R177). -/

namespace Sys2Proof

/-- A byte of a record or a frame. -/
abbrev Byte := BitVec 8

/-- A two-byte number: the round counter, the check, the digest. -/
abbrev Word16 := BitVec 16

/-- A station number, 0 to 15. -/
abbrev StationNo := Fin 16

/-- A lock number, 0 to 63. -/
abbrev LockNo := Fin 64

/-- A barrier number, 0 to 7. -/
abbrev BarrierNo := Fin 8

/-- A chunk number, 0 to 8 (R128). -/
abbrev ChunkNo := Fin 9

/-- A set of stations: bit i stands for station i (R177). -/
abbrev StationSet := BitVec 16

/-- A set of chunks: bit k stands for chunk k (R177). -/
abbrev ChunkSet := BitVec 9

/-- One received character (R79): the nine samples taken after an accepted start bit. Bits 0 to 7 are the data bits in
the order they travel, least significant first; bit 8 is the sample of the stop bit. -/
abbrev RxChar := BitVec 9

end Sys2Proof
end

