-- ==== Sys2Proof/Syntax.lean ====
section
/-! DEFINITION. The commands of the block: one constructor for each row of spec/opcode_table.json. An operand is what
the surroundings of the part supply with the event; the table itself gives none. -/

namespace Sys2Proof

/-- The 36 steps of spec/opcode_table.json, in the table's order. -/
inductive Instr where
  /-- HARD_RESET (R111): RESET asserted, or power-on. -/
  | hardReset
  /-- SSEL_ASSERT (R152, R151): SSEL is asserted. Here, as in the other rows of the port, `mosi` holds the level of MOSI at
  each rising edge of SCLK that falls into the row, one full clock cycle for each. With SSEL asserted already there is no
  assertion, and the clock cycles belong to the transaction in progress (log 6). -/
  | sselAssert (mosi : List Bool)
  /-- COMMAND_TRANSACTION (R153): code byte 01h is complete and the host clocks in what follows it. -/
  | commandTransaction (mosi : List Bool)
  /-- CUT (R154): SSEL is negated after a COMMAND code byte and before the record is taken. -/
  | cut
  /-- ANSWER_TRANSACTION (R156): code byte 02h is complete and the host clocks out what follows it. -/
  | answerTransaction (mosi : List Bool)
  /-- PEEK (R157): code byte 03h is complete. -/
  | peek
  /-- UNKNOWN_COMMAND (R160): the command processor takes a record whose kind is none of the eleven. -/
  | unknownCommand
  /-- CONFIGURE (R116) is taken from the head of the command queue, as the ten rows after it are. -/
  | configure
  /-- START (R117). -/
  | start
  /-- STOP (R121). -/
  | stop
  /-- ABANDON (R123). -/
  | abandon
  /-- ACQUIRE (R162). -/
  | acquire
  /-- RELEASE (R163). -/
  | release
  /-- RENEW (R164). -/
  | renew
  /-- ARRIVE (R165). -/
  | arrive
  /-- STATUS (R166). -/
  | status
  /-- QUERY_LOCK (R167). -/
  | queryLock
  /-- QUERY_MEMBERS (R168). -/
  | queryMembers
  /-- OWN_SLOT_START (R95): the start of the own slot is handed on. -/
  | ownSlotStart
  /-- ECHO_JUDGED (R88), with what LRX showed of the own frame beyond what the echo comparator holds already: `early`, a start
  bit was accepted in the own slot before bit time 16; `samples`, the levels at the middles of the bit times up to the last
  stop bit sent that it has not sampled; `after`, a start bit was accepted in the four bit times after (log 9). -/
  | echoJudged (early : Bool) (samples : List Bool) (after : Bool)
  /-- RECEPTION_ENDED (R83): the line has stood at 1 for four bit times; `chars` are the characters of the reception that do
  not stand in the receive buffer yet. -/
  | receptionEnded (chars : List RxChar)
  /-- RECEPTION_TIME_LIMIT (R83). -/
  | receptionTimeLimit
  /-- SYNC_LOST (R102). -/
  | syncLost
  /-- SILENCE_WINDOW_END (R96). -/
  | silenceWindowEnd
  /-- SLOT_END (R95). -/
  | slotEnd
  /-- HELD_SLOT_END (R97). -/
  | heldSlotEnd
  /-- ABSENCE_REMOVAL (R49). -/
  | absenceRemoval
  /-- ORPHAN_FOUNDED (R140). -/
  | orphanFounded
  /-- LEAVING_COUNT_EXPIRY (R122). -/
  | leavingCountExpiry
  /-- LEASE_EXPIRY (R18). -/
  | leaseExpiry
  /-- WAIT_LIMIT_EXPIRY (R63). -/
  | waitLimitExpiry
  /-- FOUNDED (R107). -/
  | founded
  /-- SSEL_NEGATED (R151): SSEL is negated. -/
  | sselNegated
  /-- RECEPTION_BEGINS (R83, R79): LRX changes from 1 to 0 and stands at 0 for `low` bit times. With `low` 0 it is back at 1
  by the middle of the bit time, where the candidate start bit is sampled. -/
  | receptionBegins (low : Nat)
  /-- LTXE_ASSERTED (R80). -/
  | ltxeAsserted
  /-- TRANSMISSION_END (R80). -/
  | transmissionEnd
  deriving DecidableEq, Repr

end Sys2Proof
end

