-- ==== Sys2Proof/Decode.lean ====
section
/-! DEFINITION. The word decoder asked for by the host. No row of spec/opcode_table.json gives bits (its "fields" are
empty and no row has a match or a mask), so no word spells a command (log 21). -/

namespace Sys2Proof

/-- The command that the `nbits` bits of `w` spell by the table's bits: none, since the table gives no row any bits. -/
def decodeTableWord (_nbits _w : Nat) : Option Instr := none

end Sys2Proof
end

