-- ==== Sys2Proof/Machine/Sets.lean ====
section
/-! DEFINITION. Tables indexed by a number, and sets of stations and chunks laid out as bits (R177). -/

namespace Sys2Proof.Machine

/-- The table that holds `f i` at each number `i`. -/
def tabulate {α : Type} {n : Nat} (f : Fin n → α) : Vector α n :=
  ⟨((List.finRange n).map f).toArray, by simp⟩

/-- All lock numbers, ascending. -/
def allLocks : List LockNo := List.finRange 64

/-- All barrier numbers, ascending. -/
def allBarriers : List BarrierNo := List.finRange 8

/-- All station numbers, ascending. -/
def allStations : List StationNo := List.finRange 16

/-- The set that names the numbers `i` with `p i`. -/
def setOf {n : Nat} (p : Fin n → Bool) : BitVec n :=
  (List.finRange n).foldl (fun acc i => if p i then acc ||| BitVec.twoPow n i.val else acc) 0

/-- `i` is named in the set. -/
def inSet {n : Nat} (i : Fin n) (set : BitVec n) : Bool := set.getLsbD i.val

/-- The set with `i` added. -/
def setAdd {n : Nat} (i : Fin n) (set : BitVec n) : BitVec n := set ||| BitVec.twoPow n i.val

/-- The set with `i` taken out. -/
def setRemove {n : Nat} (i : Fin n) (set : BitVec n) : BitVec n := set &&& ~~~ BitVec.twoPow n i.val

/-- Every number of the first set is named in the second. -/
def subset {n : Nat} (a b : BitVec n) : Bool := a &&& ~~~ b == 0

/-- All nine chunks. -/
def allChunks : ChunkSet := 0x1FF#9

/-- The lock chunk that covers a lock: chunk k covers locks 8(k-1) to 8k-1 (R128). -/
def chunkOfLock (lock : LockNo) : ChunkNo := ⟨lock.val / 8 + 1, by have := lock.isLt; omega⟩

/-- The lowest-numbered chunk of a set, if the set is not empty (R132). -/
def lowestChunk (set : ChunkSet) : Option ChunkNo := (List.finRange 9).find? fun k => inSet k set

end Sys2Proof.Machine
end

