-- ==== Sys2Proof/Machine/State.lean ====
section
/-! DEFINITION. The state of the block as plain data: every piece of state the spec names, by functional block
(spec/00_scope.md Table 1-1), the records it is made of, and the state after a hard reset. -/

namespace Sys2Proof.Machine

/-- A command of the LX-16 stops the machine in no case: the spec gives every step an effect. So no fault exists; the
type is empty (safe). -/
inductive Fault where
  deriving DecidableEq, Repr

/-- Why a step can be refused. -/
inductive Refusal where
  /-- Raised by exec's arm for a command that has no meaning yet, and by nothing else (safe). -/
  | notModelled (mnemonic : String)
  deriving DecidableEq, Repr

/-! ## Station controller -/

/-- The seven station states (R111). -/
inductive StationState where
  | unconfigured
  | ready
  | listening
  | founding
  | joining
  | synced
  | leaving
  deriving DecidableEq, Repr

/-- The configuration record (Table 7-1). -/
structure StationConfig where
  /-- station number s -/
  number : StationNo
  /-- round size N -/
  roundSize : Nat
  /-- slot length in bit times -/
  slotLength : Nat
  /-- divisor: station clock cycles a bit time -/
  divisor : Nat
  /-- absence limit M -/
  absenceLimit : Nat
  /-- lease period P -/
  leasePeriod : Nat
  /-- event mask, bits as in R178 -/
  eventMask : BitVec 4
  deriving DecidableEq, Repr

/-- The cause a STATE event carries (Table 7-4). -/
inductive StateCause where
  | configured
  | started
  | timingAcquired
  | founded
  | numberInUse
  | stopped
  | foundingComplete
  | foundingAbandoned
  | caughtUp
  | orphanFounded
  | diverged
  | stopping
  | left
  | syncLost
  | evicted
  | abandoned
  deriving DecidableEq, Repr

/-! ## The replica -/

/-- A waiter record (Table 1-6). -/
structure Waiter where
  station : StationNo
  leased : Bool
  deriving DecidableEq, Repr

/-- A lock entry: FREE, or HELD with its holder, its lease and its waiter queue, oldest first. The lease is `some level`
exactly when the leased field is yes (R1, R2). -/
inductive LockEntry where
  | free
  | held (holder : StationNo) (lease : Option (BitVec 3)) (waiters : List Waiter)
  deriving DecidableEq, Repr

/-- A barrier entry (Table 2-1). -/
structure BarrierEntry where
  generation : BitVec 8
  arrived : StationSet
  deriving DecidableEq, Repr

/-- A member record (Table 3-1); its station number is its place in State.members. -/
structure Member where
  joining : Bool
  absence : Nat
  deriving DecidableEq, Repr

/-- Why a member was removed (Table 3-4). -/
inductive LeaveCause where
  | absent
  | leave
  | rejoin
  deriving DecidableEq, Repr

/-! ## Request table and outbox -/

/-- The states of a request (Table 4-2). -/
inductive RequestState where
  | pending
  | waiting
  | held
  | releasing
  | expiring
  deriving DecidableEq, Repr

/-- A request (Table 4-1); its lock is its place in State.requests. -/
structure Request where
  tag : Byte
  leased : Bool
  /-- wait remaining, absent when there is no limit -/
  wait : Option Nat
  state : RequestState
  deriving DecidableEq, Repr

/-- A barrier record (Table 4-7): PENDING, or ARRIVED when `arrived`; its barrier is its place. -/
structure BarrierRecord where
  tag : Byte
  arrived : Bool
  deriving DecidableEq, Repr

/-- The kinds of intent (Table 4-8). -/
inductive IntentKind where
  | acquire (lock : LockNo)
  | release (lock : LockNo)
  | renew (lock : LockNo)
  | arrive (barrier : BarrierNo)
  | leave
  deriving DecidableEq, Repr

/-- The trailing RELEASE of an intent (R72). -/
inductive Trailing where
  /-- the intent carries none -/
  | none
  /-- it carries one whose item is not in the present frame -/
  | queued
  /-- it carries one whose item is in the present frame -/
  | inFrame
  deriving DecidableEq, Repr

/-- An entry of the outbox. -/
structure Intent where
  kind : IntentKind
  inFlight : Bool
  trailing : Trailing
  deriving DecidableEq, Repr

/-! ## Frames and the line interface -/

/-- An item of a frame (Table 5-2). -/
inductive Item where
  | acquire (lock : LockNo) (leased : Bool)
  | release (lock : LockNo)
  | renew (lock : LockNo)
  | arrive (barrier : BarrierNo)
  | leave
  deriving DecidableEq, Repr

/-- The chunk part of a frame. -/
structure ChunkPart where
  number : ChunkNo
  body : List Byte
  deriving DecidableEq, Repr

/-- A frame by its parts (Table 5-2): a flag DIGEST, WANT or CHUNK is set exactly when its part is present. -/
structure Frame where
  station : StationNo
  join : Bool
  round : Word16
  digest : Option Word16
  want : Option ChunkSet
  chunk : Option ChunkPart
  items : List Item
  deriving DecidableEq, Repr

/-- A reception in progress (R83, R84, R96). -/
structure Reception where
  /-- the slot and round it belongs to; absent when it began without timing -/
  place : Option (StationNo × Word16)
  /-- a late reception: its first start bit came after the silence window -/
  late : Bool
  /-- it is judged and handed on when it ends; a later reception of the same slot is dropped (R84) -/
  counts : Bool
  /-- bit times since its first start bit was accepted -/
  age : Nat
  /-- the samples of the character in progress, its start bit's first; absent between two characters (R79) -/
  samples : Option (List Bool)
  /-- a start bit was accepted after the expected length was reached, or with 95 bytes held: overlong or too long, and
  further characters are not stored (R83) -/
  excess : Bool
  deriving DecidableEq, Repr

/-- The echo comparator while the own frame goes out (R87). -/
structure EchoComparator where
  frame : Frame
  /-- a start bit was accepted on LRX in the own slot before bit time 16 -/
  early : Bool
  /-- the samples of LRX so far, one at the middle of each bit time from the first start bit sent on -/
  samples : List Bool
  /-- a start bit was accepted in the four bit times after the last stop bit -/
  after : Bool
  deriving DecidableEq, Repr

/-! ## Slot timer -/

/-- What is remembered of the slot's usable frame until the slot ends (R49, R139). -/
structure UsableFrame where
  /-- it was the own echo -/
  own : Bool
  /-- it carried the JOIN flag -/
  join : Bool
  /-- it carried a LEAVE item -/
  leave : Bool
  deriving DecidableEq, Repr

/-- The timing record while the status is TENTATIVE or CONFIRMED (Table 6-1), with what the timer remembers of the
current slot. -/
structure Timing where
  confirmed : Bool
  slot : StationNo
  round : Word16
  phase : Nat
  /-- a start bit was accepted within the silence window (R96) -/
  windowHeard : Bool
  /-- the slot is silent (R96) -/
  silent : Bool
  /-- the slot's reception has begun (R84) -/
  begun : Bool
  /-- a start bit was accepted in the slot, of its own reception or of one that began before it (R87) -/
  startBit : Bool
  /-- the well-formed, in-place frame received in the slot (R49) -/
  usable : Option UsableFrame
  /-- the own echo of the slot was judged corrupt (R122) -/
  echoCorrupt : Bool
  /-- the slot end is held (R97) -/
  held : Bool
  /-- the own slot has begun and its start is not yet handed on (R95) -/
  ownStartDue : Bool
  deriving DecidableEq, Repr

/-! ## Host port, command queue, answer queue -/

/-- The phase of the transaction in progress (R151). -/
inductive PortPhase where
  | idle
  /-- SSEL was asserted when a hard reset ended; its negation is awaited -/
  | awaitNegation
  /-- receiving the code byte; `room`: the command queue had room at the assertion (R155) -/
  | code (room : Bool)
  /-- COMMAND, the record's bytes so far -/
  | collecting (bytes : List Byte)
  /-- COMMAND, the header's count lay above 15 (R153) -/
  | badCount
  /-- COMMAND, the record has been taken -/
  | taken
  /-- COMMAND, the queue was full at the assertion (R155) -/
  | full
  /-- ANSWER, the bytes not yet clocked out, the one going out first; `removes`: they are those of the head record -/
  | answering (rest : List Byte) (removes : Bool)
  | peeking
  /-- a complete code byte that is none of the three codes -/
  | ignored
  deriving DecidableEq, Repr

/-- A command record: kind, tag and parameter bytes (section 10.3); the count is the number of parameter bytes. -/
structure CommandRecord where
  kind : Byte
  tag : Byte
  params : List Byte
  deriving DecidableEq, Repr

/-- Why a command is refused (Table 10-5). -/
inductive RefusalReason where
  | unknownCommand
  | shortRecord
  | badState
  | badConfig
  | badLock
  | badBarrier
  | busy
  | tableFull
  | notHolder
  | notLeased
  deriving DecidableEq, Repr

/-- The fourteen event kinds of Table 11-2 in its order, and OVERRUN, which the notice set can also name. -/
inductive EventKind where
  | granted
  | queued
  | released
  | cancelled
  | timedOut
  | leaseLost
  | queueRefused
  | lost
  | barrierDone
  | memberJoined
  | memberSynced
  | memberLeft
  | digestMismatch
  | state
  | overrun
  deriving DecidableEq, Repr

/-- The subject of a LOST event. -/
inductive LostSubject where
  | lock (lock : LockNo)
  | barrier (barrier : BarrierNo)
  deriving DecidableEq, Repr

/-- An event (Table 11-2). -/
inductive Event where
  | granted (tag : Byte) (lock : LockNo)
  | queued (tag : Byte) (lock : LockNo) (position : Nat)
  | released (tag : Byte) (lock : LockNo)
  | cancelled (tag : Byte) (lock : LockNo)
  | timedOut (tag : Byte) (lock : LockNo)
  | leaseLost (tag : Byte) (lock : LockNo)
  | queueRefused (tag : Byte) (lock : LockNo)
  | lost (tag : Byte) (subject : LostSubject)
  | barrierDone (tag : Byte) (barrier : BarrierNo) (generation : BitVec 8)
  | memberJoined (station : StationNo)
  | memberSynced (station : StationNo)
  | memberLeft (station : StationNo) (cause : LeaveCause)
  | digestMismatch (sender : StationNo)
  | state (state : StationState) (cause : StateCause)
  deriving DecidableEq, Repr

/-- The forms of a LOCK_INFO reply (Table 10-7). -/
inductive LockForm where
  | unknown
  | known (entry : LockEntry)
  deriving DecidableEq, Repr

/-- The contents of a STATUS reply (Table 10-6). -/
structure StatusContent where
  state : StationState
  round : Word16
  present : Nat
  requests : Nat
  intents : Nat
  installed : ChunkSet
  notices : BitVec 15
  deriving DecidableEq, Repr

/-- An answer record: a reply (Table 11-1), an event, or an overrun marker with its count (R174). -/
inductive Answer where
  | accepted (tag : Byte) (kind : Byte)
  | refused (tag : Byte) (kind : Byte) (reason : RefusalReason)
  | status (tag : Byte) (content : StatusContent)
  | lockInfo (tag : Byte) (lock : LockNo) (form : LockForm)
  | members (tag : Byte) (held : Bool) (list : List (StationNo × Member))
  | event (event : Event)
  | overrun (count : Nat)
  deriving DecidableEq, Repr

/-! ## Work in progress -/

/-- What a slot end, or a judged frame, still has to do (log 4). The items marked as a step of the opcode table wait for
that step; the others are done as soon as they are reached. -/
inductive Work where
  /-- the absence accounting of the slot that ends (R49) -/
  | accounting
  /-- the step ABSENCE_REMOVAL of the station (R49) -/
  | absenceRemoval (station : StationNo)
  /-- the orphan count and the JOIN-heard record (R139) -/
  | orphanUpdate
  /-- the step ORPHAN_FOUNDED (R140) -/
  | orphanAction
  /-- the leaving count (R122) -/
  | leavingUpdate
  /-- the step LEAVING_COUNT_EXPIRY (R122) -/
  | leavingExpiry
  /-- the lease tick, from the given lock on (R17) -/
  | leaseTick (start : Nat)
  /-- the step LEASE_EXPIRY at the lock (R18) -/
  | leaseExpiry (lock : LockNo)
  /-- the wait countdown, from the given lock on (R63) -/
  | waitCountdown (start : Nat)
  /-- the step WAIT_LIMIT_EXPIRY at the lock (R63) -/
  | waitExpiry (lock : LockNo)
  /-- the next slot begins (R95, R98) -/
  | nextSlot
  /-- the step SYNC_LOST, with the frame that brought the count to 2 and the bit times since its start bit (R102) -/
  | syncLost (frame : Frame) (age : Nat)
  deriving DecidableEq, Repr

/-! ## The state -/

/-- The whole station, and the queue of commands that wait. -/
structure State where
  /-- station state (R111) -/
  station : StationState
  /-- configuration record (R111) -/
  config : Option StationConfig
  /-- leaving count (R122) -/
  leavingCount : Nat
  /-- LEAVING was entered from JOINING (R121) -/
  leavingFromJoining : Bool
  /-- the founding slot's own start has not been handed on yet (R107, R108) -/
  foundingOpen : Bool
  /-- lock table (R1) -/
  locks : Vector LockEntry 64
  /-- barrier table (R27) -/
  barriers : Vector BarrierEntry 8
  /-- membership record: the present set (R39) -/
  members : Vector (Option Member) 16
  /-- requests by lock (R56) -/
  requests : Vector (Option Request) 64
  /-- barrier records by barrier (R56) -/
  barrierRecords : Vector (Option BarrierRecord) 8
  /-- outbox, oldest first (R72) -/
  outbox : List Intent
  /-- transmit buffer (R78) -/
  txBuffer : List Byte
  /-- receive buffer (R78) -/
  rxBuffer : List RxChar
  /-- reception in progress (R83) -/
  reception : Option Reception
  /-- echo comparator (R87) -/
  echo : Option EchoComparator
  /-- the LTXE output, true when asserted (R80) -/
  ltxe : Bool
  /-- the level of the LTX output (R80) -/
  ltx : Bool
  /-- bit times at 1 that LRX must have stood before the receiver accepts a start bit: 1 after a framing error (R79), 4
  after the time limit (R83), otherwise 0 -/
  lineWait : Nat
  /-- bit times for which LRX has stood at 1 up to now, counted up to 4 (R79, R83) -/
  lineHigh : Nat
  /-- bit times for which the LRX input still stands at 0; at 0 it stands at 1 -/
  lrxLow : Nat
  /-- timing record; absent when the status is NONE (R94) -/
  timing : Option Timing
  /-- silence timer (R103) -/
  silence : Nat
  /-- disagreement count (R101) -/
  disagreement : Nat
  /-- installed set (R129) -/
  installed : ChunkSet
  /-- wanted set (R129) -/
  wanted : ChunkSet
  /-- gathered union (R131) -/
  gathered : ChunkSet
  /-- orphan count (R139) -/
  orphanCount : Nat
  /-- JOIN-heard record (R139) -/
  joinHeard : StationSet
  /-- match count (R145) -/
  matchCount : Nat
  /-- mismatch count (R145) -/
  mismatchCount : Nat
  /-- phase of the transaction in progress (R151) -/
  port : PortPhase
  /-- cut indication (R154) -/
  cut : Bool
  /-- the SSEL input, true when asserted -/
  ssel : Bool
  /-- bits of the byte coming in on MOSI, most significant first, fewer than eight (R151) -/
  shiftIn : List Bool
  /-- bits of the byte going out that are not yet sampled, the first of them driven on MISO now (R151) -/
  shiftOut : List Bool
  /-- levels of MISO at the rising edges of SCLK in the transaction, oldest first (R151) -/
  miso : List Bool
  /-- command queue, oldest first (R158) -/
  commands : List CommandRecord
  /-- answer queue, oldest first (R169) -/
  answers : List Answer
  /-- event mask in force (R172) -/
  eventMask : BitVec 4
  /-- notice set (R175) -/
  notices : BitVec 15
  /-- what the present slot end or frame still has to do (log 4) -/
  work : List Work
  /-- counter for the free choices of Config -/
  freeIndex : Nat
  /-- the commands that wait, first in, first out -/
  pending : List Instr
  deriving DecidableEq, Repr

/-- The machine after a hard reset: each block's reset values (R4, R28, R40, R69, R73, R78, R94, R111, R129, R145, R151,
R158, R169, R172, R175). -/
def State.reset : State where
  station := .unconfigured
  config := none
  leavingCount := 0
  leavingFromJoining := false
  foundingOpen := false
  locks := Vector.replicate 64 .free
  barriers := Vector.replicate 8 ⟨0, 0⟩
  members := Vector.replicate 16 none
  requests := Vector.replicate 64 none
  barrierRecords := Vector.replicate 8 none
  outbox := []
  txBuffer := []
  rxBuffer := []
  reception := none
  echo := none
  ltxe := false
  ltx := true
  lineWait := 0
  lineHigh := 0
  lrxLow := 0
  timing := none
  silence := 0
  disagreement := 0
  installed := 0
  wanted := 0
  gathered := 0
  orphanCount := 0
  joinHeard := 0
  matchCount := 1
  mismatchCount := 0
  port := .idle
  cut := false
  ssel := false
  shiftIn := []
  shiftOut := []
  miso := []
  commands := []
  answers := []
  eventMask := 0xF#4
  notices := 0
  work := []
  freeIndex := 0
  pending := []

end Sys2Proof.Machine
end

