-- ==== Sys2Proof/Machine/Formats.lean ====
section
/-! DEFINITION. The byte layouts of chapter 12: code tables, answer records, the port status byte, frames, chunk bodies,
the check and the digest's CRC, and the characters of the peer line. -/

namespace Sys2Proof.Machine

/-! ## Numbers and sets as bytes (R177) -/

/-- A number as one byte. -/
def byteOf (n : Nat) : Byte := BitVec.ofNat 8 n

/-- A flag in bit 7 of a byte. -/
def bit7 (b : Bool) : Byte := if b then 0x80#8 else 0#8

/-- The less significant byte of a two-byte field. -/
def lowByte (w : Word16) : Byte := w.setWidth 8

/-- The more significant byte of a two-byte field. -/
def highByte (w : Word16) : Byte := (w >>> 8).setWidth 8

/-- The two-byte field with the given more and less significant bytes. -/
def wordOf (high low : Byte) : Word16 := high ++ low

/-- Two bytes, least significant first (R177). -/
def lsbFirst (w : Word16) : List Byte := [lowByte w, highByte w]

/-- Two bytes, most significant first: the digest and the check (R177). -/
def msbFirst (w : Word16) : List Byte := [highByte w, lowByte w]

/-- A set of chunks in two bytes, bits 9 to 15 held at 0 (R177). -/
def chunkSetBytes (set : ChunkSet) : List Byte := lsbFirst (set.setWidth 16)

/-! ## Bits on the host port (R151) -/

/-- The bits of a byte, most significant first. -/
def msbBits (b : Byte) : List Bool := (List.range 8).map b.getMsbD

/-- The byte whose bits came in most significant first. -/
def byteOfBits (bits : List Bool) : Byte := bits.foldl (fun b bit => b.shiftConcat bit) 0

/-! ## CRC-16 (R82, R142) -/

/-- One bit time of the CRC register with generator x^16 + x^12 + x^5 + 1. -/
def crcShift (c : Word16) : Word16 := if c.msb then (c <<< 1) ^^^ 0x1021#16 else c <<< 1

/-- The CRC register after `n` shifts. -/
def crcShifts : Nat → Word16 → Word16
  | 0, c => c
  | n + 1, c => crcShifts n (crcShift c)

/-- The CRC register after a byte, entered most significant bit first. -/
def crcByte (c : Word16) (b : Byte) : Word16 := crcShifts 8 (c ^^^ (b.setWidth 16 <<< 8))

/-- The CRC-16 of a sequence of bytes: initial value FFFFh, no inversion (R82). -/
def crc16 (bytes : List Byte) : Word16 := bytes.foldl crcByte 0xFFFF#16

/-! ## Characters on the line (R79) -/

/-- The ten bits of a character: start bit 0, eight data bits, least significant first, stop bit 1. -/
def charBits (b : Byte) : List Bool := false :: ((List.range 8).map b.getLsbD ++ [true])

/-- The bits of a frame's characters, back to back. -/
def lineBits (bytes : List Byte) : List Bool := bytes.flatMap charBits

/-- The byte of a received character. -/
def rxData (c : RxChar) : Byte := c.setWidth 8

/-- The character that the ten samples of a character spell, the start bit's sample left out (R79). -/
def charOfSamples (samples : List Bool) : RxChar := setOf fun i : Fin 9 => samples.getD (i.val + 1) false

/-- The stop bit was sampled at 0. -/
def rxFramingError (c : RxChar) : Bool := !c.getLsbD 8

/-! ## Code tables -/

/-- Table 12-2. -/
def stateCode : StationState → Nat
  | .unconfigured => 0
  | .ready => 1
  | .listening => 2
  | .founding => 3
  | .joining => 4
  | .synced => 5
  | .leaving => 6

/-- Table 12-6, refusal reasons. -/
def reasonCode : RefusalReason → Nat
  | .unknownCommand => 0x01
  | .shortRecord => 0x02
  | .badState => 0x03
  | .badConfig => 0x04
  | .badLock => 0x05
  | .badBarrier => 0x06
  | .busy => 0x07
  | .tableFull => 0x08
  | .notHolder => 0x09
  | .notLeased => 0x0A

/-- Table 12-6, STATE causes. -/
def stateCauseCode : StateCause → Nat
  | .configured => 0x01
  | .started => 0x02
  | .timingAcquired => 0x03
  | .founded => 0x04
  | .numberInUse => 0x05
  | .stopped => 0x06
  | .foundingComplete => 0x07
  | .foundingAbandoned => 0x08
  | .caughtUp => 0x09
  | .orphanFounded => 0x0A
  | .diverged => 0x0B
  | .stopping => 0x0C
  | .left => 0x0D
  | .syncLost => 0x0E
  | .evicted => 0x0F
  | .abandoned => 0x10

/-- Table 12-6, MEMBER_LEFT causes. -/
def leaveCauseCode : LeaveCause → Nat
  | .absent => 0x01
  | .leave => 0x02
  | .rejoin => 0x03

/-- The bit of an event kind in the notice set (R179). -/
def noticeBit : EventKind → Fin 15
  | .granted => 0
  | .queued => 1
  | .released => 2
  | .cancelled => 3
  | .timedOut => 4
  | .leaseLost => 5
  | .queueRefused => 6
  | .lost => 7
  | .barrierDone => 8
  | .memberJoined => 9
  | .memberSynced => 10
  | .memberLeft => 11
  | .digestMismatch => 12
  | .state => 13
  | .overrun => 14

/-- The kind of an event (Table 11-2). -/
def kindOf : Event → EventKind
  | .granted .. => .granted
  | .queued .. => .queued
  | .released .. => .released
  | .cancelled .. => .cancelled
  | .timedOut .. => .timedOut
  | .leaseLost .. => .leaseLost
  | .queueRefused .. => .queueRefused
  | .lost .. => .lost
  | .barrierDone .. => .barrierDone
  | .memberJoined .. => .memberJoined
  | .memberSynced .. => .memberSynced
  | .memberLeft .. => .memberLeft
  | .digestMismatch .. => .digestMismatch
  | .state .. => .state

/-- The bit of a maskable kind in the event mask (R178); none for the kinds that cannot be masked (R172). -/
def maskBit : EventKind → Option (Fin 4)
  | .memberJoined => some 0
  | .memberSynced => some 1
  | .memberLeft => some 2
  | .digestMismatch => some 3
  | .granted | .queued | .released | .cancelled | .timedOut | .leaseLost | .queueRefused | .lost | .barrierDone
  | .state | .overrun => none

/-! ## Host port records -/

/-- The port status byte (Table 12-1). -/
def portStatusByte (state : StationState) (waiting full cut : Bool) : Byte :=
  byteOf (stateCode state + 16 * waiting.toNat + 32 * full.toNat + 64 * cut.toNat)

/-- The lease byte (R179): leased flag in bit 7 with the level in bits 0 to 2, 00h when unleased. -/
def leaseByte : Option (BitVec 3) → Byte
  | none => 0
  | some level => 0x80#8 ||| level.setWidth 8

/-- A waiter byte (R179): station in bits 0 to 3, leased flag in bit 7. -/
def waiterByte (w : Waiter) : Byte := byteOf w.station.val ||| bit7 w.leased

/-- A member byte of a MEMBERS reply (R179). -/
def memberByte (m : StationNo × Member) : Byte :=
  byteOf (m.1.val + 16 * m.2.joining.toNat) ||| (byteOf m.2.absence <<< 5)

/-- The form part of a LOCK_INFO reply (R179). -/
def lockFormBytes : LockForm → List Byte
  | .unknown => [0x00#8]
  | .known .free => [0x01#8]
  | .known (.held holder lease waiters) =>
      [0x02#8, byteOf holder.val, leaseByte lease, byteOf waiters.length] ++ waiters.map waiterByte

/-- An answer record from its kind byte and its fields, with the length byte between (R179). -/
def answerRecord (kind : Nat) (fields : List Byte) : List Byte :=
  byteOf kind :: byteOf (fields.length + 2) :: fields

/-- An event record (Tables 12-4 and 12-5). -/
def eventBytes : Event → List Byte
  | .granted tag lock => answerRecord 0x10 [tag, byteOf lock.val]
  | .queued tag lock position => answerRecord 0x11 [tag, byteOf lock.val, byteOf position]
  | .released tag lock => answerRecord 0x12 [tag, byteOf lock.val]
  | .cancelled tag lock => answerRecord 0x13 [tag, byteOf lock.val]
  | .timedOut tag lock => answerRecord 0x14 [tag, byteOf lock.val]
  | .leaseLost tag lock => answerRecord 0x15 [tag, byteOf lock.val]
  | .queueRefused tag lock => answerRecord 0x16 [tag, byteOf lock.val]
  | .lost tag (.lock lock) => answerRecord 0x17 [tag, 0x00#8, byteOf lock.val]
  | .lost tag (.barrier barrier) => answerRecord 0x17 [tag, 0x01#8, byteOf barrier.val]
  | .barrierDone tag barrier generation => answerRecord 0x18 [tag, byteOf barrier.val, generation]
  | .memberJoined station => answerRecord 0x20 [byteOf station.val]
  | .memberSynced station => answerRecord 0x21 [byteOf station.val]
  | .memberLeft station cause => answerRecord 0x22 [byteOf station.val, byteOf (leaveCauseCode cause)]
  | .digestMismatch sender => answerRecord 0x23 [byteOf sender.val]
  | .state state cause => answerRecord 0x28 [byteOf (stateCode state), byteOf (stateCauseCode cause)]

/-- An answer record as the bytes an ANSWER transaction shifts out (Tables 12-4 and 12-5). -/
def answerBytes : Answer → List Byte
  | .accepted tag kind => answerRecord 0x01 [tag, kind]
  | .refused tag kind reason => answerRecord 0x02 [tag, kind, byteOf (reasonCode reason)]
  | .status tag c => answerRecord 0x03
      ([tag, byteOf (stateCode c.state)] ++ lsbFirst c.round
        ++ [byteOf c.present, byteOf c.requests, byteOf c.intents]
        ++ chunkSetBytes c.installed ++ lsbFirst (c.notices.setWidth 16))
  | .lockInfo tag lock form => answerRecord 0x04 ([tag, byteOf lock.val] ++ lockFormBytes form)
  | .members tag held list => answerRecord 0x05
      ([tag, if held then 0x01#8 else 0x00#8, byteOf list.length] ++ list.map memberByte)
  | .event event => eventBytes event
  | .overrun count => answerRecord 0x2F [byteOf count]

/-! ## Lock entries and chunk bodies (Tables 12-9 and 12-10) -/

/-- `n` bytes of 00h. -/
def zeroBytes (n : Nat) : List Byte := List.replicate n 0

/-- The nine bytes of a lock entry (Table 12-10). -/
def lockEntryBytes : LockEntry → List Byte
  | .free => zeroBytes 9
  | .held holder lease waiters =>
      [0x80#8 ||| byteOf holder.val, leaseByte lease, byteOf waiters.length]
        ++ (waiters.map waiterByte ++ zeroBytes (6 - waiters.length))

/-- A station number from the low four bits of a byte. -/
def stationOf (b : Byte) : StationNo := (b.setWidth 4).toFin

/-- Bits 4 to 6 of a byte are zero. -/
def midBitsZero (b : Byte) : Bool := b &&& 0x70#8 == 0

/-- A lease byte read back: 00h, or 80h plus a level from 1 to 7 (R180). -/
def readLease (b : Byte) : Option (Option (BitVec 3)) :=
  if b == 0 then some none
  else if b &&& 0xF8#8 == 0x80#8 && b.setWidth 3 != 0#3 then some (some (b.setWidth 3))
  else none

/-- A waiter byte read back; bits 4 to 6 must be zero (R180). -/
def readWaiter (b : Byte) : Option Waiter := if midBitsZero b then some ⟨stationOf b, b.getLsbD 7⟩ else none

/-- Waiter bytes read back, all of them or none. -/
def readWaiters : List Byte → Option (List Waiter)
  | [] => some []
  | b :: rest =>
    match readWaiter b, readWaiters rest with
    | some w, some ws => some (w :: ws)
    | _, _ => none

/-- The laws of a lock entry that R1, R2 and R3 give: level 1 to 7 when leased, at most 6 waiter records, no station
named twice, the holder not named. -/
def lockEntryLaw : LockEntry → Bool
  | .free => true
  | .held holder lease waiters =>
      lease != some 0#3 && decide (waiters.length ≤ 6) && decide ((waiters.map Waiter.station).Nodup)
        && !(waiters.map Waiter.station).contains holder

/-- A lock entry read from its nine bytes, checked as R180 and R23 state. -/
def readLockEntry : List Byte → Option LockEntry
  | b0 :: b1 :: b2 :: places =>
    if b0 == 0 then
      if b1 == 0 && b2 == 0 && places == zeroBytes 6 then some .free else none
    else if b0.getLsbD 7 && midBitsZero b0 && decide (b2.toNat ≤ 6) && decide (places.length = 6)
        && places.drop b2.toNat == zeroBytes (6 - b2.toNat) then
      match readLease b1, readWaiters (places.take b2.toNat) with
      | some lease, some waiters =>
        let entry := LockEntry.held (stationOf b0) lease waiters
        if lockEntryLaw entry then some entry else none
      | _, _ => none
    else none
  | _ => none

/-- `n` lock entries read from nine bytes each. -/
def readLockEntries : Nat → List Byte → Option (List LockEntry)
  | 0, [] => some []
  | 0, _ :: _ => none
  | n + 1, bytes =>
    match readLockEntry (bytes.take 9), readLockEntries n (bytes.drop 9) with
    | some e, some es => some (e :: es)
    | _, _ => none

/-- The locks of lock chunk `k`, lowest first (R128). -/
def locksOfChunk (k : ChunkNo) : List LockNo := allLocks.filter fun L => chunkOfLock L == k

/-- The body of lock chunk `k` (Table 12-10). -/
def lockChunkBody (locks : Vector LockEntry 64) (k : ChunkNo) : List Byte :=
  (locksOfChunk k).flatMap fun L => lockEntryBytes locks[L]

/-- The present set as a set of stations. -/
def presentOf (members : Vector (Option Member) 16) : StationSet := setOf fun r => members[r].isSome

/-- The present members that carry the joining mark. -/
def markedOf (members : Vector (Option Member) 16) : StationSet :=
  setOf fun r => (members[r].map Member.joining).getD false

/-- The present members without the joining mark. -/
def unmarkedOf (members : Vector (Option Member) 16) : StationSet :=
  setOf fun r => (members[r].map (fun m => !m.joining)).getD false

/-- The absence count of a station, 0 when it is not present. -/
def absenceOf (members : Vector (Option Member) 16) (r : StationNo) : Nat := (members[r].map Member.absence).getD 0

/-- Bytes 4 to 11 of chunk 0: station 2k in bits 0 to 3 and station 2k+1 in bits 4 to 7 of byte 4+k. -/
def absenceBytes (members : Vector (Option Member) 16) : List Byte :=
  (List.finRange 8).map fun k =>
    byteOf (absenceOf members ⟨2 * k.val, by omega⟩ + 16 * absenceOf members ⟨2 * k.val + 1, by omega⟩)

/-- A barrier entry's three bytes (Table 12-9). -/
def barrierBytes (b : BarrierEntry) : List Byte := b.generation :: lsbFirst b.arrived

/-- The membership part of the encoding: present set and joining marks. -/
def membershipBytes (members : Vector (Option Member) 16) : List Byte :=
  lsbFirst (presentOf members) ++ lsbFirst (markedOf members)

/-- The barrier part of the encoding: barriers 0 to 7. -/
def barrierTableBytes (barriers : Vector BarrierEntry 8) : List Byte :=
  allBarriers.flatMap fun b => barrierBytes barriers[b]

/-- The body of chunk 0 (Table 12-9). -/
def chunk0Body (members : Vector (Option Member) 16) (barriers : Vector BarrierEntry 8) : List Byte :=
  membershipBytes members ++ absenceBytes members ++ barrierTableBytes barriers

/-- What a chunk 0 body carries. -/
structure Chunk0 where
  present : StationSet
  marks : StationSet
  counts : Vector Nat 16
  barriers : Vector BarrierEntry 8

/-- Two bytes, least significant first, read at a place of a body. -/
def wordAt (body : List Byte) (i : Nat) : Word16 := wordOf (body.getD (i + 1) 0) (body.getD i 0)

/-- A chunk 0 body read back; it has 36 bytes. -/
def readChunk0 (body : List Byte) : Option Chunk0 :=
  if body.length = 36 then
    some {
      present := wordAt body 0
      marks := wordAt body 2
      counts := tabulate fun r =>
        let byte := (body.getD (4 + r.val / 2) 0).toNat
        if r.val % 2 = 0 then byte % 16 else byte / 16
      barriers := tabulate fun b => ⟨body.getD (12 + 3 * b.val) 0, wordAt body (13 + 3 * b.val)⟩ }
  else none

/-- The canonical encoding of a replica (R143): chunk 0 without its absence counts, then the lock chunks. -/
def canonicalEncoding (members : Vector (Option Member) 16) (barriers : Vector BarrierEntry 8)
    (locks : Vector LockEntry 64) : List Byte :=
  membershipBytes members ++ barrierTableBytes barriers
    ++ allLocks.flatMap fun L => lockEntryBytes locks[L]

/-! ## Frames (Tables 12-7 and 12-8) -/

/-- An item's two bytes (Table 12-8). -/
def itemBytes : Item → List Byte
  | .acquire lock leased => [0x01#8 ||| bit7 leased, byteOf lock.val]
  | .release lock => [0x02#8, byteOf lock.val]
  | .renew lock => [0x03#8, byteOf lock.val]
  | .arrive barrier => [0x04#8, byteOf barrier.val]
  | .leave => [0x05#8, 0x00#8]

/-- A lock number from an operand byte, 0 to 63. -/
def readLock (b : Byte) : Option LockNo := if h : b.toNat < 64 then some ⟨b.toNat, h⟩ else none

/-- A barrier number from an operand byte, 0 to 7. -/
def readBarrier (b : Byte) : Option BarrierNo := if h : b.toNat < 8 then some ⟨b.toNat, h⟩ else none

/-- An item read from its kind and operand bytes; none when a code is unknown or a number out of range (R180). -/
def readItem (kind operand : Byte) : Option Item :=
  if kind == 0x01#8 then (readLock operand).map (.acquire · false)
  else if kind == 0x81#8 then (readLock operand).map (.acquire · true)
  else if kind == 0x02#8 then (readLock operand).map .release
  else if kind == 0x03#8 then (readLock operand).map .renew
  else if kind == 0x04#8 then (readBarrier operand).map .arrive
  else if kind == 0x05#8 && operand == 0 then some .leave
  else none

/-- Items read from two bytes each, all of them or none. -/
def readItems : List Byte → Option (List Item)
  | [] => some []
  | [_] => none
  | kind :: operand :: rest =>
    match readItem kind operand, readItems rest with
    | some i, some is => some (i :: is)
    | _, _ => none

/-- Byte 0 of the header. -/
def headerByte (f : Frame) : Byte :=
  byteOf (f.station.val + 16 * f.join.toNat + 32 * f.digest.isSome.toNat + 64 * f.want.isSome.toNat
    + 128 * f.chunk.isSome.toNat)

/-- A frame's bytes before its check (Table 12-7). -/
def frameContent (f : Frame) : List Byte :=
  headerByte f :: lsbFirst f.round ++ [byteOf f.items.length]
    ++ (match f.digest with | none => [] | some d => msbFirst d)
    ++ (match f.want with | none => [] | some w => chunkSetBytes w)
    ++ (match f.chunk with | none => [] | some c => byteOf c.number.val :: c.body)
    ++ f.items.flatMap itemBytes

/-- A frame's bytes as they travel, the check last (R82). -/
def frameBytes (f : Frame) : List Byte := frameContent f ++ msbFirst (crc16 (frameContent f))

/-- The length of a chunk part by its chunk number: 1 + 36 or 1 + 72 (Table 5-2). -/
def chunkPartLength (number : Nat) : Nat := if number = 0 then 37 else 73

/-- The length of the digest and wanted-set parts by the header byte. -/
def optionalLength (header : Byte) : Nat := 2 * (header.getLsbD 5).toNat + 2 * (header.getLsbD 6).toNat

/-- The expected length of a frame, formed from the bytes received so far (section 5.4, R83): none while the header or
the chunk number is missing, or when the count exceeds 6 or the chunk number exceeds 8. -/
def expectedLength : List Byte → Option Nat
  | b0 :: _ :: _ :: count :: rest =>
    if count.toNat > 6 then none
    else if b0.getLsbD 7 then
      match rest[optionalLength b0]? with
      | none => none
      | some k =>
        if k.toNat > 8 then none
        else some (4 + optionalLength b0 + chunkPartLength k.toNat + 2 * count.toNat + 2)
    else some (4 + optionalLength b0 + 2 * count.toNat + 2)
  | _ => none

/-- The first two bytes of a list as a field sent most significant byte first. -/
def headMsb : List Byte → Word16
  | a :: b :: _ => wordOf a b
  | _ => 0

/-- The first two bytes of a list as a field sent least significant byte first. -/
def headLsb : List Byte → Word16
  | a :: b :: _ => wordOf b a
  | _ => 0

/-- The parts of a frame read from `bytes`, which have the expected length: the conditions of R85 on codes and numbers
(5, 6, 7), on LEAVE (8) and on JOIN (9). -/
def readParts : List Byte → Option Frame
  | b0 :: r0 :: r1 :: count :: rest =>
    let afterDigest := if b0.getLsbD 5 then rest.drop 2 else rest
    let afterWant := if b0.getLsbD 6 then afterDigest.drop 2 else afterDigest
    let want := headLsb afterDigest
    let number := (afterWant.headD 0).toNat
    let body := (afterWant.drop 1).take (chunkPartLength number - 1)
    let afterChunk := if b0.getLsbD 7 then afterWant.drop (chunkPartLength number) else afterWant
    if b0.getLsbD 6 && want &&& 0xFE00#16 != 0 then none
    else if b0.getLsbD 7 && decide (number > 8) then none
    else
      match readItems (afterChunk.take (2 * count.toNat)) with
      | none => none
      | some items =>
        if items.contains .leave && decide (items.length ≠ 1) then none
        else if b0.getLsbD 4 && items.any (· != .leave) then none
        else some {
          station := stationOf b0
          join := b0.getLsbD 4
          round := wordOf r1 r0
          digest := if b0.getLsbD 5 then some (headMsb rest) else none
          want := if b0.getLsbD 6 then some (want.setWidth 9) else none
          chunk := if b0.getLsbD 7 then some ⟨Fin.ofNat 9 number, body⟩ else none
          items := items }
  | _ => none

/-- The check is good (R82): the last two bytes carry the CRC of the bytes before them. -/
def checkGood (bytes : List Byte) : Bool :=
  decide (2 ≤ bytes.length) && msbFirst (crc16 (bytes.take (bytes.length - 2))) == bytes.drop (bytes.length - 2)

end Sys2Proof.Machine
end

