-- ==== Sys2Proof/Machine/Operands.lean ====
section
/-! DEFINITION. What the operands of the commands say: the parameters of a command record (R178), how a reception ends
(R83) and the well-formed test (R85). -/

namespace Sys2Proof.Machine

/-! ## Command records (R178, Table 12-3) -/

/-- The eleven command kinds (Table 10-4). -/
inductive CommandKind where
  | configure
  | start
  | stop
  | abandon
  | acquire
  | release
  | renew
  | arrive
  | status
  | queryLock
  | queryMembers
  deriving DecidableEq, Repr

/-- The code of a command kind (Table 12-3). -/
def kindByte : CommandKind → Byte
  | .configure => 0x10
  | .start => 0x11
  | .stop => 0x12
  | .abandon => 0x13
  | .acquire => 0x20
  | .release => 0x21
  | .renew => 0x22
  | .arrive => 0x23
  | .status => 0x30
  | .queryLock => 0x31
  | .queryMembers => 0x32

/-- All command kinds. -/
def allKinds : List CommandKind :=
  [.configure, .start, .stop, .abandon, .acquire, .release, .renew, .arrive, .status, .queryLock, .queryMembers]

/-- The kind a kind byte names, if it is one of the eleven. -/
def readKind (b : Byte) : Option CommandKind := allKinds.find? fun k => kindByte k == b

/-- The count needed (Table 12-3). -/
def countNeeded : CommandKind → Nat
  | .configure => 9
  | .acquire => 3
  | .release | .renew | .arrive | .queryLock => 1
  | .start | .stop | .abandon | .status | .queryMembers => 0

/-- Table 7-3 (R113): the kinds that act in each station state. -/
def actsIn (kind : CommandKind) (state : StationState) : Bool :=
  match kind, state with
  | .configure, .unconfigured => true
  | .configure, _ => false
  | .start, .ready => true
  | .start, _ => false
  | .stop, .listening | .stop, .founding | .stop, .joining | .stop, .synced => true
  | .stop, _ => false
  | .abandon, .listening | .abandon, .founding | .abandon, .joining | .abandon, .synced | .abandon, .leaving => true
  | .abandon, _ => false
  | .acquire, .joining | .acquire, .synced => true
  | .acquire, _ => false
  | .release, .joining | .release, .synced => true
  | .release, _ => false
  | .arrive, .joining | .arrive, .synced => true
  | .arrive, _ => false
  | .renew, .synced => true
  | .renew, _ => false
  | .status, _ => true
  | .queryLock, .unconfigured => false
  | .queryLock, _ => true
  | .queryMembers, .unconfigured => false
  | .queryMembers, _ => true

/-- Parameter byte `i` of a record. -/
def param (r : CommandRecord) (i : Nat) : Byte := r.params.getD i 0

/-- The two-byte number whose less significant byte is parameter `i` (R177). -/
def paramWord (r : CommandRecord) (i : Nat) : Nat := (param r i).toNat + 256 * (param r (i + 1)).toNat

/-- The configuration a CONFIGURE record carries, when every value lies in its range of Table 7-1 and the event mask
names maskable kinds only (R116, R161, R178). -/
def readConfig (r : CommandRecord) : Option StationConfig :=
  let number := (param r 0).toNat
  let roundSize := (param r 1).toNat
  let slotLength := paramWord r 2
  let divisor := paramWord r 4
  let absenceLimit := (param r 6).toNat
  let leasePeriod := (param r 7).toNat
  let mask := param r 8
  if decide (number < 16) && decide (2 ≤ roundSize) && decide (roundSize ≤ 16) && decide (number < roundSize)
      && decide (1000 ≤ slotLength) && decide (slotLength ≤ 8191)
      && decide (4 ≤ divisor) && decide (divisor ≤ 4095)
      && decide (2 ≤ absenceLimit) && decide (absenceLimit ≤ 8)
      && [1, 2, 4, 8].contains leasePeriod && mask &&& 0xF0#8 == 0 then
    some {
      number := Fin.ofNat 16 number
      roundSize := roundSize
      slotLength := slotLength
      divisor := divisor
      absenceLimit := absenceLimit
      leasePeriod := leasePeriod
      eventMask := mask.setWidth 4 }
  else none

/-! ## Receptions (R83, R85) -/

/-- How a reception ends, apart from the time limit (R83). -/
inductive ReceptionEnd where
  | complete
  | overlong
  | short
  | tooLong
  deriving DecidableEq, Repr

/-- Capacity of the receive buffer: the largest frame (R78). -/
def receiveCapacity : Nat := 95

/-- How a reception of these characters ends once the line has stood at 1 for four bit times after the last (R83). -/
def receptionEnd (chars : List RxChar) : ReceptionEnd :=
  if chars.length > receiveCapacity then .tooLong
  else
    match expectedLength (chars.map rxData) with
    | none => .short
    | some n => if chars.length < n then .short else if chars.length = n then .complete else .overlong

/-- The frame of a reception that passes the well-formed test (R85); none when the reception is corrupt (R86). -/
def wellFormedFrame (chars : List RxChar) : Option Frame :=
  if receptionEnd chars = .complete ∧ chars.any rxFramingError = false ∧ checkGood (chars.map rxData) = true then
    readParts (chars.map rxData)
  else none

end Sys2Proof.Machine
end

