-- ==== Sys2Proof/Machine/Flags.lean ====
section
/-! DEFINITION. What is read off the state: the configuration in force, ATTN and the port status, what the replica holds,
who is admissible, the moments of the slot timer, and which step of the part is due. -/

namespace Sys2Proof.Machine

/-! ## Configuration -/

/-- Stands where no configuration record is present; no path that reads it runs in UNCONFIGURED (log 24). -/
def noConfig : StationConfig :=
  { number := 0, roundSize := 0, slotLength := 0, divisor := 0, absenceLimit := 0, leasePeriod := 0, eventMask := 0 }

/-- The configuration in force. -/
def State.cfg (s : State) : StationConfig := s.config.getD noConfig

/-- The station's own number s. -/
def State.own (s : State) : StationNo := s.cfg.number

/-! ## Pins and port status -/

/-- The ATTN output (R176): asserted exactly while the answer queue holds a record. -/
def State.attn (s : State) : Bool := !s.answers.isEmpty

/-- The command queue holds 8 records (R158). -/
def commandQueueFull (s : State) : Bool := decide (8 ≤ s.commands.length)

/-- The port status as it is captured (R152). -/
def portStatus (s : State) : Byte := portStatusByte s.station s.attn (commandQueueFull s) s.cut

/-! ## The replica -/

/-- The station transmits, and holds a replica, complete or partial (R112). -/
def participates (s : State) : Bool :=
  match s.station with
  | .founding | .joining | .synced | .leaving => true
  | .unconfigured | .ready | .listening => false

/-- The chunk is installed. -/
def chunkInstalled (s : State) (k : ChunkNo) : Bool := inSet k s.installed

/-- The entry of the lock is in place: its chunk is installed (R6, R16, R25). -/
def lockInPlace (s : State) (lock : LockNo) : Bool := chunkInstalled s (chunkOfLock lock)

/-- The station holds membership: chunk 0 is in place (R40, R168). -/
def membershipHeld (s : State) : Bool := chunkInstalled s 0

/-- The present members without the joining mark: the required set of the completion test (R31). -/
def requiredSet (s : State) : StationSet := unmarkedOf s.members

/-- The station is a present member. -/
def isPresent (s : State) (r : StationNo) : Bool := (s.members[r]).isSome

/-- The station is a present member without the joining mark. -/
def isUnmarked (s : State) (r : StationNo) : Bool := inSet r (requiredSet s)

/-- R41: the sender is admissible for the item. -/
def admissible (s : State) (sender : StationNo) (item : Item) : Bool :=
  match item with
  | .leave => isPresent s sender
  | .acquire .. | .release _ | .renew _ | .arrive _ => isUnmarked s sender

/-- The digest of the station's replica as it stands (R142). In a partial replica the parts not installed stand at their
discard values, so that the encoding is the one R143 gives. -/
def replicaDigest (s : State) : Word16 := crc16 (canonicalEncoding s.members s.barriers s.locks)

/-- R130: the station is donor at this own slot start. -/
def isDonor (s : State) : Bool :=
  (s.station = .founding || s.station = .synced) && isUnmarked s s.own
    && allStations.all fun r => !(decide (r < s.own) && isUnmarked s r)

/-! ## Request table counts -/

/-- The number of requests (R56). -/
def requestCount (s : State) : Nat := (allLocks.filter fun L => (s.requests[L]).isSome).length

/-- The number of present members (R55). -/
def presentCount (s : State) : Nat := (allStations.filter fun r => isPresent s r).length

/-- The member records in ascending station number (R55). -/
def memberList (s : State) : List (StationNo × Member) :=
  allStations.filterMap fun r => (s.members[r]).map fun m => (r, m)

/-! ## Moments of the slot timer -/

/-- Bit times from the slot start to the assertion of LTXE (R80). -/
def ltxeLead : Nat := 12

/-- Bit times from the slot start to the first start bit (R80). -/
def frameLead : Nat := 16

/-- Last phase of the silence window (R96). -/
def silenceWindow : Nat := 64

/-- Time limit of a reception (R83). -/
def receptionLimit : Nat := 1000

/-- Bit times for which the line must stand at 1 to end a reception, and after the time limit (R83). -/
def idleBits : Nat := 4

/-- The round counter: 0 when the timing status is NONE (R94, R110). -/
def roundCounter (s : State) : Word16 := (s.timing.map Timing.round).getD 0

/-- The silence window of founding in bit times: 2N + s + 1 slot lengths (R103). -/
def foundingWindow (s : State) : Nat := (2 * s.cfg.roundSize + s.own.val + 1) * s.cfg.slotLength

/-- Length in bytes of the frame the echo comparator watches. -/
def echoLength (e : EchoComparator) : Nat := (frameBytes e.frame).length

/-- The bit time of the own slot at which the last stop bit of the own frame ends (R80). -/
def frameEnd (e : EchoComparator) : Nat := frameLead + 10 * echoLength e

/-- The slot's reception is still in progress and its first start bit lay within the silence window, so that the slot
end is held (R97). -/
def holdsSlotEnd (s : State) (t : Timing) : Bool :=
  match s.reception with
  | some rx => rx.counts && !rx.late && rx.place == some (t.slot, t.round)
  | none => false

/-- R99: the frame is in place for the reception it came in. -/
def inPlace (rx : Reception) (f : Frame) : Bool := !rx.late && rx.place == some (f.station, f.round)

/-! ## Which step is due -/

/-- The record at the head of the command queue may be taken (R159): the answer queue holds 30 records or fewer and no
slot end or frame is in progress (R92). -/
def mayTake (s : State) : Bool := decide (s.answers.length ≤ 30) && s.work.isEmpty

/-- OWN_SLOT_START is due. -/
def ownSlotStartDue (s : State) : Bool :=
  s.work.isEmpty && participates s && (s.timing.map Timing.ownStartDue).getD false

/-- LTXE_ASSERTED is due (R80). -/
def ltxeDue (s : State) : Bool :=
  match s.echo, s.timing with
  | some e, some t => !s.ltxe && decide (ltxeLead ≤ t.phase) && decide (t.phase < frameEnd e + 2)
  | _, _ => false

/-- TRANSMISSION_END is due (R80). -/
def transmissionEndDue (s : State) : Bool :=
  match s.echo, s.timing with
  | some e, some t => s.ltxe && decide (frameEnd e + 2 ≤ t.phase)
  | _, _ => false

/-- ECHO_JUDGED is due (R87). -/
def echoDue (s : State) : Bool :=
  match s.echo, s.timing with
  | some e, some t => s.work.isEmpty && !s.ltxe && decide (frameEnd e + idleBits ≤ t.phase)
  | _, _ => false

/-- RECEPTION_TIME_LIMIT is due (R83). -/
def timeLimitDue (s : State) : Bool :=
  match s.reception with
  | some rx => s.work.isEmpty && decide (receptionLimit ≤ rx.age)
  | none => false

/-- RECEPTION_ENDED is due: between two characters the line has stood at 1 for four bit times (R83). -/
def receptionEndDue (s : State) : Bool :=
  match s.reception with
  | some rx => s.work.isEmpty && rx.samples.isNone && decide (idleBits ≤ s.lineHigh)
  | none => false

/-- SILENCE_WINDOW_END is due (R96). -/
def silenceWindowEndDue (s : State) : Bool :=
  match s.timing with
  | some t => !t.windowHeard && !t.silent && decide (silenceWindow < t.phase)
  | none => false

/-- SLOT_END is due (R95). -/
def slotEndDue (s : State) : Bool :=
  match s.timing with
  | some t => s.work.isEmpty && !t.held && !ownSlotStartDue s && decide (s.cfg.slotLength ≤ t.phase)
  | none => false

/-- HELD_SLOT_END is due (R97). -/
def heldSlotEndDue (s : State) : Bool :=
  match s.timing with
  | some t => s.work.isEmpty && t.held && !holdsSlotEnd s t && decide (s.cfg.slotLength ≤ t.phase)
  | none => false

/-- FOUNDED is due (R103, R107). -/
def foundedDue (s : State) : Bool :=
  s.work.isEmpty && s.station == .listening && decide (foundingWindow s ≤ s.silence)

end Sys2Proof.Machine
end

