-- ==== Sys2Proof/Machine/AnswerQueue.lean ====
section
/-! DEFINITION. The answer queue (chapter 11): placing a reply, placing an event, the overrun marker and the notice set. -/

namespace Sys2Proof.Machine

/-- Highest count of an overrun marker (R174). -/
def markerLimit : Nat := 255

/-- The last record of the queue with an overrun marker's count raised by 1, up to 255; a queue whose last record is no
marker gains a marker with count 1 (Table 11-3, rows 31 and 32). -/
def countEvent : List Answer → List Answer
  | [] => [.overrun 1]
  | [.overrun n] => [.overrun (min (n + 1) markerLimit)]
  | [a] => [a, .overrun 1]
  | a :: b :: rest => a :: countEvent (b :: rest)

/-- The kind is masked: maskable, and not named by the mask in force (R172). -/
def isMasked (mask : BitVec 4) (kind : EventKind) : Bool :=
  match maskBit kind with
  | some i => !inSet i mask
  | none => false

/-- The notice set with a kind added (R175). -/
def addNotice (kind : EventKind) (notices : BitVec 15) : BitVec 15 := setAdd (noticeBit kind) notices

/-- R173: place an event. -/
def placeEvent (e : Event) (s : State) : State :=
  let noticed := addNotice (kindOf e) s.notices
  if isMasked s.eventMask (kindOf e) then { s with notices := noticed }
  else if s.answers.length ≤ 30 then { s with notices := noticed, answers := s.answers ++ [.event e] }
  else { s with notices := addNotice .overrun noticed, answers := countEvent s.answers }

/-- R170: place a reply at the tail. -/
def placeReply (a : Answer) (s : State) : State := { s with answers := s.answers ++ [a] }

/-- R175, R166: empty the notice set. -/
def emptyNotices (s : State) : State := { s with notices := 0 }

/-- R156: remove the head record. -/
def removeAnswer (s : State) : State := { s with answers := s.answers.tail }

end Sys2Proof.Machine
end

