-- ==== Sys2Proof/Machine/RequestTable.lean ====
section
/-! DEFINITION. The request table and the outbox (chapter 4): adding and ending records, the reports of the lock and
barrier tables, host RELEASE and RENEW, the wait limit, and the intents. -/

namespace Sys2Proof.Machine

/-! ## Records -/

/-- Put a request, or none, at a lock. -/
def setRequest (lock : LockNo) (r : Option Request) (s : State) : State :=
  { s with requests := s.requests.set lock r }

/-- Put a barrier record, or none, at a barrier. -/
def setBarrierRecord (barrier : BarrierNo) (r : Option BarrierRecord) (s : State) : State :=
  { s with barrierRecords := s.barrierRecords.set barrier r }

/-- A request with another state. -/
def Request.withState (r : Request) (state : RequestState) : Request := { r with state := state }

/-! ## Intents -/

/-- The intent refers to the request for the lock. -/
def Intent.refersToLock (i : Intent) (lock : LockNo) : Bool :=
  match i.kind with
  | .acquire L | .release L | .renew L => L == lock
  | .arrive _ | .leave => false

/-- The intent refers to the barrier record. -/
def Intent.refersToBarrier (i : Intent) (barrier : BarrierNo) : Bool :=
  match i.kind with
  | .arrive b => b == barrier
  | .acquire _ | .release _ | .renew _ | .leave => false

/-- A new intent, queued, without a trailing RELEASE. -/
def newIntent (kind : IntentKind) : Intent := { kind := kind, inFlight := false, trailing := .none }

/-- An intent joins the outbox at the tail (R72). -/
def queueIntent (kind : IntentKind) (s : State) : State := { s with outbox := s.outbox ++ [newIntent kind] }

/-- Every intent of the request for the lock leaves the outbox; the others keep their order (R58, R72). -/
def dropLockIntents (lock : LockNo) (s : State) : State :=
  { s with outbox := s.outbox.filter fun i => !i.refersToLock lock }

/-- Every intent of the barrier record leaves the outbox (R58, R71). -/
def dropBarrierIntents (barrier : BarrierNo) (s : State) : State :=
  { s with outbox := s.outbox.filter fun i => !i.refersToBarrier barrier }

/-- The intent of the request for the lock, if it has one (R72: at most one). -/
def lockIntent (s : State) (lock : LockNo) : Option Intent := s.outbox.find? fun i => i.refersToLock lock

/-- Change the intent of the request for the lock where it stands. -/
def mapLockIntent (lock : LockNo) (f : Intent → Intent) (s : State) : State :=
  { s with outbox := s.outbox.map fun i => if i.refersToLock lock then f i else i }

/-- R73: the outbox is emptied, queued and in-flight intents alike. -/
def emptyOutbox (s : State) : State := { s with outbox := [] }

/-! ## Ending a record (R58) -/

/-- A request ends with the given event: the event is placed, the request and any intent of it leave. -/
def endRequest (lock : LockNo) (e : Event) (s : State) : State :=
  dropLockIntents lock (setRequest lock none (placeEvent e s))

/-- A barrier record ends with the given event. -/
def endBarrierRecord (barrier : BarrierNo) (e : Event) (s : State) : State :=
  dropBarrierIntents barrier (setBarrierRecord barrier none (placeEvent e s))

/-! ## Reports of the lock table (R59 to R62, R67) -/

/-- An outcome of the own ACQUIRE as it is handed to the request table (R9). -/
inductive AcquireReport where
  | granted
  | queued (position : Nat)
  | queueFull
  deriving DecidableEq, Repr

/-- R59: the own ACQUIRE was applied. -/
def reportAcquire (lock : LockNo) (outcome : AcquireReport) (s : State) : State :=
  match s.requests[lock] with
  | none => s
  | some r =>
    match r.state, outcome with
    | .pending, .granted => placeEvent (.granted r.tag lock) (setRequest lock (some (r.withState .held)) s)
    | .pending, .queued p => placeEvent (.queued r.tag lock p) (setRequest lock (some (r.withState .waiting)) s)
    | .pending, .queueFull | .releasing, .queueFull => endRequest lock (.queueRefused r.tag lock) s
    | .releasing, _ | .waiting, _ | .held, _ | .expiring, _ => s

/-- R60: the own RELEASE was applied. -/
def reportRelease (lock : LockNo) (s : State) : State :=
  match s.requests[lock] with
  | none => s
  | some r =>
    match r.state with
    | .releasing => endRequest lock (.released r.tag lock) s
    | .expiring => endRequest lock (.timedOut r.tag lock) s
    | .pending | .waiting | .held => s

/-- R61: the lock passed to the own station. -/
def reportPass (lock : LockNo) (s : State) : State :=
  match s.requests[lock] with
  | none => s
  | some r =>
    match r.state with
    | .waiting => placeEvent (.granted r.tag lock) (setRequest lock (some (r.withState .held)) s)
    | .pending | .held | .releasing | .expiring => s

/-- R62: the own lease expired. -/
def reportExpiry (lock : LockNo) (s : State) : State :=
  match s.requests[lock] with
  | none => s
  | some r =>
    match r.state with
    | .held | .releasing => endRequest lock (.leaseLost r.tag lock) s
    | .expiring => endRequest lock (.timedOut r.tag lock) s
    | .pending | .waiting => s

/-! ## Reports of the barrier table (R71) -/

/-- The own ARRIVE was applied: a PENDING record becomes ARRIVED. -/
def reportArrive (barrier : BarrierNo) (s : State) : State :=
  match s.barrierRecords[barrier] with
  | none => s
  | some r => setBarrierRecord barrier (some { r with arrived := true }) s

/-- The barrier completed with the own number arrived: an ARRIVED record ends with BARRIER_DONE. -/
def reportCompletion (barrier : BarrierNo) (generation : BitVec 8) (s : State) : State :=
  match s.barrierRecords[barrier] with
  | none => s
  | some r => if r.arrived then endBarrierRecord barrier (.barrierDone r.tag barrier generation) s else s

/-! ## Loss (R68) -/

/-- The request for the lock, if any, ends with LOST. -/
def loseRequest (lock : LockNo) (s : State) : State :=
  match s.requests[lock] with
  | none => s
  | some r => setRequest lock none (placeEvent (.lost r.tag (.lock lock)) s)

/-- The barrier record, if any, ends with LOST. -/
def loseBarrierRecord (barrier : BarrierNo) (s : State) : State :=
  match s.barrierRecords[barrier] with
  | none => s
  | some r => setBarrierRecord barrier none (placeEvent (.lost r.tag (.barrier barrier)) s)

/-- R68: every request in ascending lock order, then every barrier record in ascending order, ends LOST, and the outbox
is emptied. -/
def loseRecords (s : State) : State :=
  emptyOutbox (allBarriers.foldl (fun s b => loseBarrierRecord b s) (allLocks.foldl (fun s L => loseRequest L s) s))

/-! ## Host commands on records (R57, R65, R66, R70) -/

/-- The wait remaining a wait limit gives: absent when it is 0 (R57). -/
def waitRemaining (limit : Nat) : Option Nat := if limit = 0 then none else some limit

/-- R57: a request is added in PENDING, and its ACQUIRE intent is queued. -/
def addRequest (lock : LockNo) (tag : Byte) (leased : Bool) (limit : Nat) (s : State) : State :=
  queueIntent (.acquire lock)
    (setRequest lock (some { tag := tag, leased := leased, wait := waitRemaining limit, state := .pending }) s)

/-- R70: a barrier record is added in PENDING, and its ARRIVE intent is queued. -/
def addBarrierRecord (barrier : BarrierNo) (tag : Byte) (s : State) : State :=
  queueIntent (.arrive barrier) (setBarrierRecord barrier (some { tag := tag, arrived := false }) s)

/-- An intent in flight is given a trailing RELEASE that is not in the present frame (R65, R72). -/
def giveTrailing (i : Intent) : Intent := { i with trailing := .queued }

/-- R65: a host RELEASE of the request for the lock (Table 4-6). -/
def hostRelease (lock : LockNo) (s : State) : State :=
  match s.requests[lock] with
  | none => s
  | some r =>
    let releasing := setRequest lock (some (r.withState .releasing)) s
    match r.state with
    | .pending =>
      if (lockIntent s lock).any Intent.inFlight then mapLockIntent lock giveTrailing releasing
      else endRequest lock (.cancelled r.tag lock) s
    | .waiting => queueIntent (.release lock) releasing
    | .held =>
      match lockIntent s lock with
      | none => queueIntent (.release lock) releasing
      | some i =>
        if i.inFlight then mapLockIntent lock giveTrailing releasing
        else mapLockIntent lock (fun _ => newIntent (.release lock)) releasing
    | .releasing | .expiring => s

/-- R66: a host RENEW: an intent already present is merged with, otherwise a RENEW intent is queued. -/
def hostRenew (lock : LockNo) (s : State) : State :=
  match lockIntent s lock with
  | some _ => s
  | none => queueIntent (.renew lock) s

/-! ## Wait countdown (R63) -/

/-- The request's wait runs: PENDING or WAITING with a wait remaining. -/
def Request.counts (r : Request) : Bool :=
  (r.state == .pending || r.state == .waiting) && r.wait.isSome

/-- Visit the locks in order: lower the wait remaining of each request that counts, and stop at the first whose wait
would reach 0, naming it (R63). -/
def countWaits : List LockNo → State → State × Option LockNo
  | [], s => (s, none)
  | L :: rest, s =>
    match s.requests[L] with
    | none => countWaits rest s
    | some r =>
      if r.counts then
        match r.wait with
        | none => countWaits rest s
        | some w =>
          if w ≤ 1 then (s, some L)
          else countWaits rest (setRequest L (some { r with wait := some (w - 1) }) s)
      else countWaits rest s

/-- R63: the wait remaining of the request for the lock reaches 0. The count is spent: an EXPIRING request has none. -/
def expireWait (lock : LockNo) (s : State) : State :=
  match s.requests[lock] with
  | none => s
  | some r =>
    match r.state with
    | .pending => endRequest lock (.timedOut r.tag lock) s
    | .waiting =>
      queueIntent (.release lock) (setRequest lock (some { r with wait := none, state := .expiring }) s)
    | .held | .releasing | .expiring => s

/-! ## Items at the own slot start (R74) -/

/-- The request for the lock is HELD. -/
def requestHeld (s : State) (lock : LockNo) : Bool := (s.requests[lock]).any fun r => r.state == .held

/-- The leased flag of the request for the lock. -/
def requestLeased (s : State) (lock : LockNo) : Bool := (s.requests[lock]).any Request.leased

/-- A RENEW intent with a trailing RELEASE whose request is no longer HELD is taken as a plain RELEASE intent (R74). -/
def Intent.asTaken (i : Intent) (s : State) : Intent :=
  match i.kind with
  | .renew L => if i.trailing != .none && !requestHeld s L then { i with kind := .release L, trailing := .none } else i
  | .acquire _ | .release _ | .arrive _ | .leave => i

/-- The items an intent produces: its own, and the RELEASE of a trailing RELEASE (R72, R74). -/
def Intent.items (i : Intent) (s : State) : List Item :=
  match i.kind with
  | .acquire L => .acquire L (requestLeased s L) :: (if i.trailing == .none then [] else [.release L])
  | .release L => [.release L]
  | .renew L => (if requestHeld s L then [.renew L] else []) ++ (if i.trailing == .none then [] else [.release L])
  | .arrive b => [.arrive b]
  | .leave => [.leave]

/-- The intent as it stands in flight: a trailing RELEASE it carries is in the frame. -/
def Intent.taken (i : Intent) : Intent :=
  { i with inFlight := true, trailing := if i.trailing == .none then .none else .inFrame }

/-- Take intents from the head while their items fit into `room` places: the outbox with the taken ones in flight, and
the items (R74). -/
def takeIntents (s : State) : List Intent → Nat → List Intent × List Item
  | [], _ => ([], [])
  | i :: rest, room =>
    let j := i.asTaken s
    let items := j.items s
    if items.length ≤ room then
      let more := takeIntents s rest (room - items.length)
      (j.taken :: more.1, items ++ more.2)
    else (i :: rest, [])

/-- Most items of a frame (Table 5-2). -/
def maxItems : Nat := 6

/-- R74: the outbox supplies the items of the own frame. -/
def supplyItems (s : State) : State × List Item :=
  match s.station with
  | .synced | .leaving =>
    let taken := takeIntents s s.outbox maxItems
    ({ s with outbox := taken.1 }, taken.2)
  | .joining | .founding | .unconfigured | .ready | .listening => (s, [])

/-! ## The echo (R76, R77) -/

/-- R76: what becomes of one intent on a well-formed echo. -/
def settleIntent (i : Intent) : Option Intent :=
  if i.inFlight then
    match i.kind, i.trailing with
    | .acquire L, .queued | .renew L, .queued | .release L, .queued => some (newIntent (.release L))
    | _, _ => none
  else some i

/-- R76: the in-flight intents are settled. -/
def settleOutbox (s : State) : State := { s with outbox := s.outbox.filterMap settleIntent }

/-- R77: what becomes of one intent on a corrupt echo: no longer in flight, a trailing RELEASE still carried. -/
def requeueIntent (i : Intent) : Intent :=
  if i.inFlight then
    { i with inFlight := false, trailing := if i.trailing == .none then .none else .queued }
  else i

/-- R77: the in-flight intents return; they already stand at the head. -/
def requeueOutbox (s : State) : State := { s with outbox := s.outbox.map requeueIntent }

end Sys2Proof.Machine
end

