-- ==== Sys2Proof/Machine/LockTable.lean ====
section
/-! DEFINITION. The lock table (chapter 1): ACQUIRE, the pass, RELEASE, RENEW, the lease tick, removal, and the
installation of a lock chunk. -/

namespace Sys2Proof.Machine

/-- Put an entry at a lock. -/
def setLock (lock : LockNo) (e : LockEntry) (s : State) : State := { s with locks := s.locks.set lock e }

/-! ## One entry -/

/-- The lease of a new holder: level 7 when leased, none when not (R2). -/
def freshLease (leased : Bool) : Option (BitVec 3) := if leased then some 7#3 else none

/-- The station is named in the waiter queue. -/
def isWaiting (waiters : List Waiter) (r : StationNo) : Bool := waiters.any fun w => w.station == r

/-- The position of a station's waiter record, counted from 1 at the head (R3). -/
def positionOf (waiters : List Waiter) (r : StationNo) : Nat := waiters.findIdx (fun w => w.station == r) + 1

/-- The outcomes of an ACQUIRE item (R7, R8). -/
inductive AcquireOutcome where
  | granted
  | alreadyHolder
  | alreadyWaiting (position : Nat)
  | queueFull
  | queued (position : Nat)
  deriving DecidableEq, Repr

/-- Most waiter records of a lock (R3). -/
def maxWaiters : Nat := 6

/-- R7, R8: an ACQUIRE item of station `r` reaches an entry. -/
def acquireEntry (r : StationNo) (leased : Bool) (e : LockEntry) : LockEntry × AcquireOutcome :=
  match e with
  | .free => (.held r (freshLease leased) [], .granted)
  | .held holder lease waiters =>
    if holder = r then (e, .alreadyHolder)
    else if isWaiting waiters r then (e, .alreadyWaiting (positionOf waiters r))
    else if maxWaiters ≤ waiters.length then (e, .queueFull)
    else (.held holder lease (waiters ++ [⟨r, leased⟩]), .queued (waiters.length + 1))

/-- R9: how an outcome of the own ACQUIRE is handed to the request table. -/
def AcquireOutcome.handed : AcquireOutcome → AcquireReport
  | .granted | .alreadyHolder => .granted
  | .alreadyWaiting p | .queued p => .queued p
  | .queueFull => .queueFull

/-- R10: the pass of a held lock, given its waiter queue: the entry it leaves. -/
def passEntry : List Waiter → LockEntry
  | [] => .free
  | w :: rest => .held w.station (freshLease w.leased) rest

/-- The holder an entry names. -/
def holderOf : LockEntry → Option StationNo
  | .free => none
  | .held holder _ _ => some holder

/-- The waiter queue without a station's record; the others keep their order (R13). -/
def withdraw (r : StationNo) (waiters : List Waiter) : List Waiter := waiters.filter fun w => w.station != r

/-- R15: a RENEW item of station `r` reaches an entry. -/
def renewEntry (r : StationNo) (e : LockEntry) : LockEntry :=
  match e with
  | .held holder (some _) waiters => if holder = r then .held holder (some 7#3) waiters else e
  | .held _ none _ | .free => e

/-! ## The table -/

/-- R10, R11: the lock passes from its holder, whose waiter queue is given; the station is told when it becomes holder. -/
def passLock (lock : LockNo) (waiters : List Waiter) (s : State) : State :=
  let e := passEntry waiters
  let s := setLock lock e s
  if holderOf e = some s.own then reportPass lock s else s

/-- R5 to R9: an ACQUIRE item of an admissible sender is applied. -/
def applyAcquire (sender : StationNo) (lock : LockNo) (leased : Bool) (s : State) : State :=
  let result := acquireEntry sender leased s.locks[lock]
  let s := setLock lock result.1 s
  if sender = s.own then reportAcquire lock result.2.handed s else s

/-- R12 to R14: a RELEASE item of an admissible sender is applied. The report of the own RELEASE comes before that of a
pass to the own station; at most one of the two arises (R11). -/
def applyRelease (sender : StationNo) (lock : LockNo) (s : State) : State :=
  let told := fun s : State => if sender = s.own then reportRelease lock s else s
  match s.locks[lock] with
  | .free => told s
  | .held holder lease waiters =>
    if holder = sender then
      let e := passEntry waiters
      let s := told (setLock lock e s)
      if holderOf e = some s.own then reportPass lock s else s
    else told (setLock lock (.held holder lease (withdraw sender waiters)) s)

/-- R15: a RENEW item of an admissible sender is applied. -/
def applyRenew (sender : StationNo) (lock : LockNo) (s : State) : State :=
  setLock lock (renewEntry sender s.locks[lock]) s

/-- R17: the lease tick visits the locks in order, lowering levels, and stops at the first lease that expires, naming its
lock. Entries not in place are passed over (R16). -/
def visitLeases : List LockNo → State → State × Option LockNo
  | [], s => (s, none)
  | L :: rest, s =>
    match s.locks[L] with
    | .held holder (some level) waiters =>
      if lockInPlace s L then
        if level.toNat ≤ 1 then (s, some L)
        else visitLeases rest (setLock L (.held holder (some (level - 1)) waiters) s)
      else visitLeases rest s
    | .held _ none _ | .free => visitLeases rest s

/-- R18: the lease of a held lock expires and the lock passes. -/
def expireLease (lock : LockNo) (s : State) : State :=
  match s.locks[lock] with
  | .free => s
  | .held holder _ waiters =>
    let e := passEntry waiters
    let s := setLock lock e s
    let s := if holder = s.own then reportExpiry lock s else s
    if holderOf e = some s.own then reportPass lock s else s

/-- R19, R20: the removal of station `r` visits one lock. -/
def removeFromLock (r : StationNo) (lock : LockNo) (s : State) : State :=
  if lockInPlace s lock then
    match s.locks[lock] with
    | .free => s
    | .held holder lease waiters =>
      if holder = r then
        if r = s.own then setLock lock (passEntry waiters) s else passLock lock waiters s
      else setLock lock (.held holder lease (withdraw r waiters)) s
  else s

/-- R19: the lock table's part of a removal, in ascending lock number. -/
def removeFromLocks (r : StationNo) (s : State) : State := allLocks.foldl (fun s L => removeFromLock r L s) s

/-! ## Lock chunks (R22, R23, R54) -/

/-- Every holder and waiter an entry names is an unmarked present member (R54). -/
def namesOnly (unmarked : StationSet) : LockEntry → Bool
  | .free => true
  | .held holder _ waiters => inSet holder unmarked && waiters.all fun w => inSet w.station unmarked

/-- The eight entries of a lock chunk body that passes the checks of R23, R180 and R54. -/
def readLockChunk (unmarked : StationSet) (body : List Byte) : Option (List LockEntry) :=
  match readLockEntries 8 body with
  | some entries => if entries.all (namesOnly unmarked) then some entries else none
  | none => none

/-- R22: the eight entries of chunk `k` replace those of its locks. -/
def installLocks (k : ChunkNo) (entries : List LockEntry) (s : State) : State :=
  { s with locks := tabulate fun L =>
      if chunkOfLock L = k then entries.getD (L.val % 8) .free else s.locks[L] }

end Sys2Proof.Machine
end

