-- ==== Sys2Proof/Machine/BarrierTable.lean ====
section
/-! DEFINITION. The barrier table (chapter 2): arrival, the completion test, completion, and removal. -/

namespace Sys2Proof.Machine

/-- Put an entry at a barrier. -/
def setBarrier (barrier : BarrierNo) (e : BarrierEntry) (s : State) : State :=
  { s with barriers := s.barriers.set barrier e }

/-- R31: the completion test: the arrived set is not empty and contains every station of the required set. -/
def completionTest (arrived required : StationSet) : Bool := arrived != 0 && subset required arrived

/-- R32: the barrier completes at its generation g: the station is told when it stands in the arrived set, the set is
emptied and the generation becomes g + 1 modulo 256. -/
def completeBarrier (barrier : BarrierNo) (s : State) : State :=
  let e := s.barriers[barrier]
  let s := if inSet s.own e.arrived then reportCompletion barrier e.generation s else s
  setBarrier barrier { generation := e.generation + 1, arrived := 0 } s

/-- R30, R33: an ARRIVE item of an admissible sender is applied. -/
def applyArrive (sender : StationNo) (barrier : BarrierNo) (s : State) : State :=
  let e := s.barriers[barrier]
  if inSet sender e.arrived then
    if sender = s.own then reportArrive barrier s else s
  else
    let arrived := setAdd sender e.arrived
    let s := setBarrier barrier { e with arrived := arrived } s
    let s := if sender = s.own then reportArrive barrier s else s
    if completionTest arrived (requiredSet s) then completeBarrier barrier s else s

/-- R34: station `r` is taken out of every arrived set. -/
def withdrawArrivals (r : StationNo) (s : State) : State :=
  { s with barriers := tabulate fun b => { s.barriers[b] with arrived := setRemove r s.barriers[b].arrived } }

/-- R34: one barrier is tested during the removal of station `r`. -/
def testDuringRemoval (r : StationNo) (s : State) (barrier : BarrierNo) : State :=
  if completionTest s.barriers[barrier].arrived (setRemove r (requiredSet s)) then completeBarrier barrier s else s

/-- R34: the barrier table's part of the removal of station `r`, in ascending barrier number. -/
def removeFromBarriers (r : StationNo) (s : State) : State :=
  allBarriers.foldl (testDuringRemoval r) (withdrawArrivals r s)

end Sys2Proof.Machine
end

