-- ==== Sys2Proof/Machine/Lifecycle.lean ====
section
/-! DEFINITION. The station controller (chapter 7): the effects of a transition on every block, and the transitions. -/

namespace Sys2Proof.Machine

/-! ## Effects on the blocks -/

/-- The replica takes its discard values (R4, R28, R40). -/
def discardReplica (s : State) : State :=
  { s with
    locks := Vector.replicate 64 .free
    barriers := Vector.replicate 8 ⟨0, 0⟩
    members := Vector.replicate 16 none }

/-- The replica of a group founded with the present set `present`: the own mark clear, the others set, every count 0
(R4, R28, R40). -/
def foundReplica (present : StationSet) (s : State) : State :=
  let s := discardReplica s
  { s with members := tabulate fun r =>
      if inSet r present then some { joining := decide (r ≠ s.own), absence := 0 } else none }

/-- The catch-up unit's items for a transition (R129): orphan count 0, JOIN-heard record and gathered union clear. -/
def setChunks (installed wanted : ChunkSet) (s : State) : State :=
  { s with installed := installed, wanted := wanted, gathered := 0, orphanCount := 0, joinHeard := 0 }

/-- The tally starts again (R145). -/
def resetTally (s : State) : State := { s with matchCount := 1, mismatchCount := 0 }

/-- R89: a transmission is cut, or the transmit buffer emptied when none is in progress (R78): LTXE negated, LTX at 1, the
echo not judged. -/
def cutTransmission (s : State) : State := { s with txBuffer := [], echo := none, ltxe := false, ltx := true }

/-- R78: on entry to READY a reception in progress is dropped unjudged. That a wait of R79 or R83 ends with it, so that the
first start bit of the next LISTENING is accepted at once, while such a wait goes on over an entry to LISTENING, is the
model's choice: the spec says neither (log 30). -/
def dropReception (s : State) : State := { s with reception := none, rxBuffer := [], lineWait := 0 }

/-- A reception in progress goes on over an entry to LISTENING or FOUNDING, which replaces the timing it began under; it
then belongs to no slot and is handed on when it ends (R84; log 15). -/
def keepReception (s : State) : State :=
  { s with reception := s.reception.map fun rx => { rx with place := none, late := false, counts := true } }

/-- R94: the timing is cleared, and the silence timer stands at 0. -/
def clearTiming (s : State) : State := { s with timing := none, silence := 0, disagreement := 0 }

/-- The station state changes, the tally starts again (R145), and the STATE event is placed (R114, R115 step 5). -/
def changeState (state : StationState) (cause : StateCause) (s : State) : State :=
  placeEvent (.state state cause) { resetTally s with station := state }

/-- What is still to do for a slot end or a frame ends with the replica and the timing it was for (R49, R93). -/
def dropWork (s : State) : State := { s with work := [], foundingOpen := false, leavingFromJoining := false }

/-! ## Transitions (Table 7-4) -/

/-- R115: a transition to READY. -/
def enterReady (cause : StateCause) (s : State) : State :=
  let s := loseRecords s
  let s := setChunks 0 0 (discardReplica s)
  let s := clearTiming s
  let s := dropReception (cutTransmission (dropWork s))
  changeState .ready cause { s with leavingCount := 0 }

/-- R115: a transition to LISTENING. -/
def enterListening (cause : StateCause) (s : State) : State :=
  let s := loseRecords s
  let s := setChunks 0 0 (discardReplica s)
  let s := clearTiming s
  let s := keepReception (cutTransmission (dropWork s))
  changeState .listening cause s

/-- R118: LISTENING to JOINING, the timing being confirmed already. -/
def enterJoining (cause : StateCause) (s : State) : State :=
  let s := setChunks 0 allChunks (discardReplica s)
  changeState .joining cause { s with silence := 0, disagreement := 0 }

/-- R107, R118: LISTENING to FOUNDING, at the start of slot s of round 0. -/
def enterFounding (s : State) : State :=
  let s := setChunks allChunks 0 (foundReplica (setAdd s.own 0) s)
  let t : Timing :=
    { confirmed := true, slot := s.own, round := 0, phase := 0, windowHeard := false, silent := false, begun := false,
      startBit := false, usable := none, echoCorrupt := false, held := false, ownStartDue := true }
  let s := keepReception s
  changeState .founding .founded { s with timing := some t, silence := 0, disagreement := 0, foundingOpen := true }

/-- R108, R119: FOUNDING to SYNCED; everything else is kept (R129). -/
def completeFounding (s : State) : State := changeState .synced .foundingComplete s

/-- R120, R136: JOINING to SYNCED with the replica kept. -/
def enterCaughtUp (s : State) : State := changeState .synced .caughtUp (setChunks allChunks 0 s)

/-- R126: SYNCED to JOINING on a DIVERGED verdict. -/
def enterDiverged (s : State) : State :=
  let s := loseRecords s
  let s := setChunks 0 allChunks (discardReplica s)
  changeState .joining .diverged { s with disagreement := 0 }

/-- R121: FOUNDING, JOINING or SYNCED to LEAVING; the replica, the timing and a transmission in progress are kept. -/
def enterLeaving (s : State) : State :=
  let fromJoining := s.station == .joining
  let s := loseRecords s
  let s := queueIntent .leave s
  let s := setChunks s.installed 0 s
  changeState .leaving .stopping
    { s with leavingCount := 0, leavingFromJoining := fromJoining, foundingOpen := false }

/-- R140: the lowest of an orphaned group founds it anew. -/
def enterOrphanFounded (present : StationSet) (s : State) : State :=
  changeState .synced .orphanFounded (setChunks allChunks 0 (foundReplica present s))

/-- R140: a joiner that is not the lowest starts its catch-up again. -/
def restartCatchUp (s : State) : State := setChunks 0 allChunks (discardReplica s)

/-- R116: an accepted configuration. -/
def enterConfigured (c : StationConfig) (s : State) : State :=
  changeState .ready .configured { s with config := some c, eventMask := c.eventMask, leavingCount := 0 }

/-- R52: what the station controller does with a removal of the own number. -/
def ownRemoval (cause : LeaveCause) (s : State) : State :=
  match cause, s.station with
  | .absent, .joining | .absent, .synced | .absent, .founding => enterListening .evicted s
  | .absent, .leaving | .leave, .leaving => enterReady .left s
  | _, _ => s

end Sys2Proof.Machine
end

