-- ==== Sys2Proof/Machine/HostCommands.lean ====
section
/-! DEFINITION. Meanings of the command processor's steps: a record is taken from the head of the command queue, checked
in the order of Table 10-3, answered once, and carried out (R159 to R168, R178). -/

namespace Sys2Proof.Machine

/-- R160: the record is refused. -/
def refuse (r : CommandRecord) (reason : RefusalReason) (s : State) : State :=
  placeReply (.refused r.tag r.kind reason) s

/-- R160: the record is accepted. -/
def accept (r : CommandRecord) (s : State) : State := placeReply (.accepted r.tag r.kind) s

/-- R159: the record leaves the command queue. -/
def dequeue (s : State) : State := { s with commands := s.commands.tail }

/-- R159, R160: the record at the head, when it is of this kind and may be taken, leaves the queue and passes checks 2 and
3; `act` makes the further checks and carries it out. A head of another kind, an empty queue or an answer queue above 30
records leave everything as it is: the step does not arise (log 3). -/
def takeCommand (kind : CommandKind) (act : CommandRecord → State → State) (s : State) : State :=
  match s.commands with
  | [] => s
  | r :: _ =>
    if mayTake s && r.kind == kindByte kind then
      if r.params.length < countNeeded kind then refuse r .shortRecord (dequeue s)
      else if actsIn kind s.station then act r (dequeue s)
      else refuse r .badState (dequeue s)
    else s

/-- Check 4 for a lock parameter (R178). -/
def withLock (r : CommandRecord) (act : LockNo → State → State) (s : State) : State :=
  match readLock (param r 0) with
  | none => refuse r .badLock s
  | some L => act L s

/-- UNKNOWN_COMMAND (R160, check 1). -/
def execUnknownCommand (s : State) : Host.Outcome State Fault Refusal :=
  match s.commands with
  | [] => .next s
  | r :: _ =>
    if mayTake s = true ∧ readKind r.kind = none then .next (refuse r .unknownCommand (dequeue s)) else .next s

/-- CONFIGURE after checks 1 to 3 (R116, R161). -/
def actConfigure (r : CommandRecord) (s : State) : State :=
  match readConfig r with
  | none => refuse r .badConfig s
  | some c => enterConfigured c (accept r s)

/-- CONFIGURE (R116). -/
def execConfigure (s : State) : Host.Outcome State Fault Refusal := .next (takeCommand .configure actConfigure s)

/-- START after its checks (R117). -/
def actStart (r : CommandRecord) (s : State) : State := enterListening .started (accept r s)

/-- START (R117). -/
def execStart (s : State) : Host.Outcome State Fault Refusal := .next (takeCommand .start actStart s)

/-- STOP after its checks (R121). -/
def actStop (r : CommandRecord) (s : State) : State :=
  if s.station = .listening then enterReady .stopped (accept r s) else enterLeaving (accept r s)

/-- STOP (R121). -/
def execStop (s : State) : Host.Outcome State Fault Refusal := .next (takeCommand .stop actStop s)

/-- ABANDON after its checks (R123). -/
def actAbandon (r : CommandRecord) (s : State) : State := enterReady .abandoned (accept r s)

/-- ABANDON (R123). -/
def execAbandon (s : State) : Host.Outcome State Fault Refusal := .next (takeCommand .abandon actAbandon s)

/-- Most requests of a station (R56). -/
def maxRequests : Nat := 16

/-- ACQUIRE, checks 4 and 5 and effects (R57, R162). -/
def actAcquire (r : CommandRecord) (s : State) : State :=
  withLock r (fun L s =>
    if (s.requests[L]).isSome then refuse r .busy s
    else if maxRequests ≤ requestCount s then refuse r .tableFull s
    else addRequest L r.tag ((param r 1).getLsbD 0) (param r 2).toNat (accept r s)) s

/-- ACQUIRE (R162). -/
def execAcquire (s : State) : Host.Outcome State Fault Refusal := .next (takeCommand .acquire actAcquire s)

/-- RELEASE, checks 4 and 5 and effects (R65, R163). -/
def actRelease (r : CommandRecord) (s : State) : State :=
  withLock r (fun L s =>
    match s.requests[L] with
    | none => refuse r .notHolder s
    | some q =>
      match q.state with
      | .releasing | .expiring => refuse r .busy s
      | .pending | .waiting | .held => hostRelease L (accept r s)) s

/-- RELEASE (R163). -/
def execRelease (s : State) : Host.Outcome State Fault Refusal := .next (takeCommand .release actRelease s)

/-- RENEW, checks 4 and 5 and effects (R66, R164). -/
def actRenew (r : CommandRecord) (s : State) : State :=
  withLock r (fun L s =>
    match s.requests[L] with
    | none => refuse r .notHolder s
    | some q =>
      if q.state ≠ .held then refuse r .notHolder s
      else if q.leased then hostRenew L (accept r s)
      else refuse r .notLeased s) s

/-- RENEW (R164). -/
def execRenew (s : State) : Host.Outcome State Fault Refusal := .next (takeCommand .renew actRenew s)

/-- ARRIVE, checks 4 and 5 and effects (R70, R165). -/
def actArrive (r : CommandRecord) (s : State) : State :=
  match readBarrier (param r 0) with
  | none => refuse r .badBarrier s
  | some b =>
    if (s.barrierRecords[b]).isSome then refuse r .busy s else addBarrierRecord b r.tag (accept r s)

/-- ARRIVE (R165). -/
def execArrive (s : State) : Host.Outcome State Fault Refusal := .next (takeCommand .arrive actArrive s)

/-- The contents of a STATUS reply as they stand (Table 10-6). -/
def statusContent (s : State) : StatusContent :=
  { state := s.station
    round := roundCounter s
    present := presentCount s
    requests := requestCount s
    intents := s.outbox.length
    installed := s.installed
    notices := s.notices }

/-- STATUS after its checks (R166). -/
def actStatus (r : CommandRecord) (s : State) : State :=
  emptyNotices (placeReply (.status r.tag (statusContent s)) s)

/-- STATUS (R166). -/
def execStatus (s : State) : Host.Outcome State Fault Refusal := .next (takeCommand .status actStatus s)

/-- The form of a LOCK_INFO reply (R25, Table 10-7). -/
def lockForm (L : LockNo) (s : State) : LockForm := if lockInPlace s L then .known s.locks[L] else .unknown

/-- QUERY_LOCK, check 4 and reply (R167). -/
def actQueryLock (r : CommandRecord) (s : State) : State :=
  withLock r (fun L s => placeReply (.lockInfo r.tag L (lockForm L s)) s) s

/-- QUERY_LOCK (R167). -/
def execQueryLock (s : State) : Host.Outcome State Fault Refusal := .next (takeCommand .queryLock actQueryLock s)

/-- QUERY_MEMBERS, reply (R55, R168). -/
def actQueryMembers (r : CommandRecord) (s : State) : State :=
  placeReply (.members r.tag (membershipHeld s) (if membershipHeld s then memberList s else [])) s

/-- QUERY_MEMBERS (R168). -/
def execQueryMembers (s : State) : Host.Outcome State Fault Refusal :=
  .next (takeCommand .queryMembers actQueryMembers s)

end Sys2Proof.Machine
end

