-- ==== Sys2Proof/Machine/PortOps.lean ====
section
/-! DEFINITION. The host port (chapter 10): the clock cycles of a byte, the phases of a transaction, the collection of a
command record, and the clocking out of an answer record. -/

namespace Sys2Proof.Machine

/-- Transaction codes (Table 10-1). -/
def codeCommand : Byte := 0x01
/-- The ANSWER code. -/
def codeAnswer : Byte := 0x02
/-- The PEEK code. -/
def codePeek : Byte := 0x03

/-- Highest parameter count of a record (R153). -/
def maxParams : Nat := 15

/-- R153: the record is taken into the tail of the command queue. -/
def takeRecord (bytes : List Byte) (s : State) : State :=
  match bytes with
  | kind :: tag :: _ :: params =>
    { s with commands := s.commands ++ [{ kind := kind, tag := tag, params := params }], port := .taken }
  | _ => s

/-- R153: one byte of a command record is complete. -/
def collectByte (s : State) (b : Byte) : State :=
  match s.port with
  | .collecting bytes =>
    let bytes := bytes ++ [b]
    match bytes[2]? with
    | none => { s with port := .collecting bytes }
    | some count =>
      if count.toNat > maxParams then { s with port := .badCount }
      else if bytes.length = 3 + count.toNat then takeRecord bytes s
      else { s with port := .collecting bytes }
  | _ => s

/-- The head answer record's bytes, fixed when the code byte is complete; from an empty queue a single 00h, which removes
no record (R156). -/
def answerPhase (s : State) : PortPhase :=
  match s.answers with
  | [] => .answering [0] false
  | a :: _ => .answering (answerBytes a) true

/-- R151, R153, R155, R156, R157: the code byte is complete. -/
def completeCode (code : Byte) (s : State) : State :=
  match s.port with
  | .code room =>
    if code = codeCommand then { s with port := if room then .collecting [] else .full }
    else if code = codeAnswer then { s with port := answerPhase s }
    else if code = codePeek then { s with port := .peeking, cut := false }
    else { s with port := .ignored }
  | _ => s

/-- R156: a byte of an ANSWER transaction has been clocked out whole; the record leaves with its last byte. -/
def byteSent (s : State) : State :=
  match s.port with
  | .answering (_ :: rest) removes =>
    let sent := { s with port := .answering rest (removes && !rest.isEmpty) }
    if removes && rest.isEmpty then removeAnswer sent else sent
  | _ => s

/-- R151, R153, R156: the eight bits of a byte have passed in both directions. -/
def byteComplete (b : Byte) (s : State) : State :=
  match s.port with
  | .code _ => completeCode b s
  | .collecting _ => collectByte s b
  | .answering _ _ => byteSent s
  | .idle | .awaitNegation | .badCount | .taken | .full | .peeking | .ignored => s

/-- The byte the port sends next: the answer's while there is one, 00h after the end of what there is to send (R151, R153,
R156, R157). -/
def nextByteOut (s : State) : Byte :=
  match s.port with
  | .answering (b :: _) _ => b
  | .answering [] _ | .idle | .awaitNegation | .code _ | .collecting _ | .badCount | .taken | .full | .peeking
  | .ignored => 0

/-- The next byte stands ready to be shifted out. -/
def loadByte (s : State) : State := { s with shiftOut := msbBits (nextByteOut s) }

/-- One cycle of SCLK (R151): on the rising edge MOSI is sampled, and the host samples MISO; after the falling edge MISO
shows the next bit. A byte is complete with its eighth bit. -/
def clockBit (s : State) (mosi : Bool) : State :=
  let clocked := { s with
    miso := s.miso ++ [s.shiftOut.headD false]
    shiftIn := s.shiftIn ++ [mosi]
    shiftOut := s.shiftOut.tail }
  if 8 ≤ clocked.shiftIn.length then
    loadByte (byteComplete (byteOfBits clocked.shiftIn) { clocked with shiftIn := [] })
  else clocked

/-- Cycles of SCLK with the given levels of MOSI. -/
def clockBits (mosi : List Bool) (s : State) : State := mosi.foldl clockBit s

/-- The rest of a code byte is clocked in, when the bits received so far are its first ones (log 6). -/
def clockCode (code : Byte) (s : State) : State :=
  match s.port with
  | .code _ =>
    if s.shiftIn.isPrefixOf (msbBits code) then clockBits ((msbBits code).drop s.shiftIn.length) s else s
  | .idle | .awaitNegation | .collecting _ | .badCount | .taken | .full | .answering _ _ | .peeking | .ignored => s

/-- R151, R152: SSEL is asserted in the idle phase: the port status is captured and its first bit driven on MISO, and the
test of R155 is made. -/
def beginTransaction (s : State) : State :=
  { s with
    ssel := true
    port := .code (!commandQueueFull s)
    shiftIn := []
    shiftOut := msbBits (portStatus s)
    miso := [] }

/-- The level on MISO, driven while SSEL is asserted (R151). -/
def misoLevel (s : State) : Option Bool := if s.ssel then some (s.shiftOut.headD false) else none

/-- A transaction in this phase is cut by a negation of SSEL (R154). -/
def cutsOnNegation : PortPhase → Bool
  | .collecting _ | .badCount => true
  | .idle | .awaitNegation | .code _ | .taken | .full | .answering _ _ | .peeking | .ignored => false

/-- R151, R154: SSEL is negated: the transaction ends in any phase, bits and bytes collected are dropped, and a cut is
recorded. -/
def endTransaction (s : State) : State :=
  { s with ssel := false, port := .idle, shiftIn := [], shiftOut := [], cut := s.cut || cutsOnNegation s.port }

end Sys2Proof.Machine
end

