-- ==== Sys2Proof/Machine/HostPort.lean ====
section
/-! DEFINITION. Meanings of the reset and of the host port's steps (R111, R151 to R157). -/

namespace Sys2Proof.Machine

/-- HARD_RESET (R111, R151): every block takes its reset values; a transaction is abandoned, and with SSEL still asserted
its negation is awaited. The levels of the inputs SSEL and LRX are what the surroundings drive (log 19), and the queue of
commands and the free counter are the model's own (log 16): they stay. -/
def execHardReset (s : State) : Host.Outcome State Fault Refusal :=
  .next { State.reset with
    ssel := s.ssel
    port := if s.ssel then .awaitNegation else .idle
    lrxLow := s.lrxLow
    freeIndex := s.freeIndex
    pending := s.pending }

/-- SSEL_ASSERT (R151, R152). With SSEL asserted already there is no assertion, and the clock cycles go on with the
transaction in progress, whatever its phase (log 6). -/
def execSselAssert (mosi : List Bool) (s : State) : Host.Outcome State Fault Refusal :=
  if s.ssel = false ∧ s.port = .idle then .next (clockBits mosi (beginTransaction s))
  else if s.ssel then .next (clockBits mosi s)
  else .next s

/-- The port is in a phase of a COMMAND transaction. -/
def inCommandPhase (s : State) : Bool :=
  match s.port with
  | .collecting _ | .badCount | .taken | .full => true
  | .idle | .awaitNegation | .code _ | .answering _ _ | .peeking | .ignored => false

/-- The port is in the phase of an ANSWER transaction. -/
def inAnswerPhase (s : State) : Bool :=
  match s.port with
  | .answering _ _ => true
  | .idle | .awaitNegation | .code _ | .collecting _ | .badCount | .taken | .full | .peeking | .ignored => false

/-- A step of the transaction of the given code: the code byte completes, if it has not, and the clock cycles follow. -/
def transact (code : Byte) (phase : State → Bool) (mosi : List Bool) (s : State) : State :=
  let begun := clockCode code s
  if s.ssel && phase begun then clockBits mosi begun else s

/-- COMMAND_TRANSACTION (R153, R155). -/
def execCommandTransaction (mosi : List Bool) (s : State) : Host.Outcome State Fault Refusal :=
  .next (transact codeCommand inCommandPhase mosi s)

/-- CUT (R154): a negation of SSEL that cuts a COMMAND transaction. -/
def execCut (s : State) : Host.Outcome State Fault Refusal :=
  if s.ssel = true ∧ cutsOnNegation s.port = true then .next (endTransaction s) else .next s

/-- ANSWER_TRANSACTION (R156). -/
def execAnswerTransaction (mosi : List Bool) (s : State) : Host.Outcome State Fault Refusal :=
  .next (transact codeAnswer inAnswerPhase mosi s)

/-- PEEK (R157): its code byte completes and clears the cut indication; bytes of 00h stand ready after the status byte. -/
def execPeek (s : State) : Host.Outcome State Fault Refusal :=
  if s.ssel then .next (clockCode codePeek s) else .next s

/-- SSEL_NEGATED (R151). -/
def execSselNegated (s : State) : Host.Outcome State Fault Refusal :=
  if s.ssel then .next (endTransaction s) else .next s

end Sys2Proof.Machine
end

