-- ==== Sys2Proof/Config.lean ====
section
/-! DEFINITION. What the spec leaves open: the free choices. Each is a constant without a body, applied to the counter
State.freeIndex, so that nothing can be proved about its value. -/

namespace Sys2Proof

/-- DESIGN CHOICE (log 10, safe). At a round end at which both the lease tick and the wait countdown act, either may act
first (R98, R64): true when the countdown acts first. -/
opaque Config.countdownFirst : Nat → Bool

/-- DESIGN CHOICE (log 11, safe). At a slot end at which the orphan count reaches 2N, the orphan action and the absence
accounting may be taken in either order (R141): true when the orphan action is taken first. -/
opaque Config.orphanFirst : Nat → Bool

/-- DESIGN CHOICE (log 12, safe). With no command waiting, a host command that the command processor may take and a due
event of the part may be taken in either order (R92, R127): true when the host command is taken first. -/
opaque Config.hostFirst : Nat → Bool

end Sys2Proof
end

