-- ==== Sys2Proof/Machine/Membership.lean ====
section
/-! DEFINITION. The membership record (chapter 3): the removal operation, JOIN handling, the LEAVE item, and absence
accounting. -/

namespace Sys2Proof.Machine

/-- Put a member record, or none, at a station number. -/
def setMember (r : StationNo) (m : Option Member) (s : State) : State := { s with members := s.members.set r m }

/-- R50: the removal of station `r`: lock table, barrier table, present set with MEMBER_LEFT; a removal of the own number
is then handed to the station controller (R52). -/
def removeStation (r : StationNo) (cause : LeaveCause) (s : State) : State :=
  let s := removeFromLocks r s
  let s := removeFromBarriers r s
  let s := placeEvent (.memberLeft r cause) (setMember r none s)
  if r = s.own then ownRemoval cause s else s

/-- R43: station `r` is added with the joining mark set and count 0. -/
def addMember (r : StationNo) (s : State) : State :=
  placeEvent (.memberJoined r) (setMember r (some { joining := true, absence := 0 }) s)

/-- Table 3-3, the second step of a frame from station `r`: addition (R43), no change (R44), rejoin (R45), clearing of the
mark (R46), or a stranger's frame (R47). Without membership nothing is done (R40). -/
def handleJoin (r : StationNo) (join : Bool) (s : State) : State :=
  if membershipHeld s then
    match s.members[r], join with
    | none, true => addMember r s
    | none, false => s
    | some m, true => if m.joining then s else addMember r (removeStation r .rejoin s)
    | some m, false =>
      if m.joining then placeEvent (.memberSynced r) (setMember r (some { m with joining := false }) s) else s
  else s

/-- R48, R122: a LEAVE item from station `r`. Where the leaving station itself holds no membership, its STOP completes
here. -/
def applyLeave (r : StationNo) (s : State) : State :=
  if isPresent s r then removeStation r .leave s
  else if r = s.own ∧ s.station = .leaving ∧ membershipHeld s = false then enterReady .left s
  else s

/-- Absence accounting is done in the present state (R49). -/
def accountsAbsence (s : State) : Bool :=
  match s.station with
  | .founding | .synced | .leaving | .joining => membershipHeld s
  | .unconfigured | .ready | .listening => false

/-- R49: the accounting of the slot that ends; the owner is named when its count would reach M. -/
def accountSlot (s : State) : State × Option StationNo :=
  match s.timing with
  | none => (s, none)
  | some t =>
    if accountsAbsence s then
      match s.members[t.slot] with
      | none => (s, none)
      | some m =>
        if t.usable.isSome then (setMember t.slot (some { m with absence := 0 }) s, none)
        else if s.cfg.absenceLimit ≤ m.absence + 1 then (s, some t.slot)
        else (setMember t.slot (some { m with absence := m.absence + 1 }) s, none)
    else (s, none)

end Sys2Proof.Machine
end

