-- ==== Sys2Proof/Machine/FrameSteps.lean ====
section
/-! DEFINITION. The processing of a frame (R90): digest comparison, membership, catch-up, items; the verdict of the
agreement unit, the donor's chunk, and the building of the own frame. -/

namespace Sys2Proof.Machine

/-! ## Step 1: digest comparison (R146, R147) -/

/-- A frame's digest is compared when the station is SYNCED and the sender is an unmarked present member. -/
def compareDigest (f : Frame) (s : State) : State :=
  match f.digest with
  | none => s
  | some d =>
    if s.station = .synced ∧ isUnmarked s f.station = true then
      if d = replicaDigest s then { s with matchCount := s.matchCount + 1 }
      else placeEvent (.digestMismatch f.station) { s with mismatchCount := s.mismatchCount + 1 }
    else s

/-! ## Step 3: catch-up (R131 to R136) -/

/-- R131: the wanted set of a JOIN frame from another station is added to the gathered union. -/
def gatherWanted (f : Frame) (s : State) : State :=
  match f.want with
  | none => s
  | some w =>
    if (s.station = .founding ∨ s.station = .synced) ∧ f.join = true then { s with gathered := s.gathered ||| w } else s

/-- The unmarked present members a chunk 0 names. -/
def Chunk0.unmarked (c : Chunk0) : StationSet := c.present &&& ~~~ c.marks

/-- R53: the membership part of chunk 0, from the given sender, passes its checks. -/
def membershipCheck (c : Chunk0) (sender : StationNo) (s : State) : Bool :=
  (allStations.all fun r =>
      (!inSet r c.present || decide (r.val < s.cfg.roundSize))
        && decide (c.counts[r] < s.cfg.absenceLimit)
        && (inSet r c.present || c.counts[r] == 0))
    && subset c.marks c.present
    && inSet sender c.unmarked
    && (!inSet s.own c.present || inSet s.own c.marks)

/-- R37: the barrier part of chunk 0 passes its check against the membership part. -/
def barrierCheck (c : Chunk0) : Bool :=
  allBarriers.all fun b =>
    subset c.barriers[b].arrived c.unmarked && !completionTest c.barriers[b].arrived c.unmarked

/-- R37, R53: chunk 0 replaces the membership record and the barrier table. -/
def installChunk0 (c : Chunk0) (s : State) : State :=
  { s with
    barriers := c.barriers
    members := tabulate fun r =>
      if inSet r c.present then some { joining := inSet r c.marks, absence := c.counts[r] } else none }

/-- The chunk's number leaves the wanted set and enters the installed set (R134). -/
def markInstalled (k : ChunkNo) (s : State) : State :=
  { s with installed := setAdd k s.installed, wanted := setRemove k s.wanted }

/-- R133, R134: a station in JOINING considers the chunk of a frame from another station. -/
def installChunk (f : Frame) (s : State) : State :=
  match f.chunk with
  | none => s
  | some c =>
    if s.station = .joining ∧ f.join = false ∧ inSet c.number s.wanted = true then
      if c.number = 0 then
        match readChunk0 c.body with
        | none => s
        | some body =>
          if membershipCheck body f.station s && barrierCheck body then markInstalled 0 (installChunk0 body s) else s
      else if membershipHeld s && isUnmarked s f.station then
        match readLockChunk (requiredSet s) c.body with
        | none => s
        | some entries => markInstalled c.number (installLocks c.number entries s)
      else s
    else s

/-- R136: catch-up is complete when nothing is wanted and the own number is present. -/
def completeCatchUp (s : State) : State :=
  if s.station = .joining ∧ s.wanted = 0 ∧ isPresent s s.own = true then enterCaughtUp s else s

/-! ## Step 4: items -/

/-- An item of the sender is judged and, when admissible, applied (R5, R6, R29, R41, R48). -/
def applyItem (sender : StationNo) (s : State) (item : Item) : State :=
  match item with
  | .leave => applyLeave sender s
  | .acquire lock leased =>
    if admissible s sender item && lockInPlace s lock then applyAcquire sender lock leased s else s
  | .release lock => if admissible s sender item && lockInPlace s lock then applyRelease sender lock s else s
  | .renew lock => if admissible s sender item && lockInPlace s lock then applyRenew sender lock s else s
  | .arrive barrier => if admissible s sender item && membershipHeld s then applyArrive sender barrier s else s

/-- The items of a frame, one after another (R21, R92). -/
def applyItems (sender : StationNo) (items : List Item) (s : State) : State := items.foldl (applyItem sender) s

/-! ## The whole frame (R90, R91) -/

/-- A frame received from another station is processed. -/
def processFrame (f : Frame) (s : State) : State :=
  let s := compareDigest f s
  let s := handleJoin f.station f.join s
  let s := completeCatchUp (installChunk f (gatherWanted f s))
  applyItems f.station f.items s

/-- R91: the own frame is processed: no comparison, no wanted set or chunk of its own. -/
def processOwnFrame (f : Frame) (s : State) : State :=
  let s := handleJoin f.station f.join s
  let s := completeCatchUp s
  applyItems f.station f.items s

/-! ## The own slot start (R95) -/

/-- R148, R149: the verdict: DIVERGED in SYNCED when more digests differed than agreed; the tally starts again. -/
def giveVerdict (s : State) : State :=
  let diverged := decide (s.matchCount < s.mismatchCount)
  let s := resetTally s
  if diverged ∧ s.station = .synced then enterDiverged s else s

/-- The body of a chunk as the replica stands (R24, R38, R55). -/
def chunkBody (k : ChunkNo) (s : State) : List Byte :=
  if k = 0 then chunk0Body s.members s.barriers else lockChunkBody s.locks k

/-- R132: the donor supplies the lowest chunk of its gathered union. -/
def chooseChunk (s : State) : Option ChunkPart :=
  if isDonor s then (lowestChunk s.gathered).map fun k => ⟨k, chunkBody k s⟩ else none

/-- R131: the union is emptied at the own slot start in FOUNDING or SYNCED. -/
def emptyGathered (s : State) : State :=
  if s.station = .founding ∨ s.station = .synced then { s with gathered := 0 } else s

/-- R81: the own frame by station state (Table 5-3). -/
def buildFrame (chunk : Option ChunkPart) (items : List Item) (s : State) : Frame :=
  let joining := decide (s.station = .joining)
  { station := s.own
    join := joining || (decide (s.station = .leaving) && s.leavingFromJoining)
    round := roundCounter s
    digest := if joining then none else some (replicaDigest s)
    want := if joining then some s.wanted else none
    chunk := chunk
    items := items }

/-- The timing with the own slot start handed on; the own slot's reception is the echo (R84, R87). -/
def Timing.ownStarted (t : Timing) : Timing := { t with ownStartDue := false, begun := true }

/-- A reception of the own slot that has begun before the frame was built is the echo's (R84, R87), not one of its own;
a late reception of the slot before stays what it is. -/
def Reception.inOwnSlot (rx : Reception) (t : Timing) : Reception :=
  if rx.place = some (t.slot, t.round) then { rx with counts := false } else rx

/-- R80, R87: the frame is placed in the transmit buffer and the echo comparator watches for it. A start bit accepted in
the own slot already, of whichever reception, is one before bit time 16 (log 31). -/
def startTransmission (f : Frame) (t : Timing) (s : State) : State :=
  { s with
    txBuffer := frameBytes f
    echo := some { frame := f, early := t.startBit, samples := [], after := false }
    timing := some t.ownStarted
    reception := s.reception.map fun rx => rx.inOwnSlot t }

/-- R107, R108: a founder at its next own slot start completes its founding round; the founding slot's own start only
opens it. -/
def foundingStep (s : State) : State :=
  if s.station = .founding then
    if s.foundingOpen then { s with foundingOpen := false } else completeFounding s
  else s

/-- R95: the own slot start is handed on: founding completion, verdict, items, chunk, frame. -/
def beginOwnSlot (t : Timing) (s : State) : State :=
  let s := giveVerdict (foundingStep s)
  let supplied := supplyItems s
  let s := supplied.1
  let chunk := chooseChunk s
  let f := buildFrame chunk supplied.2 s
  startTransmission f t (emptyGathered s)

end Sys2Proof.Machine
end

