-- ==== Sys2Proof/Machine/Receiver.lean ====
section
/-! DEFINITION. The receiver of the line interface (R79, R83, R84, R87, R96): the falls of LRX, the start bits it accepts,
and the bit times of a reception. -/

namespace Sys2Proof.Machine

/-- The line interface receives (R78). -/
def receives (s : State) : Bool :=
  match s.station with
  | .unconfigured | .ready => false
  | .listening | .founding | .joining | .synced | .leaving => true

/-- The bytes held have reached the expected length of their frame (R83). -/
def frameWhole (buffer : List RxChar) : Bool :=
  match expectedLength (buffer.map rxData) with
  | some n => decide (n ≤ buffer.length)
  | none => false

/-- R83: a start bit after the expected length was reached makes a reception overlong, and one with 95 bytes held too
long. -/
def Reception.nextCharacter (rx : Reception) (buffer : List RxChar) : Reception :=
  { rx with samples := some [], excess := rx.excess || decide (receiveCapacity ≤ buffer.length) || frameWhole buffer }

/-- A reception that has just begun (R83, R84). -/
def newReception (place : Option (StationNo × Word16)) (late counts : Bool) : Reception :=
  { place := place, late := late, counts := counts, age := 0, samples := some [], excess := false }

/-- R87: a start bit accepted before bit time 16 of the own slot, or in the four bit times after the last stop bit, spoils
the echo. -/
def EchoComparator.startBit (e : EchoComparator) (t : Timing) : EchoComparator :=
  { e with
    early := e.early || decide (t.phase < frameLead)
    after := e.after || (decide (frameEnd e ≤ t.phase) && decide (t.phase < frameEnd e + idleBits)) }

/-- R87: the sample at the middle of a bit time, from the first start bit sent to the last stop bit sent. -/
def EchoComparator.sample (level : Bool) (e : EchoComparator) (t : Timing) : EchoComparator :=
  if frameLead ≤ t.phase ∧ t.phase < frameEnd e then { e with samples := e.samples ++ [level] } else e

/-- The echo comparator, if it watches, as the current slot's timing makes it go on. -/
def watchEcho (f : EchoComparator → Timing → EchoComparator) (s : State) : State :=
  { s with echo := s.echo.map fun e => (s.timing.map (f e)).getD e }

/-- A start bit has been accepted in the current slot: the timing notes it, and the echo comparator if it watches (R87). -/
def noteStartBit (s : State) : State :=
  watchEcho .startBit { s with timing := s.timing.map fun t => { t with startBit := true } }

/-- A start bit begins a reception in a slot (R83, R84, R96). -/
def beginReception (t : Timing) (s : State) : State :=
  { s with
    reception := some (newReception (some (t.slot, t.round)) (decide (silenceWindow < t.phase)) (!t.begun))
    timing := some { t with begun := true, windowHeard := t.windowHeard || decide (t.phase ≤ silenceWindow) } }

/-- A start bit is accepted: it begins a reception, or the next character of the one in progress; within a character the
change of LRX is one of its bits (R79, R83). -/
def acceptStartBit (s : State) : State :=
  match s.reception, s.timing with
  | some rx, _ =>
    if rx.samples.isSome then s
    else noteStartBit { s with reception := some (rx.nextCharacter s.rxBuffer) }
  | none, some t => noteStartBit (beginReception t s)
  | none, none => { s with reception := some (newReception none false true) }

/-- The line has stood at 1 for as long as the receiver waits for it to (R79, R83). -/
def lineRested (s : State) : Bool := decide (s.lineWait ≤ s.lineHigh)

/-- R79, R83: LRX changes from 1 to 0 and stands at 0 for `low` bit times. The candidate is accepted when it is sampled at 0
and the line had rested; any fall begins the count of bit times at 1 again (log 30). -/
def lineFalls (low : Nat) (s : State) : State :=
  let rested := if lineRested s then { s with lineWait := 0 } else s
  let heard := if receives s && lineRested s && decide (0 < low) then acceptStartBit rested else rested
  { heard with lrxLow := low, lineHigh := 0 }

/-- The stop bit of a character has been sampled: the character is kept unless the reception is overlong or too long; after
a framing error the line must stand at 1 for a bit time before a start bit is accepted (R79, R83). -/
def keepCharacter (c : RxChar) (rx : Reception) (s : State) : State :=
  { s with
    reception := some { rx with samples := none }
    rxBuffer := if rx.excess then s.rxBuffer else s.rxBuffer ++ [c]
    lineHigh := 0
    lineWait := if rxFramingError c then 1 else 0 }

/-- The bit time of a line that is not within a character: it counts when LRX stands at 1. -/
def countHigh (level : Bool) (s : State) : State :=
  { s with lineHigh := if level then min (s.lineHigh + 1) idleBits else 0 }

/-- R79, R83: one bit time of the receiver, LRX being at `level` at its middle. -/
def receiveBit (level : Bool) (s : State) : State :=
  match s.reception with
  | none => countHigh level s
  | some rx =>
    let aged := { rx with age := rx.age + 1 }
    match rx.samples with
    | none => countHigh level { s with reception := some aged }
    | some taken =>
      if taken.length < 9 then { s with reception := some { aged with samples := some (taken ++ [level]) } }
      else keepCharacter (charOfSamples (taken ++ [level])) aged s

/-- The reception is over and the receive buffer emptied (R78). -/
def endReception (s : State) : State := { s with reception := none, rxBuffer := [] }

/-- LRX has stood at 1 for four bit times: whatever the receiver waited for has passed (R83). -/
def restLine (s : State) : State := { s with lrxLow := 0, lineHigh := idleBits, lineWait := 0 }

/-- R83: after the time limit LRX must stand at 1 for four bit times before a start bit is accepted. -/
def awaitRest (s : State) : State := { s with lineHigh := 0, lineWait := idleBits }

end Sys2Proof.Machine
end

