-- ==== Sys2Proof/Machine/SlotTimer.lean ====
section
/-! DEFINITION. The slot timer (chapter 6): alignment and timing acquisition, what a judged reception does, the slot end
with the work it brings, the round end, and the passing of a bit time. -/

namespace Sys2Proof.Machine

/-! ## Frames heard in LISTENING (R103 to R106) -/

/-- The phase at which a frame stands whose first start bit was accepted `age` bit times ago (R100). -/
def alignedPhase (age : Nat) : Nat := frameLead + age

/-- R104: tentative timing from a frame's station and round numbers; the frame is its slot's reception. It replaces a timing
whose slot end was held for the frame (R97, R105) with its hold: the held slot does not end, and the phase is 16 and the bit
times since the frame's start bit, not 0. R97 and R105 do not say which of them gives way: the model's choice (log 34). -/
def tentativeTiming (f : Frame) (age : Nat) : Timing :=
  { confirmed := false, slot := f.station, round := f.round, phase := alignedPhase age, windowHeard := true,
    silent := false, begun := true, startBit := true, usable := none, echoCorrupt := false, held := false
    ownStartDue := false }

/-- What is remembered of a usable frame (R49, R139). -/
def usableOf (own : Bool) (f : Frame) : UsableFrame :=
  { own := own, join := f.join, leave := f.items.contains .leave }

/-- R100: the timer realigned to an in-place frame, which is the slot's usable frame; a hold is over (R97). -/
def Timing.realigned (t : Timing) (f : Frame) (age : Nat) : Timing :=
  { t with phase := alignedPhase age, held := false, usable := some (usableOf false f) }

/-- R104, R105: a frame from a station number below N sets or replaces tentative timing; another leaves it. -/
def setTentative (f : Frame) (age : Nat) (s : State) : State :=
  if f.station.val < s.cfg.roundSize then { s with timing := some (tentativeTiming f age) } else s

/-- R103 to R106: a well-formed frame is heard in LISTENING; `placed`: it is in place under the timing held. -/
def hearFrame (f : Frame) (placed : Bool) (age : Nat) (s : State) : State :=
  let s := { s with silence := 0 }
  if f.station = s.own then enterReady .numberInUse s
  else
    match s.timing with
    | none => setTentative f age s
    | some t =>
      if placed then
        enterJoining .timingAcquired { s with timing := some { t.realigned f age with confirmed := true } }
      else setTentative f age s

/-! ## A judged reception (R101, R102, R109) -/

/-- R109: the founding round is abandoned; a frame that caused it is then heard in LISTENING. -/
def abandonFounding (heard : Option (Frame × Nat)) (s : State) : State :=
  let s := enterListening .foundingAbandoned s
  match heard with
  | none => s
  | some (f, age) => hearFrame f false age s

/-- Table 6-2: a well-formed frame from another station in JOINING, SYNCED or LEAVING. When the disagreement count would
reach 2, SYNC_LOST is to follow (R102). -/
def takeFrame (rx : Reception) (f : Frame) (s : State) : State :=
  if inPlace rx f then
    processFrame f
      { s with timing := s.timing.map fun t => t.realigned f rx.age, disagreement := 0 }
  else if 2 ≤ s.disagreement + 1 then { s with work := .syncLost f rx.age :: s.work }
  else { s with disagreement := s.disagreement + 1 }

/-- The slot timer acts on a judged reception; a corrupt one does nothing (R86, R101). -/
def judged (rx : Reception) (frame : Option Frame) (s : State) : State :=
  match frame with
  | none => s
  | some f =>
    match s.station with
    | .listening => hearFrame f (inPlace rx f) rx.age s
    | .founding => abandonFounding (some (f, rx.age)) s
    | .joining | .synced | .leaving => takeFrame rx f s
    | .unconfigured | .ready => s

/-- R102, R125: synchronisation is lost. -/
def loseSync (f : Frame) (age : Nat) (s : State) : State :=
  match s.station with
  | .joining | .synced => hearFrame f false age (enterListening .syncLost s)
  | .leaving => enterReady .syncLost s
  | .unconfigured | .ready | .listening | .founding => s

/-! ## The slot end (R95, R98, R139, R122) -/

/-- R139: the orphan count and the JOIN-heard flag of the slot that ends; true when the count reaches 2N. -/
def updateOrphan (s : State) : State × Bool :=
  match s.timing with
  | none => (s, false)
  | some t =>
    if s.station = .joining then
      let plain := t.usable.any fun u => !u.own && !u.join
      let joined := t.usable.any fun u => u.join && !u.leave
      let count := if plain then 0 else s.orphanCount + 1
      let flags := if joined then setAdd t.slot s.joinHeard else setRemove t.slot s.joinHeard
      ({ s with orphanCount := count, joinHeard := flags }, decide (2 * s.cfg.roundSize ≤ count))
    else (s, false)

/-- R140: the orphan action. -/
def orphanAct (s : State) : State :=
  let group := setAdd s.own s.joinHeard
  if allStations.all fun r => !(decide (r < s.own) && inSet r group) then enterOrphanFounded group s
  else restartCatchUp s

/-- R122: the leaving count at the end of an own slot whose echo was corrupt, while the own number is not present; true
when it reaches M. -/
def updateLeaving (s : State) : State × Bool :=
  match s.timing with
  | none => (s, false)
  | some t =>
    if s.station = .leaving ∧ t.slot = s.own ∧ t.echoCorrupt = true ∧ isPresent s s.own = false then
      ({ s with leavingCount := s.leavingCount + 1 }, decide (s.cfg.absenceLimit ≤ s.leavingCount + 1))
    else (s, false)

/-- The slot after a slot: slot 0 follows slot N-1 (R95). -/
def slotAfter (slot : StationNo) (roundSize : Nat) : StationNo :=
  if slot.val + 1 < roundSize then slot + 1 else 0

/-- R95, R98: the next slot begins, in the next round when slot N-1 has ended; its silence window opens. -/
def beginSlot (s : State) : State :=
  match s.timing with
  | none => s
  | some t =>
    let slot := slotAfter t.slot s.cfg.roundSize
    let next : Timing :=
      { confirmed := t.confirmed
        slot := slot
        round := if slot = 0 then t.round + 1 else t.round
        phase := 0
        windowHeard := false
        silent := false
        begun := false
        startBit := false
        usable := none
        echoCorrupt := false
        held := false
        ownStartDue := participates s && decide (slot = s.own) }
    { s with timing := some next }

/-- The locks from number `start` on, ascending. -/
def locksFrom (start : Nat) : List LockNo := allLocks.drop start

/-- The wait countdown acts in the present state (R63). -/
def countsWaits (s : State) : Bool := s.station == .joining || s.station == .synced

/-- Do the items of work in order, up to the first that waits for a step of its own (log 4). -/
def doWork : List Work → State → State
  | [], s => { s with work := [] }
  | w :: rest, s =>
    match w with
    | .accounting =>
      match accountSlot s with
      | (s, none) => doWork rest s
      | (s, some r) => { s with work := .absenceRemoval r :: rest }
    | .orphanUpdate =>
      match updateOrphan s with
      | (s, false) => doWork rest s
      | (s, true) => { s with work := .orphanAction :: rest }
    | .leavingUpdate =>
      match updateLeaving s with
      | (s, false) => doWork rest s
      | (s, true) => { s with work := .leavingExpiry :: rest }
    | .leaseTick start =>
      match visitLeases (locksFrom start) s with
      | (s, none) => doWork rest s
      | (s, some L) => { s with work := .leaseExpiry L :: .leaseTick (L.val + 1) :: rest }
    | .waitCountdown start =>
      if countsWaits s then
        match countWaits (locksFrom start) s with
        | (s, none) => doWork rest s
        | (s, some L) => { s with work := .waitExpiry L :: .waitCountdown (L.val + 1) :: rest }
      else doWork rest s
    | .nextSlot => doWork rest (beginSlot s)
    | .absenceRemoval r => { s with work := .absenceRemoval r :: rest }
    | .orphanAction => { s with work := .orphanAction :: rest }
    | .leavingExpiry => { s with work := .leavingExpiry :: rest }
    | .leaseExpiry L => { s with work := .leaseExpiry L :: rest }
    | .waitExpiry L => { s with work := .waitExpiry L :: rest }
    | .syncLost f age => { s with work := .syncLost f age :: rest }

/-- Go on with the work that is left. -/
def resumeWork (s : State) : State := doWork s.work s

/-- R98, R16, R63: the round end, when slot N-1 ends: a lease tick when the round number is a multiple of P, and the wait
countdown; either may be first. -/
def roundEndWork (t : Timing) (s : State) : List Work :=
  if t.slot.val + 1 < s.cfg.roundSize then []
  else if t.round.toNat % s.cfg.leasePeriod = 0 then
    if Config.countdownFirst s.freeIndex then [.waitCountdown 0, .leaseTick 0] else [.leaseTick 0, .waitCountdown 0]
  else [.waitCountdown 0]

/-- R141: the accounting and the orphan update of one slot end; either may be taken first in JOINING. -/
def accountingWork (s : State) : List Work :=
  if s.station = .joining then
    if Config.orphanFirst s.freeIndex then [.orphanUpdate, .accounting] else [.accounting, .orphanUpdate]
  else [.accounting, .leavingUpdate]

/-- R95: all a slot end brings. In LISTENING the slot end is handed to no block (R98). -/
def slotEndWork (t : Timing) (s : State) : List Work :=
  if participates s then accountingWork s ++ roundEndWork t s ++ [.nextSlot] else [.nextSlot]

/-- R95: the slot ends. -/
def endSlot (t : Timing) (s : State) : State :=
  doWork (slotEndWork t s) { s with freeIndex := s.freeIndex + 1 }

/-- The head of the work is the given step, and is done: the removal for absence (R49). -/
def doAbsenceRemoval (s : State) : State :=
  match s.work with
  | .absenceRemoval r :: rest => resumeWork (removeStation r .absent { s with work := rest })
  | _ => s

/-- The orphan action (R140), taken in JOINING only; an accounting of this slot end still to come is not made (R141). -/
def doOrphanAction (s : State) : State :=
  match s.work with
  | .orphanAction :: rest =>
    if s.station = .joining then resumeWork (orphanAct { s with work := rest.filter (· != .accounting) })
    else resumeWork { s with work := rest }
  | _ => s

/-- The STOP completes because the leaving count has reached M, in LEAVING only (R122). -/
def doLeavingExpiry (s : State) : State :=
  match s.work with
  | .leavingExpiry :: rest =>
    if s.station = .leaving then resumeWork (enterReady .left { s with work := rest })
    else resumeWork { s with work := rest }
  | _ => s

/-- A lease expires and the tick goes on (R17, R18). -/
def doLeaseExpiry (s : State) : State :=
  match s.work with
  | .leaseExpiry L :: rest => resumeWork (expireLease L { s with work := rest })
  | _ => s

/-- A wait limit runs out and the countdown goes on (R63). -/
def doWaitExpiry (s : State) : State :=
  match s.work with
  | .waitExpiry L :: rest => resumeWork (expireWait L { s with work := rest })
  | _ => s

/-- Synchronisation is lost (R102). -/
def doSyncLost (s : State) : State :=
  match s.work with
  | .syncLost f age :: rest => resumeWork (loseSync f age { s with work := rest })
  | _ => s

/-- The step of the opcode table that the head of the work waits for, done. -/
def doHead (s : State) : State :=
  match s.work with
  | .absenceRemoval _ :: _ => doAbsenceRemoval s
  | .orphanAction :: _ => doOrphanAction s
  | .leavingExpiry :: _ => doLeavingExpiry s
  | .leaseExpiry _ :: _ => doLeaseExpiry s
  | .waitExpiry _ :: _ => doWaitExpiry s
  | .syncLost _ _ :: _ => doSyncLost s
  | .accounting :: _ | .orphanUpdate :: _ | .leavingUpdate :: _ | .leaseTick _ :: _ | .waitCountdown _ :: _
  | .nextSlot :: _ | [] => resumeWork s

/-- Do the steps the work waits for, at most `n` of them. -/
def finishSteps : Nat → State → State
  | 0, s => s
  | n + 1, s => if s.work.isEmpty then s else finishSteps n (doHead s)

/-- More steps than the work of one slot end can hold: 64 leases, 64 waits, and a few. -/
def workBound : Nat := 160

/-- Complete the slot end or frame in progress before the line brings something new (R92; log 32). -/
def finishWork (s : State) : State := finishSteps workBound s

/-! ## A bit time (R95, R80, R83, R103) -/

/-- The level of LTX at a phase of the own slot while LTXE is asserted: the frame's bits from phase 16 on, else 1
(R80). -/
def ltxLevel (buffer : List Byte) (phase : Nat) : Bool :=
  if phase < frameLead then true else (lineBits buffer).getD (phase - frameLead) true

/-- What a bit time brings to the sender: LTX follows the frame's bits, and the transmit buffer is empty once the last stop
bit has gone out (R78, R80). -/
def sendBit (phase : Nat) (s : State) : State :=
  let sent := !s.txBuffer.isEmpty && decide (frameLead + 10 * s.txBuffer.length ≤ phase)
  { s with
    txBuffer := if sent then [] else s.txBuffer
    ltx := if s.ltxe then ltxLevel s.txBuffer phase else true }

/-- One bit time passes without a change on the input pins but the return of LRX to 1 (log 2). -/
def passBitTime (s : State) : State :=
  let timing := s.timing.map fun t => { t with phase := t.phase + 1 }
  let level := s.lrxLow == 0
  let received := receiveBit level (watchEcho (.sample level) s)
  sendBit ((timing.map Timing.phase).getD 0) { received with
    timing := timing
    silence := if s.station = .listening then s.silence + 1 else s.silence
    lrxLow := s.lrxLow - 1 }

end Sys2Proof.Machine
end

