-- ==== Sys2Proof/Machine/LineSteps.lean ====
section
/-! DEFINITION. Meanings of the line's steps: the own slot start and the own transmission (R80, R81, R87 to R89, R95),
receptions (R79, R83, R84, R96), and the loss of synchronisation (R102). A step whose condition the state does not meet is
not that step and changes nothing (log 3). -/

namespace Sys2Proof.Machine

/-- OWN_SLOT_START (R95). -/
def execOwnSlotStart (s : State) : Host.Outcome State Fault Refusal :=
  if ownSlotStartDue s then
    match s.timing with
    | some t => .next (beginOwnSlot t s)
    | none => .next s
  else .next s

/-- LTXE_ASSERTED (R80): LTXE is asserted with LTX at 1. -/
def execLtxeAsserted (s : State) : Host.Outcome State Fault Refusal :=
  if ltxeDue s then .next { s with ltxe := true, ltx := true } else .next s

/-- TRANSMISSION_END (R80): LTXE is negated and LTX returns to 1. -/
def execTransmissionEnd (s : State) : Host.Outcome State Fault Refusal :=
  if transmissionEndDue s then .next { s with ltxe := false, ltx := true, txBuffer := [] } else .next s

/-- What LRX showed of the own frame: what the echo comparator holds, and what is reported with its judgement for the bit
times that it has not sampled (log 9). -/
def EchoComparator.reported (e : EchoComparator) (early : Bool) (samples : List Bool) (after : Bool) : EchoComparator :=
  { e with early := e.early || early, samples := e.samples ++ samples, after := e.after || after }

/-- R87: the echo is judged well-formed: every sample equals the bit sent, and no start bit was accepted before bit time 16
or in the four bit times after. -/
def echoGood (e : EchoComparator) : Bool := !e.early && e.samples == lineBits (frameBytes e.frame) && !e.after

/-- The reception in progress is that of the own slot and ends with the echo, no start bit having followed (R84, R87). -/
def endsWithEcho (t : Timing) (after : Bool) (s : State) : Bool :=
  !after && s.reception.any fun rx => decide (rx.place = some (t.slot, t.round))

/-- The reception of the own slot ends with the echo, unless a start bit follows (R84, R87). -/
def endEchoReception (t : Timing) (after : Bool) (s : State) : State :=
  { s with
    reception := if endsWithEcho t after s then none else s.reception
    rxBuffer := if endsWithEcho t after s then [] else s.rxBuffer }

/-- R88: a well-formed echo: settlement, then the own frame is processed (R76, R91). -/
def echoWellFormed (e : EchoComparator) (t : Timing) (s : State) : State :=
  processOwnFrame e.frame
    (settleOutbox { s with echo := none, timing := some { t with usable := some (usableOf true e.frame) } })

/-- R88: a corrupt echo: the intents return; a founding round is abandoned (R77, R109). -/
def echoCorrupted (t : Timing) (s : State) : State :=
  let s := requeueOutbox { s with echo := none, timing := some { t with echoCorrupt := true } }
  if s.station = .founding then abandonFounding none s else s

/-- ECHO_JUDGED (R87, R88). -/
def execEchoJudged (early : Bool) (samples : List Bool) (after : Bool) (s : State) :
    Host.Outcome State Fault Refusal :=
  if echoDue s then
    match s.echo, s.timing with
    | some e, some t =>
      let e := e.reported early samples after
      let ended := endEchoReception t e.after s
      if echoGood e then .next (echoWellFormed e t ended) else .next (echoCorrupted t ended)
    | _, _ => .next s
  else .next s

/-- RECEPTION_BEGINS (R79, R83). A candidate sampled at 1 is discarded. -/
def execReceptionBegins (low : Nat) (s : State) : Host.Outcome State Fault Refusal := .next (lineFalls low (finishWork s))

/-- The frame of an ended reception whose characters are given, if it is well-formed; an overlong or too long one is
corrupt (R83, R85). -/
def receivedFrame (rx : Reception) (chars : List RxChar) : Option Frame :=
  if rx.excess = false ∧ chars.length ≤ receiveCapacity then wellFormedFrame chars else none

/-- R83 to R86: a reception ends: it is judged and handed to the slot timer, or dropped when its slot has had its
reception. -/
def finishReception (rx : Reception) (chars : List RxChar) (s : State) : State :=
  let ended := restLine (endReception s)
  if rx.counts then judged rx (receivedFrame rx (s.rxBuffer ++ chars)) ended else ended

/-- RECEPTION_ENDED (R83). -/
def execReceptionEnded (chars : List RxChar) (s : State) : Host.Outcome State Fault Refusal :=
  let s := finishWork s
  match s.reception with
  | some rx => .next (finishReception rx chars s)
  | none => .next s

/-- RECEPTION_TIME_LIMIT (R83): the reception ends corrupt, and the line must rest before a start bit is accepted. -/
def execReceptionTimeLimit (s : State) : Host.Outcome State Fault Refusal :=
  if timeLimitDue s then
    match s.reception with
    | some rx =>
      let ended := awaitRest (endReception s)
      if rx.counts then .next (judged rx none ended) else .next ended
    | none => .next s
  else .next s

/-- SYNC_LOST (R102, R125). -/
def execSyncLost (s : State) : Host.Outcome State Fault Refusal := .next (doSyncLost s)

end Sys2Proof.Machine
end

