-- ==== Sys2Proof/Machine/SlotSteps.lean ====
section
/-! DEFINITION. Meanings of the slot timer's steps and of the steps a slot end brings (R95 to R98, R107, R18, R49, R63,
R122, R140). A step whose condition the state does not meet is not that step and changes nothing (log 3). -/

namespace Sys2Proof.Machine

/-- SILENCE_WINDOW_END (R96): the slot is silent. -/
def execSilenceWindowEnd (s : State) : Host.Outcome State Fault Refusal :=
  if silenceWindowEndDue s then .next { s with timing := s.timing.map fun t => { t with silent := true } } else .next s

/-- SLOT_END (R95, R97): the slot ends, or its end is held for a reception in progress. -/
def execSlotEnd (s : State) : Host.Outcome State Fault Refusal :=
  if slotEndDue s then
    match s.timing with
    | some t => if holdsSlotEnd s t then .next { s with timing := some { t with held := true } } else .next (endSlot t s)
    | none => .next s
  else .next s

/-- HELD_SLOT_END (R97): the held slot end takes place. -/
def execHeldSlotEnd (s : State) : Host.Outcome State Fault Refusal :=
  if heldSlotEndDue s then
    match s.timing with
    | some t => .next (endSlot t s)
    | none => .next s
  else .next s

/-- ABSENCE_REMOVAL (R49, R50). -/
def execAbsenceRemoval (s : State) : Host.Outcome State Fault Refusal := .next (doAbsenceRemoval s)

/-- ORPHAN_FOUNDED (R140). -/
def execOrphanFounded (s : State) : Host.Outcome State Fault Refusal := .next (doOrphanAction s)

/-- LEAVING_COUNT_EXPIRY (R122). -/
def execLeavingCountExpiry (s : State) : Host.Outcome State Fault Refusal := .next (doLeavingExpiry s)

/-- LEASE_EXPIRY (R18). -/
def execLeaseExpiry (s : State) : Host.Outcome State Fault Refusal := .next (doLeaseExpiry s)

/-- WAIT_LIMIT_EXPIRY (R63). -/
def execWaitLimitExpiry (s : State) : Host.Outcome State Fault Refusal := .next (doWaitExpiry s)

/-- FOUNDED (R107). -/
def execFounded (s : State) : Host.Outcome State Fault Refusal :=
  if foundedDue s then .next (enterFounding s) else .next s

end Sys2Proof.Machine
end

