-- ==== Sys2Proof/Machine/Dispatch.lean ====
section
/-! DEFINITION. The dispatch: one arm for each command, one direct call of its meaning. -/

namespace Sys2Proof.Machine

def exec (i : Instr) (s : State) : Host.Outcome State Fault Refusal :=
  match i with
  | .hardReset => Sys2Proof.Machine.execHardReset s
  | .sselAssert mosi => Sys2Proof.Machine.execSselAssert mosi s
  | .commandTransaction mosi => Sys2Proof.Machine.execCommandTransaction mosi s
  | .cut => Sys2Proof.Machine.execCut s
  | .answerTransaction mosi => Sys2Proof.Machine.execAnswerTransaction mosi s
  | .peek => Sys2Proof.Machine.execPeek s
  | .unknownCommand => Sys2Proof.Machine.execUnknownCommand s
  | .configure => Sys2Proof.Machine.execConfigure s
  | .start => Sys2Proof.Machine.execStart s
  | .stop => Sys2Proof.Machine.execStop s
  | .abandon => Sys2Proof.Machine.execAbandon s
  | .acquire => Sys2Proof.Machine.execAcquire s
  | .release => Sys2Proof.Machine.execRelease s
  | .renew => Sys2Proof.Machine.execRenew s
  | .arrive => Sys2Proof.Machine.execArrive s
  | .status => Sys2Proof.Machine.execStatus s
  | .queryLock => Sys2Proof.Machine.execQueryLock s
  | .queryMembers => Sys2Proof.Machine.execQueryMembers s
  | .ownSlotStart => Sys2Proof.Machine.execOwnSlotStart s
  | .echoJudged early samples after => Sys2Proof.Machine.execEchoJudged early samples after s
  | .receptionEnded chars => Sys2Proof.Machine.execReceptionEnded chars s
  | .receptionTimeLimit => Sys2Proof.Machine.execReceptionTimeLimit s
  | .syncLost => Sys2Proof.Machine.execSyncLost s
  | .silenceWindowEnd => Sys2Proof.Machine.execSilenceWindowEnd s
  | .slotEnd => Sys2Proof.Machine.execSlotEnd s
  | .heldSlotEnd => Sys2Proof.Machine.execHeldSlotEnd s
  | .absenceRemoval => Sys2Proof.Machine.execAbsenceRemoval s
  | .orphanFounded => Sys2Proof.Machine.execOrphanFounded s
  | .leavingCountExpiry => Sys2Proof.Machine.execLeavingCountExpiry s
  | .leaseExpiry => Sys2Proof.Machine.execLeaseExpiry s
  | .waitLimitExpiry => Sys2Proof.Machine.execWaitLimitExpiry s
  | .founded => Sys2Proof.Machine.execFounded s
  | .sselNegated => Sys2Proof.Machine.execSselNegated s
  | .receptionBegins low => Sys2Proof.Machine.execReceptionBegins low s
  | .ltxeAsserted => Sys2Proof.Machine.execLtxeAsserted s
  | .transmissionEnd => Sys2Proof.Machine.execTransmissionEnd s

end Sys2Proof.Machine
end

