-- ==== Sys2Proof/Machine/Idle.lean ====
section
/-! DEFINITION. What the part does of itself when no command waits: a step that is due, a host command the command
processor may take, or the passing of a bit time (log 2). -/

namespace Sys2Proof.Machine

/-- The command that takes a record of a kind. -/
def takerOf : CommandKind → Instr
  | .configure => .configure
  | .start => .start
  | .stop => .stop
  | .abandon => .abandon
  | .acquire => .acquire
  | .release => .release
  | .renew => .renew
  | .arrive => .arrive
  | .status => .status
  | .queryLock => .queryLock
  | .queryMembers => .queryMembers

/-- R159: the command processor's step, when the command queue holds a record that may be taken. -/
def hostDue (s : State) : Option Instr :=
  match s.commands with
  | [] => none
  | r :: _ =>
    if mayTake s then
      match readKind r.kind with
      | some k => some (takerOf k)
      | none => some .unknownCommand
    else none

/-- The step the head of the work waits for. -/
def workDue (s : State) : Option Instr :=
  match s.work with
  | .absenceRemoval _ :: _ => some .absenceRemoval
  | .orphanAction :: _ => some .orphanFounded
  | .leavingExpiry :: _ => some .leavingCountExpiry
  | .leaseExpiry _ :: _ => some .leaseExpiry
  | .waitExpiry _ :: _ => some .waitLimitExpiry
  | .syncLost _ _ :: _ => some .syncLost
  | .accounting :: _ | .orphanUpdate :: _ | .leavingUpdate :: _ | .leaseTick _ :: _ | .waitCountdown _ :: _
  | .nextSlot :: _ | [] => none

/-- The step of the line or the slot timer that is due. The echo is judged on what its comparator holds, the reception on what
the receive buffer holds (R83, R87). -/
def lineDue (s : State) : Option Instr :=
  if ownSlotStartDue s then some .ownSlotStart
  else if ltxeDue s then some .ltxeAsserted
  else if transmissionEndDue s then some .transmissionEnd
  else if echoDue s then some (.echoJudged false [] false)
  else if receptionEndDue s then some (.receptionEnded [])
  else if timeLimitDue s then some .receptionTimeLimit
  else if silenceWindowEndDue s then some .silenceWindowEnd
  else if foundedDue s then some .founded
  else if slotEndDue s then some .slotEnd
  else if heldSlotEndDue s then some .heldSlotEnd
  else none

/-- The part's own step that is due. -/
def partDue (s : State) : Option Instr := (workDue s).or (lineDue s)

/-- A step on an empty queue. When a host command and a step of the part are both due, either may be first (R92, R127). -/
def idleStep (s : State) : Host.Outcome State Fault Refusal :=
  match hostDue s, partDue s with
  | none, none => .next (passBitTime s)
  | some c, none => exec c s
  | none, some c => exec c s
  | some h, some p =>
    exec (if Config.hostFirst s.freeIndex then h else p) { s with freeIndex := s.freeIndex + 1 }

end Sys2Proof.Machine
end

