-- ==== Sys2Proof/Safety.lean ====
section
/-! DEFINITION. What claims are stated in: the laws of the spec about each kind of state, as predicates on one state that
hold after reset and that every step is claimed to keep. -/

namespace Sys2Proof.Machine

/-! ## The replica -/

/-- R1, R2, R3: every lock entry has one of its two shapes, a lease level from 1 to 7, and a queue of at most 6 waiters that
names no station twice and never the holder. -/
def LockTableLaw (s : State) : Prop := ∀ lock : LockNo, lockEntryLaw s.locks[lock] = true

/-- R31, R42: every station named in an arrived set is a present member without the joining mark, and no barrier stands
that would pass the completion test. -/
def BarrierLaw (s : State) : Prop :=
  ∀ barrier : BarrierNo, subset s.barriers[barrier].arrived (requiredSet s) = true ∧
    completionTest s.barriers[barrier].arrived (requiredSet s) = false

/-- R6, R40, R42: a lock whose chunk is not installed stands FREE; every holder and waiter named is a present member
without the joining mark; and without chunk 0 nothing is installed and nobody is present. -/
def ReplicaLaw (s : State) : Prop :=
  (∀ lock : LockNo, lockInPlace s lock = false → s.locks[lock] = .free)
    ∧ (∀ lock : LockNo, namesOnly (requiredSet s) s.locks[lock] = true)
    ∧ (membershipHeld s = false →
        s.installed = 0 ∧ (∀ r : StationNo, s.members[r] = none) ∧ ∀ barrier : BarrierNo, s.barriers[barrier] = ⟨0, 0⟩)

/-- R39: every absence count lies below the absence limit. -/
def AbsenceLaw (s : State) : Prop :=
  ∀ r : StationNo, ∀ m, s.members[r] = some m → m.absence < s.cfg.absenceLimit

/-- R129: the installed and the wanted set as the station state has them. -/
def ChunkLaw (s : State) : Prop :=
  match s.station with
  | .unconfigured | .ready | .listening => s.installed = 0 ∧ s.wanted = 0
  | .founding | .synced => s.installed = allChunks ∧ s.wanted = 0
  | .joining => s.wanted = allChunks &&& ~~~ s.installed
  | .leaving => s.wanted = 0

/-! ## The host's records and queues -/

/-- R69: requests and barrier records exist only in JOINING and SYNCED. -/
def RecordsLaw (s : State) : Prop :=
  s.station = .joining ∨ s.station = .synced ∨
    ((∀ lock : LockNo, s.requests[lock] = none) ∧ ∀ barrier : BarrierNo, s.barrierRecords[barrier] = none)

/-- R56: at most 16 requests. -/
def RequestCountLaw (s : State) : Prop := requestCount s ≤ 16

/-- R174: the count of an overrun marker lies from 1 to 255. -/
def markerInRange : Answer → Prop
  | .overrun count => 1 ≤ count ∧ count ≤ 255
  | .accepted .. | .refused .. | .status .. | .lockInfo .. | .members .. | .event _ => True

/-- The record is an overrun marker. -/
def isMarker : Answer → Prop
  | .overrun _ => True
  | .accepted .. | .refused .. | .status .. | .lockInfo .. | .members .. | .event _ => False

/-- R169, R173, R174: at most 32 records, an overrun marker last whenever there are 32, and every marker's count in its
range. -/
def AnswerQueueLaw (s : State) : Prop :=
  s.answers.length ≤ 32 ∧ (s.answers.length = 32 → ∃ a, s.answers.getLast? = some a ∧ isMarker a)
    ∧ ∀ a ∈ s.answers, markerInRange a

/-- The command record in progress found room in the command queue (R155). -/
def hasRoom : PortPhase → Bool
  | .code room => room
  | .collecting _ => true
  | .idle | .awaitNegation | .badCount | .taken | .full | .answering _ _ | .peeking | .ignored => false

/-- R153, R155, R158: at most 8 command records of at most 15 parameters, and fewer than 8 while one is being received. -/
def CommandQueueLaw (s : State) : Prop :=
  s.commands.length ≤ 8 ∧ (hasRoom s.port = true → s.commands.length < 8) ∧ ∀ r ∈ s.commands, r.params.length ≤ 15

/-! ## Configuration, timing and the line -/

/-- Table 7-1: every value of a configuration lies in its range. -/
def StationConfig.inRange (c : StationConfig) : Prop :=
  2 ≤ c.roundSize ∧ c.roundSize ≤ 16 ∧ c.number.val < c.roundSize ∧ 1000 ≤ c.slotLength ∧ c.slotLength ≤ 8191
    ∧ 4 ≤ c.divisor ∧ c.divisor ≤ 4095 ∧ 2 ≤ c.absenceLimit ∧ c.absenceLimit ≤ 8
    ∧ (c.leasePeriod = 1 ∨ c.leasePeriod = 2 ∨ c.leasePeriod = 4 ∨ c.leasePeriod = 8)

/-- R111, R116: a configuration is held in every state but UNCONFIGURED, and its values lie in their ranges. -/
def ConfigLaw (s : State) : Prop :=
  match s.config with
  | none => s.station = .unconfigured
  | some c => s.station ≠ .unconfigured ∧ c.inRange

/-- R94: the timing status as the station state has it, and a current slot below N. -/
structure TimingLaw (s : State) : Prop where
  confirmed : participates s = true → ∃ t, s.timing = some t ∧ t.confirmed = true
  tentative : s.station = .listening → ∀ t, s.timing = some t → t.confirmed = false
  none : s.station = .unconfigured ∨ s.station = .ready → s.timing = none
  slot : ∀ t, s.timing = some t → t.slot.val < s.cfg.roundSize

/-- R80, R112: the line is driven, and an own frame is on its way, only in a state that transmits; LTX stands at 1
whenever LTXE is negated. -/
def LineLaw (s : State) : Prop :=
  (s.ltxe = false → s.ltx = true) ∧ (s.ltxe = true ∨ s.echo ≠ none → participates s = true)

/-- R151: the phase of a transaction agrees with SSEL, and fewer than eight bits of a byte are waiting for the rest. -/
def PortLaw (s : State) : Prop := (s.port = .idle ↔ s.ssel = false) ∧ s.shiftIn.length < 8

/-- All the laws together. -/
structure Laws (s : State) : Prop where
  lockTable : LockTableLaw s
  barriers : BarrierLaw s
  replica : ReplicaLaw s
  absence : AbsenceLaw s
  chunks : ChunkLaw s
  records : RecordsLaw s
  requestCount : RequestCountLaw s
  answers : AnswerQueueLaw s
  commands : CommandQueueLaw s
  config : ConfigLaw s
  timing : TimingLaw s
  line : LineLaw s
  port : PortLaw s

/-! ## Words that claims are stated in -/

/-- R159, R160: the record at the head is of the given kind, carries the parameters its kind needs, and may be taken. -/
structure Takes (kind : CommandKind) (r : CommandRecord) (rest : List CommandRecord) (s : State) : Prop where
  head : s.commands = r :: rest
  kindIs : r.kind = kindByte kind
  count : countNeeded kind ≤ r.params.length
  room : s.answers.length ≤ 30
  quiet : s.work = []

/-- The head record has been taken and its one reply placed. -/
def State.answered (s : State) (rest : List CommandRecord) (reply : Answer) : State :=
  { s with commands := rest, answers := s.answers ++ [reply] }

/-- Events placed one after another. -/
def placeEvents (events : List Event) (s : State) : State := events.foldl (fun s e => placeEvent e s) s

/-- R68: the LOST events of a station's records: its requests in ascending lock order, then its barrier records in
ascending barrier order. -/
def lostEvents (s : State) : List Event :=
  (allLocks.filterMap fun L => (s.requests[L]).map fun q => .lost q.tag (.lock L))
    ++ allBarriers.filterMap fun b => (s.barrierRecords[b]).map fun q => .lost q.tag (.barrier b)

/-- R4, R28, R40: the replica at its discard values. -/
def State.withoutReplica (s : State) : State :=
  { s with
    locks := Vector.replicate 64 .free
    barriers := Vector.replicate 8 ⟨0, 0⟩
    members := Vector.replicate 16 none }

/-- R68: no request, no barrier record, no intent. -/
def State.withoutRecords (s : State) : State :=
  { s with requests := Vector.replicate 64 none, barrierRecords := Vector.replicate 8 none, outbox := [] }

/-- R129, R145: the catch-up unit's sets as given, with its counts and record clear, and the tally at its start. -/
def State.withChunks (s : State) (installed wanted : ChunkSet) : State :=
  { s with
    installed := installed
    wanted := wanted
    gathered := 0
    orphanCount := 0
    joinHeard := 0
    matchCount := 1
    mismatchCount := 0 }

/-- R89, R94, R115: no timing, no transmission, nothing left of a slot end or frame. -/
def State.withoutTiming (s : State) : State :=
  { s with
    timing := none
    silence := 0
    disagreement := 0
    work := []
    foundingOpen := false
    leavingFromJoining := false
    txBuffer := []
    echo := none
    ltxe := false
    ltx := true }

/-- R115: the station as a transition to READY leaves it, but for the answer queue and the notice set. That a wait of the
receiver ends is the model's choice (log 30). -/
def State.atRest (s : State) : State :=
  { (((s.withoutRecords).withoutReplica).withChunks 0 0).withoutTiming with
    station := .ready
    reception := none
    rxBuffer := []
    lineWait := 0
    leavingCount := 0 }

/-- A reception that goes on into LISTENING or FOUNDING belongs to no slot (R84; log 15). -/
def Reception.placeless (rx : Reception) : Reception := { rx with place := none, late := false, counts := true }

/-- R115: the station as a transition to LISTENING leaves it, but for the answer queue and the notice set. That a wait of
the receiver goes on, and a reception with it, is the model's choice (logs 15, 30). -/
def State.atListening (s : State) : State :=
  { (((s.withoutRecords).withoutReplica).withChunks 0 0).withoutTiming with
    station := .listening
    reception := s.reception.map Reception.placeless }

/-- The slot phases: a slot that has just begun (R95, R96). -/
def freshSlot (confirmed : Bool) (slot : StationNo) (round : Word16) (own : Bool) : Timing :=
  { confirmed := confirmed, slot := slot, round := round, phase := 0, windowHeard := false, silent := false,
    begun := false, startBit := false, usable := none, echoCorrupt := false, held := false, ownStartDue := own }

/-- R95, R98: the slot that follows a slot, with its round. -/
def Timing.following (t : Timing) (roundSize : Nat) (own : StationNo → Bool) : Timing :=
  if t.slot.val + 1 < roundSize then freshSlot t.confirmed (t.slot + 1) t.round (own (t.slot + 1))
  else freshSlot t.confirmed 0 (t.round + 1) (own 0)

/-- The characters a receiver gathers from a frame's bytes: each with its stop bit at 1. -/
def charsOf (bytes : List Byte) : List RxChar := bytes.map fun b => b.setWidth 9 ||| 0x100#9

/-- The sizes and numbers of Table 5-2 and R85: the chunk's body has its length, at most six items, a LEAVE stands alone,
and a JOIN frame carries no other item. -/
structure Frame.proper (f : Frame) : Prop where
  items : f.items.length ≤ 6
  chunk : ∀ c, f.chunk = some c → c.body.length = if c.number = 0 then 36 else 72
  leave : Item.leave ∈ f.items → f.items = [.leave]
  join : f.join = true → ∀ i ∈ f.items, i = .leave

/-- R151: the levels on MOSI or MISO of whole bytes, one after another, each most significant bit first. -/
def bitsOf (bytes : List Byte) : List Bool := bytes.flatMap msbBits

/-- R83: the state once a reception has ended with the line at 1 for four bit times. -/
def State.received (s : State) : State :=
  { s with reception := none, rxBuffer := [], lrxLow := 0, lineHigh := 4, lineWait := 0 }

/-- No lease runs and no wait is counted: a round end brings nothing but the next slot (R17, R63). -/
def nothingRuns (s : State) : Prop :=
  (∀ lock : LockNo, ∀ holder level waiters, s.locks[lock] ≠ .held holder (some level) waiters)
    ∧ ∀ lock : LockNo, ∀ q, s.requests[lock] = some q → q.counts = false

end Sys2Proof.Machine
end

