-- ==== Sys2Proof/Certificates/Slice0/Obligations.lean ====
section
/-! DEFINITION. The statements for the provers, one `def Obligations.<Name> : Prop` each; OBLIGATIONS.json lists them. -/

open Sys2Proof Sys2Proof.Machine

/-! ## The queue of commands, time, and reset -/

/-- With a command at the front of the queue, a step is exec of that command on the queue's rest (log 1). -/
def Obligations.QueuedCommandRuns : Prop :=
  ∀ (c : Instr) (rest : List Instr) (s : State),
    step { s with pending := c :: rest } = exec c { s with pending := rest }

/-- With no command waiting and nothing due, one bit time passes: the slot phase, the silence timer and the age of a
reception move on by one, and LTX follows the frame's bits. The receiver samples LRX, which is at 0 while `lrxLow` bit times
of 0 are left: outside a character it counts the bit times at 1, up to four; within one it gathers ten samples, of which the
last nine are the character, kept in the receive buffer unless the reception is overlong or too long; a stop bit at 0 makes
the receiver wait for the line to stand at 1 for one bit time (R79, R80, R83, R95, R103). The echo comparator takes the same
sample from the first start bit sent to the last stop bit sent (R87). That an empty queue stands for the passing of one bit
time is the model's choice (log 2). -/
def Obligations.IdleStepPassesABitTime : Prop :=
  ∀ s : State, s.pending = [] → hostDue s = none → partDue s = none →
    let level : Bool := decide (s.lrxLow = 0)
    let phase := match s.timing with
      | none => 0
      | some t => t.phase + 1
    let passed : State := { s with
      timing := s.timing.map fun t => { t with phase := t.phase + 1 }
      silence := if s.station = .listening then s.silence + 1 else s.silence
      lrxLow := s.lrxLow - 1
      echo := s.echo.map fun e =>
        let sampled : Bool := s.timing.any fun t =>
          decide (16 ≤ t.phase ∧ t.phase < 16 + 10 * (frameBytes e.frame).length)
        { e with samples := if sampled then e.samples ++ [level] else e.samples }
      txBuffer := if 16 + 10 * s.txBuffer.length ≤ phase then [] else s.txBuffer
      ltx := !s.ltxe || decide (phase < 16) || (lineBits s.txBuffer).getD (phase - 16) true }
    let high := if level then min (s.lineHigh + 1) 4 else 0
    (s.reception = none → step s = .next { passed with lineHigh := high })
    ∧ ∀ rx : Reception, s.reception = some rx →
      (rx.samples = none → step s = .next { passed with
        reception := some { rx with age := rx.age + 1 }, lineHigh := high })
      ∧ (∀ taken : List Bool, rx.samples = some taken → taken.length < 9 → step s = .next { passed with
        reception := some { rx with age := rx.age + 1, samples := some (taken ++ [level]) } })
      ∧ ∀ (taken : List Bool) (c : RxChar), rx.samples = some taken → taken.length = 9 →
        (∀ i : Fin 9, c.getLsbD i.val = (taken ++ [level]).getD (i.val + 1) false) →
        step s = .next { passed with
          reception := some { rx with age := rx.age + 1, samples := none }
          rxBuffer := if rx.excess then s.rxBuffer else s.rxBuffer ++ [c]
          lineHigh := 0
          lineWait := if level then 0 else 1 }

/-- HARD_RESET sets every block to its reset values (R4, R28, R40, R69, R73, R78, R94, R111, R129, R145, R151, R158, R169,
R172, R175), whatever the state was. With SSEL still asserted its negation is awaited (R151). The rest is the model's choice:
an empty record of MISO (log 7), no wait of the receiver and no bit time at 1 counted (log 30), leavingFromJoining and
foundingOpen false (log 17), the inputs SSEL and LRX kept as the surroundings drive them (log 19), no work, and the queue of
commands and the free counter kept (log 16). -/
def Obligations.HardResetSetsEveryBlock : Prop :=
  ∀ s : State, exec .hardReset s = .next
    { station := .unconfigured, config := none, leavingCount := 0, leavingFromJoining := false, foundingOpen := false
      locks := Vector.replicate 64 .free
      barriers := Vector.replicate 8 ⟨0, 0⟩
      members := Vector.replicate 16 none
      requests := Vector.replicate 64 none
      barrierRecords := Vector.replicate 8 none
      outbox := []
      txBuffer := [], rxBuffer := [], reception := none, echo := none, ltxe := false, ltx := true
      lineWait := 0, lineHigh := 0, lrxLow := s.lrxLow
      timing := none, silence := 0, disagreement := 0
      installed := 0, wanted := 0, gathered := 0, orphanCount := 0, joinHeard := 0
      matchCount := 1, mismatchCount := 0
      port := if s.ssel then .awaitNegation else .idle
      cut := false, ssel := s.ssel, shiftIn := [], shiftOut := [], miso := []
      commands := [], answers := [], eventMask := 0b1111#4, notices := 0
      work := [], freeIndex := s.freeIndex, pending := s.pending }

/-- The state after a hard reset meets every law of Safety.lean. -/
def Obligations.ResetMeetsTheLaws : Prop := Laws State.reset

/-! ## Host port -/

/-- SSEL_ASSERT in the idle phase: the port status is captured and shifted out first, most significant bit first, and the
room of the command queue is tested once (R155). Fewer than eight cycles leave the code byte incomplete; one that completes
is acted on: COMMAND, ANSWER with the head record fixed and its first byte next on MISO, PEEK with the cut indication cleared,
and any other code without effect (R151, R152, R156, R157). With SSEL asserted the row's cycles go on with the transaction in
progress: bytes of 00h follow a PEEK or an unknown code (R151, R157), and cycles given in two rows act as those of one; that
a second assertion row stands for further cycles is the model's choice (log 6). -/
def Obligations.AssertionBeginsATransaction : Prop :=
  ∀ s : State,
    (s.ssel = false → s.port = .idle →
      let room : Bool := decide (s.commands.length < 8)
      let status := bitsOf [portStatus s]
      let next (out : Byte) : State :=
        { s with ssel := true, shiftIn := [], shiftOut := bitsOf [out], miso := status }
      (∀ mosi : List Bool, mosi.length < 8 → exec (.sselAssert mosi) s = .next { s with
          ssel := true, port := .code room, shiftIn := mosi
          shiftOut := status.drop mosi.length, miso := status.take mosi.length })
        ∧ exec (.sselAssert (bitsOf [0x01#8])) s = .next { next 0 with port := if room then .collecting [] else .full }
        ∧ (s.answers = [] →
            exec (.sselAssert (bitsOf [0x02#8])) s = .next { next 0 with port := .answering [0x00#8] false })
        ∧ (∀ a rest, s.answers = a :: rest → exec (.sselAssert (bitsOf [0x02#8])) s =
            .next { next ((answerBytes a).headD 0) with port := .answering (answerBytes a) true })
        ∧ exec (.sselAssert (bitsOf [0x03#8])) s = .next { next 0 with port := .peeking, cut := false }
        ∧ ∀ code : Byte, code ≠ 0x01#8 → code ≠ 0x02#8 → code ≠ 0x03#8 →
            exec (.sselAssert (bitsOf [code])) s = .next { next 0 with port := .ignored })
    ∧ (∀ bytes : List Byte, s.ssel = true → s.port = .peeking ∨ s.port = .ignored → s.shiftIn = [] →
        s.shiftOut = bitsOf [0x00#8] → exec (.sselAssert (bitsOf bytes)) s = .next { s with
          miso := s.miso ++ bitsOf (List.replicate bytes.length 0x00#8) })
    ∧ ∀ (first later : List Bool) (t : State), s.ssel = true ∨ s.port = .idle →
        exec (.sselAssert first) s = .next t →
        exec (.sselAssert later) t = exec (.sselAssert (first ++ later)) s

/-- Table 12-1: the port status byte carries the station state's code (Table 12-2) in bits 0 to 3, answers waiting, which
ATTN shows (R176), in bit 4, the command queue full in bit 5, the cut indication in bit 6, and 0 in bit 7. Tables 12-4 to
12-6: the bytes of every answer record, its kind, its whole length, and its fields (R179). A byte travels most significant
bit first (R151). -/
def Obligations.PortStatusAndAnswerRecordLayouts : Prop :=
  let state : StationState → Byte := fun
    | .unconfigured => 0x00 | .ready => 0x01 | .listening => 0x02 | .founding => 0x03
    | .joining => 0x04 | .synced => 0x05 | .leaving => 0x06
  let reason : RefusalReason → Byte := fun
    | .unknownCommand => 0x01 | .shortRecord => 0x02 | .badState => 0x03 | .badConfig => 0x04 | .badLock => 0x05
    | .badBarrier => 0x06 | .busy => 0x07 | .tableFull => 0x08 | .notHolder => 0x09 | .notLeased => 0x0A
  let cause : StateCause → Byte := fun
    | .configured => 0x01 | .started => 0x02 | .timingAcquired => 0x03 | .founded => 0x04 | .numberInUse => 0x05
    | .stopped => 0x06 | .foundingComplete => 0x07 | .foundingAbandoned => 0x08 | .caughtUp => 0x09
    | .orphanFounded => 0x0A | .diverged => 0x0B | .stopping => 0x0C | .left => 0x0D | .syncLost => 0x0E
    | .evicted => 0x0F | .abandoned => 0x10
  let leave : LeaveCause → Byte := fun
    | .absent => 0x01 | .leave => 0x02 | .rejoin => 0x03
  let number (n : Nat) : Byte := BitVec.ofNat 8 n
  let lease : Option (BitVec 3) → Byte := fun
    | none => 0x00
    | some level => number (128 + level.toNat)
  let waiter (w : Waiter) : Byte := number (w.station.val + if w.leased then 128 else 0)
  let lock (l : LockNo) : Byte := number l.val
  (∀ b : Byte, bitsOf [b] =
      [b.getLsbD 7, b.getLsbD 6, b.getLsbD 5, b.getLsbD 4, b.getLsbD 3, b.getLsbD 2, b.getLsbD 1, b.getLsbD 0])
    ∧ (∀ s : State,
        s.attn = decide (s.answers ≠ [])
          ∧ (portStatus s).extractLsb' 0 4 = (state s.station).setWidth 4
          ∧ (portStatus s).getLsbD 4 = s.attn
          ∧ (portStatus s).getLsbD 5 = decide (8 ≤ s.commands.length)
          ∧ (portStatus s).getLsbD 6 = s.cut
          ∧ (portStatus s).getLsbD 7 = false)
    ∧ (∀ tag kind : Byte, answerBytes (.accepted tag kind) = [0x01, 4, tag, kind])
    ∧ (∀ (tag kind : Byte) (r : RefusalReason), answerBytes (.refused tag kind r) = [0x02, 5, tag, kind, reason r])
    ∧ (∀ (tag : Byte) (c : StatusContent), answerBytes (.status tag c) =
        [0x03, 13, tag, state c.state, number (c.round.toNat % 256), number (c.round.toNat / 256), number c.present
          , number c.requests, number c.intents, number (c.installed.toNat % 256), number (c.installed.toNat / 256)
          , number (c.notices.toNat % 256), number (c.notices.toNat / 256)])
    ∧ (∀ (tag : Byte) (l : LockNo),
        answerBytes (.lockInfo tag l .unknown) = [0x04, 5, tag, lock l, 0x00]
          ∧ answerBytes (.lockInfo tag l (.known .free)) = [0x04, 5, tag, lock l, 0x01]
          ∧ ∀ (holder : StationNo) (level : Option (BitVec 3)) (waiters : List Waiter),
            answerBytes (.lockInfo tag l (.known (.held holder level waiters))) =
              [0x04, number (8 + waiters.length), tag, lock l, 0x02, number holder.val, lease level
                , number waiters.length] ++ waiters.map waiter)
    ∧ (∀ (tag : Byte) (held : Bool) (list : List (StationNo × Member)),
        (∀ m ∈ list, m.2.absence < 8) → answerBytes (.members tag held list) =
          [0x05, number (5 + list.length), tag, if held then 0x01 else 0x00, number list.length]
            ++ list.map fun m => number (m.1.val + (if m.2.joining then 16 else 0) + 32 * m.2.absence))
    ∧ (∀ (tag : Byte) (l : LockNo),
        answerBytes (.event (.granted tag l)) = [0x10, 4, tag, lock l]
          ∧ (∀ position : Nat, answerBytes (.event (.queued tag l position)) =
              [0x11, 5, tag, lock l, number position])
          ∧ answerBytes (.event (.released tag l)) = [0x12, 4, tag, lock l]
          ∧ answerBytes (.event (.cancelled tag l)) = [0x13, 4, tag, lock l]
          ∧ answerBytes (.event (.timedOut tag l)) = [0x14, 4, tag, lock l]
          ∧ answerBytes (.event (.leaseLost tag l)) = [0x15, 4, tag, lock l]
          ∧ answerBytes (.event (.queueRefused tag l)) = [0x16, 4, tag, lock l]
          ∧ answerBytes (.event (.lost tag (.lock l))) = [0x17, 5, tag, 0x00, lock l])
    ∧ (∀ (tag : Byte) (b : BarrierNo) (generation : BitVec 8),
        answerBytes (.event (.lost tag (.barrier b))) = [0x17, 5, tag, 0x01, number b.val]
          ∧ answerBytes (.event (.barrierDone tag b generation)) = [0x18, 5, tag, number b.val, generation])
    ∧ (∀ r : StationNo,
        answerBytes (.event (.memberJoined r)) = [0x20, 3, number r.val]
          ∧ answerBytes (.event (.memberSynced r)) = [0x21, 3, number r.val]
          ∧ (∀ c : LeaveCause, answerBytes (.event (.memberLeft r c)) = [0x22, 4, number r.val, leave c])
          ∧ answerBytes (.event (.digestMismatch r)) = [0x23, 3, number r.val])
    ∧ (∀ (r : StationState) (c : StateCause), answerBytes (.event (.state r c)) = [0x28, 4, state r, cause c])
    ∧ ∀ count : Nat, answerBytes (.overrun count) = [0x2F, 3, number count]

/-- COMMAND_TRANSACTION with room: as soon as the last parameter byte is complete, the record is taken whole into the tail
of the command queue, whatever bytes follow, and whatever part of it earlier rows of the transaction have clocked in; MISO
shows the rest of the status byte while the code byte completes, and then 00h throughout (R153). A row that begins before
the code byte is complete completes it first, with the room that was found at the assertion (R155; log 6). -/
def Obligations.CommandRecordIsTakenWhole : Prop :=
  ∀ s : State, s.ssel = true →
    (∀ (room : Bool) (k : Nat) (mosi : List Bool), s.port = .code room → k < 8 →
      s.shiftIn = (bitsOf [0x01#8]).take k → s.shiftOut.length = 8 - k →
      exec (.commandTransaction mosi) s = exec (.commandTransaction mosi) { s with
        port := if room then .collecting [] else .full
        shiftIn := []
        shiftOut := bitsOf [0x00#8]
        miso := s.miso ++ s.shiftOut })
    ∧ ∀ (kind tag : Byte) (params earlier later more : List Byte), s.port = .collecting earlier → s.shiftIn = [] →
      s.shiftOut = bitsOf [0x00#8] → params.length ≤ 15 →
      earlier ++ later = kind :: tag :: byteOf params.length :: params → later ≠ [] →
      exec (.commandTransaction (bitsOf (later ++ more))) s = .next { s with
        commands := s.commands ++ [{ kind := kind, tag := tag, params := params }]
        port := .taken
        miso := s.miso ++ bitsOf (List.replicate (later.length + more.length) 0x00#8) }

/-- COMMAND_TRANSACTION that takes no record: a record not yet whole, its header included, whose bytes are held with those
of earlier rows; a count above 15, which ends the reception (R153); and bytes after that, after a record that was taken, or
in a transaction that found the queue full, which are ignored (R155). -/
def Obligations.NoRecordIsTakenInPart : Prop :=
  ∀ s : State, s.ssel = true → s.shiftIn = [] → s.shiftOut = bitsOf [0x00#8] →
    (∀ (kind tag count : Byte) (earlier later : List Byte), s.port = .collecting earlier → earlier.length ≤ 2 →
      (∃ more, earlier ++ later = kind :: tag :: count :: more) → 15 < count.toNat →
      exec (.commandTransaction (bitsOf later)) s = .next { s with
        port := .badCount, miso := s.miso ++ bitsOf (List.replicate later.length 0x00#8) })
    ∧ (∀ earlier later : List Byte, s.port = .collecting earlier →
        ((earlier ++ later).length ≤ 2 ∨ ∃ kind tag count params, earlier ++ later = kind :: tag :: count :: params
          ∧ count.toNat ≤ 15 ∧ params.length < count.toNat) →
        exec (.commandTransaction (bitsOf later)) s = .next { s with
          port := .collecting (earlier ++ later)
          miso := s.miso ++ bitsOf (List.replicate later.length 0x00#8) })
    ∧ ∀ bytes : List Byte, s.port = .full ∨ s.port = .badCount ∨ s.port = .taken →
        exec (.commandTransaction (bitsOf bytes)) s = .next { s with
          miso := s.miso ++ bitsOf (List.replicate bytes.length 0x00#8) }

/-- CUT and SSEL_NEGATED: a negation of SSEL ends the transaction in any phase, and the bits of a byte begun are dropped.
One that has completed the code byte of a COMMAND transaction whose record is not taken, a count above 15 included, drops the
bytes and sets the cut indication; any other leaves it as it stands (R151, R154). -/
def Obligations.NegationEndsTheTransaction : Prop :=
  ∀ s : State, s.ssel = true →
    let ended : State := { s with ssel := false, port := .idle, shiftIn := [], shiftOut := [] }
    ((∃ bytes, s.port = .collecting bytes) ∨ s.port = .badCount →
      exec .cut s = .next { ended with cut := true } ∧ exec .sselNegated s = .next { ended with cut := true })
    ∧ ((∀ bytes, s.port ≠ .collecting bytes) → s.port ≠ .badCount → exec .sselNegated s = .next ended)

/-- ANSWER_TRANSACTION: the code byte completes with the head record fixed; the bytes go out one after another, whatever
MOSI shows, over as many rows as the cycles are given in. The record leaves the queue when its last byte is clocked out, and
00h follows; one not yet whole stays; the single 00h of an empty queue removes nothing (R156). PEEK: when its code byte is
complete the cut indication is cleared, and no queue and no other state changes (R157). A row that begins before the code
byte is complete completes it first (log 6). -/
def Obligations.AnswerIsClockedOutAndPeekClearsTheCut : Prop :=
  ∀ s : State, s.ssel = true →
    (∀ (room : Bool) (k : Nat), s.port = .code room → k < 8 → s.shiftOut.length = 8 - k →
      (s.shiftIn = (bitsOf [0x03#8]).take k → exec .peek s = .next { s with
        port := .peeking, cut := false, shiftIn := [], shiftOut := bitsOf [0x00#8], miso := s.miso ++ s.shiftOut })
      ∧ (s.shiftIn = (bitsOf [0x02#8]).take k → ∀ mosi : List Bool,
        (s.answers = [] → exec (.answerTransaction mosi) s = exec (.answerTransaction mosi) { s with
          port := .answering [0x00#8] false
          shiftIn := [], shiftOut := bitsOf [0x00#8], miso := s.miso ++ s.shiftOut })
        ∧ ∀ a rest, s.answers = a :: rest → exec (.answerTransaction mosi) s = exec (.answerTransaction mosi) { s with
          port := .answering (answerBytes a) true
          shiftIn := [], shiftOut := bitsOf [(answerBytes a).headD 0], miso := s.miso ++ s.shiftOut }))
    ∧ ∀ (bytes : List Byte) (removes : Bool) (mosi : List Bool), s.port = .answering bytes removes → s.shiftIn = [] →
      s.shiftOut = bitsOf [bytes.headD 0] →
      (mosi.length < 8 → exec (.answerTransaction mosi) s = .next { s with
        shiftIn := mosi, shiftOut := s.shiftOut.drop mosi.length, miso := s.miso ++ s.shiftOut.take mosi.length })
      ∧ ∀ n : Nat, mosi.length = 8 * n →
        (n < bytes.length → exec (.answerTransaction mosi) s = .next { s with
          port := .answering (bytes.drop n) removes
          shiftOut := bitsOf [(bytes.drop n).headD 0]
          miso := s.miso ++ bitsOf (bytes.take n) })
        ∧ (bytes ≠ [] → bytes.length ≤ n → exec (.answerTransaction mosi) s = .next { s with
          port := .answering [] false
          answers := if removes then s.answers.tail else s.answers
          shiftOut := bitsOf [0x00#8]
          miso := s.miso ++ bitsOf (bytes ++ List.replicate (n - bytes.length) 0x00#8) })
        ∧ (bytes = [] → exec (.answerTransaction mosi) s = .next { s with
          miso := s.miso ++ bitsOf (List.replicate n 0x00#8) })

/-! ## Command processor: checks -/

/-- Table 12-3: the code of each kind and the count of parameters it needs; Table 7-3: the states in which it acts. Checks 1
to 3 of Table 10-3, in that order: a record whose kind is none of the eleven codes is refused with UNKNOWN_COMMAND; for each of
the eleven kinds, one with too few parameter bytes with SHORT_RECORD, and one whose kind does not act in the station state
with BAD_STATE. The refused record leaves the queue and has no other effect (R113, R160). -/
def Obligations.FirstThreeChecksRefuse : Prop :=
  let code : CommandKind → Byte := fun
    | .configure => 0x10 | .start => 0x11 | .stop => 0x12 | .abandon => 0x13 | .acquire => 0x20 | .release => 0x21
    | .renew => 0x22 | .arrive => 0x23 | .status => 0x30 | .queryLock => 0x31 | .queryMembers => 0x32
  let needs : CommandKind → Nat := fun
    | .configure => 9 | .acquire => 3 | .release => 1 | .renew => 1 | .arrive => 1 | .queryLock => 1
    | .start => 0 | .stop => 0 | .abandon => 0 | .status => 0 | .queryMembers => 0
  let states : CommandKind → List StationState := fun
    | .configure => [.unconfigured]
    | .start => [.ready]
    | .stop => [.listening, .founding, .joining, .synced]
    | .abandon => [.listening, .founding, .joining, .synced, .leaving]
    | .acquire => [.joining, .synced]
    | .release => [.joining, .synced]
    | .renew => [.synced]
    | .arrive => [.joining, .synced]
    | .status => [.unconfigured, .ready, .listening, .founding, .joining, .synced, .leaving]
    | .queryLock => [.ready, .listening, .founding, .joining, .synced, .leaving]
    | .queryMembers => [.ready, .listening, .founding, .joining, .synced, .leaving]
  ∀ (s : State) (r : CommandRecord) (rest : List CommandRecord),
    s.commands = r :: rest → s.work = [] → s.answers.length ≤ 30 →
    ((∀ kind, r.kind ≠ code kind) →
      exec .unknownCommand s = .next (s.answered rest (.refused r.tag r.kind .unknownCommand)))
    ∧ ∀ kind : CommandKind,
      (kindByte kind = code kind ∧ countNeeded kind = needs kind ∧
        ∀ state, actsIn kind state = decide (state ∈ states kind))
      ∧ (r.kind = code kind →
        (r.params.length < needs kind →
          exec (takerOf kind) s = .next (s.answered rest (.refused r.tag r.kind .shortRecord)))
        ∧ (needs kind ≤ r.params.length → s.station ∉ states kind →
          exec (takerOf kind) s = .next (s.answered rest (.refused r.tag r.kind .badState))))

/-! ## Lifecycle commands -/

/-- CONFIGURE in UNCONFIGURED. With every value in its range (Table 7-1): the reply, then the configuration record and the
event mask are set, and the station is READY with a STATE event of cause CONFIGURED; the nine parameter bytes are those of
Table 12-3, and bytes beyond them are ignored. With a value outside its range: BAD_CONFIG, and nothing else changes (R116,
R160, R172, R177, R178). -/
def Obligations.ConfigureStoresOrRefuses : Prop :=
  ∀ (s : State) (rest : List CommandRecord), s.station = .unconfigured →
    (∀ (c : StationConfig) (tag : Byte) (more : List Byte), c.inRange → s.work = [] → s.answers.length ≤ 30 →
      let record : CommandRecord :=
        { kind := 0x10#8, tag := tag
          params := [byteOf c.number.val, byteOf c.roundSize, byteOf (c.slotLength % 256), byteOf (c.slotLength / 256),
            byteOf (c.divisor % 256), byteOf (c.divisor / 256), byteOf c.absenceLimit, byteOf c.leasePeriod,
            c.eventMask.setWidth 8] ++ more }
      s.commands = record :: rest →
        exec .configure s = .next (placeEvent (.state .ready .configured)
          { s.answered rest (.accepted tag 0x10#8) with
            station := .ready, config := some c, eventMask := c.eventMask, leavingCount := 0
            matchCount := 1, mismatchCount := 0 }))
    ∧ ∀ r : CommandRecord, Takes .configure r rest s →
      let number := (param r 0).toNat
      let roundSize := (param r 1).toNat
      let slotLength := (param r 2).toNat + 256 * (param r 3).toNat
      let divisor := (param r 4).toNat + 256 * (param r 5).toNat
      let absenceLimit := (param r 6).toNat
      let leasePeriod := (param r 7).toNat
      (roundSize < 2 ∨ 16 < roundSize ∨ roundSize ≤ number ∨ slotLength < 1000 ∨ 8191 < slotLength ∨ divisor < 4
        ∨ 4095 < divisor ∨ absenceLimit < 2 ∨ 8 < absenceLimit ∨ leasePeriod ∉ [1, 2, 4, 8] ∨ 16 ≤ (param r 8).toNat) →
        exec .configure s = .next (s.answered rest (.refused r.tag r.kind .badConfig))

/-- START in READY: the reply, then LISTENING with cause STARTED: no timing, the silence timer at 0, no replica and no
records (R117). That no records exist in READY is the premise (R69). That a wait of the receiver goes on over the entry to
LISTENING is the model's choice (log 30), and so is what becomes of a reception (log 15), which READY does not hold. -/
def Obligations.StartBeginsToListen : Prop :=
  ∀ (s : State) (r : CommandRecord) (rest : List CommandRecord),
    Takes .start r rest s → s.station = .ready → RecordsLaw s →
      exec .start s = .next (placeEvent (.state .listening .started) (s.answered rest (.accepted r.tag r.kind)).atListening)

/-- STOP. In LISTENING the station becomes READY with cause STOPPED. In FOUNDING, JOINING and SYNCED the records end LOST
in order, the outbox holds one LEAVE intent, the wanted set is emptied, and the station is LEAVING with cause STOPPING;
replica, timing and a transmission in progress stay (R121, R68, R129). The field leavingFromJoining (log 17), and the end of a
wait of the receiver at the entry to READY (log 30), are the model's choices. -/
def Obligations.StopEndsTheRecords : Prop :=
  ∀ (s : State) (r : CommandRecord) (rest : List CommandRecord), Takes .stop r rest s →
    (s.station = .listening → RecordsLaw s →
      exec .stop s = .next (placeEvent (.state .ready .stopped) (s.answered rest (.accepted r.tag r.kind)).atRest))
    ∧ (s.station = .founding ∨ s.station = .joining ∨ s.station = .synced →
      exec .stop s = .next (placeEvent (.state .leaving .stopping)
        { ((placeEvents (lostEvents s) (s.answered rest (.accepted r.tag r.kind))).withoutRecords).withChunks
            s.installed 0 with
          station := .leaving
          outbox := [{ kind := .leave, inFlight := false, trailing := .none }]
          leavingCount := 0
          leavingFromJoining := decide (s.station = .joining)
          foundingOpen := false }))

/-- ABANDON in LISTENING, FOUNDING, JOINING, SYNCED and LEAVING: after the reply the records end LOST in order, and the
station is READY with cause ABANDONED: replica, timing, catch-up items and a transmission in progress are gone (R115,
R123, R68, R89). That a wait of the receiver ends with the entry to READY is the model's choice (log 30). -/
def Obligations.AbandonReturnsToReady : Prop :=
  ∀ (s : State) (r : CommandRecord) (rest : List CommandRecord), Takes .abandon r rest s →
    (s.station = .listening ∨ s.station = .founding ∨ s.station = .joining ∨ s.station = .synced
      ∨ s.station = .leaving) →
      exec .abandon s = .next (placeEvent (.state .ready .abandoned)
        (placeEvents (lostEvents s) (s.answered rest (.accepted r.tag r.kind))).atRest)

/-! ## Commands on records -/

/-- ACQUIRE in JOINING or SYNCED for a lock without a request, with fewer than 16 requests: the reply, the request in
PENDING with its wait remaining (absent for a limit of 0), and its intent at the tail of the outbox (R57, R162). -/
def Obligations.AcquireAddsARequest : Prop :=
  ∀ (s : State) (r : CommandRecord) (rest : List CommandRecord) (lock : LockNo),
    Takes .acquire r rest s → s.station = .joining ∨ s.station = .synced → (param r 0).toNat = lock.val →
    s.requests[lock] = none → requestCount s < 16 →
      exec .acquire s = .next { s.answered rest (.accepted r.tag r.kind) with
        requests := s.requests.set lock (some
          { tag := r.tag
            leased := (param r 1).getLsbD 0
            wait := if param r 2 = 0 then none else some (param r 2).toNat
            state := .pending })
        outbox := s.outbox ++ [{ kind := .acquire lock, inFlight := false, trailing := .none }] }

/-- Checks 4 and 5 of ACQUIRE, RELEASE, RENEW and QUERY_LOCK: a lock number above 63 is BAD_LOCK; ACQUIRE on a request that
exists is BUSY, and with 16 requests TABLE_FULL; RELEASE without a request is NOT_HOLDER, and of one that is RELEASING or
EXPIRING BUSY; RENEW of a request that is not HELD is NOT_HOLDER, and of an unleased one NOT_LEASED (R162 to R164, R167). -/
def Obligations.LockCommandsAreRefused : Prop :=
  ∀ (s : State) (r : CommandRecord) (rest : List CommandRecord),
    (∀ kind ∈ [CommandKind.acquire, .release, .renew, .queryLock], Takes kind r rest s → actsIn kind s.station = true →
      63 < (param r 0).toNat → exec (takerOf kind) s = .next (s.answered rest (.refused r.tag r.kind .badLock)))
    ∧ ∀ lock : LockNo, (param r 0).toNat = lock.val →
      (Takes .acquire r rest s → s.station = .joining ∨ s.station = .synced →
        (∀ q, s.requests[lock] = some q →
          exec .acquire s = .next (s.answered rest (.refused r.tag r.kind .busy)))
        ∧ (s.requests[lock] = none → 16 ≤ requestCount s →
          exec .acquire s = .next (s.answered rest (.refused r.tag r.kind .tableFull))))
      ∧ (Takes .release r rest s → s.station = .joining ∨ s.station = .synced →
        (s.requests[lock] = none → exec .release s = .next (s.answered rest (.refused r.tag r.kind .notHolder)))
        ∧ ∀ q, s.requests[lock] = some q → q.state = .releasing ∨ q.state = .expiring →
          exec .release s = .next (s.answered rest (.refused r.tag r.kind .busy)))
      ∧ (Takes .renew r rest s → s.station = .synced →
        ((∀ q, s.requests[lock] = some q → q.state ≠ .held) →
          exec .renew s = .next (s.answered rest (.refused r.tag r.kind .notHolder)))
        ∧ ∀ q, s.requests[lock] = some q → q.state = .held → q.leased = false →
          exec .renew s = .next (s.answered rest (.refused r.tag r.kind .notLeased)))

/-- RELEASE of a PENDING, WAITING or HELD request, by its state and its intent (Table 4-6): a PENDING request not in flight
is cancelled; one in flight is given a trailing RELEASE; a WAITING one queues a RELEASE; a HELD one queues a RELEASE, turns
its queued RENEW into one, or gives the RENEW in flight a trailing one (R65). -/
def Obligations.ReleaseActsByState : Prop :=
  ∀ (s : State) (r : CommandRecord) (rest : List CommandRecord) (lock : LockNo) (q : Request),
    Takes .release r rest s → s.station = .joining ∨ s.station = .synced → (param r 0).toNat = lock.val →
    s.requests[lock] = some q →
    let accepted := s.answered rest (.accepted r.tag r.kind)
    let releasing := s.requests.set lock (some { q with state := .releasing })
    let release : Intent := { kind := .release lock, inFlight := false, trailing := .none }
    let own := s.outbox.find? fun i => i.refersToLock lock
    let trailing := s.outbox.map fun i => if i.refersToLock lock then { i with trailing := .queued } else i
    (q.state = .pending → (∀ i, own = some i → i.inFlight = false) →
      exec .release s = .next { placeEvent (.cancelled q.tag lock) accepted with
        requests := s.requests.set lock none
        outbox := s.outbox.filter fun i => !i.refersToLock lock })
    ∧ (∀ i, q.state = .pending ∨ q.state = .held → own = some i → i.inFlight = true →
      exec .release s = .next { accepted with requests := releasing, outbox := trailing })
    ∧ (q.state = .waiting ∨ (q.state = .held ∧ own = none) →
      exec .release s = .next { accepted with requests := releasing, outbox := s.outbox ++ [release] })
    ∧ (∀ i, q.state = .held → own = some i → i.inFlight = false →
      exec .release s = .next { accepted with
        requests := releasing
        outbox := s.outbox.map fun i => if i.refersToLock lock then release else i })

/-- RENEW of a request that is HELD and leased: without an intent of the request a RENEW intent joins the tail of the
outbox; with one the command is merged, and only the reply is placed (R66, R164). -/
def Obligations.RenewQueuesOrMerges : Prop :=
  ∀ (s : State) (r : CommandRecord) (rest : List CommandRecord) (lock : LockNo) (q : Request),
    Takes .renew r rest s → s.station = .synced → (param r 0).toNat = lock.val →
    s.requests[lock] = some q → q.state = .held → q.leased = true →
    ((∀ i ∈ s.outbox, i.refersToLock lock = false) →
      exec .renew s = .next { s.answered rest (.accepted r.tag r.kind) with
        outbox := s.outbox ++ [{ kind := .renew lock, inFlight := false, trailing := .none }] })
    ∧ ((∃ i ∈ s.outbox, i.refersToLock lock = true) →
      exec .renew s = .next (s.answered rest (.accepted r.tag r.kind)))

/-- ARRIVE in JOINING or SYNCED: a number above 7 is refused with BAD_BARRIER, a barrier that has a record with BUSY;
otherwise the reply is placed, the record is added in PENDING, and its intent joins the tail of the outbox (R70, R165). -/
def Obligations.ArriveAddsABarrierRecord : Prop :=
  ∀ (s : State) (r : CommandRecord) (rest : List CommandRecord),
    Takes .arrive r rest s → s.station = .joining ∨ s.station = .synced →
    (7 < (param r 0).toNat → exec .arrive s = .next (s.answered rest (.refused r.tag r.kind .badBarrier)))
    ∧ ∀ barrier : BarrierNo, (param r 0).toNat = barrier.val →
      (∀ b, s.barrierRecords[barrier] = some b →
        exec .arrive s = .next (s.answered rest (.refused r.tag r.kind .busy)))
      ∧ (s.barrierRecords[barrier] = none →
        exec .arrive s = .next { s.answered rest (.accepted r.tag r.kind) with
          barrierRecords := s.barrierRecords.set barrier (some { tag := r.tag, arrived := false })
          outbox := s.outbox ++ [{ kind := .arrive barrier, inFlight := false, trailing := .none }] })

/-! ## Query commands -/

/-- STATUS in any state: the STATUS record with the contents of Table 10-6 as they stand, and then the notice set is
emptied (R166). -/
def Obligations.StatusReportsAndClearsNotices : Prop :=
  ∀ (s : State) (r : CommandRecord) (rest : List CommandRecord), Takes .status r rest s →
    exec .status s = .next { s.answered rest (.status r.tag
        { state := s.station
          round := (s.timing.map Timing.round).getD 0
          present := ((List.finRange 16).filter fun k => (s.members[k]).isSome).length
          requests := ((List.finRange 64).filter fun lock => (s.requests[lock]).isSome).length
          intents := s.outbox.length
          installed := s.installed
          notices := s.notices }) with notices := 0 }

/-- QUERY_LOCK and QUERY_MEMBERS in any state but UNCONFIGURED: the entry as it stands, or UNKNOWN where its chunk is not
installed; the present set in ascending station number with whether membership is held (R25, R55, R167, R168). -/
def Obligations.QueriesReportTheReplica : Prop :=
  ∀ (s : State) (r : CommandRecord) (rest : List CommandRecord), s.station ≠ .unconfigured →
    (∀ lock : LockNo, Takes .queryLock r rest s → (param r 0).toNat = lock.val →
      exec .queryLock s = .next (s.answered rest (.lockInfo r.tag lock
        (if s.installed.getLsbD (lock.val / 8 + 1) then .known s.locks[lock] else .unknown))))
    ∧ (Takes .queryMembers r rest s → s.installed.getLsbD 0 = true →
        exec .queryMembers s = .next (s.answered rest (.members r.tag true
          ((List.finRange 16).filterMap fun k => (s.members[k]).map fun m => (k, m)))))
    ∧ (Takes .queryMembers r rest s → s.installed.getLsbD 0 = false →
        exec .queryMembers s = .next (s.answered rest (.members r.tag false [])))

/-! ## The own slot and the own frame -/

/-- R142, R143: the digest is the CRC of the canonical encoding: the present set, the joining marks, the barriers, and the 64
lock entries. R130, R132: the donor is the lowest present member without the mark, and its chunk the lowest of its gathered
union, with the body as the replica stands. OWN_SLOT_START in SYNCED with the verdict AGREED, ties included: the tally starts
again, the outbox supplies the items, a donor adds that chunk, the union is emptied, and the frame of Table 5-3 goes into the
transmit buffer with the echo watched for (R81, R95, R131, R148). A reception that began in the own slot before is the
echo's, and a start bit accepted in the slot before, of whichever reception, spoils the echo (R87; log 31). -/
def Obligations.OwnSlotStartInSyncedSendsAFrame : Prop :=
  ∀ (s : State) (t : Timing) (present marks : StationSet) (chunk : Option ChunkPart),
    s.station = .synced → s.work = [] → s.timing = some t → t.ownStartDue = true →
    s.mismatchCount ≤ s.matchCount →
    (∀ r : StationNo, present.getLsbD r.val = (s.members[r]).isSome) →
    (∀ r : StationNo, marks.getLsbD r.val = (s.members[r]).any fun m => m.joining) →
    let encoding : List Byte :=
      [present.setWidth 8, (present >>> 8).setWidth 8, marks.setWidth 8, (marks >>> 8).setWidth 8]
        ++ ((List.finRange 8).flatMap fun b : BarrierNo =>
          let arrived : StationSet := s.barriers[b].arrived
          [s.barriers[b].generation, arrived.setWidth 8, (arrived >>> 8).setWidth 8])
        ++ (List.finRange 64).flatMap fun lock => lockEntryBytes s.locks[lock]
    let unmarked (r : StationNo) : Prop := ∃ m, s.members[r] = some m ∧ m.joining = false
    let donor : Prop := unmarked s.cfg.number ∧ ∀ r : StationNo, r < s.cfg.number → ¬ unmarked r
    (¬ donor ∨ s.gathered = 0 → chunk = none) →
    (∀ k : ChunkNo, donor → s.gathered.getLsbD k.val = true →
      (∀ j : ChunkNo, j < k → s.gathered.getLsbD j.val = false) → chunk = some { number := k, body := chunkBody k s }) →
    let taken := takeIntents s s.outbox 6
    let f : Frame :=
      { station := s.cfg.number, join := false, round := t.round
        digest := some (crc16 encoding), want := none, chunk := chunk, items := taken.2 }
    canonicalEncoding s.members s.barriers s.locks = encoding
    ∧ exec .ownSlotStart s = .next { s with
      matchCount := 1, mismatchCount := 0, gathered := 0, outbox := taken.1
      txBuffer := frameBytes f, echo := some { frame := f, early := t.startBit, samples := [], after := false }
      timing := some { t with ownStartDue := false, begun := true }
      reception := s.reception.map fun rx => if rx.place = some (t.slot, t.round) then { rx with counts := false } else rx }

/-- OWN_SLOT_START in SYNCED with more digests that differed than agreed: the records end LOST, the replica becomes empty
and partial with every chunk wanted, the station is JOINING with cause DIVERGED, and it sends a JOIN frame with its wanted
set and no items (R126, R148, R149, R81). -/
def Obligations.OwnSlotStartFindsDivergence : Prop :=
  ∀ (s : State) (t : Timing), s.station = .synced → s.work = [] → s.timing = some t → t.ownStartDue = true →
    s.matchCount < s.mismatchCount →
    let f : Frame :=
      { station := s.cfg.number, join := true, round := t.round, digest := none, want := some allChunks, chunk := none
        items := [] }
    exec .ownSlotStart s = .next { placeEvent (.state .joining .diverged)
        { (((placeEvents (lostEvents s) s).withoutRecords).withoutReplica).withChunks 0 allChunks with
          station := .joining, disagreement := 0 } with
      txBuffer := frameBytes f, echo := some { frame := f, early := t.startBit, samples := [], after := false }
      timing := some { t with ownStartDue := false, begun := true }
      reception := s.reception.map fun rx => if rx.place = some (t.slot, t.round) then { rx with counts := false } else rx }

/-- OWN_SLOT_START outside SYNCED, whatever the tally. A joiner sends a JOIN frame with its wanted set, no digest and no
items. A founder sends its digest in the founding slot, with the chunk that a donor's gathered union gives (R130 to R132), and
at its next own slot start it is SYNCED before the verdict
(cause FOUNDING_COMPLETE) and sends as such. A leaving station sends its digest and its items, with JOIN when it came from
JOINING (R81, R95, R108, R126, Table 5-3). -/
def Obligations.OwnSlotStartOutsideSynced : Prop :=
  ∀ (s : State) (t : Timing), s.work = [] → s.timing = some t → t.ownStartDue = true →
    (s.station = .joining →
      let f : Frame :=
        { station := s.cfg.number, join := true, round := t.round, digest := none, want := some s.wanted, chunk := none
          items := [] }
      exec .ownSlotStart s = .next { s with
        matchCount := 1, mismatchCount := 0
        txBuffer := frameBytes f, echo := some { frame := f, early := t.startBit, samples := [], after := false }
        timing := some { t with ownStartDue := false, begun := true }
        reception := s.reception.map fun rx =>
          if rx.place = some (t.slot, t.round) then { rx with counts := false } else rx })
    ∧ (∀ chunk : Option ChunkPart, s.station = .founding → s.foundingOpen = true →
      let unmarked (r : StationNo) : Prop := ∃ m, s.members[r] = some m ∧ m.joining = false
      let donor : Prop := unmarked s.cfg.number ∧ ∀ r : StationNo, r < s.cfg.number → ¬ unmarked r
      (¬ donor ∨ s.gathered = 0 → chunk = none) →
      (∀ k : ChunkNo, donor → s.gathered.getLsbD k.val = true →
        (∀ j : ChunkNo, j < k → s.gathered.getLsbD j.val = false) → chunk = some { number := k, body := chunkBody k s }) →
      let f : Frame :=
        { station := s.cfg.number, join := false, round := t.round
          digest := some (crc16 (canonicalEncoding s.members s.barriers s.locks)), want := none, chunk := chunk
          items := [] }
      exec .ownSlotStart s = .next { s with
        foundingOpen := false, matchCount := 1, mismatchCount := 0, gathered := 0
        txBuffer := frameBytes f, echo := some { frame := f, early := t.startBit, samples := [], after := false }
        timing := some { t with ownStartDue := false, begun := true }
        reception := s.reception.map fun rx =>
          if rx.place = some (t.slot, t.round) then { rx with counts := false } else rx })
    ∧ (s.station = .leaving →
      let taken := takeIntents s s.outbox 6
      let f : Frame :=
        { station := s.cfg.number, join := s.leavingFromJoining, round := t.round
          digest := some (crc16 (canonicalEncoding s.members s.barriers s.locks)), want := none, chunk := none
          items := taken.2 }
      exec .ownSlotStart s = .next { s with
        matchCount := 1, mismatchCount := 0, outbox := taken.1
        txBuffer := frameBytes f, echo := some { frame := f, early := t.startBit, samples := [], after := false }
        timing := some { t with ownStartDue := false, begun := true }
        reception := s.reception.map fun rx =>
          if rx.place = some (t.slot, t.round) then { rx with counts := false } else rx })
    ∧ (s.station = .founding → s.foundingOpen = false →
      exec .ownSlotStart s = exec .ownSlotStart (placeEvent (.state .synced .foundingComplete)
        { s with station := .synced, matchCount := 1, mismatchCount := 0 }))

/-- R74: the outbox supplies whole intents from its head while their items fit into six places, and these go in flight, the
trailing RELEASE of each into the frame with it; the others keep their places. Table 4-8: an ACQUIRE gives its item with the
request's leased flag, a RENEW gives its own only while the request is HELD, and either is followed by the RELEASE it trails;
a RELEASE, an ARRIVE and a LEAVE give one item. A RENEW with a trailing RELEASE whose request is no longer HELD is taken as a
RELEASE. -/
def Obligations.OutboxSuppliesIntentsFromItsHead : Prop :=
  ∀ s : State,
    let held (lock : LockNo) : Bool := (s.requests[lock]).any fun q => decide (q.state = .held)
    let leased (lock : LockNo) : Bool := (s.requests[lock]).any fun q => q.leased
    let trail (i : Intent) (lock : LockNo) : List Item := if i.trailing = .none then [] else [.release lock]
    let items (i : Intent) : List Item :=
      match i.kind with
      | .acquire lock => .acquire lock (leased lock) :: trail i lock
      | .release lock => [.release lock]
      | .renew lock => (if held lock then [.renew lock] else []) ++ trail i lock
      | .arrive barrier => [.arrive barrier]
      | .leave => [.leave]
    let inFlight (i : Intent) : Intent :=
      { i with inFlight := true, trailing := if i.trailing = .none then .none else .inFrame }
    let asTaken (i : Intent) : Intent :=
      match i.kind with
      | .renew lock =>
        if i.trailing ≠ .none ∧ held lock = false then { kind := .release lock, inFlight := true, trailing := .none }
        else inFlight i
      | .acquire _ | .release _ | .arrive _ | .leave => inFlight i
    ∃ taken left : List Intent,
      s.outbox = taken ++ left
        ∧ takeIntents s s.outbox 6 = (taken.map asTaken ++ left, taken.flatMap items)
        ∧ (taken.flatMap items).length ≤ 6
        ∧ ∀ i rest, left = i :: rest → 6 < (taken.flatMap items).length + (items i).length

/-- LTXE_ASSERTED from 12 bit times after the own slot start, and TRANSMISSION_END two bit times after the last stop bit,
which lies 10 bit times a byte after the start bit at 16 (R80). -/
def Obligations.LineIsDrivenForTheFrame : Prop :=
  ∀ (s : State) (e : EchoComparator) (t : Timing), s.echo = some e → s.timing = some t →
    let endPhase := 16 + 10 * (frameBytes e.frame).length + 2
    (s.ltxe = false → 12 ≤ t.phase → t.phase < endPhase →
      exec .ltxeAsserted s = .next { s with ltxe := true, ltx := true })
    ∧ (s.ltxe = true → endPhase ≤ t.phase →
      exec .transmissionEnd s = .next { s with ltxe := false, ltx := true, txBuffer := [] })

/-- ECHO_JUDGED well-formed: no start bit before bit time 16, every sample as sent, none in the four bit times after. On an
empty queue the echo is judged when it falls due, on what the comparator holds; that an empty queue stands for the passing of
time is the model's choice (log 2), as is the operand with what it has not sampled (log 9). The in-flight intents are settled
first: each leaves, or becomes a RELEASE intent when it was given a trailing RELEASE that was not in the frame; the others
stay. Then the own frame, the slot's usable frame now, is processed: its JOIN flag, the test for the end of catch-up, its
items (R76, R87, R88, R91). The own LEAVE completes a STOP: MEMBER_LEFT of the own number and then STATE(READY, LEFT), or the
STATE event alone where the station holds no membership (R48, R52, R122); that a wait of the receiver ends with it is the
model's choice (log 30). -/
def Obligations.GoodEchoAppliesTheOwnFrame : Prop :=
  ∀ (s : State) (e : EchoComparator) (t : Timing), s.echo = some e → s.timing = some t → s.work = [] →
    s.ltxe = false → 16 + 10 * (frameBytes e.frame).length + 4 ≤ t.phase → e.early = false → e.after = false →
    ∀ samples : List Bool, e.samples ++ samples = lineBits (frameBytes e.frame) →
    let f := e.frame
    let judged := exec (.echoJudged false samples false) s
    let ownReception := s.reception.any fun rx => decide (rx.place = some (t.slot, t.round))
    let settle (i : Intent) : Option Intent :=
      if i.inFlight = false then some i
      else match i.kind, i.trailing with
        | .acquire lock, .queued | .renew lock, .queued | .release lock, .queued =>
          some { kind := .release lock, inFlight := false, trailing := .none }
        | _, _ => none
    let settled : State := { s with
      echo := none
      outbox := s.outbox.filterMap settle
      timing := some { t with
        usable := some { own := true, join := f.join, leave := decide (Item.leave ∈ f.items) } }
      reception := if ownReception then none else s.reception
      rxBuffer := if ownReception then [] else s.rxBuffer }
    judged = .next (processOwnFrame f settled)
    ∧ (samples = [] → s.pending = [] → s.commands = [] → t.ownStartDue = false → step s = judged)
    ∧ processOwnFrame f settled
        = f.items.foldl (applyItem f.station) (completeCatchUp (handleJoin f.station f.join settled))
    ∧ (s.station = .leaving → f.station = s.cfg.number → f.items = [.leave] → RecordsLaw s →
      (∀ m, s.members[s.cfg.number] = some m → m.joining = f.join →
        judged = .next (placeEvent (.state .ready .left)
          (placeEvent (.memberLeft s.cfg.number .leave) s).atRest))
      ∧ (s.installed.getLsbD 0 = false → s.members[s.cfg.number] = none →
        judged = .next (placeEvent (.state .ready .left) s.atRest)))

/-- ECHO_JUDGED corrupt: a start bit too early, a sample that differs, or a start bit in the four bit times after. The
in-flight intents return to the head with what they carried, nothing is applied, and in FOUNDING the round is abandoned (R77,
R87, R88, R109). On an empty queue it is judged when it falls due, on what the comparator holds: an echo that is not heard
has samples at 1 where a start bit was sent. That an empty queue stands for the passing of time is the model's choice (log
2), as is the operand with what the comparator has not sampled (log 9). The own slot's reception ends with the echo unless a
start bit follows; one that goes on into LISTENING belongs to no slot, which is the model's choice (log 15). -/
def Obligations.CorruptEchoReturnsTheIntents : Prop :=
  ∀ (s : State) (e : EchoComparator) (t : Timing) (early after : Bool) (samples : List Bool),
    s.echo = some e → s.timing = some t → s.work = [] →
    s.ltxe = false → 16 + 10 * (frameBytes e.frame).length + 4 ≤ t.phase →
    (e.early = true ∨ early = true ∨ e.samples ++ samples ≠ lineBits (frameBytes e.frame) ∨ e.after = true
      ∨ after = true) →
    let ends := !e.after && !after && s.reception.any fun rx => decide (rx.place = some (t.slot, t.round))
    let returned : State := { s with
      echo := none
      outbox := s.outbox.map fun i => if i.inFlight then
          { i with inFlight := false, trailing := if i.trailing = .none then .none else .queued } else i
      timing := some { t with echoCorrupt := true }
      reception := if ends then none else s.reception
      rxBuffer := if ends then [] else s.rxBuffer }
    (early = false → samples = [] → after = false → s.pending = [] → s.commands = [] → t.ownStartDue = false →
      step s = exec (.echoJudged early samples after) s)
    ∧ (s.station ≠ .founding → exec (.echoJudged early samples after) s = .next returned)
    ∧ (s.station = .founding → RecordsLaw s → exec (.echoJudged early samples after) s =
        .next (placeEvent (.state .listening .foundingAbandoned) returned.atListening))

/-! ## Receptions -/

/-- RECEPTION_BEGINS: LRX falls and stands at 0 for `low` bit times. Nothing is received in UNCONFIGURED and READY, a
candidate sampled at 1 is discarded, one that comes before the line has stood at 1 for as long as the receiver waits is not
accepted, and one within a character is a bit of it. A start bit otherwise begins the next character of the reception in
progress, which is overlong or too long when the expected length is reached or 95 bytes are held, or a reception, of the
current slot where there is timing (R78, R79, R83, R84, R96). One accepted in the own slot before bit time 16, or in the four
bit times after the last stop bit, spoils the echo, and one accepted before the own frame is built is noted for it in the
slot's timing (R87). That any fall begins the count of bit times at 1 again is the model's choice (log 30), as is the operand
(log 8). -/
def Obligations.StartBitBeginsAReception : Prop :=
  ∀ (s : State) (low : Nat), s.work = [] →
    let fallen : State := { s with
      lrxLow := low, lineHigh := 0, lineWait := if s.lineWait ≤ s.lineHigh then 0 else s.lineWait }
    let spoiled (e : EchoComparator) (t : Timing) : EchoComparator :=
      let last := 16 + 10 * (frameBytes e.frame).length
      { e with
        early := e.early || decide (t.phase < 16)
        after := e.after || decide (last ≤ t.phase ∧ t.phase < last + 4) }
    (low = 0 ∨ s.station = .unconfigured ∨ s.station = .ready ∨ s.lineHigh < s.lineWait →
      exec (.receptionBegins low) s = .next fallen)
    ∧ (0 < low → s.station ≠ .unconfigured → s.station ≠ .ready → s.lineWait ≤ s.lineHigh →
      (∀ rx taken, s.reception = some rx → rx.samples = some taken → exec (.receptionBegins low) s = .next fallen)
      ∧ (∀ rx, s.reception = some rx → rx.samples = none → exec (.receptionBegins low) s = .next { fallen with
          reception := some { rx with
            samples := some []
            excess := rx.excess || decide (95 ≤ s.rxBuffer.length)
              || (expectedLength (s.rxBuffer.map rxData)).any fun n => decide (n ≤ s.rxBuffer.length) }
          timing := s.timing.map fun t => { t with startBit := true }
          echo := s.echo.map fun e => match s.timing with
            | none => e
            | some t => spoiled e t })
      ∧ (s.reception = none → s.timing = none → exec (.receptionBegins low) s = .next { fallen with
          reception := some
            { place := none, late := false, counts := true, age := 0, samples := some [], excess := false } })
      ∧ ∀ t, s.reception = none → s.timing = some t → exec (.receptionBegins low) s = .next { fallen with
          reception := some
            { place := some (t.slot, t.round), late := decide (64 < t.phase), counts := !t.begun, age := 0
              samples := some [], excess := false }
          timing := some { t with
            begun := true, startBit := true, windowHeard := t.windowHeard || decide (t.phase ≤ 64) }
          echo := s.echo.map fun e => spoiled e t })

/-- RECEPTION_ENDED and RECEPTION_TIME_LIMIT: a reception that is dropped, too long, overlong or corrupt has no effect but its
own end, with the line at rest; after the time limit the line must stand at 1 for four bit times (R83, R84, R86). On an empty
queue a reception ends by itself once the line has stood at 1 for four bit times after its last character; that an empty
queue stands for the passing of time is the model's choice (log 2). -/
def Obligations.BadReceptionHasNoEffect : Prop :=
  ∀ (s : State) (rx : Reception), s.work = [] → s.reception = some rx →
    (∀ chars : List RxChar, rx.counts = false ∨ rx.excess = true ∨ 95 < (s.rxBuffer ++ chars).length
        ∨ wellFormedFrame (s.rxBuffer ++ chars) = none →
      exec (.receptionEnded chars) s = .next s.received)
    ∧ (1000 ≤ rx.age → exec .receptionTimeLimit s = .next { s with
        reception := none, rxBuffer := [], lineHigh := 0, lineWait := 4 })
    ∧ (s.pending = [] → s.commands = [] → s.echo = none → (∀ t, s.timing = some t → t.ownStartDue = false) →
      rx.samples = none → 4 ≤ s.lineHigh → step s = exec (.receptionEnded []) s)

/-- RECEPTION_ENDED with a well-formed frame in JOINING, SYNCED and LEAVING. One in place realigns the phase to 16 plus the
bit times since its start bit, ends a hold, clears the disagreement count and is processed in the order of R90: the digest
comparison, the JOIN flag, the wanted set, the chunk, the test for the end of catch-up, and the items. One out of place
raises the count, and where it would reach 2 the loss of synchronisation is to follow (R97, R99 to R102). The comparison is
made in SYNCED with the digest of an unmarked present member: an equal one raises the match count, a different one the
mismatch count, with DIGEST_MISMATCH; otherwise nothing is compared (R146, R147). -/
def Obligations.FrameIsTakenByItsPlace : Prop :=
  (∀ (s : State) (rx : Reception) (t : Timing) (chars : List RxChar) (f : Frame),
    s.station = .joining ∨ s.station = .synced ∨ s.station = .leaving →
    s.work = [] → s.reception = some rx → rx.counts = true → rx.excess = false → s.timing = some t →
    wellFormedFrame (s.rxBuffer ++ chars) = some f →
    (rx.late = false → rx.place = some (f.station, f.round) →
      exec (.receptionEnded chars) s = .next (processFrame f { s.received with
        disagreement := 0
        timing := some { t with
          phase := 16 + rx.age
          held := false
          usable := some { own := false, join := f.join, leave := decide (Item.leave ∈ f.items) } } }))
    ∧ (rx.late = true ∨ rx.place ≠ some (f.station, f.round) →
      (s.disagreement = 0 → exec (.receptionEnded chars) s = .next { s.received with disagreement := 1 })
      ∧ (1 ≤ s.disagreement → exec (.receptionEnded chars) s =
          .next { s.received with work := [.syncLost f rx.age] })))
  ∧ ∀ (f : Frame) (s : State),
    processFrame f s = f.items.foldl (applyItem f.station)
      (completeCatchUp (installChunk f (gatherWanted f (handleJoin f.station f.join (compareDigest f s)))))
    ∧ (∀ d m, f.digest = some d → s.station = .synced → s.members[f.station] = some m → m.joining = false →
      (d = crc16 (canonicalEncoding s.members s.barriers s.locks) →
        compareDigest f s = { s with matchCount := s.matchCount + 1 })
      ∧ (d ≠ crc16 (canonicalEncoding s.members s.barriers s.locks) →
        compareDigest f s = placeEvent (.digestMismatch f.station) { s with mismatchCount := s.mismatchCount + 1 }))
    ∧ (f.digest = none ∨ s.station ≠ .synced ∨ (∀ m, s.members[f.station] = some m → m.joining = true) →
      compareDigest f s = s)

/-- RECEPTION_ENDED with a well-formed frame in LISTENING. The silence timer returns to 0. The own number sends the station
to READY with cause NUMBER_IN_USE; without timing a number below N sets tentative timing from the frame, and another is
ignored; under tentative timing a frame in place confirms it and the station is JOINING with an empty replica and every chunk
wanted, and one out of place replaces it or leaves it (R103 to R106, R118). In FOUNDING any well-formed frame abandons the
round: the station is LISTENING with cause FOUNDING_ABANDONED and hears the frame there, without timing (R109). That the
confirming frame is the usable frame of its slot in the JOINING state is the model's choice (log 13), and so is that a frame
that replaces the timing ends a hold of the slot end with it (log 34). -/
def Obligations.FrameHeardInListening : Prop :=
  ∀ (s : State) (rx : Reception) (chars : List RxChar) (f : Frame),
    s.work = [] → s.reception = some rx → rx.counts = true → rx.excess = false → RecordsLaw s →
    wellFormedFrame (s.rxBuffer ++ chars) = some f →
    let tentative : Timing :=
      { confirmed := false, slot := f.station, round := f.round, phase := 16 + rx.age, windowHeard := true, silent := false
        begun := true, startBit := true, usable := none, echoCorrupt := false, held := false, ownStartDue := false }
    (s.station = .listening →
      let heard : State := { s.received with silence := 0 }
      (f.station = s.cfg.number →
        exec (.receptionEnded chars) s = .next (placeEvent (.state .ready .numberInUse) heard.atRest))
      ∧ (f.station ≠ s.cfg.number → s.timing = none ∨ rx.late = true ∨ rx.place ≠ some (f.station, f.round) →
        exec (.receptionEnded chars) s =
          .next (if f.station.val < s.cfg.roundSize then { heard with timing := some tentative } else heard))
      ∧ (∀ t, f.station ≠ s.cfg.number → s.timing = some t → rx.late = false → rx.place = some (f.station, f.round) →
        exec (.receptionEnded chars) s = .next (placeEvent (.state .joining .timingAcquired)
          { ((heard.withoutReplica).withChunks 0 allChunks) with
            station := .joining
            disagreement := 0
            timing := some { t with
              confirmed := true
              phase := 16 + rx.age
              held := false
              usable := some { own := false, join := f.join, leave := decide (Item.leave ∈ f.items) } } })))
    ∧ (s.station = .founding →
      let abandoned := placeEvent (.state .listening .foundingAbandoned) s.received.atListening
      (f.station = s.cfg.number →
        exec (.receptionEnded chars) s = .next (placeEvent (.state .ready .numberInUse) abandoned.atRest))
      ∧ (f.station ≠ s.cfg.number → exec (.receptionEnded chars) s = .next { abandoned with
          timing := if f.station.val < s.cfg.roundSize then some tentative else none }))

/-- SYNC_LOST. In JOINING and SYNCED the records end LOST and the station is LISTENING with cause SYNC_LOST; the frame that
brought the count to 2 is then heard there: it sets tentative timing when its number is below N, and the own number sends
the station on to READY. In
LEAVING the STOP ends and the station is READY (R102, R104, R125). That a reception in progress goes on into LISTENING and
belongs to no slot (log 15), and that a wait of the receiver goes on into LISTENING and ends at READY (log 30), are the model's
choices. -/
def Obligations.SyncLossReturnsToListening : Prop :=
  ∀ (s : State) (f : Frame) (age : Nat) (rest : List Work), s.work = .syncLost f age :: rest →
    (s.station = .joining ∨ s.station = .synced → f.station ≠ s.cfg.number →
      exec .syncLost s = .next { placeEvent (.state .listening .syncLost) (placeEvents (lostEvents s) s).atListening with
        timing := if f.station.val < s.cfg.roundSize then some
            { confirmed := false, slot := f.station, round := f.round, phase := 16 + age, windowHeard := true
              silent := false, begun := true, startBit := true, usable := none, echoCorrupt := false, held := false
              ownStartDue := false }
          else none })
    ∧ (s.station = .joining ∨ s.station = .synced → f.station = s.cfg.number →
      exec .syncLost s = .next (placeEvent (.state .ready .numberInUse)
        (placeEvent (.state .listening .syncLost) (placeEvents (lostEvents s) s).atListening).atRest))
    ∧ (s.station = .leaving → RecordsLaw s →
      exec .syncLost s = .next (placeEvent (.state .ready .syncLost) s.atRest))

/-! ## The slot timer -/

/-- SILENCE_WINDOW_END marks a slot silent in which no start bit came up to phase 64 (R96). SLOT_END is held while the slot's
own reception, begun within the window, is in progress (R97). In LISTENING, under tentative timing, SLOT_END and
HELD_SLOT_END only begin the next slot: slot 0 of the next round after slot N-1 (R95, R98). -/
def Obligations.SlotsFollowOneAnother : Prop :=
  ∀ (s : State) (t : Timing), s.timing = some t →
    (t.windowHeard = false → t.silent = false → 64 < t.phase →
      exec .silenceWindowEnd s = .next { s with timing := some { t with silent := true } })
    ∧ (s.work = [] → s.cfg.slotLength ≤ t.phase →
      (∀ rx, t.held = false → t.ownStartDue = false → s.reception = some rx → rx.counts = true → rx.late = false →
        rx.place = some (t.slot, t.round) →
        exec .slotEnd s = .next { s with timing := some { t with held := true } })
      ∧ ∀ c : Instr, ((c = .slotEnd ∧ t.held = false) ∨ (c = .heldSlotEnd ∧ t.held = true)) →
        s.station = .listening → s.cfg.roundSize ≤ 16 →
        (∀ rx, s.reception = some rx → rx.counts = false ∨ rx.late = true ∨ rx.place ≠ some (t.slot, t.round)) →
        exec c s = .next { s with
          freeIndex := s.freeIndex + 1, timing := some (t.following s.cfg.roundSize fun _ => false) })

/-- SLOT_END and HELD_SLOT_END in FOUNDING, SYNCED and LEAVING: the owner of the slot is accounted: its count becomes 0 when
the slot's frame was heard and one more when not, and the slot end goes on; a count that would reach M names the owner for
ABSENCE_REMOVAL instead, the rest waiting. In LEAVING this is stated for a slot that does not raise the leaving count. What
the slot end goes on with is the next slot, and at the round end, before it, the wait countdown, with the lease tick when the
round number is a multiple of P; either of the two may be first (R16, R49, R63, R95, R97, R98; log 10). Where no lease and no
wait runs, only the next slot follows. -/
def Obligations.SlotEndAccountsTheOwner : Prop :=
  ∀ (s : State) (t : Timing) (c : Instr),
    ((c = .slotEnd ∧ t.held = false) ∨ (c = .heldSlotEnd ∧ t.held = true)) →
    s.work = [] → s.timing = some t → t.ownStartDue = false → s.cfg.slotLength ≤ t.phase → s.cfg.roundSize ≤ 16 →
    (∀ rx, s.reception = some rx → rx.counts = false ∨ rx.late = true ∨ rx.place ≠ some (t.slot, t.round)) →
    s.installed.getLsbD 0 = true →
    s.station = .founding ∨ s.station = .synced ∨ (s.station = .leaving ∧
      (t.echoCorrupt = false ∨ t.slot ≠ s.cfg.number ∨ ∃ m, s.members[s.cfg.number] = some m)) →
    let tail : List Work :=
      if t.slot.val + 1 < s.cfg.roundSize then [.nextSlot]
      else if t.round.toNat % s.cfg.leasePeriod = 0 then
        if Config.countdownFirst s.freeIndex then [.waitCountdown 0, .leaseTick 0, .nextSlot]
        else [.leaseTick 0, .waitCountdown 0, .nextSlot]
      else [.waitCountdown 0, .nextSlot]
    let accounted (members : Vector (Option Member) 16) : State :=
      { s with freeIndex := s.freeIndex + 1, members := members }
    (s.members[t.slot] = none → exec c s = .next (doWork tail (accounted s.members)))
    ∧ (∀ m, s.members[t.slot] = some m → t.usable ≠ none →
      exec c s = .next (doWork tail (accounted (s.members.set t.slot (some { m with absence := 0 })))))
    ∧ (∀ m, s.members[t.slot] = some m → t.usable = none → m.absence + 1 < s.cfg.absenceLimit →
      exec c s = .next (doWork tail (accounted (s.members.set t.slot (some { m with absence := m.absence + 1 })))))
    ∧ (∀ m, s.members[t.slot] = some m → t.usable = none → s.cfg.absenceLimit ≤ m.absence + 1 →
      exec c s = .next { accounted s.members with work := .absenceRemoval t.slot :: .leavingUpdate :: tail })
    ∧ (t.slot.val + 1 < s.cfg.roundSize ∨ nothingRuns s → ∀ members, doWork tail (accounted members) =
      { accounted members with timing := some (t.following s.cfg.roundSize fun r => decide (r = s.cfg.number)) })

/-- SLOT_END and HELD_SLOT_END in JOINING. The orphan count returns to 0 when the slot's frame came from another station
without JOIN and is one more otherwise; the slot's flag in the JOIN-heard record is set for a JOIN frame without LEAVE, the
own included, and cleared otherwise; at 2N the orphan action is to follow (R139). Once membership is held the owner is
accounted too (R49). Which of the two is taken first is free; a removal or an orphan action that falls due waits for its own
step, with the rest of the slot end behind it (R141; log 11). The slot end then goes on as in the other states (R16, R63,
R95, R98). -/
def Obligations.SlotEndCountsOrphanSlots : Prop :=
  ∀ (s : State) (t : Timing) (c : Instr),
    ((c = .slotEnd ∧ t.held = false) ∨ (c = .heldSlotEnd ∧ t.held = true)) →
    s.station = .joining → s.work = [] → s.timing = some t → t.ownStartDue = false →
    s.cfg.slotLength ≤ t.phase → s.cfg.roundSize ≤ 16 →
    (∀ rx, s.reception = some rx → rx.counts = false ∨ rx.late = true ∨ rx.place ≠ some (t.slot, t.round)) →
    let tail : List Work :=
      if t.slot.val + 1 < s.cfg.roundSize then [.nextSlot]
      else if t.round.toNat % s.cfg.leasePeriod = 0 then
        if Config.countdownFirst s.freeIndex then [.waitCountdown 0, .leaseTick 0, .nextSlot]
        else [.leaseTick 0, .waitCountdown 0, .nextSlot]
      else [.waitCountdown 0, .nextSlot]
    let count := if t.usable.any (fun u => !u.own && !u.join) then 0 else s.orphanCount + 1
    let bit := BitVec.twoPow 16 t.slot.val
    let flags := if t.usable.any (fun u => u.join && !u.leave) then s.joinHeard ||| bit else s.joinHeard &&& ~~~bit
    let begun : State := { s with freeIndex := s.freeIndex + 1 }
    let counted : State := { begun with orphanCount := count, joinHeard := flags }
    let removal : Prop := s.installed.getLsbD 0 = true ∧ t.usable = none ∧
      ∃ m, s.members[t.slot] = some m ∧ s.cfg.absenceLimit ≤ m.absence + 1
    let members := match s.members[t.slot] with
      | none => s.members
      | some m =>
        if s.installed.getLsbD 0 then
          s.members.set t.slot (some { m with absence := if t.usable.isSome then 0 else m.absence + 1 })
        else s.members
    (count < 2 * s.cfg.roundSize → ¬ removal → exec c s = .next (doWork tail { counted with members := members }))
    ∧ (Config.orphanFirst s.freeIndex = true →
      (count < 2 * s.cfg.roundSize → removal →
        exec c s = .next { counted with work := .absenceRemoval t.slot :: tail })
      ∧ (2 * s.cfg.roundSize ≤ count → exec c s = .next { counted with work := .orphanAction :: .accounting :: tail }))
    ∧ (Config.orphanFirst s.freeIndex = false →
      (removal → exec c s = .next { begun with work := .absenceRemoval t.slot :: .orphanUpdate :: tail })
      ∧ (2 * s.cfg.roundSize ≤ count → ¬ removal →
        exec c s = .next { counted with members := members, work := .orphanAction :: tail }))
    ∧ (t.slot.val + 1 < s.cfg.roundSize ∨ nothingRuns s → doWork tail { counted with members := members } =
      { counted with
        members := members
        timing := some (t.following s.cfg.roundSize fun r => decide (r = s.cfg.number)) })

/-- ABSENCE_REMOVAL. Of another station: the removal visits the replica and the slot end goes on. Of the own number: in
FOUNDING, JOINING and SYNCED the station is evicted and LISTENING: MEMBER_LEFT of the own number with cause ABSENT, the
records LOST in order, and STATE(LISTENING, EVICTED) last; in LEAVING the STOP completes and it is READY: MEMBER_LEFT and then
STATE(READY, LEFT). Nothing is left of the slot end (R49 to R52, R114, R122, R124). That a reception in progress goes on
into LISTENING and belongs to no slot (log 15), and that a wait of the receiver goes on into LISTENING and ends at READY
(log 30), are the model's choices. -/
def Obligations.AbsenceRemovesAMember : Prop :=
  ∀ (s : State) (r : StationNo) (rest : List Work), s.work = .absenceRemoval r :: rest →
    let left := placeEvent (.memberLeft s.cfg.number .absent) s
    (r ≠ s.cfg.number →
      exec .absenceRemoval s = .next (doWork rest (removeStation r .absent { s with work := rest })))
    ∧ (r = s.cfg.number → s.station = .founding ∨ s.station = .joining ∨ s.station = .synced →
      exec .absenceRemoval s =
        .next (placeEvent (.state .listening .evicted) (placeEvents (lostEvents s) left).atListening))
    ∧ (r = s.cfg.number → s.station = .leaving → RecordsLaw s →
      exec .absenceRemoval s = .next (placeEvent (.state .ready .left) left.atRest))

/-- ORPHAN_FOUNDED in JOINING: J is the JOIN-heard record with the own number. The lowest of J founds the group anew: FREE
locks, barriers at generation 0, the members J with the own mark clear, every chunk installed, state SYNCED with cause
ORPHAN_FOUNDED; any other station starts its catch-up again. The accounting of this slot end is not made (R140, R141). -/
def Obligations.OrphanActionFoundsOrRestarts : Prop :=
  ∀ (s : State) (rest : List Work), s.station = .joining → s.work = .orphanAction :: rest →
    let group : StationSet := s.joinHeard ||| BitVec.twoPow 16 s.cfg.number.val
    let left := rest.filter fun w => decide (w ≠ .accounting)
    ((∀ r : StationNo, r < s.cfg.number → group.getLsbD r.val = false) →
      exec .orphanFounded s = .next (doWork left (placeEvent (.state .synced .orphanFounded)
        { (s.withoutReplica).withChunks allChunks 0 with
          station := .synced
          members := tabulate fun r =>
            if group.getLsbD r.val then some { joining := decide (r ≠ s.cfg.number), absence := 0 } else none
          work := left })))
    ∧ ((∃ r : StationNo, r < s.cfg.number ∧ group.getLsbD r.val = true) →
      exec .orphanFounded s = .next (doWork left { s.withoutReplica with
        installed := 0, wanted := allChunks, gathered := 0, orphanCount := 0, joinHeard := 0, work := left }))

/-- In LEAVING, the end of an own slot whose echo was corrupt, while the own number is not present, raises the leaving
count; where it reaches M the STOP completes by LEAVING_COUNT_EXPIRY, and the station is READY with cause LEFT (R122). The
slot end goes on as in the other states, the lease tick at a round end included (R16, R95, R98). That the state is read at the
slot end, so that an echo judged corrupt before the STOP counts (log 14), and that a wait of the receiver ends with the entry
to READY (log 30), are the model's choices. -/
def Obligations.LeavingCountCompletesTheStop : Prop :=
  ∀ s : State, s.station = .leaving → RecordsLaw s →
    (∀ (t : Timing) (c : Instr),
      ((c = .slotEnd ∧ t.held = false) ∨ (c = .heldSlotEnd ∧ t.held = true)) →
      s.work = [] → s.timing = some t → t.ownStartDue = false → s.cfg.slotLength ≤ t.phase → s.cfg.roundSize ≤ 16 →
      (∀ rx, s.reception = some rx → rx.counts = false ∨ rx.late = true ∨ rx.place ≠ some (t.slot, t.round)) →
      t.slot = s.cfg.number → t.echoCorrupt = true → s.members[s.cfg.number] = none →
      let tail : List Work :=
        if t.slot.val + 1 < s.cfg.roundSize then [.nextSlot]
        else if t.round.toNat % s.cfg.leasePeriod = 0 then
          if Config.countdownFirst s.freeIndex then [.waitCountdown 0, .leaseTick 0, .nextSlot]
          else [.leaseTick 0, .waitCountdown 0, .nextSlot]
        else [.waitCountdown 0, .nextSlot]
      let counted : State := { s with freeIndex := s.freeIndex + 1, leavingCount := s.leavingCount + 1 }
      (s.leavingCount + 1 < s.cfg.absenceLimit → exec c s = .next (doWork tail counted))
      ∧ (s.cfg.absenceLimit ≤ s.leavingCount + 1 → exec c s = .next { counted with work := .leavingExpiry :: tail })
      ∧ (t.slot.val + 1 < s.cfg.roundSize ∨ nothingRuns s → doWork tail counted = { counted with
        timing := some (t.following s.cfg.roundSize fun r => decide (r = s.cfg.number)) }))
    ∧ ∀ rest, s.work = .leavingExpiry :: rest →
      exec .leavingCountExpiry s = .next (placeEvent (.state .ready .left) s.atRest)

/-- LEASE_EXPIRY: the lock passes to its oldest waiter, with a fresh lease if that waiter asked for one, or becomes FREE.
The own request of the holder ends with LEASE_LOST, or with TIMED_OUT when it is EXPIRING; the own request that the pass
reaches WAITING becomes HELD with GRANTED. The tick then goes on (R10, R18, R61, R62). -/
def Obligations.LeaseExpiryPassesTheLock : Prop :=
  ∀ (s : State) (lock : LockNo) (rest : List Work) (holder : StationNo) (lease : Option (BitVec 3))
    (waiters : List Waiter), s.work = .leaseExpiry lock :: rest → s.locks[lock] = .held holder lease waiters →
    let passed : State := { s with
      work := rest
      locks := s.locks.set lock (match waiters with
        | [] => .free
        | w :: others => .held w.station (if w.leased then some 7#3 else none) others) }
    let next := waiters.head?.map Waiter.station
    (holder ≠ s.cfg.number → next ≠ some s.cfg.number → exec .leaseExpiry s = .next (doWork rest passed))
    ∧ (∀ q, holder = s.cfg.number → next ≠ some s.cfg.number → s.requests[lock] = some q →
      (q.state = .held ∨ q.state = .releasing → exec .leaseExpiry s = .next (doWork rest
        { placeEvent (.leaseLost q.tag lock) passed with
          requests := s.requests.set lock none, outbox := s.outbox.filter fun i => !i.refersToLock lock }))
      ∧ (q.state = .expiring → exec .leaseExpiry s = .next (doWork rest
        { placeEvent (.timedOut q.tag lock) passed with
          requests := s.requests.set lock none, outbox := s.outbox.filter fun i => !i.refersToLock lock })))
    ∧ (∀ q, holder ≠ s.cfg.number → next = some s.cfg.number → s.requests[lock] = some q →
      (q.state = .waiting → exec .leaseExpiry s = .next (doWork rest
        (placeEvent (.granted q.tag lock) { passed with
          requests := s.requests.set lock (some { q with state := .held }) })))
      ∧ (q.state = .releasing ∨ q.state = .expiring → exec .leaseExpiry s = .next (doWork rest passed)))

/-- WAIT_LIMIT_EXPIRY: a PENDING request ends with TIMED_OUT and its intent leaves the outbox; a WAITING one becomes
EXPIRING and a RELEASE joins the tail of the outbox. The countdown then goes on (R63). That an EXPIRING request has no wait
remaining is the model's choice (log 23). -/
def Obligations.WaitLimitExpiryEndsTheWait : Prop :=
  ∀ (s : State) (lock : LockNo) (rest : List Work) (q : Request),
    s.work = .waitExpiry lock :: rest → s.requests[lock] = some q →
    (q.state = .pending → exec .waitLimitExpiry s = .next (doWork rest
      { placeEvent (.timedOut q.tag lock) { s with work := rest } with
        requests := s.requests.set lock none, outbox := s.outbox.filter fun i => !i.refersToLock lock }))
    ∧ (q.state = .waiting → exec .waitLimitExpiry s = .next (doWork rest { s with
        work := rest
        requests := s.requests.set lock (some { q with wait := none, state := .expiring })
        outbox := s.outbox ++ [{ kind := .release lock, inFlight := false, trailing := .none }] }))

/-- FOUNDED in LISTENING when the silence timer has reached 2N + s + 1 slot lengths: the station is FOUNDING with cause
FOUNDED at the start of its own slot of round 0, timing confirmed, its replica fresh with itself the only member, every
chunk installed (R4, R28, R40, R103, R107). That a reception in progress goes on and belongs to no slot (log 15), and the
field that the founding slot's own start has not been handed on (log 17), are the model's choices. -/
def Obligations.SilenceLeadsToFounding : Prop :=
  ∀ s : State, s.station = .listening → s.work = [] →
    (2 * s.cfg.roundSize + s.cfg.number.val + 1) * s.cfg.slotLength ≤ s.silence →
      exec .founded s = .next (placeEvent (.state .founding .founded)
        { (s.withoutReplica).withChunks allChunks 0 with
          station := .founding
          members := tabulate fun r => if r = s.cfg.number then some { joining := false, absence := 0 } else none
          reception := s.reception.map Reception.placeless
          timing := some (freshSlot true s.cfg.number 0 true)
          silence := 0, disagreement := 0, foundingOpen := true })

/-! ## Items and events -/

/-- R7, R8: an ACQUIRE item of an admissible sender reaches the entry of a lock in place: a FREE lock is granted, with
level 7 when leased; on a HELD one the four cases of Table 1-7 are tested in order. An item of a sender that is not
admissible changes nothing (R5), and another station's item changes the entry alone. R9, R59: the outcome of the own ACQUIRE
is handed to the own request. A PENDING one becomes HELD with GRANTED when the lock was granted or is held already, WAITING
with QUEUED and the position when it was queued or waits already; a PENDING or RELEASING one ends with QUEUE_REFUSED when the
queue is full; otherwise the request stays as it is. -/
def Obligations.AcquireItemHasTheTableOutcomes : Prop :=
  ∀ (r : StationNo) (leased : Bool),
    acquireEntry r leased .free = (.held r (if leased then some 7#3 else none) [], .granted)
    ∧ (∀ (holder : StationNo) (lease : Option (BitVec 3)) (waiters : List Waiter),
      let e := LockEntry.held holder lease waiters
      (holder = r → acquireEntry r leased e = (e, .alreadyHolder))
      ∧ (∀ before w after, holder ≠ r → waiters = before ++ w :: after → w.station = r →
          (∀ x ∈ before, x.station ≠ r) → acquireEntry r leased e = (e, .alreadyWaiting (before.length + 1)))
      ∧ (holder ≠ r → (∀ x ∈ waiters, x.station ≠ r) → 6 ≤ waiters.length →
          acquireEntry r leased e = (e, .queueFull))
      ∧ (holder ≠ r → (∀ x ∈ waiters, x.station ≠ r) → waiters.length < 6 →
          acquireEntry r leased e =
            (.held holder lease (waiters ++ [{ station := r, leased := leased }]), .queued (waiters.length + 1))))
    ∧ ∀ (s : State) (lock : LockNo),
      (isUnmarked s r = false → applyItem r s (.acquire lock leased) = s)
      ∧ (isUnmarked s r = true → lockInPlace s lock = true →
        let entered : State := { s with locks := s.locks.set lock (acquireEntry r leased s.locks[lock]).1 }
        let outcome := (acquireEntry r leased s.locks[lock]).2
        let after := applyItem r s (.acquire lock leased)
        (r ≠ s.cfg.number ∨ s.requests[lock] = none → after = entered)
        ∧ ∀ q, r = s.cfg.number → s.requests[lock] = some q →
          (q.state = .pending → outcome = .granted ∨ outcome = .alreadyHolder →
            after = placeEvent (.granted q.tag lock) { entered with
              requests := s.requests.set lock (some { q with state := .held }) })
          ∧ (∀ position, q.state = .pending → outcome = .queued position ∨ outcome = .alreadyWaiting position →
            after = placeEvent (.queued q.tag lock position) { entered with
              requests := s.requests.set lock (some { q with state := .waiting }) })
          ∧ (q.state = .pending ∨ q.state = .releasing → outcome = .queueFull →
            after = { placeEvent (.queueRefused q.tag lock) entered with
              requests := s.requests.set lock none
              outbox := s.outbox.filter fun i => !i.refersToLock lock })
          ∧ ((q.state = .releasing ∧ outcome ≠ .queueFull) ∨ q.state = .waiting ∨ q.state = .held
              ∨ q.state = .expiring → after = entered))

/-- R15: a RENEW item of an admissible sender, for a lock in place: the level becomes 7 when the sender is the holder and
the lock is leased; otherwise the entry is unchanged. Nothing else changes: no outcome is formed. -/
def Obligations.RenewItemRestoresTheLease : Prop :=
  ∀ (s : State) (sender : StationNo) (lock : LockNo), isUnmarked s sender = true → lockInPlace s lock = true →
    (∀ level waiters, s.locks[lock] = .held sender (some level) waiters →
      applyItem sender s (.renew lock) = { s with locks := s.locks.set lock (.held sender (some 7#3) waiters) })
    ∧ ((∀ level waiters, s.locks[lock] ≠ .held sender (some level) waiters) → applyItem sender s (.renew lock) = s)

/-- R10, R12 to R14: a RELEASE item of an admissible sender, for a lock in place: the holder's passes the lock, a waiter's
withdraws its record, the others keeping their order, and any other leaves the entry. R60: the own RELEASE ends the own
request that is RELEASING, with RELEASED, or EXPIRING, with TIMED_OUT. R61: where another station's RELEASE passes the lock to
the own WAITING request, it becomes HELD with GRANTED. Nothing else changes. -/
def Obligations.ReleaseItemPassesOrWithdraws : Prop :=
  ∀ (s : State) (sender : StationNo) (lock : LockNo), isUnmarked s sender = true → lockInPlace s lock = true →
    let item := applyItem sender s (.release lock)
    let after := item.locks
    let entered : State := { s with locks := after }
    let passesTo (r : StationNo) : Prop :=
      ∃ lease w others, s.locks[lock] = .held sender lease (w :: others) ∧ w.station = r
    (s.locks[lock] = .free → after = s.locks)
    ∧ (∀ lease, s.locks[lock] = .held sender lease [] → after = s.locks.set lock .free)
    ∧ (∀ lease w waiters, s.locks[lock] = .held sender lease (w :: waiters) →
        after = s.locks.set lock (.held w.station (if w.leased then some 7#3 else none) waiters))
    ∧ (∀ holder lease waiters, holder ≠ sender → s.locks[lock] = .held holder lease waiters →
        after = s.locks.set lock (.held holder lease (waiters.filter fun w => decide (w.station ≠ sender))))
    ∧ (∀ q, sender = s.cfg.number → s.requests[lock] = some q →
        (q.state = .releasing → item = { placeEvent (.released q.tag lock) entered with
          requests := s.requests.set lock none, outbox := s.outbox.filter fun i => !i.refersToLock lock })
        ∧ (q.state = .expiring → item = { placeEvent (.timedOut q.tag lock) entered with
          requests := s.requests.set lock none, outbox := s.outbox.filter fun i => !i.refersToLock lock })
        ∧ (q.state = .pending ∨ q.state = .waiting ∨ q.state = .held → ¬ passesTo s.cfg.number → item = entered))
    ∧ (∀ q, sender ≠ s.cfg.number → passesTo s.cfg.number → s.requests[lock] = some q → q.state = .waiting →
        item = placeEvent (.granted q.tag lock) { entered with
          requests := s.requests.set lock (some { q with state := .held }) })
    ∧ (sender ≠ s.cfg.number → ¬ passesTo s.cfg.number ∨ (∀ q, s.requests[lock] = some q → q.state ≠ .waiting) →
        item = entered)
    ∧ (s.requests[lock] = none → item = entered)

/-- R17, R63: the lease tick and the wait countdown visit the locks from a number on, in ascending order, up to the first
whose lease level, in place, would reach 0, or whose PENDING or WAITING request's wait remaining would. Every level in place
and every such wait before it is lowered by one, and nothing else changes. The step that lock needs is to follow, and the
visit goes on behind it; with no such lock the work goes on at once. The wait countdown acts in JOINING and SYNCED only. At
the last item of the work the next slot begins (R95, R98). -/
def Obligations.RoundEndVisitsRunInAscendingOrder : Prop :=
  ∀ (s : State) (start : Nat) (rest : List Work),
    let runsOut (lock : LockNo) : Bool :=
      match s.locks[lock] with
      | .held _ (some level) _ => lockInPlace s lock && decide (level.toNat ≤ 1)
      | .held _ none _ | .free => false
    let lowered (lock : LockNo) : LockEntry :=
      match s.locks[lock] with
      | .held holder (some level) waiters =>
        if lockInPlace s lock then .held holder (some (level - 1)) waiters else s.locks[lock]
      | .held _ none _ | .free => s.locks[lock]
    let waits (lock : LockNo) : Option (Request × Nat) :=
      match s.requests[lock] with
      | none => none
      | some q => if q.state = .pending ∨ q.state = .waiting then q.wait.map fun w => (q, w) else none
    let counted (lock : LockNo) : Option Request :=
      match waits lock with
      | some (q, w) => some { q with wait := some (w - 1) }
      | none => s.requests[lock]
    let expires := (List.finRange 64).find? fun lock => decide (start ≤ lock.val) && runsOut lock
    let ends := (List.finRange 64).find? fun lock =>
      decide (start ≤ lock.val) && (waits lock).any fun qw => decide (qw.2 ≤ 1)
    let ticked : State := { s with locks := tabulate fun lock =>
      if start ≤ lock.val ∧ (expires.all fun stop => decide (lock < stop)) = true then lowered lock else s.locks[lock] }
    let passed : State := { s with requests := tabulate fun lock =>
      if start ≤ lock.val ∧ (ends.all fun stop => decide (lock < stop)) = true then counted lock else s.requests[lock] }
    (visitLeases (locksFrom start) s = (ticked, expires) ∧ countWaits (locksFrom start) s = (passed, ends))
    ∧ (∀ stop, expires = some stop → doWork (.leaseTick start :: rest) s =
        { ticked with work := .leaseExpiry stop :: .leaseTick (stop.val + 1) :: rest })
    ∧ (expires = none → doWork (.leaseTick start :: rest) s = doWork rest ticked)
    ∧ (s.station = .joining ∨ s.station = .synced →
      (∀ stop, ends = some stop → doWork (.waitCountdown start :: rest) s =
        { passed with work := .waitExpiry stop :: .waitCountdown (stop.val + 1) :: rest })
      ∧ (ends = none → doWork (.waitCountdown start :: rest) s = doWork rest passed))
    ∧ (s.station ≠ .joining → s.station ≠ .synced → doWork (.waitCountdown start :: rest) s = doWork rest s)
    ∧ ∀ t, s.timing = some t → s.cfg.roundSize ≤ 16 →
      s.station = .founding ∨ s.station = .joining ∨ s.station = .synced ∨ s.station = .leaving →
      doWork [.nextSlot] s = { s with
        work := [], timing := some (t.following s.cfg.roundSize fun r => decide (r = s.cfg.number)) }

/-- R30 to R32: an ARRIVE item of an admissible sender: a station that stands in the arrived set changes nothing there; one
that does not joins it, and when the set then holds every present member without the joining mark the barrier completes:
its set is emptied and its generation is one more, modulo 256. The other barriers stay. R33, R71: the own ARRIVE makes the own
record ARRIVED, and a completion with the own number in the set ends an ARRIVED record with BARRIER_DONE and the generation
that completed. -/
def Obligations.ArriveItemCompletesABarrier : Prop :=
  ∀ (s : State) (sender : StationNo) (barrier : BarrierNo),
    isUnmarked s sender = true → s.installed.getLsbD 0 = true →
    let e := s.barriers[barrier]
    let arrived := e.arrived ||| BitVec.twoPow 16 sender.val
    let complete : Prop :=
      ∀ r : StationNo, ∀ m, s.members[r] = some m → m.joining = false → arrived.getLsbD r.val = true
    let item := applyItem sender s (.arrive barrier)
    let record : Option BarrierRecord := (s.barrierRecords[barrier]).map fun q =>
      { q with arrived := q.arrived || decide (sender = s.cfg.number) }
    let completed : State := { s with barriers := s.barriers.set barrier { generation := e.generation + 1, arrived := 0 } }
    (e.arrived.getLsbD sender.val = true → item = { s with barrierRecords := s.barrierRecords.set barrier record })
    ∧ (e.arrived.getLsbD sender.val = false → ¬ complete → item = { s with
        barriers := s.barriers.set barrier { generation := e.generation, arrived := arrived }
        barrierRecords := s.barrierRecords.set barrier record })
    ∧ (e.arrived.getLsbD sender.val = false → complete →
      (∀ q, record = some q → q.arrived = true → arrived.getLsbD s.cfg.number.val = true →
        item = { placeEvent (.barrierDone q.tag barrier e.generation) completed with
          barrierRecords := s.barrierRecords.set barrier none
          outbox := s.outbox.filter fun i => !i.refersToBarrier barrier })
      ∧ (record = none ∨ (∀ q, record = some q → q.arrived = false) ∨ arrived.getLsbD s.cfg.number.val = false →
        item = { completed with barrierRecords := s.barrierRecords.set barrier record }))

/-- R19, R34, R50: the removal of another station: at each lock in place that it holds the lock passes, and where it waits
its record is withdrawn; it leaves every arrived set, and each barrier whose set is not empty and then holds every other
unmarked member completes; its member record goes. R61, R71: a pass to the own WAITING request makes it HELD with GRANTED, in
ascending lock order; then each completion with the own number in the set ends an ARRIVED record with BARRIER_DONE, in
ascending barrier order; then MEMBER_LEFT is placed. R48: a LEAVE item removes a present sender with cause LEAVE, changes
nothing for another, and completes the STOP of a station that leaves without membership (R122; the wait of the receiver then
ends, the model's choice, log 30). -/
def Obligations.RemovalLeavesNoTrace : Prop :=
  (∀ (s : State) (r : StationNo) (cause : LeaveCause), r ≠ s.cfg.number →
    let after := removeStation r cause s
    let granted (lock : LockNo) : Option Request :=
      match s.locks[lock], s.requests[lock] with
      | .held holder _ (w :: _), some q =>
        if lockInPlace s lock ∧ holder = r ∧ w.station = s.cfg.number ∧ q.state = .waiting then some q else none
      | _, _ => none
    let arrived (barrier : BarrierNo) : StationSet := s.barriers[barrier].arrived &&& ~~~ BitVec.twoPow 16 r.val
    let complete (barrier : BarrierNo) : Bool := decide (arrived barrier ≠ 0) &&
      (List.finRange 16).all fun k => decide (k = r) || (s.members[k]).all (fun m => m.joining)
        || (arrived barrier).getLsbD k.val
    let done (barrier : BarrierNo) : Option BarrierRecord :=
      if complete barrier ∧ (arrived barrier).getLsbD s.cfg.number.val then
        (s.barrierRecords[barrier]).filter fun q => q.arrived
      else none
    let events : List Event :=
      (List.finRange 64).filterMap (fun lock => (granted lock).map fun q => .granted q.tag lock)
        ++ (List.finRange 8).filterMap (fun barrier => (done barrier).map fun q =>
          .barrierDone q.tag barrier s.barriers[barrier].generation)
        ++ [.memberLeft r cause]
    after = { placeEvents events s with
      locks := tabulate fun lock =>
        match s.locks[lock] with
        | .free => .free
        | .held holder lease waiters =>
          if lockInPlace s lock then
            if holder = r then
              match waiters with
              | [] => .free
              | w :: others => .held w.station (if w.leased then some 7#3 else none) others
            else .held holder lease (waiters.filter fun w => decide (w.station ≠ r))
          else .held holder lease waiters
      barriers := tabulate fun barrier =>
        if complete barrier then { generation := s.barriers[barrier].generation + 1, arrived := 0 }
        else { generation := s.barriers[barrier].generation, arrived := arrived barrier }
      members := s.members.set r none
      requests := tabulate fun lock =>
        match granted lock with
        | some q => some { q with state := .held }
        | none => s.requests[lock]
      barrierRecords := tabulate fun barrier => if (done barrier).isSome then none else s.barrierRecords[barrier]
      outbox := s.outbox.filter fun i =>
        (List.finRange 8).all fun barrier => !((done barrier).isSome && i.refersToBarrier barrier) })
  ∧ ∀ (s : State) (r : StationNo),
    (∀ m, s.members[r] = some m → applyItem r s .leave = removeStation r .leave s)
    ∧ (s.members[r] = none → r ≠ s.cfg.number ∨ s.station ≠ .leaving ∨ s.installed.getLsbD 0 = true →
      applyItem r s .leave = s)
    ∧ (s.members[r] = none → r = s.cfg.number → s.station = .leaving → s.installed.getLsbD 0 = false → RecordsLaw s →
      applyItem r s .leave = placeEvent (.state .ready .left) s.atRest)

/-- R43 to R47 (Table 3-3): what a frame from another station does to the present set, where membership is held: a JOIN
frame adds a station that is not present, changes nothing for a marked one, and removes and adds an unmarked one; a frame
without JOIN clears a mark, and changes nothing for an unmarked station or a stranger. -/
def Obligations.FrameUpdatesThePresentSet : Prop :=
  ∀ (f : Frame) (s : State), f.items = [] → f.chunk = none → f.station ≠ s.cfg.number → s.installed.getLsbD 0 = true →
    let r := f.station
    let after := processFrame f s
    let replicaKept : Prop := after.locks = s.locks ∧ after.barriers = s.barriers
    (s.members[r] = none → f.join = true →
      after.members = s.members.set r (some { joining := true, absence := 0 }) ∧ replicaKept
        ∧ after.notices.getLsbD 9 = true)
    ∧ (∀ m, s.members[r] = some m → m.joining = true → f.join = true → after.members = s.members ∧ replicaKept)
    ∧ (∀ m, s.members[r] = some m → m.joining = false → f.join = true →
        after.members = s.members.set r (some { joining := true, absence := 0 })
          ∧ after.notices.getLsbD 9 = true ∧ after.notices.getLsbD 11 = true)
    ∧ (∀ m, s.members[r] = some m → m.joining = true → f.join = false →
        after.members = s.members.set r (some { m with joining := false }) ∧ replicaKept
          ∧ after.notices.getLsbD 10 = true)
    ∧ ((∀ m, s.members[r] = some m → m.joining = false) → f.join = false →
        after.members = s.members ∧ replicaKept)

/-- R173, with R172, R174 and R175: each event adds its kind to the notice set; a masked one does nothing more; an unmasked
one is appended while at most 30 records are held, and beyond that raises the marker that is last, up to 255, or appends
one with count 1, OVERRUN being noticed. The queue's law is kept. -/
def Obligations.EventIsStoredMaskedOrCounted : Prop :=
  ∀ (e : Event) (s : State),
    let masked : Bool :=
      match e with
      | .memberJoined _ => !s.eventMask.getLsbD 0
      | .memberSynced _ => !s.eventMask.getLsbD 1
      | .memberLeft _ _ => !s.eventMask.getLsbD 2
      | .digestMismatch _ => !s.eventMask.getLsbD 3
      | _ => false
    let noticed := s.notices ||| BitVec.twoPow 15 (noticeBit (kindOf e)).val
    let overrun := noticed ||| BitVec.twoPow 15 14
    (masked = true → placeEvent e s = { s with notices := noticed })
    ∧ (masked = false → s.answers.length ≤ 30 →
        placeEvent e s = { s with notices := noticed, answers := s.answers ++ [.event e] })
    ∧ (∀ before n, masked = false → 31 ≤ s.answers.length → s.answers = before ++ [.overrun n] →
        placeEvent e s = { s with notices := overrun, answers := before ++ [.overrun (min (n + 1) 255)] })
    ∧ (masked = false → 31 ≤ s.answers.length → (∀ n, s.answers.getLast? ≠ some (.overrun n)) →
        placeEvent e s = { s with notices := overrun, answers := s.answers ++ [.overrun 1] })
    ∧ (AnswerQueueLaw s → AnswerQueueLaw (placeEvent e s))

/-! ## The whole machine -/

/-- No command stops the machine: exec always answers a next state, and the queue of waiting commands is not touched. That a
step whose condition is not met still answers a next state (logs 3, 24), and that the waiting queue stays, over a hard reset
too (logs 1, 16), are the model's choices. -/
def Obligations.EveryCommandHasANextState : Prop :=
  ∀ (c : Instr) (s : State), ∃ t, exec c s = .next t ∧ t.pending = s.pending

/-- R111, R116, R172: the configuration and the event mask stand until the next hard reset, and only a hard reset leads to
UNCONFIGURED. -/
def Obligations.ConfigurationStandsUntilReset : Prop :=
  ∀ (c : Instr) (s t : State), exec c s = .next t → c ≠ .hardReset → s.station ≠ .unconfigured →
    t.station ≠ .unconfigured ∧ t.config = s.config ∧ t.eventMask = s.eventMask

/-- R114, R175: whatever command changes the station state, other than a hard reset, leaves STATE (bit 13) in the notice
set. -/
def Obligations.EveryTransitionIsNoticed : Prop :=
  ∀ (c : Instr) (s t : State), exec c s = .next t → c ≠ .hardReset → t.station ≠ s.station →
    t.notices.getLsbD 13 = true

/-- R1 to R3, R6, R40, R42: every step keeps the lock table's law, and the law of what a replica may name. -/
def Obligations.StepsKeepTheLockTableLaws : Prop :=
  ∀ s t : State, Laws s → step s = .next t → LockTableLaw t ∧ ReplicaLaw t

/-- R31, R36, R39, R42: every step keeps the barriers from standing complete or naming a station that is no unmarked member,
and every absence count below the limit. -/
def Obligations.StepsKeepTheMembershipLaws : Prop :=
  ∀ s t : State, Laws s → step s = .next t → BarrierLaw t ∧ AbsenceLaw t

/-- R56, R69, R151, R153, R155, R158, R169, R173, R174: every step keeps the laws of the answer queue, the command queue, the
port and the records. -/
def Obligations.StepsKeepTheHostSideLaws : Prop :=
  ∀ s t : State, Laws s → step s = .next t →
    AnswerQueueLaw t ∧ CommandQueueLaw t ∧ PortLaw t ∧ RequestCountLaw t ∧ RecordsLaw t

/-- R80, R94, R111, R112, R116, R129: every step keeps the laws of the configuration, the timing, the chunk sets and the
line. -/
def Obligations.StepsKeepTheStationLaws : Prop :=
  ∀ s t : State, Laws s → step s = .next t → ConfigLaw t ∧ TimingLaw t ∧ ChunkLaw t ∧ LineLaw t

/-! ## Layouts -/

/-- R79, R82, R180, Tables 12-7 and 12-8: the bytes of a frame; its characters, received without an error, pass the
well-formed test and give the frame back, with every part at every value. R83, R85, R180: a reception is corrupt that has a
framing error, a check that is not the CRC of the bytes before it, an item count above 6, a chunk number above 8, or a length
other than the flags, the count and the chunk number give; and one with an item of unknown kind, with bits set beside the
kind, or with a lock, barrier or LEAVE operand out of range, a wanted set naming chunks 9 to 15, a LEAVE that does not stand
alone, or JOIN beside an item other than LEAVE. -/
def Obligations.FramesReadBackWholeAndOthersAreCorrupt : Prop :=
  (∀ f : Frame, f.proper → wellFormedFrame (charsOf (frameBytes f)) = some f)
  ∧ (∀ f : Frame,
    let flag (b : Bool) (weight : Nat) : Nat := if b then weight else 0
    let item : Item → List Byte := fun
      | .acquire lock leased => [if leased then 0x81 else 0x01, byteOf lock.val]
      | .release lock => [0x02, byteOf lock.val]
      | .renew lock => [0x03, byteOf lock.val]
      | .arrive barrier => [0x04, byteOf barrier.val]
      | .leave => [0x05, 0x00]
    let content : List Byte :=
      [byteOf (f.station.val + flag f.join 16 + flag f.digest.isSome 32 + flag f.want.isSome 64 + flag f.chunk.isSome 128)
          , byteOf (f.round.toNat % 256), byteOf (f.round.toNat / 256), byteOf f.items.length]
        ++ (f.digest.toList.flatMap fun d => [byteOf (d.toNat / 256), byteOf (d.toNat % 256)])
        ++ (f.want.toList.flatMap fun w => [byteOf (w.toNat % 256), byteOf (w.toNat / 256)])
        ++ (f.chunk.toList.flatMap fun c => byteOf c.number.val :: c.body)
        ++ f.items.flatMap item
    frameBytes f = content ++ [byteOf ((crc16 content).toNat / 256), byteOf ((crc16 content).toNat % 256)])
  ∧ (∀ chars : List RxChar,
    ((∃ c ∈ chars, c.getLsbD 8 = false) → wellFormedFrame chars = none)
    ∧ (∀ (content : List Byte) (high low : Byte), chars.map rxData = content ++ [high, low] →
        256 * high.toNat + low.toNat ≠ (crc16 content).toNat → wellFormedFrame chars = none)
    ∧ (chars.length < 6 ∨ 95 < chars.length → wellFormedFrame chars = none)
    ∧ ∀ (header low high count : Byte) (rest : List Byte), chars.map rxData = header :: low :: high :: count :: rest →
      let parts := (if header.getLsbD 5 then 2 else 0) + (if header.getLsbD 6 then 2 else 0)
      (6 < count.toNat → wellFormedFrame chars = none)
      ∧ (header.getLsbD 7 = false → chars.length ≠ 4 + parts + 2 * count.toNat + 2 → wellFormedFrame chars = none)
      ∧ (header.getLsbD 7 = true → rest.length ≤ parts → wellFormedFrame chars = none)
      ∧ ∀ k : Byte, header.getLsbD 7 = true → rest[parts]? = some k →
        (8 < k.toNat ∨ chars.length ≠ 4 + parts + (if k = 0 then 37 else 73) + 2 * count.toNat + 2 →
          wellFormedFrame chars = none))
  ∧ ∀ (chars : List RxChar) (header low high count : Byte) (digest want chunk : List Byte) (items : List (Byte × Byte))
      (check : List Byte),
    chars.map rxData = header :: low :: high :: count :: digest ++ want ++ chunk
      ++ items.flatMap (fun item => [item.1, item.2]) ++ check →
    (digest.length = if header.getLsbD 5 then 2 else 0) → (want.length = if header.getLsbD 6 then 2 else 0) →
    (chunk.length = if header.getLsbD 7 then (if chunk.head? = some 0 then 37 else 73) else 0) →
    items.length = count.toNat → check.length = 2 →
    let unknown (item : Byte × Byte) : Prop :=
      item.1 ∉ [0x01#8, 0x81#8, 0x02#8, 0x03#8, 0x04#8, 0x05#8]
        ∨ (item.1 ∈ [0x01#8, 0x81#8, 0x02#8, 0x03#8] ∧ 63 < item.2.toNat)
        ∨ (item.1 = 0x04#8 ∧ 7 < item.2.toNat) ∨ (item.1 = 0x05#8 ∧ item.2 ≠ 0)
    ((∃ item ∈ items, unknown item) ∨ (∃ b ∈ want.tail, 1 < b.toNat)
        ∨ ((∃ item ∈ items, item.1 = 0x05#8) ∧ items.length ≠ 1)
        ∨ (header.getLsbD 4 = true ∧ ∃ item ∈ items, item.1 ≠ 0x05#8)) →
      wellFormedFrame chars = none

/-- R22 to R24, R37, R38, R53, R55, Tables 12-9 and 12-10: the chunk bodies of a station read back as what it holds: chunk 0
with its present set, marks, counts and barriers, and each lock chunk with its eight entries, which pass the checks
against the station's own members. R131: the wanted set of a JOIN frame is gathered in FOUNDING and SYNCED, and no other.
R133, R134: in JOINING a chunk is considered that the station wants, from a frame without JOIN, a lock chunk only once chunk 0
is installed and from an unmarked member; any other is ignored. Chunk 0 is installed when its members, marks, counts and
barriers pass the checks of R53 and R37; a lock chunk when its body is that of eight entries that keep the laws of R1 to R3
and name unmarked members alone (R22, R23, R54, R180); one that fails changes nothing. R120, R136: catch-up is complete when
nothing is wanted and the own number is present: the station is SYNCED with cause CAUGHT_UP, its replica kept. -/
def Obligations.ChunksCarryTheReplicaAndInstall : Prop :=
  (∀ s : State, Laws s →
    (∃ c, readChunk0 (chunkBody 0 s) = some c ∧ c.barriers = s.barriers
      ∧ ∀ r : StationNo, s.members[r] =
          if c.present.getLsbD r.val then some { joining := c.marks.getLsbD r.val, absence := c.counts[r] } else none)
    ∧ ∀ k : ChunkNo, k ≠ 0 → ∃ entries, readLockChunk (requiredSet s) (chunkBody k s) = some entries
      ∧ entries.length = 8
      ∧ ∀ lock : LockNo, chunkOfLock lock = k → entries[lock.val % 8]? = some s.locks[lock])
  ∧ (∀ (f : Frame) (s : State),
    (∀ w, f.want = some w → f.join = true → s.station = .founding ∨ s.station = .synced →
      gatherWanted f s = { s with gathered := s.gathered ||| w })
    ∧ (f.want = none ∨ f.join = false ∨ (s.station ≠ .founding ∧ s.station ≠ .synced) → gatherWanted f s = s)
    ∧ (s.station = .joining → s.wanted = 0 → (∃ m, s.members[s.cfg.number] = some m) →
      completeCatchUp s = placeEvent (.state .synced .caughtUp) { s.withChunks allChunks 0 with station := .synced })
    ∧ (s.station ≠ .joining ∨ s.wanted ≠ 0 ∨ s.members[s.cfg.number] = none → completeCatchUp s = s)
    ∧ (f.chunk = none ∨ s.station ≠ .joining ∨ f.join = true → installChunk f s = s))
  ∧ ∀ (f : Frame) (s : State) (k : ChunkNo) (body : List Byte), f.chunk = some { number := k, body := body } →
    (s.wanted.getLsbD k.val = false → installChunk f s = s)
    ∧ (k ≠ 0 → s.installed.getLsbD 0 = false ∨ (∀ m, s.members[f.station] = some m → m.joining = true) →
      installChunk f s = s)
    ∧ (s.station = .joining → f.join = false → s.wanted.getLsbD k.val = true →
      let installed (s : State) : State :=
        { s with installed := s.installed ||| BitVec.twoPow 9 k.val, wanted := s.wanted &&& ~~~ BitVec.twoPow 9 k.val }
      (k = 0 → body.length = 36 → ∀ c : Chunk0,
        (∀ r : StationNo, c.present.getLsbD r.val = (body.getD (r.val / 8) 0).getLsbD (r.val % 8)
          ∧ c.marks.getLsbD r.val = (body.getD (2 + r.val / 8) 0).getLsbD (r.val % 8)
          ∧ c.counts[r] = if r.val % 2 = 0 then (body.getD (4 + r.val / 2) 0).toNat % 16
              else (body.getD (4 + r.val / 2) 0).toNat / 16) →
        (∀ b : BarrierNo, c.barriers[b].generation = body.getD (12 + 3 * b.val) 0
          ∧ ∀ r : StationNo, c.barriers[b].arrived.getLsbD r.val
              = (body.getD (13 + 3 * b.val + r.val / 8) 0).getLsbD (r.val % 8)) →
        let unmarked (r : StationNo) : Prop := c.present.getLsbD r.val = true ∧ c.marks.getLsbD r.val = false
        let good : Prop :=
          (∀ r : StationNo, (c.present.getLsbD r.val = true → r.val < s.cfg.roundSize)
              ∧ c.counts[r] < s.cfg.absenceLimit ∧ (c.present.getLsbD r.val = false → c.counts[r] = 0)
              ∧ (c.marks.getLsbD r.val = true → c.present.getLsbD r.val = true))
            ∧ unmarked f.station
            ∧ (c.present.getLsbD s.cfg.number.val = true → c.marks.getLsbD s.cfg.number.val = true)
            ∧ ∀ b : BarrierNo, (∀ r : StationNo, c.barriers[b].arrived.getLsbD r.val = true → unmarked r)
              ∧ (c.barriers[b].arrived = 0 ∨ ∃ r, unmarked r ∧ c.barriers[b].arrived.getLsbD r.val = false)
        (good → installChunk f s = installed { s with
          barriers := c.barriers
          members := tabulate fun r =>
            if c.present.getLsbD r.val then some { joining := c.marks.getLsbD r.val, absence := c.counts[r] } else none })
        ∧ (¬ good → installChunk f s = s))
      ∧ (k ≠ 0 → s.installed.getLsbD 0 = true → ∀ m, s.members[f.station] = some m → m.joining = false →
        let unmarked (r : StationNo) : Prop := ∃ m, s.members[r] = some m ∧ m.joining = false
        let lawful : LockEntry → Prop := fun
          | .free => True
          | .held holder lease waiters => lease ≠ some 0 ∧ waiters.length ≤ 6 ∧ (waiters.map Waiter.station).Nodup
              ∧ (∀ w ∈ waiters, w.station ≠ holder ∧ unmarked w.station) ∧ unmarked holder
        let waiter (w : Waiter) : Byte := byteOf (w.station.val + if w.leased then 128 else 0)
        let entry : LockEntry → List Byte := fun
          | .free => List.replicate 9 0
          | .held holder lease waiters =>
            [byteOf (128 + holder.val), (match lease with | none => 0 | some level => byteOf (128 + level.toNat))
              , byteOf waiters.length] ++ waiters.map waiter ++ List.replicate (6 - waiters.length) 0
        (∀ entries : List LockEntry, entries.length = 8 → (∀ e ∈ entries, lawful e) → body = entries.flatMap entry →
          installChunk f s = installed { s with locks := tabulate fun lock =>
            if lock.val / 8 + 1 = k.val then entries.getD (lock.val % 8) .free else s.locks[lock] })
        ∧ ((∀ entries : List LockEntry, entries.length = 8 → (∀ e ∈ entries, lawful e) → body ≠ entries.flatMap entry) →
          installChunk f s = s)))
end

