-- ==== Sys2Proof/Laws/State.lean ====
section
/-! SUPPORT. One lemma per field per named update of the state, true by rfl, so that no later proof unfolds a record
update. -/

namespace Sys2Proof.Machine

variable (s : State)

/-! ## setLock -/

@[simp] theorem setLock_station (lock : LockNo) (e : LockEntry) : (setLock lock e s).station = s.station := rfl
@[simp] theorem setLock_config (lock : LockNo) (e : LockEntry) : (setLock lock e s).config = s.config := rfl
@[simp] theorem setLock_leavingCount (lock : LockNo) (e : LockEntry) : (setLock lock e s).leavingCount = s.leavingCount := rfl
@[simp] theorem setLock_leavingFromJoining (lock : LockNo) (e : LockEntry) : (setLock lock e s).leavingFromJoining = s.leavingFromJoining := rfl
@[simp] theorem setLock_foundingOpen (lock : LockNo) (e : LockEntry) : (setLock lock e s).foundingOpen = s.foundingOpen := rfl
@[simp] theorem setLock_locks (lock : LockNo) (e : LockEntry) : (setLock lock e s).locks = s.locks.set lock e := rfl
@[simp] theorem setLock_barriers (lock : LockNo) (e : LockEntry) : (setLock lock e s).barriers = s.barriers := rfl
@[simp] theorem setLock_members (lock : LockNo) (e : LockEntry) : (setLock lock e s).members = s.members := rfl
@[simp] theorem setLock_requests (lock : LockNo) (e : LockEntry) : (setLock lock e s).requests = s.requests := rfl
@[simp] theorem setLock_barrierRecords (lock : LockNo) (e : LockEntry) : (setLock lock e s).barrierRecords = s.barrierRecords := rfl
@[simp] theorem setLock_outbox (lock : LockNo) (e : LockEntry) : (setLock lock e s).outbox = s.outbox := rfl
@[simp] theorem setLock_txBuffer (lock : LockNo) (e : LockEntry) : (setLock lock e s).txBuffer = s.txBuffer := rfl
@[simp] theorem setLock_rxBuffer (lock : LockNo) (e : LockEntry) : (setLock lock e s).rxBuffer = s.rxBuffer := rfl
@[simp] theorem setLock_reception (lock : LockNo) (e : LockEntry) : (setLock lock e s).reception = s.reception := rfl
@[simp] theorem setLock_echo (lock : LockNo) (e : LockEntry) : (setLock lock e s).echo = s.echo := rfl
@[simp] theorem setLock_ltxe (lock : LockNo) (e : LockEntry) : (setLock lock e s).ltxe = s.ltxe := rfl
@[simp] theorem setLock_ltx (lock : LockNo) (e : LockEntry) : (setLock lock e s).ltx = s.ltx := rfl
@[simp] theorem setLock_lineWait (lock : LockNo) (e : LockEntry) : (setLock lock e s).lineWait = s.lineWait := rfl
@[simp] theorem setLock_lineHigh (lock : LockNo) (e : LockEntry) : (setLock lock e s).lineHigh = s.lineHigh := rfl
@[simp] theorem setLock_lrxLow (lock : LockNo) (e : LockEntry) : (setLock lock e s).lrxLow = s.lrxLow := rfl
@[simp] theorem setLock_timing (lock : LockNo) (e : LockEntry) : (setLock lock e s).timing = s.timing := rfl
@[simp] theorem setLock_silence (lock : LockNo) (e : LockEntry) : (setLock lock e s).silence = s.silence := rfl
@[simp] theorem setLock_disagreement (lock : LockNo) (e : LockEntry) : (setLock lock e s).disagreement = s.disagreement := rfl
@[simp] theorem setLock_installed (lock : LockNo) (e : LockEntry) : (setLock lock e s).installed = s.installed := rfl
@[simp] theorem setLock_wanted (lock : LockNo) (e : LockEntry) : (setLock lock e s).wanted = s.wanted := rfl
@[simp] theorem setLock_gathered (lock : LockNo) (e : LockEntry) : (setLock lock e s).gathered = s.gathered := rfl
@[simp] theorem setLock_orphanCount (lock : LockNo) (e : LockEntry) : (setLock lock e s).orphanCount = s.orphanCount := rfl
@[simp] theorem setLock_joinHeard (lock : LockNo) (e : LockEntry) : (setLock lock e s).joinHeard = s.joinHeard := rfl
@[simp] theorem setLock_matchCount (lock : LockNo) (e : LockEntry) : (setLock lock e s).matchCount = s.matchCount := rfl
@[simp] theorem setLock_mismatchCount (lock : LockNo) (e : LockEntry) : (setLock lock e s).mismatchCount = s.mismatchCount := rfl
@[simp] theorem setLock_port (lock : LockNo) (e : LockEntry) : (setLock lock e s).port = s.port := rfl
@[simp] theorem setLock_cut (lock : LockNo) (e : LockEntry) : (setLock lock e s).cut = s.cut := rfl
@[simp] theorem setLock_ssel (lock : LockNo) (e : LockEntry) : (setLock lock e s).ssel = s.ssel := rfl
@[simp] theorem setLock_shiftIn (lock : LockNo) (e : LockEntry) : (setLock lock e s).shiftIn = s.shiftIn := rfl
@[simp] theorem setLock_shiftOut (lock : LockNo) (e : LockEntry) : (setLock lock e s).shiftOut = s.shiftOut := rfl
@[simp] theorem setLock_miso (lock : LockNo) (e : LockEntry) : (setLock lock e s).miso = s.miso := rfl
@[simp] theorem setLock_commands (lock : LockNo) (e : LockEntry) : (setLock lock e s).commands = s.commands := rfl
@[simp] theorem setLock_answers (lock : LockNo) (e : LockEntry) : (setLock lock e s).answers = s.answers := rfl
@[simp] theorem setLock_eventMask (lock : LockNo) (e : LockEntry) : (setLock lock e s).eventMask = s.eventMask := rfl
@[simp] theorem setLock_notices (lock : LockNo) (e : LockEntry) : (setLock lock e s).notices = s.notices := rfl
@[simp] theorem setLock_work (lock : LockNo) (e : LockEntry) : (setLock lock e s).work = s.work := rfl
@[simp] theorem setLock_freeIndex (lock : LockNo) (e : LockEntry) : (setLock lock e s).freeIndex = s.freeIndex := rfl
@[simp] theorem setLock_pending (lock : LockNo) (e : LockEntry) : (setLock lock e s).pending = s.pending := rfl

/-! ## setBarrier -/

@[simp] theorem setBarrier_station (barrier : BarrierNo) (e : BarrierEntry) : (setBarrier barrier e s).station = s.station := rfl
@[simp] theorem setBarrier_config (barrier : BarrierNo) (e : BarrierEntry) : (setBarrier barrier e s).config = s.config := rfl
@[simp] theorem setBarrier_leavingCount (barrier : BarrierNo) (e : BarrierEntry) : (setBarrier barrier e s).leavingCount = s.leavingCount := rfl
@[simp] theorem setBarrier_leavingFromJoining (barrier : BarrierNo) (e : BarrierEntry) : (setBarrier barrier e s).leavingFromJoining = s.leavingFromJoining := rfl
@[simp] theorem setBarrier_foundingOpen (barrier : BarrierNo) (e : BarrierEntry) : (setBarrier barrier e s).foundingOpen = s.foundingOpen := rfl
@[simp] theorem setBarrier_locks (barrier : BarrierNo) (e : BarrierEntry) : (setBarrier barrier e s).locks = s.locks := rfl
@[simp] theorem setBarrier_barriers (barrier : BarrierNo) (e : BarrierEntry) : (setBarrier barrier e s).barriers = s.barriers.set barrier e := rfl
@[simp] theorem setBarrier_members (barrier : BarrierNo) (e : BarrierEntry) : (setBarrier barrier e s).members = s.members := rfl
@[simp] theorem setBarrier_requests (barrier : BarrierNo) (e : BarrierEntry) : (setBarrier barrier e s).requests = s.requests := rfl
@[simp] theorem setBarrier_barrierRecords (barrier : BarrierNo) (e : BarrierEntry) : (setBarrier barrier e s).barrierRecords = s.barrierRecords := rfl
@[simp] theorem setBarrier_outbox (barrier : BarrierNo) (e : BarrierEntry) : (setBarrier barrier e s).outbox = s.outbox := rfl
@[simp] theorem setBarrier_txBuffer (barrier : BarrierNo) (e : BarrierEntry) : (setBarrier barrier e s).txBuffer = s.txBuffer := rfl
@[simp] theorem setBarrier_rxBuffer (barrier : BarrierNo) (e : BarrierEntry) : (setBarrier barrier e s).rxBuffer = s.rxBuffer := rfl
@[simp] theorem setBarrier_reception (barrier : BarrierNo) (e : BarrierEntry) : (setBarrier barrier e s).reception = s.reception := rfl
@[simp] theorem setBarrier_echo (barrier : BarrierNo) (e : BarrierEntry) : (setBarrier barrier e s).echo = s.echo := rfl
@[simp] theorem setBarrier_ltxe (barrier : BarrierNo) (e : BarrierEntry) : (setBarrier barrier e s).ltxe = s.ltxe := rfl
@[simp] theorem setBarrier_ltx (barrier : BarrierNo) (e : BarrierEntry) : (setBarrier barrier e s).ltx = s.ltx := rfl
@[simp] theorem setBarrier_lineWait (barrier : BarrierNo) (e : BarrierEntry) : (setBarrier barrier e s).lineWait = s.lineWait := rfl
@[simp] theorem setBarrier_lineHigh (barrier : BarrierNo) (e : BarrierEntry) : (setBarrier barrier e s).lineHigh = s.lineHigh := rfl
@[simp] theorem setBarrier_lrxLow (barrier : BarrierNo) (e : BarrierEntry) : (setBarrier barrier e s).lrxLow = s.lrxLow := rfl
@[simp] theorem setBarrier_timing (barrier : BarrierNo) (e : BarrierEntry) : (setBarrier barrier e s).timing = s.timing := rfl
@[simp] theorem setBarrier_silence (barrier : BarrierNo) (e : BarrierEntry) : (setBarrier barrier e s).silence = s.silence := rfl
@[simp] theorem setBarrier_disagreement (barrier : BarrierNo) (e : BarrierEntry) : (setBarrier barrier e s).disagreement = s.disagreement := rfl
@[simp] theorem setBarrier_installed (barrier : BarrierNo) (e : BarrierEntry) : (setBarrier barrier e s).installed = s.installed := rfl
@[simp] theorem setBarrier_wanted (barrier : BarrierNo) (e : BarrierEntry) : (setBarrier barrier e s).wanted = s.wanted := rfl
@[simp] theorem setBarrier_gathered (barrier : BarrierNo) (e : BarrierEntry) : (setBarrier barrier e s).gathered = s.gathered := rfl
@[simp] theorem setBarrier_orphanCount (barrier : BarrierNo) (e : BarrierEntry) : (setBarrier barrier e s).orphanCount = s.orphanCount := rfl
@[simp] theorem setBarrier_joinHeard (barrier : BarrierNo) (e : BarrierEntry) : (setBarrier barrier e s).joinHeard = s.joinHeard := rfl
@[simp] theorem setBarrier_matchCount (barrier : BarrierNo) (e : BarrierEntry) : (setBarrier barrier e s).matchCount = s.matchCount := rfl
@[simp] theorem setBarrier_mismatchCount (barrier : BarrierNo) (e : BarrierEntry) : (setBarrier barrier e s).mismatchCount = s.mismatchCount := rfl
@[simp] theorem setBarrier_port (barrier : BarrierNo) (e : BarrierEntry) : (setBarrier barrier e s).port = s.port := rfl
@[simp] theorem setBarrier_cut (barrier : BarrierNo) (e : BarrierEntry) : (setBarrier barrier e s).cut = s.cut := rfl
@[simp] theorem setBarrier_ssel (barrier : BarrierNo) (e : BarrierEntry) : (setBarrier barrier e s).ssel = s.ssel := rfl
@[simp] theorem setBarrier_shiftIn (barrier : BarrierNo) (e : BarrierEntry) : (setBarrier barrier e s).shiftIn = s.shiftIn := rfl
@[simp] theorem setBarrier_shiftOut (barrier : BarrierNo) (e : BarrierEntry) : (setBarrier barrier e s).shiftOut = s.shiftOut := rfl
@[simp] theorem setBarrier_miso (barrier : BarrierNo) (e : BarrierEntry) : (setBarrier barrier e s).miso = s.miso := rfl
@[simp] theorem setBarrier_commands (barrier : BarrierNo) (e : BarrierEntry) : (setBarrier barrier e s).commands = s.commands := rfl
@[simp] theorem setBarrier_answers (barrier : BarrierNo) (e : BarrierEntry) : (setBarrier barrier e s).answers = s.answers := rfl
@[simp] theorem setBarrier_eventMask (barrier : BarrierNo) (e : BarrierEntry) : (setBarrier barrier e s).eventMask = s.eventMask := rfl
@[simp] theorem setBarrier_notices (barrier : BarrierNo) (e : BarrierEntry) : (setBarrier barrier e s).notices = s.notices := rfl
@[simp] theorem setBarrier_work (barrier : BarrierNo) (e : BarrierEntry) : (setBarrier barrier e s).work = s.work := rfl
@[simp] theorem setBarrier_freeIndex (barrier : BarrierNo) (e : BarrierEntry) : (setBarrier barrier e s).freeIndex = s.freeIndex := rfl
@[simp] theorem setBarrier_pending (barrier : BarrierNo) (e : BarrierEntry) : (setBarrier barrier e s).pending = s.pending := rfl

/-! ## setMember -/

@[simp] theorem setMember_station (r : StationNo) (m : Option Member) : (setMember r m s).station = s.station := rfl
@[simp] theorem setMember_config (r : StationNo) (m : Option Member) : (setMember r m s).config = s.config := rfl
@[simp] theorem setMember_leavingCount (r : StationNo) (m : Option Member) : (setMember r m s).leavingCount = s.leavingCount := rfl
@[simp] theorem setMember_leavingFromJoining (r : StationNo) (m : Option Member) : (setMember r m s).leavingFromJoining = s.leavingFromJoining := rfl
@[simp] theorem setMember_foundingOpen (r : StationNo) (m : Option Member) : (setMember r m s).foundingOpen = s.foundingOpen := rfl
@[simp] theorem setMember_locks (r : StationNo) (m : Option Member) : (setMember r m s).locks = s.locks := rfl
@[simp] theorem setMember_barriers (r : StationNo) (m : Option Member) : (setMember r m s).barriers = s.barriers := rfl
@[simp] theorem setMember_members (r : StationNo) (m : Option Member) : (setMember r m s).members = s.members.set r m := rfl
@[simp] theorem setMember_requests (r : StationNo) (m : Option Member) : (setMember r m s).requests = s.requests := rfl
@[simp] theorem setMember_barrierRecords (r : StationNo) (m : Option Member) : (setMember r m s).barrierRecords = s.barrierRecords := rfl
@[simp] theorem setMember_outbox (r : StationNo) (m : Option Member) : (setMember r m s).outbox = s.outbox := rfl
@[simp] theorem setMember_txBuffer (r : StationNo) (m : Option Member) : (setMember r m s).txBuffer = s.txBuffer := rfl
@[simp] theorem setMember_rxBuffer (r : StationNo) (m : Option Member) : (setMember r m s).rxBuffer = s.rxBuffer := rfl
@[simp] theorem setMember_reception (r : StationNo) (m : Option Member) : (setMember r m s).reception = s.reception := rfl
@[simp] theorem setMember_echo (r : StationNo) (m : Option Member) : (setMember r m s).echo = s.echo := rfl
@[simp] theorem setMember_ltxe (r : StationNo) (m : Option Member) : (setMember r m s).ltxe = s.ltxe := rfl
@[simp] theorem setMember_ltx (r : StationNo) (m : Option Member) : (setMember r m s).ltx = s.ltx := rfl
@[simp] theorem setMember_lineWait (r : StationNo) (m : Option Member) : (setMember r m s).lineWait = s.lineWait := rfl
@[simp] theorem setMember_lineHigh (r : StationNo) (m : Option Member) : (setMember r m s).lineHigh = s.lineHigh := rfl
@[simp] theorem setMember_lrxLow (r : StationNo) (m : Option Member) : (setMember r m s).lrxLow = s.lrxLow := rfl
@[simp] theorem setMember_timing (r : StationNo) (m : Option Member) : (setMember r m s).timing = s.timing := rfl
@[simp] theorem setMember_silence (r : StationNo) (m : Option Member) : (setMember r m s).silence = s.silence := rfl
@[simp] theorem setMember_disagreement (r : StationNo) (m : Option Member) : (setMember r m s).disagreement = s.disagreement := rfl
@[simp] theorem setMember_installed (r : StationNo) (m : Option Member) : (setMember r m s).installed = s.installed := rfl
@[simp] theorem setMember_wanted (r : StationNo) (m : Option Member) : (setMember r m s).wanted = s.wanted := rfl
@[simp] theorem setMember_gathered (r : StationNo) (m : Option Member) : (setMember r m s).gathered = s.gathered := rfl
@[simp] theorem setMember_orphanCount (r : StationNo) (m : Option Member) : (setMember r m s).orphanCount = s.orphanCount := rfl
@[simp] theorem setMember_joinHeard (r : StationNo) (m : Option Member) : (setMember r m s).joinHeard = s.joinHeard := rfl
@[simp] theorem setMember_matchCount (r : StationNo) (m : Option Member) : (setMember r m s).matchCount = s.matchCount := rfl
@[simp] theorem setMember_mismatchCount (r : StationNo) (m : Option Member) : (setMember r m s).mismatchCount = s.mismatchCount := rfl
@[simp] theorem setMember_port (r : StationNo) (m : Option Member) : (setMember r m s).port = s.port := rfl
@[simp] theorem setMember_cut (r : StationNo) (m : Option Member) : (setMember r m s).cut = s.cut := rfl
@[simp] theorem setMember_ssel (r : StationNo) (m : Option Member) : (setMember r m s).ssel = s.ssel := rfl
@[simp] theorem setMember_shiftIn (r : StationNo) (m : Option Member) : (setMember r m s).shiftIn = s.shiftIn := rfl
@[simp] theorem setMember_shiftOut (r : StationNo) (m : Option Member) : (setMember r m s).shiftOut = s.shiftOut := rfl
@[simp] theorem setMember_miso (r : StationNo) (m : Option Member) : (setMember r m s).miso = s.miso := rfl
@[simp] theorem setMember_commands (r : StationNo) (m : Option Member) : (setMember r m s).commands = s.commands := rfl
@[simp] theorem setMember_answers (r : StationNo) (m : Option Member) : (setMember r m s).answers = s.answers := rfl
@[simp] theorem setMember_eventMask (r : StationNo) (m : Option Member) : (setMember r m s).eventMask = s.eventMask := rfl
@[simp] theorem setMember_notices (r : StationNo) (m : Option Member) : (setMember r m s).notices = s.notices := rfl
@[simp] theorem setMember_work (r : StationNo) (m : Option Member) : (setMember r m s).work = s.work := rfl
@[simp] theorem setMember_freeIndex (r : StationNo) (m : Option Member) : (setMember r m s).freeIndex = s.freeIndex := rfl
@[simp] theorem setMember_pending (r : StationNo) (m : Option Member) : (setMember r m s).pending = s.pending := rfl

/-! ## setRequest -/

@[simp] theorem setRequest_station (lock : LockNo) (r : Option Request) : (setRequest lock r s).station = s.station := rfl
@[simp] theorem setRequest_config (lock : LockNo) (r : Option Request) : (setRequest lock r s).config = s.config := rfl
@[simp] theorem setRequest_leavingCount (lock : LockNo) (r : Option Request) : (setRequest lock r s).leavingCount = s.leavingCount := rfl
@[simp] theorem setRequest_leavingFromJoining (lock : LockNo) (r : Option Request) : (setRequest lock r s).leavingFromJoining = s.leavingFromJoining := rfl
@[simp] theorem setRequest_foundingOpen (lock : LockNo) (r : Option Request) : (setRequest lock r s).foundingOpen = s.foundingOpen := rfl
@[simp] theorem setRequest_locks (lock : LockNo) (r : Option Request) : (setRequest lock r s).locks = s.locks := rfl
@[simp] theorem setRequest_barriers (lock : LockNo) (r : Option Request) : (setRequest lock r s).barriers = s.barriers := rfl
@[simp] theorem setRequest_members (lock : LockNo) (r : Option Request) : (setRequest lock r s).members = s.members := rfl
@[simp] theorem setRequest_requests (lock : LockNo) (r : Option Request) : (setRequest lock r s).requests = s.requests.set lock r := rfl
@[simp] theorem setRequest_barrierRecords (lock : LockNo) (r : Option Request) : (setRequest lock r s).barrierRecords = s.barrierRecords := rfl
@[simp] theorem setRequest_outbox (lock : LockNo) (r : Option Request) : (setRequest lock r s).outbox = s.outbox := rfl
@[simp] theorem setRequest_txBuffer (lock : LockNo) (r : Option Request) : (setRequest lock r s).txBuffer = s.txBuffer := rfl
@[simp] theorem setRequest_rxBuffer (lock : LockNo) (r : Option Request) : (setRequest lock r s).rxBuffer = s.rxBuffer := rfl
@[simp] theorem setRequest_reception (lock : LockNo) (r : Option Request) : (setRequest lock r s).reception = s.reception := rfl
@[simp] theorem setRequest_echo (lock : LockNo) (r : Option Request) : (setRequest lock r s).echo = s.echo := rfl
@[simp] theorem setRequest_ltxe (lock : LockNo) (r : Option Request) : (setRequest lock r s).ltxe = s.ltxe := rfl
@[simp] theorem setRequest_ltx (lock : LockNo) (r : Option Request) : (setRequest lock r s).ltx = s.ltx := rfl
@[simp] theorem setRequest_lineWait (lock : LockNo) (r : Option Request) : (setRequest lock r s).lineWait = s.lineWait := rfl
@[simp] theorem setRequest_lineHigh (lock : LockNo) (r : Option Request) : (setRequest lock r s).lineHigh = s.lineHigh := rfl
@[simp] theorem setRequest_lrxLow (lock : LockNo) (r : Option Request) : (setRequest lock r s).lrxLow = s.lrxLow := rfl
@[simp] theorem setRequest_timing (lock : LockNo) (r : Option Request) : (setRequest lock r s).timing = s.timing := rfl
@[simp] theorem setRequest_silence (lock : LockNo) (r : Option Request) : (setRequest lock r s).silence = s.silence := rfl
@[simp] theorem setRequest_disagreement (lock : LockNo) (r : Option Request) : (setRequest lock r s).disagreement = s.disagreement := rfl
@[simp] theorem setRequest_installed (lock : LockNo) (r : Option Request) : (setRequest lock r s).installed = s.installed := rfl
@[simp] theorem setRequest_wanted (lock : LockNo) (r : Option Request) : (setRequest lock r s).wanted = s.wanted := rfl
@[simp] theorem setRequest_gathered (lock : LockNo) (r : Option Request) : (setRequest lock r s).gathered = s.gathered := rfl
@[simp] theorem setRequest_orphanCount (lock : LockNo) (r : Option Request) : (setRequest lock r s).orphanCount = s.orphanCount := rfl
@[simp] theorem setRequest_joinHeard (lock : LockNo) (r : Option Request) : (setRequest lock r s).joinHeard = s.joinHeard := rfl
@[simp] theorem setRequest_matchCount (lock : LockNo) (r : Option Request) : (setRequest lock r s).matchCount = s.matchCount := rfl
@[simp] theorem setRequest_mismatchCount (lock : LockNo) (r : Option Request) : (setRequest lock r s).mismatchCount = s.mismatchCount := rfl
@[simp] theorem setRequest_port (lock : LockNo) (r : Option Request) : (setRequest lock r s).port = s.port := rfl
@[simp] theorem setRequest_cut (lock : LockNo) (r : Option Request) : (setRequest lock r s).cut = s.cut := rfl
@[simp] theorem setRequest_ssel (lock : LockNo) (r : Option Request) : (setRequest lock r s).ssel = s.ssel := rfl
@[simp] theorem setRequest_shiftIn (lock : LockNo) (r : Option Request) : (setRequest lock r s).shiftIn = s.shiftIn := rfl
@[simp] theorem setRequest_shiftOut (lock : LockNo) (r : Option Request) : (setRequest lock r s).shiftOut = s.shiftOut := rfl
@[simp] theorem setRequest_miso (lock : LockNo) (r : Option Request) : (setRequest lock r s).miso = s.miso := rfl
@[simp] theorem setRequest_commands (lock : LockNo) (r : Option Request) : (setRequest lock r s).commands = s.commands := rfl
@[simp] theorem setRequest_answers (lock : LockNo) (r : Option Request) : (setRequest lock r s).answers = s.answers := rfl
@[simp] theorem setRequest_eventMask (lock : LockNo) (r : Option Request) : (setRequest lock r s).eventMask = s.eventMask := rfl
@[simp] theorem setRequest_notices (lock : LockNo) (r : Option Request) : (setRequest lock r s).notices = s.notices := rfl
@[simp] theorem setRequest_work (lock : LockNo) (r : Option Request) : (setRequest lock r s).work = s.work := rfl
@[simp] theorem setRequest_freeIndex (lock : LockNo) (r : Option Request) : (setRequest lock r s).freeIndex = s.freeIndex := rfl
@[simp] theorem setRequest_pending (lock : LockNo) (r : Option Request) : (setRequest lock r s).pending = s.pending := rfl

/-! ## setBarrierRecord -/

@[simp] theorem setBarrierRecord_station (barrier : BarrierNo) (r : Option BarrierRecord) : (setBarrierRecord barrier r s).station = s.station := rfl
@[simp] theorem setBarrierRecord_config (barrier : BarrierNo) (r : Option BarrierRecord) : (setBarrierRecord barrier r s).config = s.config := rfl
@[simp] theorem setBarrierRecord_leavingCount (barrier : BarrierNo) (r : Option BarrierRecord) : (setBarrierRecord barrier r s).leavingCount = s.leavingCount := rfl
@[simp] theorem setBarrierRecord_leavingFromJoining (barrier : BarrierNo) (r : Option BarrierRecord) : (setBarrierRecord barrier r s).leavingFromJoining = s.leavingFromJoining := rfl
@[simp] theorem setBarrierRecord_foundingOpen (barrier : BarrierNo) (r : Option BarrierRecord) : (setBarrierRecord barrier r s).foundingOpen = s.foundingOpen := rfl
@[simp] theorem setBarrierRecord_locks (barrier : BarrierNo) (r : Option BarrierRecord) : (setBarrierRecord barrier r s).locks = s.locks := rfl
@[simp] theorem setBarrierRecord_barriers (barrier : BarrierNo) (r : Option BarrierRecord) : (setBarrierRecord barrier r s).barriers = s.barriers := rfl
@[simp] theorem setBarrierRecord_members (barrier : BarrierNo) (r : Option BarrierRecord) : (setBarrierRecord barrier r s).members = s.members := rfl
@[simp] theorem setBarrierRecord_requests (barrier : BarrierNo) (r : Option BarrierRecord) : (setBarrierRecord barrier r s).requests = s.requests := rfl
@[simp] theorem setBarrierRecord_barrierRecords (barrier : BarrierNo) (r : Option BarrierRecord) : (setBarrierRecord barrier r s).barrierRecords = s.barrierRecords.set barrier r := rfl
@[simp] theorem setBarrierRecord_outbox (barrier : BarrierNo) (r : Option BarrierRecord) : (setBarrierRecord barrier r s).outbox = s.outbox := rfl
@[simp] theorem setBarrierRecord_txBuffer (barrier : BarrierNo) (r : Option BarrierRecord) : (setBarrierRecord barrier r s).txBuffer = s.txBuffer := rfl
@[simp] theorem setBarrierRecord_rxBuffer (barrier : BarrierNo) (r : Option BarrierRecord) : (setBarrierRecord barrier r s).rxBuffer = s.rxBuffer := rfl
@[simp] theorem setBarrierRecord_reception (barrier : BarrierNo) (r : Option BarrierRecord) : (setBarrierRecord barrier r s).reception = s.reception := rfl
@[simp] theorem setBarrierRecord_echo (barrier : BarrierNo) (r : Option BarrierRecord) : (setBarrierRecord barrier r s).echo = s.echo := rfl
@[simp] theorem setBarrierRecord_ltxe (barrier : BarrierNo) (r : Option BarrierRecord) : (setBarrierRecord barrier r s).ltxe = s.ltxe := rfl
@[simp] theorem setBarrierRecord_ltx (barrier : BarrierNo) (r : Option BarrierRecord) : (setBarrierRecord barrier r s).ltx = s.ltx := rfl
@[simp] theorem setBarrierRecord_lineWait (barrier : BarrierNo) (r : Option BarrierRecord) : (setBarrierRecord barrier r s).lineWait = s.lineWait := rfl
@[simp] theorem setBarrierRecord_lineHigh (barrier : BarrierNo) (r : Option BarrierRecord) : (setBarrierRecord barrier r s).lineHigh = s.lineHigh := rfl
@[simp] theorem setBarrierRecord_lrxLow (barrier : BarrierNo) (r : Option BarrierRecord) : (setBarrierRecord barrier r s).lrxLow = s.lrxLow := rfl
@[simp] theorem setBarrierRecord_timing (barrier : BarrierNo) (r : Option BarrierRecord) : (setBarrierRecord barrier r s).timing = s.timing := rfl
@[simp] theorem setBarrierRecord_silence (barrier : BarrierNo) (r : Option BarrierRecord) : (setBarrierRecord barrier r s).silence = s.silence := rfl
@[simp] theorem setBarrierRecord_disagreement (barrier : BarrierNo) (r : Option BarrierRecord) : (setBarrierRecord barrier r s).disagreement = s.disagreement := rfl
@[simp] theorem setBarrierRecord_installed (barrier : BarrierNo) (r : Option BarrierRecord) : (setBarrierRecord barrier r s).installed = s.installed := rfl
@[simp] theorem setBarrierRecord_wanted (barrier : BarrierNo) (r : Option BarrierRecord) : (setBarrierRecord barrier r s).wanted = s.wanted := rfl
@[simp] theorem setBarrierRecord_gathered (barrier : BarrierNo) (r : Option BarrierRecord) : (setBarrierRecord barrier r s).gathered = s.gathered := rfl
@[simp] theorem setBarrierRecord_orphanCount (barrier : BarrierNo) (r : Option BarrierRecord) : (setBarrierRecord barrier r s).orphanCount = s.orphanCount := rfl
@[simp] theorem setBarrierRecord_joinHeard (barrier : BarrierNo) (r : Option BarrierRecord) : (setBarrierRecord barrier r s).joinHeard = s.joinHeard := rfl
@[simp] theorem setBarrierRecord_matchCount (barrier : BarrierNo) (r : Option BarrierRecord) : (setBarrierRecord barrier r s).matchCount = s.matchCount := rfl
@[simp] theorem setBarrierRecord_mismatchCount (barrier : BarrierNo) (r : Option BarrierRecord) : (setBarrierRecord barrier r s).mismatchCount = s.mismatchCount := rfl
@[simp] theorem setBarrierRecord_port (barrier : BarrierNo) (r : Option BarrierRecord) : (setBarrierRecord barrier r s).port = s.port := rfl
@[simp] theorem setBarrierRecord_cut (barrier : BarrierNo) (r : Option BarrierRecord) : (setBarrierRecord barrier r s).cut = s.cut := rfl
@[simp] theorem setBarrierRecord_ssel (barrier : BarrierNo) (r : Option BarrierRecord) : (setBarrierRecord barrier r s).ssel = s.ssel := rfl
@[simp] theorem setBarrierRecord_shiftIn (barrier : BarrierNo) (r : Option BarrierRecord) : (setBarrierRecord barrier r s).shiftIn = s.shiftIn := rfl
@[simp] theorem setBarrierRecord_shiftOut (barrier : BarrierNo) (r : Option BarrierRecord) : (setBarrierRecord barrier r s).shiftOut = s.shiftOut := rfl
@[simp] theorem setBarrierRecord_miso (barrier : BarrierNo) (r : Option BarrierRecord) : (setBarrierRecord barrier r s).miso = s.miso := rfl
@[simp] theorem setBarrierRecord_commands (barrier : BarrierNo) (r : Option BarrierRecord) : (setBarrierRecord barrier r s).commands = s.commands := rfl
@[simp] theorem setBarrierRecord_answers (barrier : BarrierNo) (r : Option BarrierRecord) : (setBarrierRecord barrier r s).answers = s.answers := rfl
@[simp] theorem setBarrierRecord_eventMask (barrier : BarrierNo) (r : Option BarrierRecord) : (setBarrierRecord barrier r s).eventMask = s.eventMask := rfl
@[simp] theorem setBarrierRecord_notices (barrier : BarrierNo) (r : Option BarrierRecord) : (setBarrierRecord barrier r s).notices = s.notices := rfl
@[simp] theorem setBarrierRecord_work (barrier : BarrierNo) (r : Option BarrierRecord) : (setBarrierRecord barrier r s).work = s.work := rfl
@[simp] theorem setBarrierRecord_freeIndex (barrier : BarrierNo) (r : Option BarrierRecord) : (setBarrierRecord barrier r s).freeIndex = s.freeIndex := rfl
@[simp] theorem setBarrierRecord_pending (barrier : BarrierNo) (r : Option BarrierRecord) : (setBarrierRecord barrier r s).pending = s.pending := rfl

/-! ## queueIntent -/

@[simp] theorem queueIntent_station (kind : IntentKind) : (queueIntent kind s).station = s.station := rfl
@[simp] theorem queueIntent_config (kind : IntentKind) : (queueIntent kind s).config = s.config := rfl
@[simp] theorem queueIntent_leavingCount (kind : IntentKind) : (queueIntent kind s).leavingCount = s.leavingCount := rfl
@[simp] theorem queueIntent_leavingFromJoining (kind : IntentKind) : (queueIntent kind s).leavingFromJoining = s.leavingFromJoining := rfl
@[simp] theorem queueIntent_foundingOpen (kind : IntentKind) : (queueIntent kind s).foundingOpen = s.foundingOpen := rfl
@[simp] theorem queueIntent_locks (kind : IntentKind) : (queueIntent kind s).locks = s.locks := rfl
@[simp] theorem queueIntent_barriers (kind : IntentKind) : (queueIntent kind s).barriers = s.barriers := rfl
@[simp] theorem queueIntent_members (kind : IntentKind) : (queueIntent kind s).members = s.members := rfl
@[simp] theorem queueIntent_requests (kind : IntentKind) : (queueIntent kind s).requests = s.requests := rfl
@[simp] theorem queueIntent_barrierRecords (kind : IntentKind) : (queueIntent kind s).barrierRecords = s.barrierRecords := rfl
@[simp] theorem queueIntent_outbox (kind : IntentKind) : (queueIntent kind s).outbox = s.outbox ++ [newIntent kind] := rfl
@[simp] theorem queueIntent_txBuffer (kind : IntentKind) : (queueIntent kind s).txBuffer = s.txBuffer := rfl
@[simp] theorem queueIntent_rxBuffer (kind : IntentKind) : (queueIntent kind s).rxBuffer = s.rxBuffer := rfl
@[simp] theorem queueIntent_reception (kind : IntentKind) : (queueIntent kind s).reception = s.reception := rfl
@[simp] theorem queueIntent_echo (kind : IntentKind) : (queueIntent kind s).echo = s.echo := rfl
@[simp] theorem queueIntent_ltxe (kind : IntentKind) : (queueIntent kind s).ltxe = s.ltxe := rfl
@[simp] theorem queueIntent_ltx (kind : IntentKind) : (queueIntent kind s).ltx = s.ltx := rfl
@[simp] theorem queueIntent_lineWait (kind : IntentKind) : (queueIntent kind s).lineWait = s.lineWait := rfl
@[simp] theorem queueIntent_lineHigh (kind : IntentKind) : (queueIntent kind s).lineHigh = s.lineHigh := rfl
@[simp] theorem queueIntent_lrxLow (kind : IntentKind) : (queueIntent kind s).lrxLow = s.lrxLow := rfl
@[simp] theorem queueIntent_timing (kind : IntentKind) : (queueIntent kind s).timing = s.timing := rfl
@[simp] theorem queueIntent_silence (kind : IntentKind) : (queueIntent kind s).silence = s.silence := rfl
@[simp] theorem queueIntent_disagreement (kind : IntentKind) : (queueIntent kind s).disagreement = s.disagreement := rfl
@[simp] theorem queueIntent_installed (kind : IntentKind) : (queueIntent kind s).installed = s.installed := rfl
@[simp] theorem queueIntent_wanted (kind : IntentKind) : (queueIntent kind s).wanted = s.wanted := rfl
@[simp] theorem queueIntent_gathered (kind : IntentKind) : (queueIntent kind s).gathered = s.gathered := rfl
@[simp] theorem queueIntent_orphanCount (kind : IntentKind) : (queueIntent kind s).orphanCount = s.orphanCount := rfl
@[simp] theorem queueIntent_joinHeard (kind : IntentKind) : (queueIntent kind s).joinHeard = s.joinHeard := rfl
@[simp] theorem queueIntent_matchCount (kind : IntentKind) : (queueIntent kind s).matchCount = s.matchCount := rfl
@[simp] theorem queueIntent_mismatchCount (kind : IntentKind) : (queueIntent kind s).mismatchCount = s.mismatchCount := rfl
@[simp] theorem queueIntent_port (kind : IntentKind) : (queueIntent kind s).port = s.port := rfl
@[simp] theorem queueIntent_cut (kind : IntentKind) : (queueIntent kind s).cut = s.cut := rfl
@[simp] theorem queueIntent_ssel (kind : IntentKind) : (queueIntent kind s).ssel = s.ssel := rfl
@[simp] theorem queueIntent_shiftIn (kind : IntentKind) : (queueIntent kind s).shiftIn = s.shiftIn := rfl
@[simp] theorem queueIntent_shiftOut (kind : IntentKind) : (queueIntent kind s).shiftOut = s.shiftOut := rfl
@[simp] theorem queueIntent_miso (kind : IntentKind) : (queueIntent kind s).miso = s.miso := rfl
@[simp] theorem queueIntent_commands (kind : IntentKind) : (queueIntent kind s).commands = s.commands := rfl
@[simp] theorem queueIntent_answers (kind : IntentKind) : (queueIntent kind s).answers = s.answers := rfl
@[simp] theorem queueIntent_eventMask (kind : IntentKind) : (queueIntent kind s).eventMask = s.eventMask := rfl
@[simp] theorem queueIntent_notices (kind : IntentKind) : (queueIntent kind s).notices = s.notices := rfl
@[simp] theorem queueIntent_work (kind : IntentKind) : (queueIntent kind s).work = s.work := rfl
@[simp] theorem queueIntent_freeIndex (kind : IntentKind) : (queueIntent kind s).freeIndex = s.freeIndex := rfl
@[simp] theorem queueIntent_pending (kind : IntentKind) : (queueIntent kind s).pending = s.pending := rfl

/-! ## dropLockIntents -/

@[simp] theorem dropLockIntents_station (lock : LockNo) : (dropLockIntents lock s).station = s.station := rfl
@[simp] theorem dropLockIntents_config (lock : LockNo) : (dropLockIntents lock s).config = s.config := rfl
@[simp] theorem dropLockIntents_leavingCount (lock : LockNo) : (dropLockIntents lock s).leavingCount = s.leavingCount := rfl
@[simp] theorem dropLockIntents_leavingFromJoining (lock : LockNo) : (dropLockIntents lock s).leavingFromJoining = s.leavingFromJoining := rfl
@[simp] theorem dropLockIntents_foundingOpen (lock : LockNo) : (dropLockIntents lock s).foundingOpen = s.foundingOpen := rfl
@[simp] theorem dropLockIntents_locks (lock : LockNo) : (dropLockIntents lock s).locks = s.locks := rfl
@[simp] theorem dropLockIntents_barriers (lock : LockNo) : (dropLockIntents lock s).barriers = s.barriers := rfl
@[simp] theorem dropLockIntents_members (lock : LockNo) : (dropLockIntents lock s).members = s.members := rfl
@[simp] theorem dropLockIntents_requests (lock : LockNo) : (dropLockIntents lock s).requests = s.requests := rfl
@[simp] theorem dropLockIntents_barrierRecords (lock : LockNo) : (dropLockIntents lock s).barrierRecords = s.barrierRecords := rfl
@[simp] theorem dropLockIntents_outbox (lock : LockNo) : (dropLockIntents lock s).outbox = s.outbox.filter fun i => !i.refersToLock lock := rfl
@[simp] theorem dropLockIntents_txBuffer (lock : LockNo) : (dropLockIntents lock s).txBuffer = s.txBuffer := rfl
@[simp] theorem dropLockIntents_rxBuffer (lock : LockNo) : (dropLockIntents lock s).rxBuffer = s.rxBuffer := rfl
@[simp] theorem dropLockIntents_reception (lock : LockNo) : (dropLockIntents lock s).reception = s.reception := rfl
@[simp] theorem dropLockIntents_echo (lock : LockNo) : (dropLockIntents lock s).echo = s.echo := rfl
@[simp] theorem dropLockIntents_ltxe (lock : LockNo) : (dropLockIntents lock s).ltxe = s.ltxe := rfl
@[simp] theorem dropLockIntents_ltx (lock : LockNo) : (dropLockIntents lock s).ltx = s.ltx := rfl
@[simp] theorem dropLockIntents_lineWait (lock : LockNo) : (dropLockIntents lock s).lineWait = s.lineWait := rfl
@[simp] theorem dropLockIntents_lineHigh (lock : LockNo) : (dropLockIntents lock s).lineHigh = s.lineHigh := rfl
@[simp] theorem dropLockIntents_lrxLow (lock : LockNo) : (dropLockIntents lock s).lrxLow = s.lrxLow := rfl
@[simp] theorem dropLockIntents_timing (lock : LockNo) : (dropLockIntents lock s).timing = s.timing := rfl
@[simp] theorem dropLockIntents_silence (lock : LockNo) : (dropLockIntents lock s).silence = s.silence := rfl
@[simp] theorem dropLockIntents_disagreement (lock : LockNo) : (dropLockIntents lock s).disagreement = s.disagreement := rfl
@[simp] theorem dropLockIntents_installed (lock : LockNo) : (dropLockIntents lock s).installed = s.installed := rfl
@[simp] theorem dropLockIntents_wanted (lock : LockNo) : (dropLockIntents lock s).wanted = s.wanted := rfl
@[simp] theorem dropLockIntents_gathered (lock : LockNo) : (dropLockIntents lock s).gathered = s.gathered := rfl
@[simp] theorem dropLockIntents_orphanCount (lock : LockNo) : (dropLockIntents lock s).orphanCount = s.orphanCount := rfl
@[simp] theorem dropLockIntents_joinHeard (lock : LockNo) : (dropLockIntents lock s).joinHeard = s.joinHeard := rfl
@[simp] theorem dropLockIntents_matchCount (lock : LockNo) : (dropLockIntents lock s).matchCount = s.matchCount := rfl
@[simp] theorem dropLockIntents_mismatchCount (lock : LockNo) : (dropLockIntents lock s).mismatchCount = s.mismatchCount := rfl
@[simp] theorem dropLockIntents_port (lock : LockNo) : (dropLockIntents lock s).port = s.port := rfl
@[simp] theorem dropLockIntents_cut (lock : LockNo) : (dropLockIntents lock s).cut = s.cut := rfl
@[simp] theorem dropLockIntents_ssel (lock : LockNo) : (dropLockIntents lock s).ssel = s.ssel := rfl
@[simp] theorem dropLockIntents_shiftIn (lock : LockNo) : (dropLockIntents lock s).shiftIn = s.shiftIn := rfl
@[simp] theorem dropLockIntents_shiftOut (lock : LockNo) : (dropLockIntents lock s).shiftOut = s.shiftOut := rfl
@[simp] theorem dropLockIntents_miso (lock : LockNo) : (dropLockIntents lock s).miso = s.miso := rfl
@[simp] theorem dropLockIntents_commands (lock : LockNo) : (dropLockIntents lock s).commands = s.commands := rfl
@[simp] theorem dropLockIntents_answers (lock : LockNo) : (dropLockIntents lock s).answers = s.answers := rfl
@[simp] theorem dropLockIntents_eventMask (lock : LockNo) : (dropLockIntents lock s).eventMask = s.eventMask := rfl
@[simp] theorem dropLockIntents_notices (lock : LockNo) : (dropLockIntents lock s).notices = s.notices := rfl
@[simp] theorem dropLockIntents_work (lock : LockNo) : (dropLockIntents lock s).work = s.work := rfl
@[simp] theorem dropLockIntents_freeIndex (lock : LockNo) : (dropLockIntents lock s).freeIndex = s.freeIndex := rfl
@[simp] theorem dropLockIntents_pending (lock : LockNo) : (dropLockIntents lock s).pending = s.pending := rfl

/-! ## dropBarrierIntents -/

@[simp] theorem dropBarrierIntents_station (barrier : BarrierNo) : (dropBarrierIntents barrier s).station = s.station := rfl
@[simp] theorem dropBarrierIntents_config (barrier : BarrierNo) : (dropBarrierIntents barrier s).config = s.config := rfl
@[simp] theorem dropBarrierIntents_leavingCount (barrier : BarrierNo) : (dropBarrierIntents barrier s).leavingCount = s.leavingCount := rfl
@[simp] theorem dropBarrierIntents_leavingFromJoining (barrier : BarrierNo) : (dropBarrierIntents barrier s).leavingFromJoining = s.leavingFromJoining := rfl
@[simp] theorem dropBarrierIntents_foundingOpen (barrier : BarrierNo) : (dropBarrierIntents barrier s).foundingOpen = s.foundingOpen := rfl
@[simp] theorem dropBarrierIntents_locks (barrier : BarrierNo) : (dropBarrierIntents barrier s).locks = s.locks := rfl
@[simp] theorem dropBarrierIntents_barriers (barrier : BarrierNo) : (dropBarrierIntents barrier s).barriers = s.barriers := rfl
@[simp] theorem dropBarrierIntents_members (barrier : BarrierNo) : (dropBarrierIntents barrier s).members = s.members := rfl
@[simp] theorem dropBarrierIntents_requests (barrier : BarrierNo) : (dropBarrierIntents barrier s).requests = s.requests := rfl
@[simp] theorem dropBarrierIntents_barrierRecords (barrier : BarrierNo) : (dropBarrierIntents barrier s).barrierRecords = s.barrierRecords := rfl
@[simp] theorem dropBarrierIntents_outbox (barrier : BarrierNo) : (dropBarrierIntents barrier s).outbox = s.outbox.filter fun i => !i.refersToBarrier barrier := rfl
@[simp] theorem dropBarrierIntents_txBuffer (barrier : BarrierNo) : (dropBarrierIntents barrier s).txBuffer = s.txBuffer := rfl
@[simp] theorem dropBarrierIntents_rxBuffer (barrier : BarrierNo) : (dropBarrierIntents barrier s).rxBuffer = s.rxBuffer := rfl
@[simp] theorem dropBarrierIntents_reception (barrier : BarrierNo) : (dropBarrierIntents barrier s).reception = s.reception := rfl
@[simp] theorem dropBarrierIntents_echo (barrier : BarrierNo) : (dropBarrierIntents barrier s).echo = s.echo := rfl
@[simp] theorem dropBarrierIntents_ltxe (barrier : BarrierNo) : (dropBarrierIntents barrier s).ltxe = s.ltxe := rfl
@[simp] theorem dropBarrierIntents_ltx (barrier : BarrierNo) : (dropBarrierIntents barrier s).ltx = s.ltx := rfl
@[simp] theorem dropBarrierIntents_lineWait (barrier : BarrierNo) : (dropBarrierIntents barrier s).lineWait = s.lineWait := rfl
@[simp] theorem dropBarrierIntents_lineHigh (barrier : BarrierNo) : (dropBarrierIntents barrier s).lineHigh = s.lineHigh := rfl
@[simp] theorem dropBarrierIntents_lrxLow (barrier : BarrierNo) : (dropBarrierIntents barrier s).lrxLow = s.lrxLow := rfl
@[simp] theorem dropBarrierIntents_timing (barrier : BarrierNo) : (dropBarrierIntents barrier s).timing = s.timing := rfl
@[simp] theorem dropBarrierIntents_silence (barrier : BarrierNo) : (dropBarrierIntents barrier s).silence = s.silence := rfl
@[simp] theorem dropBarrierIntents_disagreement (barrier : BarrierNo) : (dropBarrierIntents barrier s).disagreement = s.disagreement := rfl
@[simp] theorem dropBarrierIntents_installed (barrier : BarrierNo) : (dropBarrierIntents barrier s).installed = s.installed := rfl
@[simp] theorem dropBarrierIntents_wanted (barrier : BarrierNo) : (dropBarrierIntents barrier s).wanted = s.wanted := rfl
@[simp] theorem dropBarrierIntents_gathered (barrier : BarrierNo) : (dropBarrierIntents barrier s).gathered = s.gathered := rfl
@[simp] theorem dropBarrierIntents_orphanCount (barrier : BarrierNo) : (dropBarrierIntents barrier s).orphanCount = s.orphanCount := rfl
@[simp] theorem dropBarrierIntents_joinHeard (barrier : BarrierNo) : (dropBarrierIntents barrier s).joinHeard = s.joinHeard := rfl
@[simp] theorem dropBarrierIntents_matchCount (barrier : BarrierNo) : (dropBarrierIntents barrier s).matchCount = s.matchCount := rfl
@[simp] theorem dropBarrierIntents_mismatchCount (barrier : BarrierNo) : (dropBarrierIntents barrier s).mismatchCount = s.mismatchCount := rfl
@[simp] theorem dropBarrierIntents_port (barrier : BarrierNo) : (dropBarrierIntents barrier s).port = s.port := rfl
@[simp] theorem dropBarrierIntents_cut (barrier : BarrierNo) : (dropBarrierIntents barrier s).cut = s.cut := rfl
@[simp] theorem dropBarrierIntents_ssel (barrier : BarrierNo) : (dropBarrierIntents barrier s).ssel = s.ssel := rfl
@[simp] theorem dropBarrierIntents_shiftIn (barrier : BarrierNo) : (dropBarrierIntents barrier s).shiftIn = s.shiftIn := rfl
@[simp] theorem dropBarrierIntents_shiftOut (barrier : BarrierNo) : (dropBarrierIntents barrier s).shiftOut = s.shiftOut := rfl
@[simp] theorem dropBarrierIntents_miso (barrier : BarrierNo) : (dropBarrierIntents barrier s).miso = s.miso := rfl
@[simp] theorem dropBarrierIntents_commands (barrier : BarrierNo) : (dropBarrierIntents barrier s).commands = s.commands := rfl
@[simp] theorem dropBarrierIntents_answers (barrier : BarrierNo) : (dropBarrierIntents barrier s).answers = s.answers := rfl
@[simp] theorem dropBarrierIntents_eventMask (barrier : BarrierNo) : (dropBarrierIntents barrier s).eventMask = s.eventMask := rfl
@[simp] theorem dropBarrierIntents_notices (barrier : BarrierNo) : (dropBarrierIntents barrier s).notices = s.notices := rfl
@[simp] theorem dropBarrierIntents_work (barrier : BarrierNo) : (dropBarrierIntents barrier s).work = s.work := rfl
@[simp] theorem dropBarrierIntents_freeIndex (barrier : BarrierNo) : (dropBarrierIntents barrier s).freeIndex = s.freeIndex := rfl
@[simp] theorem dropBarrierIntents_pending (barrier : BarrierNo) : (dropBarrierIntents barrier s).pending = s.pending := rfl

/-! ## emptyOutbox -/

@[simp] theorem emptyOutbox_station : (emptyOutbox s).station = s.station := rfl
@[simp] theorem emptyOutbox_config : (emptyOutbox s).config = s.config := rfl
@[simp] theorem emptyOutbox_leavingCount : (emptyOutbox s).leavingCount = s.leavingCount := rfl
@[simp] theorem emptyOutbox_leavingFromJoining : (emptyOutbox s).leavingFromJoining = s.leavingFromJoining := rfl
@[simp] theorem emptyOutbox_foundingOpen : (emptyOutbox s).foundingOpen = s.foundingOpen := rfl
@[simp] theorem emptyOutbox_locks : (emptyOutbox s).locks = s.locks := rfl
@[simp] theorem emptyOutbox_barriers : (emptyOutbox s).barriers = s.barriers := rfl
@[simp] theorem emptyOutbox_members : (emptyOutbox s).members = s.members := rfl
@[simp] theorem emptyOutbox_requests : (emptyOutbox s).requests = s.requests := rfl
@[simp] theorem emptyOutbox_barrierRecords : (emptyOutbox s).barrierRecords = s.barrierRecords := rfl
@[simp] theorem emptyOutbox_outbox : (emptyOutbox s).outbox = [] := rfl
@[simp] theorem emptyOutbox_txBuffer : (emptyOutbox s).txBuffer = s.txBuffer := rfl
@[simp] theorem emptyOutbox_rxBuffer : (emptyOutbox s).rxBuffer = s.rxBuffer := rfl
@[simp] theorem emptyOutbox_reception : (emptyOutbox s).reception = s.reception := rfl
@[simp] theorem emptyOutbox_echo : (emptyOutbox s).echo = s.echo := rfl
@[simp] theorem emptyOutbox_ltxe : (emptyOutbox s).ltxe = s.ltxe := rfl
@[simp] theorem emptyOutbox_ltx : (emptyOutbox s).ltx = s.ltx := rfl
@[simp] theorem emptyOutbox_lineWait : (emptyOutbox s).lineWait = s.lineWait := rfl
@[simp] theorem emptyOutbox_lineHigh : (emptyOutbox s).lineHigh = s.lineHigh := rfl
@[simp] theorem emptyOutbox_lrxLow : (emptyOutbox s).lrxLow = s.lrxLow := rfl
@[simp] theorem emptyOutbox_timing : (emptyOutbox s).timing = s.timing := rfl
@[simp] theorem emptyOutbox_silence : (emptyOutbox s).silence = s.silence := rfl
@[simp] theorem emptyOutbox_disagreement : (emptyOutbox s).disagreement = s.disagreement := rfl
@[simp] theorem emptyOutbox_installed : (emptyOutbox s).installed = s.installed := rfl
@[simp] theorem emptyOutbox_wanted : (emptyOutbox s).wanted = s.wanted := rfl
@[simp] theorem emptyOutbox_gathered : (emptyOutbox s).gathered = s.gathered := rfl
@[simp] theorem emptyOutbox_orphanCount : (emptyOutbox s).orphanCount = s.orphanCount := rfl
@[simp] theorem emptyOutbox_joinHeard : (emptyOutbox s).joinHeard = s.joinHeard := rfl
@[simp] theorem emptyOutbox_matchCount : (emptyOutbox s).matchCount = s.matchCount := rfl
@[simp] theorem emptyOutbox_mismatchCount : (emptyOutbox s).mismatchCount = s.mismatchCount := rfl
@[simp] theorem emptyOutbox_port : (emptyOutbox s).port = s.port := rfl
@[simp] theorem emptyOutbox_cut : (emptyOutbox s).cut = s.cut := rfl
@[simp] theorem emptyOutbox_ssel : (emptyOutbox s).ssel = s.ssel := rfl
@[simp] theorem emptyOutbox_shiftIn : (emptyOutbox s).shiftIn = s.shiftIn := rfl
@[simp] theorem emptyOutbox_shiftOut : (emptyOutbox s).shiftOut = s.shiftOut := rfl
@[simp] theorem emptyOutbox_miso : (emptyOutbox s).miso = s.miso := rfl
@[simp] theorem emptyOutbox_commands : (emptyOutbox s).commands = s.commands := rfl
@[simp] theorem emptyOutbox_answers : (emptyOutbox s).answers = s.answers := rfl
@[simp] theorem emptyOutbox_eventMask : (emptyOutbox s).eventMask = s.eventMask := rfl
@[simp] theorem emptyOutbox_notices : (emptyOutbox s).notices = s.notices := rfl
@[simp] theorem emptyOutbox_work : (emptyOutbox s).work = s.work := rfl
@[simp] theorem emptyOutbox_freeIndex : (emptyOutbox s).freeIndex = s.freeIndex := rfl
@[simp] theorem emptyOutbox_pending : (emptyOutbox s).pending = s.pending := rfl

/-! ## placeReply -/

@[simp] theorem placeReply_station (a : Answer) : (placeReply a s).station = s.station := rfl
@[simp] theorem placeReply_config (a : Answer) : (placeReply a s).config = s.config := rfl
@[simp] theorem placeReply_leavingCount (a : Answer) : (placeReply a s).leavingCount = s.leavingCount := rfl
@[simp] theorem placeReply_leavingFromJoining (a : Answer) : (placeReply a s).leavingFromJoining = s.leavingFromJoining := rfl
@[simp] theorem placeReply_foundingOpen (a : Answer) : (placeReply a s).foundingOpen = s.foundingOpen := rfl
@[simp] theorem placeReply_locks (a : Answer) : (placeReply a s).locks = s.locks := rfl
@[simp] theorem placeReply_barriers (a : Answer) : (placeReply a s).barriers = s.barriers := rfl
@[simp] theorem placeReply_members (a : Answer) : (placeReply a s).members = s.members := rfl
@[simp] theorem placeReply_requests (a : Answer) : (placeReply a s).requests = s.requests := rfl
@[simp] theorem placeReply_barrierRecords (a : Answer) : (placeReply a s).barrierRecords = s.barrierRecords := rfl
@[simp] theorem placeReply_outbox (a : Answer) : (placeReply a s).outbox = s.outbox := rfl
@[simp] theorem placeReply_txBuffer (a : Answer) : (placeReply a s).txBuffer = s.txBuffer := rfl
@[simp] theorem placeReply_rxBuffer (a : Answer) : (placeReply a s).rxBuffer = s.rxBuffer := rfl
@[simp] theorem placeReply_reception (a : Answer) : (placeReply a s).reception = s.reception := rfl
@[simp] theorem placeReply_echo (a : Answer) : (placeReply a s).echo = s.echo := rfl
@[simp] theorem placeReply_ltxe (a : Answer) : (placeReply a s).ltxe = s.ltxe := rfl
@[simp] theorem placeReply_ltx (a : Answer) : (placeReply a s).ltx = s.ltx := rfl
@[simp] theorem placeReply_lineWait (a : Answer) : (placeReply a s).lineWait = s.lineWait := rfl
@[simp] theorem placeReply_lineHigh (a : Answer) : (placeReply a s).lineHigh = s.lineHigh := rfl
@[simp] theorem placeReply_lrxLow (a : Answer) : (placeReply a s).lrxLow = s.lrxLow := rfl
@[simp] theorem placeReply_timing (a : Answer) : (placeReply a s).timing = s.timing := rfl
@[simp] theorem placeReply_silence (a : Answer) : (placeReply a s).silence = s.silence := rfl
@[simp] theorem placeReply_disagreement (a : Answer) : (placeReply a s).disagreement = s.disagreement := rfl
@[simp] theorem placeReply_installed (a : Answer) : (placeReply a s).installed = s.installed := rfl
@[simp] theorem placeReply_wanted (a : Answer) : (placeReply a s).wanted = s.wanted := rfl
@[simp] theorem placeReply_gathered (a : Answer) : (placeReply a s).gathered = s.gathered := rfl
@[simp] theorem placeReply_orphanCount (a : Answer) : (placeReply a s).orphanCount = s.orphanCount := rfl
@[simp] theorem placeReply_joinHeard (a : Answer) : (placeReply a s).joinHeard = s.joinHeard := rfl
@[simp] theorem placeReply_matchCount (a : Answer) : (placeReply a s).matchCount = s.matchCount := rfl
@[simp] theorem placeReply_mismatchCount (a : Answer) : (placeReply a s).mismatchCount = s.mismatchCount := rfl
@[simp] theorem placeReply_port (a : Answer) : (placeReply a s).port = s.port := rfl
@[simp] theorem placeReply_cut (a : Answer) : (placeReply a s).cut = s.cut := rfl
@[simp] theorem placeReply_ssel (a : Answer) : (placeReply a s).ssel = s.ssel := rfl
@[simp] theorem placeReply_shiftIn (a : Answer) : (placeReply a s).shiftIn = s.shiftIn := rfl
@[simp] theorem placeReply_shiftOut (a : Answer) : (placeReply a s).shiftOut = s.shiftOut := rfl
@[simp] theorem placeReply_miso (a : Answer) : (placeReply a s).miso = s.miso := rfl
@[simp] theorem placeReply_commands (a : Answer) : (placeReply a s).commands = s.commands := rfl
@[simp] theorem placeReply_answers (a : Answer) : (placeReply a s).answers = s.answers ++ [a] := rfl
@[simp] theorem placeReply_eventMask (a : Answer) : (placeReply a s).eventMask = s.eventMask := rfl
@[simp] theorem placeReply_notices (a : Answer) : (placeReply a s).notices = s.notices := rfl
@[simp] theorem placeReply_work (a : Answer) : (placeReply a s).work = s.work := rfl
@[simp] theorem placeReply_freeIndex (a : Answer) : (placeReply a s).freeIndex = s.freeIndex := rfl
@[simp] theorem placeReply_pending (a : Answer) : (placeReply a s).pending = s.pending := rfl

/-! ## dequeue -/

@[simp] theorem dequeue_station : (dequeue s).station = s.station := rfl
@[simp] theorem dequeue_config : (dequeue s).config = s.config := rfl
@[simp] theorem dequeue_leavingCount : (dequeue s).leavingCount = s.leavingCount := rfl
@[simp] theorem dequeue_leavingFromJoining : (dequeue s).leavingFromJoining = s.leavingFromJoining := rfl
@[simp] theorem dequeue_foundingOpen : (dequeue s).foundingOpen = s.foundingOpen := rfl
@[simp] theorem dequeue_locks : (dequeue s).locks = s.locks := rfl
@[simp] theorem dequeue_barriers : (dequeue s).barriers = s.barriers := rfl
@[simp] theorem dequeue_members : (dequeue s).members = s.members := rfl
@[simp] theorem dequeue_requests : (dequeue s).requests = s.requests := rfl
@[simp] theorem dequeue_barrierRecords : (dequeue s).barrierRecords = s.barrierRecords := rfl
@[simp] theorem dequeue_outbox : (dequeue s).outbox = s.outbox := rfl
@[simp] theorem dequeue_txBuffer : (dequeue s).txBuffer = s.txBuffer := rfl
@[simp] theorem dequeue_rxBuffer : (dequeue s).rxBuffer = s.rxBuffer := rfl
@[simp] theorem dequeue_reception : (dequeue s).reception = s.reception := rfl
@[simp] theorem dequeue_echo : (dequeue s).echo = s.echo := rfl
@[simp] theorem dequeue_ltxe : (dequeue s).ltxe = s.ltxe := rfl
@[simp] theorem dequeue_ltx : (dequeue s).ltx = s.ltx := rfl
@[simp] theorem dequeue_lineWait : (dequeue s).lineWait = s.lineWait := rfl
@[simp] theorem dequeue_lineHigh : (dequeue s).lineHigh = s.lineHigh := rfl
@[simp] theorem dequeue_lrxLow : (dequeue s).lrxLow = s.lrxLow := rfl
@[simp] theorem dequeue_timing : (dequeue s).timing = s.timing := rfl
@[simp] theorem dequeue_silence : (dequeue s).silence = s.silence := rfl
@[simp] theorem dequeue_disagreement : (dequeue s).disagreement = s.disagreement := rfl
@[simp] theorem dequeue_installed : (dequeue s).installed = s.installed := rfl
@[simp] theorem dequeue_wanted : (dequeue s).wanted = s.wanted := rfl
@[simp] theorem dequeue_gathered : (dequeue s).gathered = s.gathered := rfl
@[simp] theorem dequeue_orphanCount : (dequeue s).orphanCount = s.orphanCount := rfl
@[simp] theorem dequeue_joinHeard : (dequeue s).joinHeard = s.joinHeard := rfl
@[simp] theorem dequeue_matchCount : (dequeue s).matchCount = s.matchCount := rfl
@[simp] theorem dequeue_mismatchCount : (dequeue s).mismatchCount = s.mismatchCount := rfl
@[simp] theorem dequeue_port : (dequeue s).port = s.port := rfl
@[simp] theorem dequeue_cut : (dequeue s).cut = s.cut := rfl
@[simp] theorem dequeue_ssel : (dequeue s).ssel = s.ssel := rfl
@[simp] theorem dequeue_shiftIn : (dequeue s).shiftIn = s.shiftIn := rfl
@[simp] theorem dequeue_shiftOut : (dequeue s).shiftOut = s.shiftOut := rfl
@[simp] theorem dequeue_miso : (dequeue s).miso = s.miso := rfl
@[simp] theorem dequeue_commands : (dequeue s).commands = s.commands.tail := rfl
@[simp] theorem dequeue_answers : (dequeue s).answers = s.answers := rfl
@[simp] theorem dequeue_eventMask : (dequeue s).eventMask = s.eventMask := rfl
@[simp] theorem dequeue_notices : (dequeue s).notices = s.notices := rfl
@[simp] theorem dequeue_work : (dequeue s).work = s.work := rfl
@[simp] theorem dequeue_freeIndex : (dequeue s).freeIndex = s.freeIndex := rfl
@[simp] theorem dequeue_pending : (dequeue s).pending = s.pending := rfl

/-! ## emptyNotices -/

@[simp] theorem emptyNotices_station : (emptyNotices s).station = s.station := rfl
@[simp] theorem emptyNotices_config : (emptyNotices s).config = s.config := rfl
@[simp] theorem emptyNotices_leavingCount : (emptyNotices s).leavingCount = s.leavingCount := rfl
@[simp] theorem emptyNotices_leavingFromJoining : (emptyNotices s).leavingFromJoining = s.leavingFromJoining := rfl
@[simp] theorem emptyNotices_foundingOpen : (emptyNotices s).foundingOpen = s.foundingOpen := rfl
@[simp] theorem emptyNotices_locks : (emptyNotices s).locks = s.locks := rfl
@[simp] theorem emptyNotices_barriers : (emptyNotices s).barriers = s.barriers := rfl
@[simp] theorem emptyNotices_members : (emptyNotices s).members = s.members := rfl
@[simp] theorem emptyNotices_requests : (emptyNotices s).requests = s.requests := rfl
@[simp] theorem emptyNotices_barrierRecords : (emptyNotices s).barrierRecords = s.barrierRecords := rfl
@[simp] theorem emptyNotices_outbox : (emptyNotices s).outbox = s.outbox := rfl
@[simp] theorem emptyNotices_txBuffer : (emptyNotices s).txBuffer = s.txBuffer := rfl
@[simp] theorem emptyNotices_rxBuffer : (emptyNotices s).rxBuffer = s.rxBuffer := rfl
@[simp] theorem emptyNotices_reception : (emptyNotices s).reception = s.reception := rfl
@[simp] theorem emptyNotices_echo : (emptyNotices s).echo = s.echo := rfl
@[simp] theorem emptyNotices_ltxe : (emptyNotices s).ltxe = s.ltxe := rfl
@[simp] theorem emptyNotices_ltx : (emptyNotices s).ltx = s.ltx := rfl
@[simp] theorem emptyNotices_lineWait : (emptyNotices s).lineWait = s.lineWait := rfl
@[simp] theorem emptyNotices_lineHigh : (emptyNotices s).lineHigh = s.lineHigh := rfl
@[simp] theorem emptyNotices_lrxLow : (emptyNotices s).lrxLow = s.lrxLow := rfl
@[simp] theorem emptyNotices_timing : (emptyNotices s).timing = s.timing := rfl
@[simp] theorem emptyNotices_silence : (emptyNotices s).silence = s.silence := rfl
@[simp] theorem emptyNotices_disagreement : (emptyNotices s).disagreement = s.disagreement := rfl
@[simp] theorem emptyNotices_installed : (emptyNotices s).installed = s.installed := rfl
@[simp] theorem emptyNotices_wanted : (emptyNotices s).wanted = s.wanted := rfl
@[simp] theorem emptyNotices_gathered : (emptyNotices s).gathered = s.gathered := rfl
@[simp] theorem emptyNotices_orphanCount : (emptyNotices s).orphanCount = s.orphanCount := rfl
@[simp] theorem emptyNotices_joinHeard : (emptyNotices s).joinHeard = s.joinHeard := rfl
@[simp] theorem emptyNotices_matchCount : (emptyNotices s).matchCount = s.matchCount := rfl
@[simp] theorem emptyNotices_mismatchCount : (emptyNotices s).mismatchCount = s.mismatchCount := rfl
@[simp] theorem emptyNotices_port : (emptyNotices s).port = s.port := rfl
@[simp] theorem emptyNotices_cut : (emptyNotices s).cut = s.cut := rfl
@[simp] theorem emptyNotices_ssel : (emptyNotices s).ssel = s.ssel := rfl
@[simp] theorem emptyNotices_shiftIn : (emptyNotices s).shiftIn = s.shiftIn := rfl
@[simp] theorem emptyNotices_shiftOut : (emptyNotices s).shiftOut = s.shiftOut := rfl
@[simp] theorem emptyNotices_miso : (emptyNotices s).miso = s.miso := rfl
@[simp] theorem emptyNotices_commands : (emptyNotices s).commands = s.commands := rfl
@[simp] theorem emptyNotices_answers : (emptyNotices s).answers = s.answers := rfl
@[simp] theorem emptyNotices_eventMask : (emptyNotices s).eventMask = s.eventMask := rfl
@[simp] theorem emptyNotices_notices : (emptyNotices s).notices = 0 := rfl
@[simp] theorem emptyNotices_work : (emptyNotices s).work = s.work := rfl
@[simp] theorem emptyNotices_freeIndex : (emptyNotices s).freeIndex = s.freeIndex := rfl
@[simp] theorem emptyNotices_pending : (emptyNotices s).pending = s.pending := rfl

/-! ## discardReplica -/

@[simp] theorem discardReplica_station : (discardReplica s).station = s.station := rfl
@[simp] theorem discardReplica_config : (discardReplica s).config = s.config := rfl
@[simp] theorem discardReplica_leavingCount : (discardReplica s).leavingCount = s.leavingCount := rfl
@[simp] theorem discardReplica_leavingFromJoining : (discardReplica s).leavingFromJoining = s.leavingFromJoining := rfl
@[simp] theorem discardReplica_foundingOpen : (discardReplica s).foundingOpen = s.foundingOpen := rfl
@[simp] theorem discardReplica_locks : (discardReplica s).locks = Vector.replicate 64 .free := rfl
@[simp] theorem discardReplica_barriers : (discardReplica s).barriers = Vector.replicate 8 ⟨0, 0⟩ := rfl
@[simp] theorem discardReplica_members : (discardReplica s).members = Vector.replicate 16 none := rfl
@[simp] theorem discardReplica_requests : (discardReplica s).requests = s.requests := rfl
@[simp] theorem discardReplica_barrierRecords : (discardReplica s).barrierRecords = s.barrierRecords := rfl
@[simp] theorem discardReplica_outbox : (discardReplica s).outbox = s.outbox := rfl
@[simp] theorem discardReplica_txBuffer : (discardReplica s).txBuffer = s.txBuffer := rfl
@[simp] theorem discardReplica_rxBuffer : (discardReplica s).rxBuffer = s.rxBuffer := rfl
@[simp] theorem discardReplica_reception : (discardReplica s).reception = s.reception := rfl
@[simp] theorem discardReplica_echo : (discardReplica s).echo = s.echo := rfl
@[simp] theorem discardReplica_ltxe : (discardReplica s).ltxe = s.ltxe := rfl
@[simp] theorem discardReplica_ltx : (discardReplica s).ltx = s.ltx := rfl
@[simp] theorem discardReplica_lineWait : (discardReplica s).lineWait = s.lineWait := rfl
@[simp] theorem discardReplica_lineHigh : (discardReplica s).lineHigh = s.lineHigh := rfl
@[simp] theorem discardReplica_lrxLow : (discardReplica s).lrxLow = s.lrxLow := rfl
@[simp] theorem discardReplica_timing : (discardReplica s).timing = s.timing := rfl
@[simp] theorem discardReplica_silence : (discardReplica s).silence = s.silence := rfl
@[simp] theorem discardReplica_disagreement : (discardReplica s).disagreement = s.disagreement := rfl
@[simp] theorem discardReplica_installed : (discardReplica s).installed = s.installed := rfl
@[simp] theorem discardReplica_wanted : (discardReplica s).wanted = s.wanted := rfl
@[simp] theorem discardReplica_gathered : (discardReplica s).gathered = s.gathered := rfl
@[simp] theorem discardReplica_orphanCount : (discardReplica s).orphanCount = s.orphanCount := rfl
@[simp] theorem discardReplica_joinHeard : (discardReplica s).joinHeard = s.joinHeard := rfl
@[simp] theorem discardReplica_matchCount : (discardReplica s).matchCount = s.matchCount := rfl
@[simp] theorem discardReplica_mismatchCount : (discardReplica s).mismatchCount = s.mismatchCount := rfl
@[simp] theorem discardReplica_port : (discardReplica s).port = s.port := rfl
@[simp] theorem discardReplica_cut : (discardReplica s).cut = s.cut := rfl
@[simp] theorem discardReplica_ssel : (discardReplica s).ssel = s.ssel := rfl
@[simp] theorem discardReplica_shiftIn : (discardReplica s).shiftIn = s.shiftIn := rfl
@[simp] theorem discardReplica_shiftOut : (discardReplica s).shiftOut = s.shiftOut := rfl
@[simp] theorem discardReplica_miso : (discardReplica s).miso = s.miso := rfl
@[simp] theorem discardReplica_commands : (discardReplica s).commands = s.commands := rfl
@[simp] theorem discardReplica_answers : (discardReplica s).answers = s.answers := rfl
@[simp] theorem discardReplica_eventMask : (discardReplica s).eventMask = s.eventMask := rfl
@[simp] theorem discardReplica_notices : (discardReplica s).notices = s.notices := rfl
@[simp] theorem discardReplica_work : (discardReplica s).work = s.work := rfl
@[simp] theorem discardReplica_freeIndex : (discardReplica s).freeIndex = s.freeIndex := rfl
@[simp] theorem discardReplica_pending : (discardReplica s).pending = s.pending := rfl

/-! ## setChunks -/

@[simp] theorem setChunks_station (installed wanted : ChunkSet) : (setChunks installed wanted s).station = s.station := rfl
@[simp] theorem setChunks_config (installed wanted : ChunkSet) : (setChunks installed wanted s).config = s.config := rfl
@[simp] theorem setChunks_leavingCount (installed wanted : ChunkSet) : (setChunks installed wanted s).leavingCount = s.leavingCount := rfl
@[simp] theorem setChunks_leavingFromJoining (installed wanted : ChunkSet) : (setChunks installed wanted s).leavingFromJoining = s.leavingFromJoining := rfl
@[simp] theorem setChunks_foundingOpen (installed wanted : ChunkSet) : (setChunks installed wanted s).foundingOpen = s.foundingOpen := rfl
@[simp] theorem setChunks_locks (installed wanted : ChunkSet) : (setChunks installed wanted s).locks = s.locks := rfl
@[simp] theorem setChunks_barriers (installed wanted : ChunkSet) : (setChunks installed wanted s).barriers = s.barriers := rfl
@[simp] theorem setChunks_members (installed wanted : ChunkSet) : (setChunks installed wanted s).members = s.members := rfl
@[simp] theorem setChunks_requests (installed wanted : ChunkSet) : (setChunks installed wanted s).requests = s.requests := rfl
@[simp] theorem setChunks_barrierRecords (installed wanted : ChunkSet) : (setChunks installed wanted s).barrierRecords = s.barrierRecords := rfl
@[simp] theorem setChunks_outbox (installed wanted : ChunkSet) : (setChunks installed wanted s).outbox = s.outbox := rfl
@[simp] theorem setChunks_txBuffer (installed wanted : ChunkSet) : (setChunks installed wanted s).txBuffer = s.txBuffer := rfl
@[simp] theorem setChunks_rxBuffer (installed wanted : ChunkSet) : (setChunks installed wanted s).rxBuffer = s.rxBuffer := rfl
@[simp] theorem setChunks_reception (installed wanted : ChunkSet) : (setChunks installed wanted s).reception = s.reception := rfl
@[simp] theorem setChunks_echo (installed wanted : ChunkSet) : (setChunks installed wanted s).echo = s.echo := rfl
@[simp] theorem setChunks_ltxe (installed wanted : ChunkSet) : (setChunks installed wanted s).ltxe = s.ltxe := rfl
@[simp] theorem setChunks_ltx (installed wanted : ChunkSet) : (setChunks installed wanted s).ltx = s.ltx := rfl
@[simp] theorem setChunks_lineWait (installed wanted : ChunkSet) : (setChunks installed wanted s).lineWait = s.lineWait := rfl
@[simp] theorem setChunks_lineHigh (installed wanted : ChunkSet) : (setChunks installed wanted s).lineHigh = s.lineHigh := rfl
@[simp] theorem setChunks_lrxLow (installed wanted : ChunkSet) : (setChunks installed wanted s).lrxLow = s.lrxLow := rfl
@[simp] theorem setChunks_timing (installed wanted : ChunkSet) : (setChunks installed wanted s).timing = s.timing := rfl
@[simp] theorem setChunks_silence (installed wanted : ChunkSet) : (setChunks installed wanted s).silence = s.silence := rfl
@[simp] theorem setChunks_disagreement (installed wanted : ChunkSet) : (setChunks installed wanted s).disagreement = s.disagreement := rfl
@[simp] theorem setChunks_installed (installed wanted : ChunkSet) : (setChunks installed wanted s).installed = installed := rfl
@[simp] theorem setChunks_wanted (installed wanted : ChunkSet) : (setChunks installed wanted s).wanted = wanted := rfl
@[simp] theorem setChunks_gathered (installed wanted : ChunkSet) : (setChunks installed wanted s).gathered = 0 := rfl
@[simp] theorem setChunks_orphanCount (installed wanted : ChunkSet) : (setChunks installed wanted s).orphanCount = 0 := rfl
@[simp] theorem setChunks_joinHeard (installed wanted : ChunkSet) : (setChunks installed wanted s).joinHeard = 0 := rfl
@[simp] theorem setChunks_matchCount (installed wanted : ChunkSet) : (setChunks installed wanted s).matchCount = s.matchCount := rfl
@[simp] theorem setChunks_mismatchCount (installed wanted : ChunkSet) : (setChunks installed wanted s).mismatchCount = s.mismatchCount := rfl
@[simp] theorem setChunks_port (installed wanted : ChunkSet) : (setChunks installed wanted s).port = s.port := rfl
@[simp] theorem setChunks_cut (installed wanted : ChunkSet) : (setChunks installed wanted s).cut = s.cut := rfl
@[simp] theorem setChunks_ssel (installed wanted : ChunkSet) : (setChunks installed wanted s).ssel = s.ssel := rfl
@[simp] theorem setChunks_shiftIn (installed wanted : ChunkSet) : (setChunks installed wanted s).shiftIn = s.shiftIn := rfl
@[simp] theorem setChunks_shiftOut (installed wanted : ChunkSet) : (setChunks installed wanted s).shiftOut = s.shiftOut := rfl
@[simp] theorem setChunks_miso (installed wanted : ChunkSet) : (setChunks installed wanted s).miso = s.miso := rfl
@[simp] theorem setChunks_commands (installed wanted : ChunkSet) : (setChunks installed wanted s).commands = s.commands := rfl
@[simp] theorem setChunks_answers (installed wanted : ChunkSet) : (setChunks installed wanted s).answers = s.answers := rfl
@[simp] theorem setChunks_eventMask (installed wanted : ChunkSet) : (setChunks installed wanted s).eventMask = s.eventMask := rfl
@[simp] theorem setChunks_notices (installed wanted : ChunkSet) : (setChunks installed wanted s).notices = s.notices := rfl
@[simp] theorem setChunks_work (installed wanted : ChunkSet) : (setChunks installed wanted s).work = s.work := rfl
@[simp] theorem setChunks_freeIndex (installed wanted : ChunkSet) : (setChunks installed wanted s).freeIndex = s.freeIndex := rfl
@[simp] theorem setChunks_pending (installed wanted : ChunkSet) : (setChunks installed wanted s).pending = s.pending := rfl

/-! ## resetTally -/

@[simp] theorem resetTally_station : (resetTally s).station = s.station := rfl
@[simp] theorem resetTally_config : (resetTally s).config = s.config := rfl
@[simp] theorem resetTally_leavingCount : (resetTally s).leavingCount = s.leavingCount := rfl
@[simp] theorem resetTally_leavingFromJoining : (resetTally s).leavingFromJoining = s.leavingFromJoining := rfl
@[simp] theorem resetTally_foundingOpen : (resetTally s).foundingOpen = s.foundingOpen := rfl
@[simp] theorem resetTally_locks : (resetTally s).locks = s.locks := rfl
@[simp] theorem resetTally_barriers : (resetTally s).barriers = s.barriers := rfl
@[simp] theorem resetTally_members : (resetTally s).members = s.members := rfl
@[simp] theorem resetTally_requests : (resetTally s).requests = s.requests := rfl
@[simp] theorem resetTally_barrierRecords : (resetTally s).barrierRecords = s.barrierRecords := rfl
@[simp] theorem resetTally_outbox : (resetTally s).outbox = s.outbox := rfl
@[simp] theorem resetTally_txBuffer : (resetTally s).txBuffer = s.txBuffer := rfl
@[simp] theorem resetTally_rxBuffer : (resetTally s).rxBuffer = s.rxBuffer := rfl
@[simp] theorem resetTally_reception : (resetTally s).reception = s.reception := rfl
@[simp] theorem resetTally_echo : (resetTally s).echo = s.echo := rfl
@[simp] theorem resetTally_ltxe : (resetTally s).ltxe = s.ltxe := rfl
@[simp] theorem resetTally_ltx : (resetTally s).ltx = s.ltx := rfl
@[simp] theorem resetTally_lineWait : (resetTally s).lineWait = s.lineWait := rfl
@[simp] theorem resetTally_lineHigh : (resetTally s).lineHigh = s.lineHigh := rfl
@[simp] theorem resetTally_lrxLow : (resetTally s).lrxLow = s.lrxLow := rfl
@[simp] theorem resetTally_timing : (resetTally s).timing = s.timing := rfl
@[simp] theorem resetTally_silence : (resetTally s).silence = s.silence := rfl
@[simp] theorem resetTally_disagreement : (resetTally s).disagreement = s.disagreement := rfl
@[simp] theorem resetTally_installed : (resetTally s).installed = s.installed := rfl
@[simp] theorem resetTally_wanted : (resetTally s).wanted = s.wanted := rfl
@[simp] theorem resetTally_gathered : (resetTally s).gathered = s.gathered := rfl
@[simp] theorem resetTally_orphanCount : (resetTally s).orphanCount = s.orphanCount := rfl
@[simp] theorem resetTally_joinHeard : (resetTally s).joinHeard = s.joinHeard := rfl
@[simp] theorem resetTally_matchCount : (resetTally s).matchCount = 1 := rfl
@[simp] theorem resetTally_mismatchCount : (resetTally s).mismatchCount = 0 := rfl
@[simp] theorem resetTally_port : (resetTally s).port = s.port := rfl
@[simp] theorem resetTally_cut : (resetTally s).cut = s.cut := rfl
@[simp] theorem resetTally_ssel : (resetTally s).ssel = s.ssel := rfl
@[simp] theorem resetTally_shiftIn : (resetTally s).shiftIn = s.shiftIn := rfl
@[simp] theorem resetTally_shiftOut : (resetTally s).shiftOut = s.shiftOut := rfl
@[simp] theorem resetTally_miso : (resetTally s).miso = s.miso := rfl
@[simp] theorem resetTally_commands : (resetTally s).commands = s.commands := rfl
@[simp] theorem resetTally_answers : (resetTally s).answers = s.answers := rfl
@[simp] theorem resetTally_eventMask : (resetTally s).eventMask = s.eventMask := rfl
@[simp] theorem resetTally_notices : (resetTally s).notices = s.notices := rfl
@[simp] theorem resetTally_work : (resetTally s).work = s.work := rfl
@[simp] theorem resetTally_freeIndex : (resetTally s).freeIndex = s.freeIndex := rfl
@[simp] theorem resetTally_pending : (resetTally s).pending = s.pending := rfl

/-! ## cutTransmission -/

@[simp] theorem cutTransmission_station : (cutTransmission s).station = s.station := rfl
@[simp] theorem cutTransmission_config : (cutTransmission s).config = s.config := rfl
@[simp] theorem cutTransmission_leavingCount : (cutTransmission s).leavingCount = s.leavingCount := rfl
@[simp] theorem cutTransmission_leavingFromJoining : (cutTransmission s).leavingFromJoining = s.leavingFromJoining := rfl
@[simp] theorem cutTransmission_foundingOpen : (cutTransmission s).foundingOpen = s.foundingOpen := rfl
@[simp] theorem cutTransmission_locks : (cutTransmission s).locks = s.locks := rfl
@[simp] theorem cutTransmission_barriers : (cutTransmission s).barriers = s.barriers := rfl
@[simp] theorem cutTransmission_members : (cutTransmission s).members = s.members := rfl
@[simp] theorem cutTransmission_requests : (cutTransmission s).requests = s.requests := rfl
@[simp] theorem cutTransmission_barrierRecords : (cutTransmission s).barrierRecords = s.barrierRecords := rfl
@[simp] theorem cutTransmission_outbox : (cutTransmission s).outbox = s.outbox := rfl
@[simp] theorem cutTransmission_txBuffer : (cutTransmission s).txBuffer = [] := rfl
@[simp] theorem cutTransmission_rxBuffer : (cutTransmission s).rxBuffer = s.rxBuffer := rfl
@[simp] theorem cutTransmission_reception : (cutTransmission s).reception = s.reception := rfl
@[simp] theorem cutTransmission_echo : (cutTransmission s).echo = none := rfl
@[simp] theorem cutTransmission_ltxe : (cutTransmission s).ltxe = false := rfl
@[simp] theorem cutTransmission_ltx : (cutTransmission s).ltx = true := rfl
@[simp] theorem cutTransmission_lineWait : (cutTransmission s).lineWait = s.lineWait := rfl
@[simp] theorem cutTransmission_lineHigh : (cutTransmission s).lineHigh = s.lineHigh := rfl
@[simp] theorem cutTransmission_lrxLow : (cutTransmission s).lrxLow = s.lrxLow := rfl
@[simp] theorem cutTransmission_timing : (cutTransmission s).timing = s.timing := rfl
@[simp] theorem cutTransmission_silence : (cutTransmission s).silence = s.silence := rfl
@[simp] theorem cutTransmission_disagreement : (cutTransmission s).disagreement = s.disagreement := rfl
@[simp] theorem cutTransmission_installed : (cutTransmission s).installed = s.installed := rfl
@[simp] theorem cutTransmission_wanted : (cutTransmission s).wanted = s.wanted := rfl
@[simp] theorem cutTransmission_gathered : (cutTransmission s).gathered = s.gathered := rfl
@[simp] theorem cutTransmission_orphanCount : (cutTransmission s).orphanCount = s.orphanCount := rfl
@[simp] theorem cutTransmission_joinHeard : (cutTransmission s).joinHeard = s.joinHeard := rfl
@[simp] theorem cutTransmission_matchCount : (cutTransmission s).matchCount = s.matchCount := rfl
@[simp] theorem cutTransmission_mismatchCount : (cutTransmission s).mismatchCount = s.mismatchCount := rfl
@[simp] theorem cutTransmission_port : (cutTransmission s).port = s.port := rfl
@[simp] theorem cutTransmission_cut : (cutTransmission s).cut = s.cut := rfl
@[simp] theorem cutTransmission_ssel : (cutTransmission s).ssel = s.ssel := rfl
@[simp] theorem cutTransmission_shiftIn : (cutTransmission s).shiftIn = s.shiftIn := rfl
@[simp] theorem cutTransmission_shiftOut : (cutTransmission s).shiftOut = s.shiftOut := rfl
@[simp] theorem cutTransmission_miso : (cutTransmission s).miso = s.miso := rfl
@[simp] theorem cutTransmission_commands : (cutTransmission s).commands = s.commands := rfl
@[simp] theorem cutTransmission_answers : (cutTransmission s).answers = s.answers := rfl
@[simp] theorem cutTransmission_eventMask : (cutTransmission s).eventMask = s.eventMask := rfl
@[simp] theorem cutTransmission_notices : (cutTransmission s).notices = s.notices := rfl
@[simp] theorem cutTransmission_work : (cutTransmission s).work = s.work := rfl
@[simp] theorem cutTransmission_freeIndex : (cutTransmission s).freeIndex = s.freeIndex := rfl
@[simp] theorem cutTransmission_pending : (cutTransmission s).pending = s.pending := rfl

/-! ## dropReception -/

@[simp] theorem dropReception_station : (dropReception s).station = s.station := rfl
@[simp] theorem dropReception_config : (dropReception s).config = s.config := rfl
@[simp] theorem dropReception_leavingCount : (dropReception s).leavingCount = s.leavingCount := rfl
@[simp] theorem dropReception_leavingFromJoining : (dropReception s).leavingFromJoining = s.leavingFromJoining := rfl
@[simp] theorem dropReception_foundingOpen : (dropReception s).foundingOpen = s.foundingOpen := rfl
@[simp] theorem dropReception_locks : (dropReception s).locks = s.locks := rfl
@[simp] theorem dropReception_barriers : (dropReception s).barriers = s.barriers := rfl
@[simp] theorem dropReception_members : (dropReception s).members = s.members := rfl
@[simp] theorem dropReception_requests : (dropReception s).requests = s.requests := rfl
@[simp] theorem dropReception_barrierRecords : (dropReception s).barrierRecords = s.barrierRecords := rfl
@[simp] theorem dropReception_outbox : (dropReception s).outbox = s.outbox := rfl
@[simp] theorem dropReception_txBuffer : (dropReception s).txBuffer = s.txBuffer := rfl
@[simp] theorem dropReception_rxBuffer : (dropReception s).rxBuffer = [] := rfl
@[simp] theorem dropReception_reception : (dropReception s).reception = none := rfl
@[simp] theorem dropReception_echo : (dropReception s).echo = s.echo := rfl
@[simp] theorem dropReception_ltxe : (dropReception s).ltxe = s.ltxe := rfl
@[simp] theorem dropReception_ltx : (dropReception s).ltx = s.ltx := rfl
@[simp] theorem dropReception_lineWait : (dropReception s).lineWait = 0 := rfl
@[simp] theorem dropReception_lineHigh : (dropReception s).lineHigh = s.lineHigh := rfl
@[simp] theorem dropReception_lrxLow : (dropReception s).lrxLow = s.lrxLow := rfl
@[simp] theorem dropReception_timing : (dropReception s).timing = s.timing := rfl
@[simp] theorem dropReception_silence : (dropReception s).silence = s.silence := rfl
@[simp] theorem dropReception_disagreement : (dropReception s).disagreement = s.disagreement := rfl
@[simp] theorem dropReception_installed : (dropReception s).installed = s.installed := rfl
@[simp] theorem dropReception_wanted : (dropReception s).wanted = s.wanted := rfl
@[simp] theorem dropReception_gathered : (dropReception s).gathered = s.gathered := rfl
@[simp] theorem dropReception_orphanCount : (dropReception s).orphanCount = s.orphanCount := rfl
@[simp] theorem dropReception_joinHeard : (dropReception s).joinHeard = s.joinHeard := rfl
@[simp] theorem dropReception_matchCount : (dropReception s).matchCount = s.matchCount := rfl
@[simp] theorem dropReception_mismatchCount : (dropReception s).mismatchCount = s.mismatchCount := rfl
@[simp] theorem dropReception_port : (dropReception s).port = s.port := rfl
@[simp] theorem dropReception_cut : (dropReception s).cut = s.cut := rfl
@[simp] theorem dropReception_ssel : (dropReception s).ssel = s.ssel := rfl
@[simp] theorem dropReception_shiftIn : (dropReception s).shiftIn = s.shiftIn := rfl
@[simp] theorem dropReception_shiftOut : (dropReception s).shiftOut = s.shiftOut := rfl
@[simp] theorem dropReception_miso : (dropReception s).miso = s.miso := rfl
@[simp] theorem dropReception_commands : (dropReception s).commands = s.commands := rfl
@[simp] theorem dropReception_answers : (dropReception s).answers = s.answers := rfl
@[simp] theorem dropReception_eventMask : (dropReception s).eventMask = s.eventMask := rfl
@[simp] theorem dropReception_notices : (dropReception s).notices = s.notices := rfl
@[simp] theorem dropReception_work : (dropReception s).work = s.work := rfl
@[simp] theorem dropReception_freeIndex : (dropReception s).freeIndex = s.freeIndex := rfl
@[simp] theorem dropReception_pending : (dropReception s).pending = s.pending := rfl

/-! ## clearTiming -/

@[simp] theorem clearTiming_station : (clearTiming s).station = s.station := rfl
@[simp] theorem clearTiming_config : (clearTiming s).config = s.config := rfl
@[simp] theorem clearTiming_leavingCount : (clearTiming s).leavingCount = s.leavingCount := rfl
@[simp] theorem clearTiming_leavingFromJoining : (clearTiming s).leavingFromJoining = s.leavingFromJoining := rfl
@[simp] theorem clearTiming_foundingOpen : (clearTiming s).foundingOpen = s.foundingOpen := rfl
@[simp] theorem clearTiming_locks : (clearTiming s).locks = s.locks := rfl
@[simp] theorem clearTiming_barriers : (clearTiming s).barriers = s.barriers := rfl
@[simp] theorem clearTiming_members : (clearTiming s).members = s.members := rfl
@[simp] theorem clearTiming_requests : (clearTiming s).requests = s.requests := rfl
@[simp] theorem clearTiming_barrierRecords : (clearTiming s).barrierRecords = s.barrierRecords := rfl
@[simp] theorem clearTiming_outbox : (clearTiming s).outbox = s.outbox := rfl
@[simp] theorem clearTiming_txBuffer : (clearTiming s).txBuffer = s.txBuffer := rfl
@[simp] theorem clearTiming_rxBuffer : (clearTiming s).rxBuffer = s.rxBuffer := rfl
@[simp] theorem clearTiming_reception : (clearTiming s).reception = s.reception := rfl
@[simp] theorem clearTiming_echo : (clearTiming s).echo = s.echo := rfl
@[simp] theorem clearTiming_ltxe : (clearTiming s).ltxe = s.ltxe := rfl
@[simp] theorem clearTiming_ltx : (clearTiming s).ltx = s.ltx := rfl
@[simp] theorem clearTiming_lineWait : (clearTiming s).lineWait = s.lineWait := rfl
@[simp] theorem clearTiming_lineHigh : (clearTiming s).lineHigh = s.lineHigh := rfl
@[simp] theorem clearTiming_lrxLow : (clearTiming s).lrxLow = s.lrxLow := rfl
@[simp] theorem clearTiming_timing : (clearTiming s).timing = none := rfl
@[simp] theorem clearTiming_silence : (clearTiming s).silence = 0 := rfl
@[simp] theorem clearTiming_disagreement : (clearTiming s).disagreement = 0 := rfl
@[simp] theorem clearTiming_installed : (clearTiming s).installed = s.installed := rfl
@[simp] theorem clearTiming_wanted : (clearTiming s).wanted = s.wanted := rfl
@[simp] theorem clearTiming_gathered : (clearTiming s).gathered = s.gathered := rfl
@[simp] theorem clearTiming_orphanCount : (clearTiming s).orphanCount = s.orphanCount := rfl
@[simp] theorem clearTiming_joinHeard : (clearTiming s).joinHeard = s.joinHeard := rfl
@[simp] theorem clearTiming_matchCount : (clearTiming s).matchCount = s.matchCount := rfl
@[simp] theorem clearTiming_mismatchCount : (clearTiming s).mismatchCount = s.mismatchCount := rfl
@[simp] theorem clearTiming_port : (clearTiming s).port = s.port := rfl
@[simp] theorem clearTiming_cut : (clearTiming s).cut = s.cut := rfl
@[simp] theorem clearTiming_ssel : (clearTiming s).ssel = s.ssel := rfl
@[simp] theorem clearTiming_shiftIn : (clearTiming s).shiftIn = s.shiftIn := rfl
@[simp] theorem clearTiming_shiftOut : (clearTiming s).shiftOut = s.shiftOut := rfl
@[simp] theorem clearTiming_miso : (clearTiming s).miso = s.miso := rfl
@[simp] theorem clearTiming_commands : (clearTiming s).commands = s.commands := rfl
@[simp] theorem clearTiming_answers : (clearTiming s).answers = s.answers := rfl
@[simp] theorem clearTiming_eventMask : (clearTiming s).eventMask = s.eventMask := rfl
@[simp] theorem clearTiming_notices : (clearTiming s).notices = s.notices := rfl
@[simp] theorem clearTiming_work : (clearTiming s).work = s.work := rfl
@[simp] theorem clearTiming_freeIndex : (clearTiming s).freeIndex = s.freeIndex := rfl
@[simp] theorem clearTiming_pending : (clearTiming s).pending = s.pending := rfl

/-! ## dropWork -/

@[simp] theorem dropWork_station : (dropWork s).station = s.station := rfl
@[simp] theorem dropWork_config : (dropWork s).config = s.config := rfl
@[simp] theorem dropWork_leavingCount : (dropWork s).leavingCount = s.leavingCount := rfl
@[simp] theorem dropWork_leavingFromJoining : (dropWork s).leavingFromJoining = false := rfl
@[simp] theorem dropWork_foundingOpen : (dropWork s).foundingOpen = false := rfl
@[simp] theorem dropWork_locks : (dropWork s).locks = s.locks := rfl
@[simp] theorem dropWork_barriers : (dropWork s).barriers = s.barriers := rfl
@[simp] theorem dropWork_members : (dropWork s).members = s.members := rfl
@[simp] theorem dropWork_requests : (dropWork s).requests = s.requests := rfl
@[simp] theorem dropWork_barrierRecords : (dropWork s).barrierRecords = s.barrierRecords := rfl
@[simp] theorem dropWork_outbox : (dropWork s).outbox = s.outbox := rfl
@[simp] theorem dropWork_txBuffer : (dropWork s).txBuffer = s.txBuffer := rfl
@[simp] theorem dropWork_rxBuffer : (dropWork s).rxBuffer = s.rxBuffer := rfl
@[simp] theorem dropWork_reception : (dropWork s).reception = s.reception := rfl
@[simp] theorem dropWork_echo : (dropWork s).echo = s.echo := rfl
@[simp] theorem dropWork_ltxe : (dropWork s).ltxe = s.ltxe := rfl
@[simp] theorem dropWork_ltx : (dropWork s).ltx = s.ltx := rfl
@[simp] theorem dropWork_lineWait : (dropWork s).lineWait = s.lineWait := rfl
@[simp] theorem dropWork_lineHigh : (dropWork s).lineHigh = s.lineHigh := rfl
@[simp] theorem dropWork_lrxLow : (dropWork s).lrxLow = s.lrxLow := rfl
@[simp] theorem dropWork_timing : (dropWork s).timing = s.timing := rfl
@[simp] theorem dropWork_silence : (dropWork s).silence = s.silence := rfl
@[simp] theorem dropWork_disagreement : (dropWork s).disagreement = s.disagreement := rfl
@[simp] theorem dropWork_installed : (dropWork s).installed = s.installed := rfl
@[simp] theorem dropWork_wanted : (dropWork s).wanted = s.wanted := rfl
@[simp] theorem dropWork_gathered : (dropWork s).gathered = s.gathered := rfl
@[simp] theorem dropWork_orphanCount : (dropWork s).orphanCount = s.orphanCount := rfl
@[simp] theorem dropWork_joinHeard : (dropWork s).joinHeard = s.joinHeard := rfl
@[simp] theorem dropWork_matchCount : (dropWork s).matchCount = s.matchCount := rfl
@[simp] theorem dropWork_mismatchCount : (dropWork s).mismatchCount = s.mismatchCount := rfl
@[simp] theorem dropWork_port : (dropWork s).port = s.port := rfl
@[simp] theorem dropWork_cut : (dropWork s).cut = s.cut := rfl
@[simp] theorem dropWork_ssel : (dropWork s).ssel = s.ssel := rfl
@[simp] theorem dropWork_shiftIn : (dropWork s).shiftIn = s.shiftIn := rfl
@[simp] theorem dropWork_shiftOut : (dropWork s).shiftOut = s.shiftOut := rfl
@[simp] theorem dropWork_miso : (dropWork s).miso = s.miso := rfl
@[simp] theorem dropWork_commands : (dropWork s).commands = s.commands := rfl
@[simp] theorem dropWork_answers : (dropWork s).answers = s.answers := rfl
@[simp] theorem dropWork_eventMask : (dropWork s).eventMask = s.eventMask := rfl
@[simp] theorem dropWork_notices : (dropWork s).notices = s.notices := rfl
@[simp] theorem dropWork_work : (dropWork s).work = [] := rfl
@[simp] theorem dropWork_freeIndex : (dropWork s).freeIndex = s.freeIndex := rfl
@[simp] theorem dropWork_pending : (dropWork s).pending = s.pending := rfl

end Sys2Proof.Machine
end

