-- ==== Sys2Proof/Laws/Frames.lean ====
section
/-! SUPPORT. What each shared operation leaves alone: the operations grouped by the fields they can change. Each group is a
relation between the state before and after, and each operation has one lemma that puts it into its group. -/

namespace Sys2Proof.Machine

/-- Only the answer queue and the notice set differ. -/
def OnlyAnswers (s t : State) : Prop := t = { s with answers := t.answers, notices := t.notices }

/-- Beside those, only requests, barrier records and the outbox differ. -/
def OnlyRecords (s t : State) : Prop :=
  t = { s with
    answers := t.answers, notices := t.notices
    requests := t.requests, barrierRecords := t.barrierRecords, outbox := t.outbox }

/-- Beside those, only the replica differs. -/
def OnlyReplica (s t : State) : Prop :=
  t = { s with
    answers := t.answers, notices := t.notices
    requests := t.requests, barrierRecords := t.barrierRecords, outbox := t.outbox
    locks := t.locks, barriers := t.barriers, members := t.members }

theorem OnlyAnswers.refl (s : State) : OnlyAnswers s s := rfl
theorem OnlyRecords.refl (s : State) : OnlyRecords s s := rfl
theorem OnlyReplica.refl (s : State) : OnlyReplica s s := rfl

theorem OnlyAnswers.trans {s t u : State} (h : OnlyAnswers s t) (k : OnlyAnswers t u) : OnlyAnswers s u := by
  unfold OnlyAnswers at *; rw [k, h]

theorem OnlyRecords.trans {s t u : State} (h : OnlyRecords s t) (k : OnlyRecords t u) : OnlyRecords s u := by
  unfold OnlyRecords at *; rw [k, h]

theorem OnlyReplica.trans {s t u : State} (h : OnlyReplica s t) (k : OnlyReplica t u) : OnlyReplica s u := by
  unfold OnlyReplica at *; rw [k, h]

theorem OnlyAnswers.records {s t : State} (h : OnlyAnswers s t) : OnlyRecords s t := by
  unfold OnlyAnswers OnlyRecords at *; rw [h]

theorem OnlyRecords.replica {s t : State} (h : OnlyRecords s t) : OnlyReplica s t := by
  unfold OnlyRecords OnlyReplica at *; rw [h]

/-! ## The fields a group leaves alone -/

theorem OnlyAnswers.station {s t : State} (h : OnlyAnswers s t) : t.station = s.station := (congrArg State.station h :)
theorem OnlyAnswers.config {s t : State} (h : OnlyAnswers s t) : t.config = s.config := (congrArg State.config h :)
theorem OnlyAnswers.leavingCount {s t : State} (h : OnlyAnswers s t) : t.leavingCount = s.leavingCount := (congrArg State.leavingCount h :)
theorem OnlyAnswers.leavingFromJoining {s t : State} (h : OnlyAnswers s t) : t.leavingFromJoining = s.leavingFromJoining := (congrArg State.leavingFromJoining h :)
theorem OnlyAnswers.foundingOpen {s t : State} (h : OnlyAnswers s t) : t.foundingOpen = s.foundingOpen := (congrArg State.foundingOpen h :)
theorem OnlyAnswers.locks {s t : State} (h : OnlyAnswers s t) : t.locks = s.locks := (congrArg State.locks h :)
theorem OnlyAnswers.barriers {s t : State} (h : OnlyAnswers s t) : t.barriers = s.barriers := (congrArg State.barriers h :)
theorem OnlyAnswers.members {s t : State} (h : OnlyAnswers s t) : t.members = s.members := (congrArg State.members h :)
theorem OnlyAnswers.requests {s t : State} (h : OnlyAnswers s t) : t.requests = s.requests := (congrArg State.requests h :)
theorem OnlyAnswers.barrierRecords {s t : State} (h : OnlyAnswers s t) : t.barrierRecords = s.barrierRecords := (congrArg State.barrierRecords h :)
theorem OnlyAnswers.outbox {s t : State} (h : OnlyAnswers s t) : t.outbox = s.outbox := (congrArg State.outbox h :)
theorem OnlyAnswers.txBuffer {s t : State} (h : OnlyAnswers s t) : t.txBuffer = s.txBuffer := (congrArg State.txBuffer h :)
theorem OnlyAnswers.rxBuffer {s t : State} (h : OnlyAnswers s t) : t.rxBuffer = s.rxBuffer := (congrArg State.rxBuffer h :)
theorem OnlyAnswers.reception {s t : State} (h : OnlyAnswers s t) : t.reception = s.reception := (congrArg State.reception h :)
theorem OnlyAnswers.echo {s t : State} (h : OnlyAnswers s t) : t.echo = s.echo := (congrArg State.echo h :)
theorem OnlyAnswers.ltxe {s t : State} (h : OnlyAnswers s t) : t.ltxe = s.ltxe := (congrArg State.ltxe h :)
theorem OnlyAnswers.ltx {s t : State} (h : OnlyAnswers s t) : t.ltx = s.ltx := (congrArg State.ltx h :)
theorem OnlyAnswers.lineWait {s t : State} (h : OnlyAnswers s t) : t.lineWait = s.lineWait := (congrArg State.lineWait h :)
theorem OnlyAnswers.lineHigh {s t : State} (h : OnlyAnswers s t) : t.lineHigh = s.lineHigh := (congrArg State.lineHigh h :)
theorem OnlyAnswers.lrxLow {s t : State} (h : OnlyAnswers s t) : t.lrxLow = s.lrxLow := (congrArg State.lrxLow h :)
theorem OnlyAnswers.timing {s t : State} (h : OnlyAnswers s t) : t.timing = s.timing := (congrArg State.timing h :)
theorem OnlyAnswers.silence {s t : State} (h : OnlyAnswers s t) : t.silence = s.silence := (congrArg State.silence h :)
theorem OnlyAnswers.disagreement {s t : State} (h : OnlyAnswers s t) : t.disagreement = s.disagreement := (congrArg State.disagreement h :)
theorem OnlyAnswers.installed {s t : State} (h : OnlyAnswers s t) : t.installed = s.installed := (congrArg State.installed h :)
theorem OnlyAnswers.wanted {s t : State} (h : OnlyAnswers s t) : t.wanted = s.wanted := (congrArg State.wanted h :)
theorem OnlyAnswers.gathered {s t : State} (h : OnlyAnswers s t) : t.gathered = s.gathered := (congrArg State.gathered h :)
theorem OnlyAnswers.orphanCount {s t : State} (h : OnlyAnswers s t) : t.orphanCount = s.orphanCount := (congrArg State.orphanCount h :)
theorem OnlyAnswers.joinHeard {s t : State} (h : OnlyAnswers s t) : t.joinHeard = s.joinHeard := (congrArg State.joinHeard h :)
theorem OnlyAnswers.matchCount {s t : State} (h : OnlyAnswers s t) : t.matchCount = s.matchCount := (congrArg State.matchCount h :)
theorem OnlyAnswers.mismatchCount {s t : State} (h : OnlyAnswers s t) : t.mismatchCount = s.mismatchCount := (congrArg State.mismatchCount h :)
theorem OnlyAnswers.port {s t : State} (h : OnlyAnswers s t) : t.port = s.port := (congrArg State.port h :)
theorem OnlyAnswers.cut {s t : State} (h : OnlyAnswers s t) : t.cut = s.cut := (congrArg State.cut h :)
theorem OnlyAnswers.ssel {s t : State} (h : OnlyAnswers s t) : t.ssel = s.ssel := (congrArg State.ssel h :)
theorem OnlyAnswers.shiftIn {s t : State} (h : OnlyAnswers s t) : t.shiftIn = s.shiftIn := (congrArg State.shiftIn h :)
theorem OnlyAnswers.shiftOut {s t : State} (h : OnlyAnswers s t) : t.shiftOut = s.shiftOut := (congrArg State.shiftOut h :)
theorem OnlyAnswers.miso {s t : State} (h : OnlyAnswers s t) : t.miso = s.miso := (congrArg State.miso h :)
theorem OnlyAnswers.commands {s t : State} (h : OnlyAnswers s t) : t.commands = s.commands := (congrArg State.commands h :)
theorem OnlyAnswers.eventMask {s t : State} (h : OnlyAnswers s t) : t.eventMask = s.eventMask := (congrArg State.eventMask h :)
theorem OnlyAnswers.work {s t : State} (h : OnlyAnswers s t) : t.work = s.work := (congrArg State.work h :)
theorem OnlyAnswers.freeIndex {s t : State} (h : OnlyAnswers s t) : t.freeIndex = s.freeIndex := (congrArg State.freeIndex h :)
theorem OnlyAnswers.pending {s t : State} (h : OnlyAnswers s t) : t.pending = s.pending := (congrArg State.pending h :)

theorem OnlyRecords.station {s t : State} (h : OnlyRecords s t) : t.station = s.station := (congrArg State.station h :)
theorem OnlyRecords.config {s t : State} (h : OnlyRecords s t) : t.config = s.config := (congrArg State.config h :)
theorem OnlyRecords.leavingCount {s t : State} (h : OnlyRecords s t) : t.leavingCount = s.leavingCount := (congrArg State.leavingCount h :)
theorem OnlyRecords.leavingFromJoining {s t : State} (h : OnlyRecords s t) : t.leavingFromJoining = s.leavingFromJoining := (congrArg State.leavingFromJoining h :)
theorem OnlyRecords.foundingOpen {s t : State} (h : OnlyRecords s t) : t.foundingOpen = s.foundingOpen := (congrArg State.foundingOpen h :)
theorem OnlyRecords.locks {s t : State} (h : OnlyRecords s t) : t.locks = s.locks := (congrArg State.locks h :)
theorem OnlyRecords.barriers {s t : State} (h : OnlyRecords s t) : t.barriers = s.barriers := (congrArg State.barriers h :)
theorem OnlyRecords.members {s t : State} (h : OnlyRecords s t) : t.members = s.members := (congrArg State.members h :)
theorem OnlyRecords.txBuffer {s t : State} (h : OnlyRecords s t) : t.txBuffer = s.txBuffer := (congrArg State.txBuffer h :)
theorem OnlyRecords.rxBuffer {s t : State} (h : OnlyRecords s t) : t.rxBuffer = s.rxBuffer := (congrArg State.rxBuffer h :)
theorem OnlyRecords.reception {s t : State} (h : OnlyRecords s t) : t.reception = s.reception := (congrArg State.reception h :)
theorem OnlyRecords.echo {s t : State} (h : OnlyRecords s t) : t.echo = s.echo := (congrArg State.echo h :)
theorem OnlyRecords.ltxe {s t : State} (h : OnlyRecords s t) : t.ltxe = s.ltxe := (congrArg State.ltxe h :)
theorem OnlyRecords.ltx {s t : State} (h : OnlyRecords s t) : t.ltx = s.ltx := (congrArg State.ltx h :)
theorem OnlyRecords.lineWait {s t : State} (h : OnlyRecords s t) : t.lineWait = s.lineWait := (congrArg State.lineWait h :)
theorem OnlyRecords.lineHigh {s t : State} (h : OnlyRecords s t) : t.lineHigh = s.lineHigh := (congrArg State.lineHigh h :)
theorem OnlyRecords.lrxLow {s t : State} (h : OnlyRecords s t) : t.lrxLow = s.lrxLow := (congrArg State.lrxLow h :)
theorem OnlyRecords.timing {s t : State} (h : OnlyRecords s t) : t.timing = s.timing := (congrArg State.timing h :)
theorem OnlyRecords.silence {s t : State} (h : OnlyRecords s t) : t.silence = s.silence := (congrArg State.silence h :)
theorem OnlyRecords.disagreement {s t : State} (h : OnlyRecords s t) : t.disagreement = s.disagreement := (congrArg State.disagreement h :)
theorem OnlyRecords.installed {s t : State} (h : OnlyRecords s t) : t.installed = s.installed := (congrArg State.installed h :)
theorem OnlyRecords.wanted {s t : State} (h : OnlyRecords s t) : t.wanted = s.wanted := (congrArg State.wanted h :)
theorem OnlyRecords.gathered {s t : State} (h : OnlyRecords s t) : t.gathered = s.gathered := (congrArg State.gathered h :)
theorem OnlyRecords.orphanCount {s t : State} (h : OnlyRecords s t) : t.orphanCount = s.orphanCount := (congrArg State.orphanCount h :)
theorem OnlyRecords.joinHeard {s t : State} (h : OnlyRecords s t) : t.joinHeard = s.joinHeard := (congrArg State.joinHeard h :)
theorem OnlyRecords.matchCount {s t : State} (h : OnlyRecords s t) : t.matchCount = s.matchCount := (congrArg State.matchCount h :)
theorem OnlyRecords.mismatchCount {s t : State} (h : OnlyRecords s t) : t.mismatchCount = s.mismatchCount := (congrArg State.mismatchCount h :)
theorem OnlyRecords.port {s t : State} (h : OnlyRecords s t) : t.port = s.port := (congrArg State.port h :)
theorem OnlyRecords.cut {s t : State} (h : OnlyRecords s t) : t.cut = s.cut := (congrArg State.cut h :)
theorem OnlyRecords.ssel {s t : State} (h : OnlyRecords s t) : t.ssel = s.ssel := (congrArg State.ssel h :)
theorem OnlyRecords.shiftIn {s t : State} (h : OnlyRecords s t) : t.shiftIn = s.shiftIn := (congrArg State.shiftIn h :)
theorem OnlyRecords.shiftOut {s t : State} (h : OnlyRecords s t) : t.shiftOut = s.shiftOut := (congrArg State.shiftOut h :)
theorem OnlyRecords.miso {s t : State} (h : OnlyRecords s t) : t.miso = s.miso := (congrArg State.miso h :)
theorem OnlyRecords.commands {s t : State} (h : OnlyRecords s t) : t.commands = s.commands := (congrArg State.commands h :)
theorem OnlyRecords.eventMask {s t : State} (h : OnlyRecords s t) : t.eventMask = s.eventMask := (congrArg State.eventMask h :)
theorem OnlyRecords.work {s t : State} (h : OnlyRecords s t) : t.work = s.work := (congrArg State.work h :)
theorem OnlyRecords.freeIndex {s t : State} (h : OnlyRecords s t) : t.freeIndex = s.freeIndex := (congrArg State.freeIndex h :)
theorem OnlyRecords.pending {s t : State} (h : OnlyRecords s t) : t.pending = s.pending := (congrArg State.pending h :)

theorem OnlyReplica.station {s t : State} (h : OnlyReplica s t) : t.station = s.station := (congrArg State.station h :)
theorem OnlyReplica.config {s t : State} (h : OnlyReplica s t) : t.config = s.config := (congrArg State.config h :)
theorem OnlyReplica.leavingCount {s t : State} (h : OnlyReplica s t) : t.leavingCount = s.leavingCount := (congrArg State.leavingCount h :)
theorem OnlyReplica.leavingFromJoining {s t : State} (h : OnlyReplica s t) : t.leavingFromJoining = s.leavingFromJoining := (congrArg State.leavingFromJoining h :)
theorem OnlyReplica.foundingOpen {s t : State} (h : OnlyReplica s t) : t.foundingOpen = s.foundingOpen := (congrArg State.foundingOpen h :)
theorem OnlyReplica.txBuffer {s t : State} (h : OnlyReplica s t) : t.txBuffer = s.txBuffer := (congrArg State.txBuffer h :)
theorem OnlyReplica.rxBuffer {s t : State} (h : OnlyReplica s t) : t.rxBuffer = s.rxBuffer := (congrArg State.rxBuffer h :)
theorem OnlyReplica.reception {s t : State} (h : OnlyReplica s t) : t.reception = s.reception := (congrArg State.reception h :)
theorem OnlyReplica.echo {s t : State} (h : OnlyReplica s t) : t.echo = s.echo := (congrArg State.echo h :)
theorem OnlyReplica.ltxe {s t : State} (h : OnlyReplica s t) : t.ltxe = s.ltxe := (congrArg State.ltxe h :)
theorem OnlyReplica.ltx {s t : State} (h : OnlyReplica s t) : t.ltx = s.ltx := (congrArg State.ltx h :)
theorem OnlyReplica.lineWait {s t : State} (h : OnlyReplica s t) : t.lineWait = s.lineWait := (congrArg State.lineWait h :)
theorem OnlyReplica.lineHigh {s t : State} (h : OnlyReplica s t) : t.lineHigh = s.lineHigh := (congrArg State.lineHigh h :)
theorem OnlyReplica.lrxLow {s t : State} (h : OnlyReplica s t) : t.lrxLow = s.lrxLow := (congrArg State.lrxLow h :)
theorem OnlyReplica.timing {s t : State} (h : OnlyReplica s t) : t.timing = s.timing := (congrArg State.timing h :)
theorem OnlyReplica.silence {s t : State} (h : OnlyReplica s t) : t.silence = s.silence := (congrArg State.silence h :)
theorem OnlyReplica.disagreement {s t : State} (h : OnlyReplica s t) : t.disagreement = s.disagreement := (congrArg State.disagreement h :)
theorem OnlyReplica.installed {s t : State} (h : OnlyReplica s t) : t.installed = s.installed := (congrArg State.installed h :)
theorem OnlyReplica.wanted {s t : State} (h : OnlyReplica s t) : t.wanted = s.wanted := (congrArg State.wanted h :)
theorem OnlyReplica.gathered {s t : State} (h : OnlyReplica s t) : t.gathered = s.gathered := (congrArg State.gathered h :)
theorem OnlyReplica.orphanCount {s t : State} (h : OnlyReplica s t) : t.orphanCount = s.orphanCount := (congrArg State.orphanCount h :)
theorem OnlyReplica.joinHeard {s t : State} (h : OnlyReplica s t) : t.joinHeard = s.joinHeard := (congrArg State.joinHeard h :)
theorem OnlyReplica.matchCount {s t : State} (h : OnlyReplica s t) : t.matchCount = s.matchCount := (congrArg State.matchCount h :)
theorem OnlyReplica.mismatchCount {s t : State} (h : OnlyReplica s t) : t.mismatchCount = s.mismatchCount := (congrArg State.mismatchCount h :)
theorem OnlyReplica.port {s t : State} (h : OnlyReplica s t) : t.port = s.port := (congrArg State.port h :)
theorem OnlyReplica.cut {s t : State} (h : OnlyReplica s t) : t.cut = s.cut := (congrArg State.cut h :)
theorem OnlyReplica.ssel {s t : State} (h : OnlyReplica s t) : t.ssel = s.ssel := (congrArg State.ssel h :)
theorem OnlyReplica.shiftIn {s t : State} (h : OnlyReplica s t) : t.shiftIn = s.shiftIn := (congrArg State.shiftIn h :)
theorem OnlyReplica.shiftOut {s t : State} (h : OnlyReplica s t) : t.shiftOut = s.shiftOut := (congrArg State.shiftOut h :)
theorem OnlyReplica.miso {s t : State} (h : OnlyReplica s t) : t.miso = s.miso := (congrArg State.miso h :)
theorem OnlyReplica.commands {s t : State} (h : OnlyReplica s t) : t.commands = s.commands := (congrArg State.commands h :)
theorem OnlyReplica.eventMask {s t : State} (h : OnlyReplica s t) : t.eventMask = s.eventMask := (congrArg State.eventMask h :)
theorem OnlyReplica.work {s t : State} (h : OnlyReplica s t) : t.work = s.work := (congrArg State.work h :)
theorem OnlyReplica.freeIndex {s t : State} (h : OnlyReplica s t) : t.freeIndex = s.freeIndex := (congrArg State.freeIndex h :)
theorem OnlyReplica.pending {s t : State} (h : OnlyReplica s t) : t.pending = s.pending := (congrArg State.pending h :)

/-- A fold of operations of a group stays in the group. -/
theorem OnlyRecords.foldl {α : Type} (f : State → α → State) (h : ∀ s a, OnlyRecords s (f s a)) (l : List α)
    (s : State) : OnlyRecords s (l.foldl f s) := by
  induction l generalizing s with
  | nil => exact OnlyRecords.refl s
  | cons a l ih => exact (h s a).trans (ih _)

theorem OnlyReplica.foldl {α : Type} (f : State → α → State) (h : ∀ s a, OnlyReplica s (f s a)) (l : List α)
    (s : State) : OnlyReplica s (l.foldl f s) := by
  induction l generalizing s with
  | nil => exact OnlyReplica.refl s
  | cons a l ih => exact (h s a).trans (ih _)

/-- An operation of the group taken on a condition stays in the group. -/
theorem OnlyReplica.onlyIf {s u : State} {p : Prop} [Decidable p] {f : State → State} (h : OnlyReplica s u)
    (k : ∀ u, OnlyReplica u (f u)) : OnlyReplica s (if p then f u else u) := by
  split
  · exact h.trans (k u)
  · exact h

/-! ## The answer queue -/

theorem placeEvent_only (e : Event) (s : State) : OnlyAnswers s (placeEvent e s) := by
  unfold placeEvent OnlyAnswers; dsimp only; split
  · rfl
  · split <;> rfl

theorem placeReply_only (a : Answer) (s : State) : OnlyAnswers s (placeReply a s) := rfl

/-! ## Records -/

theorem endRequest_only (lock : LockNo) (e : Event) (s : State) : OnlyRecords s (endRequest lock e s) :=
  (placeEvent_only e s).records.trans rfl

theorem endBarrierRecord_only (b : BarrierNo) (e : Event) (s : State) : OnlyRecords s (endBarrierRecord b e s) :=
  (placeEvent_only e s).records.trans rfl

theorem placeAfterRequest_only (e : Event) (lock : LockNo) (r : Option Request) (s : State) :
    OnlyRecords s (placeEvent e (setRequest lock r s)) :=
  OnlyRecords.trans (t := setRequest lock r s) rfl (placeEvent_only e _).records

theorem reportAcquire_only (lock : LockNo) (o : AcquireReport) (s : State) : OnlyRecords s (reportAcquire lock o s) := by
  unfold reportAcquire
  split
  · exact .refl s
  · split <;> first | exact .refl s | exact endRequest_only _ _ s | exact placeAfterRequest_only _ _ _ s

theorem reportRelease_only (lock : LockNo) (s : State) : OnlyRecords s (reportRelease lock s) := by
  unfold reportRelease
  split
  · exact .refl s
  · split <;> first | exact .refl s | exact endRequest_only _ _ s

theorem reportPass_only (lock : LockNo) (s : State) : OnlyRecords s (reportPass lock s) := by
  unfold reportPass
  split
  · exact .refl s
  · split <;> first | exact .refl s | exact placeAfterRequest_only _ _ _ s

theorem reportExpiry_only (lock : LockNo) (s : State) : OnlyRecords s (reportExpiry lock s) := by
  unfold reportExpiry
  split
  · exact .refl s
  · split <;> first | exact .refl s | exact endRequest_only _ _ s

theorem reportArrive_only (b : BarrierNo) (s : State) : OnlyRecords s (reportArrive b s) := by
  unfold reportArrive
  split
  · exact .refl s
  · rfl

theorem reportCompletion_only (b : BarrierNo) (g : BitVec 8) (s : State) : OnlyRecords s (reportCompletion b g s) := by
  unfold reportCompletion
  split
  · exact .refl s
  · split <;> first | exact .refl s | exact endBarrierRecord_only _ _ s

theorem loseRequest_only (lock : LockNo) (s : State) : OnlyRecords s (loseRequest lock s) := by
  unfold loseRequest
  split
  · exact .refl s
  · exact (placeEvent_only _ s).records.trans rfl

theorem loseBarrierRecord_only (b : BarrierNo) (s : State) : OnlyRecords s (loseBarrierRecord b s) := by
  unfold loseBarrierRecord
  split
  · exact .refl s
  · exact (placeEvent_only _ s).records.trans rfl

theorem emptyOutbox_only (s : State) : OnlyRecords s (emptyOutbox s) := rfl

theorem loseRecords_only (s : State) : OnlyRecords s (loseRecords s) :=
  ((OnlyRecords.foldl _ (fun s L => loseRequest_only L s) allLocks s).trans
    (OnlyRecords.foldl _ (fun s b => loseBarrierRecord_only b s) allBarriers _)).trans (emptyOutbox_only _)

theorem hostRelease_only (lock : LockNo) (s : State) : OnlyRecords s (hostRelease lock s) := by
  unfold hostRelease
  split
  · exact .refl s
  · dsimp only
    split
    · split <;> first | rfl | exact endRequest_only _ _ s
    · rfl
    · split
      · rfl
      · split <;> rfl
    · exact .refl s
    · exact .refl s

theorem hostRenew_only (lock : LockNo) (s : State) : OnlyRecords s (hostRenew lock s) := by
  unfold hostRenew; split <;> rfl

theorem expireWait_only (lock : LockNo) (s : State) : OnlyRecords s (expireWait lock s) := by
  unfold expireWait
  split
  · exact .refl s
  · split <;> first | exact .refl s | exact endRequest_only _ _ s | rfl

theorem countWaits_only (l : List LockNo) (s : State) : OnlyRecords s (countWaits l s).1 := by
  induction l generalizing s with
  | nil => exact .refl s
  | cons L rest ih =>
    unfold countWaits
    split
    · exact ih s
    · split
      · split
        · exact ih s
        · split
          · exact .refl s
          · exact OnlyRecords.trans (t := setRequest L _ s) rfl (ih _)
      · exact ih s

theorem supplyItems_only (s : State) : OnlyRecords s (supplyItems s).1 := by
  unfold supplyItems; split <;> rfl

/-! ## The replica -/

theorem setLock_only (lock : LockNo) (e : LockEntry) (s : State) : OnlyReplica s (setLock lock e s) := rfl
theorem setBarrier_only (b : BarrierNo) (e : BarrierEntry) (s : State) : OnlyReplica s (setBarrier b e s) := rfl
theorem setMember_only (r : StationNo) (m : Option Member) (s : State) : OnlyReplica s (setMember r m s) := rfl

theorem passLock_only (lock : LockNo) (w : List Waiter) (s : State) : OnlyReplica s (passLock lock w s) := by
  unfold passLock; dsimp only
  split
  · exact (setLock_only _ _ s).trans (reportPass_only _ _).replica
  · exact setLock_only _ _ s

theorem applyAcquire_only (r : StationNo) (lock : LockNo) (leased : Bool) (s : State) :
    OnlyReplica s (applyAcquire r lock leased s) := by
  unfold applyAcquire; dsimp only
  split
  · exact (setLock_only _ _ s).trans (reportAcquire_only _ _ _).replica
  · exact setLock_only _ _ s

theorem applyRelease_only (r : StationNo) (lock : LockNo) (s : State) : OnlyReplica s (applyRelease r lock s) := by
  have told : ∀ {u : State}, OnlyReplica s u → OnlyReplica s (if r = s.own then reportRelease lock u else u) :=
    fun h => h.onlyIf fun u => (reportRelease_only lock u).replica
  unfold applyRelease
  dsimp only
  split
  · exact told (.refl s)
  · split
    · exact (told (setLock_only _ _ s)).onlyIf fun u => (reportPass_only lock u).replica
    · exact told (setLock_only _ _ s)

theorem applyRenew_only (r : StationNo) (lock : LockNo) (s : State) : OnlyReplica s (applyRenew r lock s) := rfl

theorem visitLeases_only (l : List LockNo) (s : State) : OnlyReplica s (visitLeases l s).1 := by
  induction l generalizing s with
  | nil => exact .refl s
  | cons L rest ih =>
    unfold visitLeases
    split
    · split
      · split
        · exact .refl s
        · exact (setLock_only _ _ s).trans (ih _)
      · exact ih s
    · exact ih s
    · exact ih s

theorem expireLease_only (lock : LockNo) (s : State) : OnlyReplica s (expireLease lock s) := by
  unfold expireLease
  split
  · exact .refl s
  · exact ((setLock_only _ _ s).onlyIf fun u => (reportExpiry_only lock u).replica).onlyIf
      fun u => (reportPass_only lock u).replica

theorem removeFromLock_only (r : StationNo) (lock : LockNo) (s : State) : OnlyReplica s (removeFromLock r lock s) := by
  unfold removeFromLock
  split
  · split
    · exact .refl s
    · split
      · split
        · exact setLock_only _ _ s
        · exact passLock_only _ _ s
      · exact setLock_only _ _ s
  · exact .refl s

theorem removeFromLocks_only (r : StationNo) (s : State) : OnlyReplica s (removeFromLocks r s) :=
  OnlyReplica.foldl _ (fun s L => removeFromLock_only r L s) allLocks s

theorem installLocks_only (k : ChunkNo) (es : List LockEntry) (s : State) : OnlyReplica s (installLocks k es s) := rfl

theorem completeBarrier_only (b : BarrierNo) (s : State) : OnlyReplica s (completeBarrier b s) := by
  unfold completeBarrier; dsimp only
  split
  · exact (reportCompletion_only _ _ s).replica.trans (setBarrier_only _ _ _)
  · exact setBarrier_only _ _ s

theorem applyArrive_only (r : StationNo) (b : BarrierNo) (s : State) : OnlyReplica s (applyArrive r b s) := by
  unfold applyArrive; dsimp only
  split
  · split
    · exact (reportArrive_only _ s).replica
    · exact .refl s
  · exact ((setBarrier_only _ _ s).onlyIf fun u => (reportArrive_only b u).replica).onlyIf
      fun u => completeBarrier_only b u

theorem testDuringRemoval_only (r : StationNo) (s : State) (b : BarrierNo) :
    OnlyReplica s (testDuringRemoval r s b) := by
  unfold testDuringRemoval; split
  · exact completeBarrier_only b s
  · exact .refl s

theorem removeFromBarriers_only (r : StationNo) (s : State) : OnlyReplica s (removeFromBarriers r s) :=
  OnlyReplica.trans (t := withdrawArrivals r s) rfl (OnlyReplica.foldl _ (testDuringRemoval_only r) allBarriers _)

theorem addMember_only (r : StationNo) (s : State) : OnlyReplica s (addMember r s) :=
  (setMember_only _ _ s).trans (placeEvent_only _ _).records.replica

theorem accountSlot_only (s : State) : OnlyReplica s (accountSlot s).1 := by
  unfold accountSlot
  split
  · exact .refl s
  · split
    · split
      · exact .refl s
      · split
        · exact setMember_only _ _ s
        · split
          · exact .refl s
          · exact setMember_only _ _ s
    · exact .refl s

end Sys2Proof.Machine
end

