-- ==== Sys2Proof/Laws/AnswerQueue.lean ====
section
/-! SUPPORT. What the answer queue's operations do (R173, R174, R175): the marker that is raised or formed, the cases of
placing an event, and the notice set that only grows. -/

namespace Sys2Proof.Machine

/-- The last record is an overrun marker. -/
def LastIsMarker (l : List Answer) : Prop := ∃ a, l.getLast? = some a ∧ isMarker a

theorem countEvent_cons_cons (a b : Answer) (rest : List Answer) :
    countEvent (a :: b :: rest) = a :: countEvent (b :: rest) := by cases a <;> rfl

/-- Counting an event leaves a marker last, keeps the length when one was last already, and adds one record otherwise. -/
theorem countEvent_spec (l : List Answer) :
    LastIsMarker (countEvent l) ∧ (LastIsMarker l → (countEvent l).length = l.length)
      ∧ (¬ LastIsMarker l → (countEvent l).length = l.length + 1) := by
  induction l using countEvent.induct with
  | case1 => simp [countEvent, LastIsMarker, isMarker]
  | case2 n => simp [countEvent, LastIsMarker, isMarker]
  | case3 a hn => cases a <;> simp [countEvent, LastIsMarker, isMarker] at *
  | case4 a b rest ih =>
    obtain ⟨h1, h2, h3⟩ := ih
    rw [countEvent_cons_cons]
    have ne : countEvent (b :: rest) ≠ [] := by
      intro e; rw [e] at h1; obtain ⟨m, h, -⟩ := h1; simp at h
    obtain ⟨c, cs, hc⟩ := List.exists_cons_of_ne_nil ne
    have same : LastIsMarker (a :: b :: rest) ↔ LastIsMarker (b :: rest) := by
      unfold LastIsMarker; rw [List.getLast?_cons_cons]
    rw [same]
    refine ⟨?_, fun h => by simp [h2 h], fun h => by simp [h3 h]⟩
    unfold LastIsMarker at h1 ⊢
    rw [hc] at h1 ⊢
    rw [List.getLast?_cons_cons]
    exact h1

/-- Counting an event keeps every marker's count from 1 to 255. -/
theorem countEvent_range {l : List Answer} (h : ∀ a ∈ l, markerInRange a) : ∀ a ∈ countEvent l, markerInRange a := by
  induction l using countEvent.induct with
  | case1 => simp [countEvent, markerInRange]
  | case2 n =>
    have := h (.overrun n) (by simp)
    simp [countEvent, markerInRange, markerLimit] at *
  | case3 a hn =>
    intro b hb
    cases a <;> simp [countEvent] at * <;> rcases hb with rfl | rfl <;> simp [markerInRange]
  | case4 a b rest ih =>
    rw [countEvent_cons_cons]
    intro x hx
    rcases List.mem_cons.mp hx with rfl | hx
    · exact h _ (by simp)
    · exact ih (fun y hy => h y (List.mem_cons_of_mem _ hy)) x hx

/-- R173: the three ways an event is taken: masked, stored, or lost to the marker. -/
theorem placeEvent_cases (e : Event) (s : State) :
    (isMasked s.eventMask (kindOf e) = true ∧ (placeEvent e s).answers = s.answers) ∨
    (isMasked s.eventMask (kindOf e) = false ∧ s.answers.length ≤ 30 ∧
      (placeEvent e s).answers = s.answers ++ [.event e]) ∨
    (isMasked s.eventMask (kindOf e) = false ∧ 30 < s.answers.length ∧
      (placeEvent e s).answers = countEvent s.answers) := by
  unfold placeEvent
  dsimp only
  split
  · exact .inl ⟨‹_›, rfl⟩
  · rename_i unmasked
    split
    · exact .inr (.inl ⟨by simpa using unmasked, ‹_›, rfl⟩)
    · exact .inr (.inr ⟨by simpa using unmasked, by omega, rfl⟩)

end Sys2Proof.Machine
end

