-- ==== Sys2Proof/Laws/Moves.lean ====
section
/-! SUPPORT. What a command can do, said once: every command's effect is a chain of moves, each a named operation with the
condition under which the model makes it. An invariant that every move keeps is kept by every command. -/

namespace Sys2Proof.Machine

/-- One move. -/
inductive Move : State → State → Prop
  /-- a hard reset -/
  | reset (s : State) : Move s { State.reset with
      ssel := s.ssel, port := if s.ssel then .awaitNegation else .idle, lrxLow := s.lrxLow
      freeIndex := s.freeIndex, pending := s.pending }
  /-- the host port goes on, without a record taken or removed -/
  | port (s : State) (port : PortPhase) (cut ssel : Bool) (shiftIn shiftOut miso : List Bool)
      (room : hasRoom port = true → hasRoom s.port = true ∨ s.commands.length < 8)
      (law : PortLaw s → PortLaw { s with
        port := port, cut := cut, ssel := ssel, shiftIn := shiftIn, shiftOut := shiftOut, miso := miso }) :
      Move s { s with
        port := port, cut := cut, ssel := ssel, shiftIn := shiftIn, shiftOut := shiftOut, miso := miso }
  /-- a command record is taken -/
  | takeRecord (s : State) (r : CommandRecord) (room : hasRoom s.port = true) (ssel : s.port ≠ .idle)
      (params : r.params.length ≤ 15) : Move s { s with commands := s.commands ++ [r], port := .taken }
  /-- an answer record leaves -/
  | removeAnswer (s : State) : Move s (removeAnswer s)
  /-- a command record leaves -/
  | dequeue (s : State) : Move s (dequeue s)
  /-- a reply joins the answer queue -/
  | placeReply (s : State) (a : Answer) (room : s.answers.length ≤ 30) (plain : ∀ n, a ≠ .overrun n) :
      Move s (placeReply a s)
  /-- an event is placed -/
  | placeEvent (s : State) (e : Event) : Move s (placeEvent e s)
  /-- the notice set is emptied -/
  | emptyNotices (s : State) : Move s (emptyNotices s)
  /-- the outbox changes -/
  | outbox (s : State) (o : List Intent) : Move s { s with outbox := o }
  /-- a request ends -/
  | endRequest (s : State) (lock : LockNo) : Move s (setRequest lock none s)
  /-- a request changes -/
  | changeRequest (s : State) (lock : LockNo) (r : Request) (old : (s.requests[lock]).isSome = true) :
      Move s (setRequest lock (some r) s)
  /-- a request is added -/
  | addRequest (s : State) (lock : LockNo) (r : Request) (new : (s.requests[lock]).isSome = false)
      (room : requestCount s < 16) (state : s.station = .joining ∨ s.station = .synced) :
      Move s (setRequest lock (some r) s)
  /-- a barrier record ends -/
  | endBarrierRecord (s : State) (b : BarrierNo) : Move s (setBarrierRecord b none s)
  /-- a barrier record changes -/
  | changeBarrierRecord (s : State) (b : BarrierNo) (r : BarrierRecord) (old : (s.barrierRecords[b]).isSome = true) :
      Move s (setBarrierRecord b (some r) s)
  /-- a barrier record is added -/
  | addBarrierRecord (s : State) (b : BarrierNo) (r : BarrierRecord)
      (state : s.station = .joining ∨ s.station = .synced) : Move s (setBarrierRecord b (some r) s)
  /-- the line interface goes on: the sender, the receiver and the line -/
  | line (s : State) (tx : List Byte) (rx : List RxChar) (reception : Option Reception) (echo : Option EchoComparator)
      (ltxe ltx : Bool) (wait high low : Nat) (idle : s.ltx = true ∨ s.ltxe = true → ltxe = false → ltx = true)
      (drive : ltxe = true → s.ltxe = true ∨ s.echo ≠ none)
      (send : echo ≠ none → s.echo ≠ none ∨ participates s = true) :
      Move s { s with
        txBuffer := tx, rxBuffer := rx, reception := reception, echo := echo, ltxe := ltxe, ltx := ltx, lineWait := wait
        lineHigh := high, lrxLow := low }
  /-- the timing goes on in its slot -/
  | sameSlot (s : State) (t u : Timing) (timing : s.timing = some t) (slot : u.slot = t.slot)
      (status : u.confirmed = t.confirmed) : Move s { s with timing := some u }
  /-- the next slot begins -/
  | beginSlot (s : State) : Move s (beginSlot s)
  /-- tentative timing is set -/
  | tentative (s : State) (t : Timing) (state : s.station = .listening) (status : t.confirmed = false)
      (slot : t.slot.val < s.cfg.roundSize) : Move s { s with timing := some t }
  /-- counts and notes of the slot timer, the agreement unit, the catch-up unit and the station controller change -/
  | counts (s : State) (silence disagreement leavingCount orphanCount matchCount mismatchCount freeIndex : Nat)
      (gathered : ChunkSet) (joinHeard : StationSet) (leavingFromJoining foundingOpen : Bool) (work : List Work) :
      Move s { s with
        silence := silence, disagreement := disagreement, leavingCount := leavingCount, orphanCount := orphanCount
        matchCount := matchCount, mismatchCount := mismatchCount, freeIndex := freeIndex, gathered := gathered
        joinHeard := joinHeard, leavingFromJoining := leavingFromJoining, foundingOpen := foundingOpen, work := work }
  /-- an ACQUIRE item changes its entry -/
  | acquire (s : State) (r : StationNo) (lock : LockNo) (leased : Bool) (member : isUnmarked s r = true)
      (place : lockInPlace s lock = true) : Move s (setLock lock (acquireEntry r leased s.locks[lock]).1 s)
  /-- a lock passes -/
  | pass (s : State) (lock : LockNo) (holder : StationNo) (lease : Option (BitVec 3)) (waiters : List Waiter)
      (entry : s.locks[lock] = .held holder lease waiters) : Move s (setLock lock (passEntry waiters) s)
  /-- a waiter is withdrawn -/
  | withdraw (s : State) (r : StationNo) (lock : LockNo) (holder : StationNo) (lease : Option (BitVec 3))
      (waiters : List Waiter) (entry : s.locks[lock] = .held holder lease waiters) :
      Move s (setLock lock (.held holder lease (withdraw r waiters)) s)
  /-- a RENEW item changes its entry -/
  | renew (s : State) (r : StationNo) (lock : LockNo) : Move s (setLock lock (renewEntry r s.locks[lock]) s)
  /-- the lease tick lowers a level -/
  | lower (s : State) (lock : LockNo) (holder : StationNo) (level : BitVec 3) (waiters : List Waiter)
      (entry : s.locks[lock] = .held holder (some level) waiters) (above : 1 < level.toNat) :
      Move s (setLock lock (.held holder (some (level - 1)) waiters) s)
  /-- an ARRIVE item -/
  | arrive (s : State) (r : StationNo) (b : BarrierNo) (member : isUnmarked s r = true)
      (held : membershipHeld s = true) : Move s (applyArrive r b s)
  /-- the removal of a station, up to its MEMBER_LEFT -/
  | remove (s : State) (r : StationNo) (cause : LeaveCause) :
      Move s (placeEvent (.memberLeft r cause) (setMember r none (removeFromBarriers r (removeFromLocks r s))))
  /-- a station is added with the mark -/
  | addMember (s : State) (r : StationNo) (absent : s.members[r] = none) (held : membershipHeld s = true) :
      Move s (setMember r (some { joining := true, absence := 0 }) s)
  /-- a joining mark is cleared -/
  | clearMark (s : State) (r : StationNo) (m : Member) (member : s.members[r] = some m) (mark : m.joining = true)
      (held : membershipHeld s = true) : Move s (setMember r (some { m with joining := false }) s)
  /-- the absence accounting stores a count -/
  | account (s : State) (r : StationNo) (m : Member) (count : Nat) (member : s.members[r] = some m)
      (held : membershipHeld s = true) (limit : count = 0 ∨ count < s.cfg.absenceLimit) :
      Move s (setMember r (some { m with absence := count }) s)
  /-- a chunk is considered -/
  | installChunk (s : State) (f : Frame) : Move s (installChunk f s)
  /-- a transition to READY -/
  | enterReady (s : State) (cause : StateCause) (state : s.station ≠ .unconfigured) : Move s (enterReady cause s)
  /-- a transition to LISTENING -/
  | enterListening (s : State) (cause : StateCause) (state : s.station ≠ .unconfigured) :
      Move s (enterListening cause s)
  /-- timing confirmed: LISTENING to JOINING -/
  | enterJoining (s : State) (t u : Timing) (state : s.station = .listening) (timing : s.timing = some t)
      (slot : u.slot = t.slot) (status : u.confirmed = true) :
      Move s (enterJoining .timingAcquired { s with timing := some u })
  /-- LISTENING to FOUNDING -/
  | enterFounding (s : State) (state : s.station = .listening) : Move s (enterFounding s)
  /-- FOUNDING to SYNCED -/
  | completeFounding (s : State) (state : s.station = .founding) : Move s (completeFounding s)
  /-- JOINING to SYNCED with the replica kept -/
  | enterCaughtUp (s : State) (state : s.station = .joining) (wanted : s.wanted = 0) : Move s (enterCaughtUp s)
  /-- SYNCED to JOINING -/
  | enterDiverged (s : State) (state : s.station = .synced) : Move s (enterDiverged s)
  /-- FOUNDING, JOINING or SYNCED to LEAVING -/
  | enterLeaving (s : State) (state : s.station = .founding ∨ s.station = .joining ∨ s.station = .synced) :
      Move s (enterLeaving s)
  /-- an orphaned group is founded anew -/
  | enterOrphanFounded (s : State) (group : StationSet) (state : s.station = .joining) :
      Move s (enterOrphanFounded group s)
  /-- catch-up starts again -/
  | restartCatchUp (s : State) (state : s.station = .joining) : Move s (restartCatchUp s)
  /-- a configuration is accepted -/
  | enterConfigured (s : State) (c : StationConfig) (state : s.station = .unconfigured) (range : c.inRange) :
      Move s (enterConfigured c s)

/-- A chain of moves. -/
abbrev Moves : State → State → Prop := Relation.ReflTransGen Move

theorem Move.moves {s t : State} (h : Move s t) : Moves s t := .single h

/-- An invariant that every move keeps is kept by a chain of moves. -/
theorem Moves.keep {P : State → Prop} (kept : ∀ s t, Move s t → P s → P t) {s t : State} (h : Moves s t) (hs : P s) :
    P t := by
  induction h with
  | refl => exact hs
  | tail _ h ih => exact kept _ _ h ih

end Sys2Proof.Machine
end

