-- ==== Sys2Proof/Laws/Chains.lean ====
section
/-! SUPPORT. Every operation and every command as a chain of moves. -/

namespace Sys2Proof.Machine

/-! ## The records -/

/-- Only the outbox changes. -/
theorem outbox_moves (s : State) (o : List Intent) : Moves s { s with outbox := o } := (Move.outbox s o).moves

theorem placeEvent_moves (e : Event) (s : State) : Moves s (placeEvent e s) := (Move.placeEvent s e).moves

theorem dropLockIntents_moves (lock : LockNo) (s : State) : Moves s (dropLockIntents lock s) := outbox_moves s _

theorem queueIntent_moves (k : IntentKind) (s : State) : Moves s (queueIntent k s) := outbox_moves s _

theorem mapLockIntent_moves (lock : LockNo) (f : Intent → Intent) (s : State) : Moves s (mapLockIntent lock f s) :=
  outbox_moves s _

theorem endRequest_moves (lock : LockNo) (e : Event) (s : State) : Moves s (endRequest lock e s) :=
  ((placeEvent_moves e s).trans (Move.endRequest _ lock).moves).trans (dropLockIntents_moves lock _)

theorem endBarrierRecord_moves (b : BarrierNo) (e : Event) (s : State) : Moves s (endBarrierRecord b e s) :=
  ((placeEvent_moves e s).trans (Move.endBarrierRecord _ b).moves).trans (outbox_moves _ _)

theorem changeRequest_moves {s : State} {lock : LockNo} {old : Request} (h : s.requests[lock] = some old) (r : Request) :
    Moves s (setRequest lock (some r) s) :=
  (Move.changeRequest s lock r (by rw [h]; rfl)).moves

theorem reportAcquire_moves (lock : LockNo) (o : AcquireReport) (s : State) : Moves s (reportAcquire lock o s) := by
  unfold reportAcquire
  split
  · exact .refl
  · rename_i r h
    split <;> first
      | exact .refl
      | exact endRequest_moves _ _ s
      | exact (changeRequest_moves h _).trans (placeEvent_moves _ _)

theorem reportRelease_moves (lock : LockNo) (s : State) : Moves s (reportRelease lock s) := by
  unfold reportRelease
  split
  · exact .refl
  · split <;> first | exact .refl | exact endRequest_moves _ _ s

theorem reportPass_moves (lock : LockNo) (s : State) : Moves s (reportPass lock s) := by
  unfold reportPass
  split
  · exact .refl
  · rename_i r h
    split <;> first
      | exact .refl
      | exact (changeRequest_moves h _).trans (placeEvent_moves _ _)

theorem reportExpiry_moves (lock : LockNo) (s : State) : Moves s (reportExpiry lock s) := by
  unfold reportExpiry
  split
  · exact .refl
  · split <;> first | exact .refl | exact endRequest_moves _ _ s

theorem hostRelease_moves (lock : LockNo) (s : State) : Moves s (hostRelease lock s) := by
  unfold hostRelease
  split
  · exact .refl
  · rename_i r h
    have rel := changeRequest_moves h (r.withState .releasing)
    dsimp only
    split
    · split
      · exact rel.trans (mapLockIntent_moves _ _ _)
      · exact endRequest_moves _ _ s
    · exact rel.trans (queueIntent_moves _ _)
    · split
      · exact rel.trans (queueIntent_moves _ _)
      · split <;> exact rel.trans (mapLockIntent_moves _ _ _)
    · exact .refl
    · exact .refl

theorem hostRenew_moves (lock : LockNo) (s : State) : Moves s (hostRenew lock s) := by
  unfold hostRenew; split
  · exact .refl
  · exact queueIntent_moves _ _

theorem expireWait_moves (lock : LockNo) (s : State) : Moves s (expireWait lock s) := by
  unfold expireWait
  split
  · exact .refl
  · rename_i r h
    split <;> first
      | exact .refl
      | exact endRequest_moves _ _ s
      | exact (changeRequest_moves h _).trans (queueIntent_moves _ _)

theorem countWaits_moves (l : List LockNo) (s : State) : Moves s (countWaits l s).1 := by
  induction l generalizing s with
  | nil => exact .refl
  | cons L rest ih =>
    unfold countWaits
    split
    · exact ih s
    · rename_i r h
      split
      · split
        · exact ih s
        · split
          · exact .refl
          · exact (changeRequest_moves h _).trans (ih _)
      · exact ih s

theorem supplyItems_moves (s : State) : Moves s (supplyItems s).1 := by
  unfold supplyItems; split <;> first | exact .refl | exact outbox_moves _ _

/-! ## The lock table -/

/-- A step taken on a condition. -/
theorem Moves.onlyIf {s u : State} {p : Prop} [Decidable p] {f : State → State} (h : Moves s u)
    (k : ∀ u, Moves u (f u)) : Moves s (if p then f u else u) := by
  split
  · exact h.trans (k u)
  · exact h

theorem passLock_moves {lock : LockNo} {holder : StationNo} {lease : Option (BitVec 3)} {w : List Waiter} {s : State}
    (h : s.locks[lock] = .held holder lease w) : Moves s (passLock lock w s) :=
  (Move.pass s lock holder lease w h).moves.onlyIf (reportPass_moves lock)

theorem applyAcquire_moves {r : StationNo} {lock : LockNo} {leased : Bool} {s : State} (member : isUnmarked s r = true)
    (place : lockInPlace s lock = true) : Moves s (applyAcquire r lock leased s) :=
  (Move.acquire s r lock leased member place).moves.onlyIf (reportAcquire_moves lock _)

theorem applyRelease_moves (r : StationNo) (lock : LockNo) (s : State) : Moves s (applyRelease r lock s) := by
  have told : ∀ {u : State}, Moves s u → Moves s (if r = s.own then reportRelease lock u else u) :=
    fun h => h.onlyIf (reportRelease_moves lock)
  unfold applyRelease
  dsimp only
  split
  · exact told .refl
  · rename_i holder lease w h
    split
    · exact (told (Move.pass s lock holder lease w h).moves).onlyIf (reportPass_moves lock)
    · exact told (Move.withdraw s r lock holder lease w h).moves

theorem visitLeases_moves (l : List LockNo) (s : State) : Moves s (visitLeases l s).1 := by
  induction l generalizing s with
  | nil => exact .refl
  | cons L rest ih =>
    unfold visitLeases
    split
    · rename_i holder level w h
      split
      · split
        · exact .refl
        · rename_i above
          exact (Move.lower s L holder level w h (by omega)).moves.trans (ih _)
      · exact ih s
    · exact ih s
    · exact ih s

theorem expireLease_moves (lock : LockNo) (s : State) : Moves s (expireLease lock s) := by
  unfold expireLease
  split
  · exact .refl
  · rename_i holder lease w h
    exact ((Move.pass s lock holder lease w h).moves.onlyIf (reportExpiry_moves lock)).onlyIf (reportPass_moves lock)

/-! ## Membership -/

theorem enterListening_moves {s : State} (cause : StateCause) {state : StationState} (h : s.station = state)
    (k : state ≠ .unconfigured) : Moves s (enterListening cause s) :=
  (Move.enterListening s cause (by rw [h]; exact k)).moves

theorem enterReady_moves {s : State} (cause : StateCause) {state : StationState} (h : s.station = state)
    (k : state ≠ .unconfigured) : Moves s (enterReady cause s) :=
  (Move.enterReady s cause (by rw [h]; exact k)).moves

theorem ownRemoval_moves (cause : LeaveCause) (s : State) : Moves s (ownRemoval cause s) := by
  unfold ownRemoval
  split
  · exact enterListening_moves _ ‹_› (by decide)
  · exact enterListening_moves _ ‹_› (by decide)
  · exact enterListening_moves _ ‹_› (by decide)
  · exact enterReady_moves _ ‹_› (by decide)
  · exact enterReady_moves _ ‹_› (by decide)
  · exact Relation.ReflTransGen.refl

theorem ownRemoval_rejoin (s : State) : ownRemoval .rejoin s = s := by
  unfold ownRemoval
  split
  · cases ‹LeaveCause.rejoin = _›
  · cases ‹LeaveCause.rejoin = _›
  · cases ‹LeaveCause.rejoin = _›
  · cases ‹LeaveCause.rejoin = _›
  · cases ‹LeaveCause.rejoin = _›
  · rfl

/-- The removal of a station is the move of that name, and what the station controller does with it. -/
theorem removeStation_eq (r : StationNo) (cause : LeaveCause) (s : State) :
    ∃ u, Move s u ∧ OnlyReplica s u ∧ u.members[r] = none ∧
      removeStation r cause s = if r = u.own then ownRemoval cause u else u := by
  have locks := removeFromLocks_only r s
  have whole := Move.remove s r cause
  unfold removeStation
  dsimp only
  generalize removeFromLocks r s = a at locks whole ⊢
  have barriers := removeFromBarriers_only r a
  generalize removeFromBarriers r a = b at barriers whole ⊢
  have member := setMember_only r none b
  have gone : (setMember r none b).members[r] = none := by simp
  generalize setMember r none b = c at member whole gone ⊢
  have placed := placeEvent_only (.memberLeft r cause) c
  generalize placeEvent (.memberLeft r cause) c = d at placed whole ⊢
  exact ⟨d, whole, ((locks.trans barriers).trans member).trans placed.records.replica, by rw [placed.members]; exact gone, rfl⟩

theorem removeStation_moves (r : StationNo) (cause : LeaveCause) (s : State) : Moves s (removeStation r cause s) := by
  obtain ⟨u, move, -, -, eq⟩ := removeStation_eq r cause s
  rw [eq]
  exact move.moves.onlyIf (ownRemoval_moves cause)

/-- A rejoin's removal leaves the station out of the present set and changes neither the chunks nor the station state. -/
theorem removeStation_rejoin (r : StationNo) (s : State) :
    (removeStation r .rejoin s).members[r] = none ∧ OnlyReplica s (removeStation r .rejoin s) := by
  obtain ⟨u, -, only, absent, eq⟩ := removeStation_eq r .rejoin s
  rw [ownRemoval_rejoin, ite_self] at eq
  rw [eq]
  exact ⟨absent, only⟩

theorem addMember_moves {r : StationNo} {s : State} (absent : s.members[r] = none) (held : membershipHeld s = true) :
    Moves s (addMember r s) :=
  (Move.addMember s r absent held).moves.trans (placeEvent_moves _ _)

theorem handleJoin_moves (r : StationNo) (join : Bool) (s : State) : Moves s (handleJoin r join s) := by
  unfold handleJoin
  split
  · rename_i held
    split
    · rename_i absent; exact addMember_moves absent held
    · exact .refl
    · split
      · exact .refl
      · refine (removeStation_moves r .rejoin s).trans (addMember_moves (removeStation_rejoin r s).1 ?_)
        have := (removeStation_rejoin r s).2
        unfold membershipHeld chunkInstalled at *
        rw [this]; exact held
    · rename_i m member
      split
      · rename_i mark
        exact (Move.clearMark s r m member mark held).moves.trans (placeEvent_moves _ _)
      · exact .refl
  · exact .refl

theorem applyLeave_moves (r : StationNo) (s : State) : Moves s (applyLeave r s) := by
  unfold applyLeave
  split
  · exact removeStation_moves r .leave s
  · split
    · rename_i h; exact (Move.enterReady s _ (by rw [h.2.1]; decide)).moves
    · exact .refl

theorem accountSlot_moves (s : State) : Moves s (accountSlot s).1 := by
  unfold accountSlot
  split
  · exact .refl
  · split
    · rename_i acts
      have held : membershipHeld s = true := by
        unfold accountsAbsence at acts
        split at acts <;> first | exact acts | cases acts
      split
      · exact .refl
      · rename_i m member
        split
        · exact (Move.account s _ m 0 member held (.inl rfl)).moves
        · split
          · exact .refl
          · rename_i below
            exact (Move.account s _ m _ member held (.inr (by omega))).moves
    · exact .refl

/-! ## The processing of a frame -/

/-- Counts and notes change. -/
theorem counts_moves (s : State) (silence disagreement leavingCount orphanCount matchCount mismatchCount freeIndex : Nat)
    (gathered : ChunkSet) (joinHeard : StationSet) (leavingFromJoining foundingOpen : Bool) (work : List Work) :
    Moves s { s with
      silence := silence, disagreement := disagreement, leavingCount := leavingCount, orphanCount := orphanCount
      matchCount := matchCount, mismatchCount := mismatchCount, freeIndex := freeIndex, gathered := gathered
      joinHeard := joinHeard, leavingFromJoining := leavingFromJoining, foundingOpen := foundingOpen, work := work } :=
  (Move.counts ..).moves

theorem compareDigest_moves (f : Frame) (s : State) : Moves s (compareDigest f s) := by
  unfold compareDigest
  split
  · exact .refl
  · split
    · split
      · exact counts_moves ..
      · exact (counts_moves ..).trans (placeEvent_moves _ _)
    · exact .refl

theorem gatherWanted_moves (f : Frame) (s : State) : Moves s (gatherWanted f s) := by
  unfold gatherWanted
  split
  · exact .refl
  · split
    · exact counts_moves ..
    · exact .refl

theorem completeCatchUp_moves (s : State) : Moves s (completeCatchUp s) := by
  unfold completeCatchUp
  split
  · rename_i h; exact (Move.enterCaughtUp s h.1 h.2.1).moves
  · exact .refl

theorem applyItem_moves (r : StationNo) (s : State) (item : Item) : Moves s (applyItem r s item) := by
  unfold applyItem
  split
  · exact applyLeave_moves r s
  · split
    · rename_i h; rw [Bool.and_eq_true] at h; exact applyAcquire_moves h.1 h.2
    · exact .refl
  · split
    · exact applyRelease_moves r _ s
    · exact .refl
  · split
    · exact (Move.renew s r _).moves
    · exact .refl
  · split
    · rename_i h; rw [Bool.and_eq_true] at h; exact (Move.arrive s r _ h.1 h.2).moves
    · exact .refl

theorem applyItems_moves (r : StationNo) (items : List Item) (s : State) : Moves s (applyItems r items s) := by
  unfold applyItems
  induction items generalizing s with
  | nil => exact .refl
  | cons i rest ih => exact (applyItem_moves r s i).trans (ih _)

theorem processFrame_moves (f : Frame) (s : State) : Moves s (processFrame f s) :=
  ((((compareDigest_moves f s).trans (handleJoin_moves _ _ _)).trans (gatherWanted_moves f _)).trans
    (((Move.installChunk _ f).moves).trans (completeCatchUp_moves _))).trans (applyItems_moves _ _ _)

theorem processOwnFrame_moves (f : Frame) (s : State) : Moves s (processOwnFrame f s) :=
  ((handleJoin_moves _ _ s).trans (completeCatchUp_moves _)).trans (applyItems_moves _ _ _)

end Sys2Proof.Machine
end

