-- ==== Sys2Proof/Laws/CommandChains.lean ====
section
/-! SUPPORT. The slot timer, the own slot start, the host port and the command processor as chains of moves; then every
command. -/

namespace Sys2Proof.Machine

/-! ## Stations and transitions -/

theorem placeEvent_station (e : Event) (s : State) : (placeEvent e s).station = s.station := (placeEvent_only e s).station

theorem changeState_station (state : StationState) (cause : StateCause) (s : State) :
    (changeState state cause s).station = state := placeEvent_station _ _

theorem enterListening_station (cause : StateCause) (s : State) : (enterListening cause s).station = .listening :=
  changeState_station _ _ _

theorem enterReady_station (cause : StateCause) (s : State) : (enterReady cause s).station = .ready :=
  changeState_station _ _ _

theorem enterDiverged_station (s : State) : (enterDiverged s).station = .joining := changeState_station _ _ _

theorem completeFounding_station (s : State) : (completeFounding s).station = .synced := changeState_station _ _ _

/-! ## The slot timer -/

theorem setTentative_moves {f : Frame} {age : Nat} {s : State} (h : s.station = .listening) :
    Moves s (setTentative f age s) := by
  unfold setTentative
  split
  · exact (Move.tentative s (tentativeTiming f age) h rfl ‹_›).moves
  · exact Relation.ReflTransGen.refl

theorem hearFrame_moves {f : Frame} {placed : Bool} {age : Nat} {s : State} (h : s.station = .listening) :
    Moves s (hearFrame f placed age s) := by
  have quiet : Moves s { s with silence := 0 } := counts_moves ..
  unfold hearFrame
  dsimp only
  split
  · exact quiet.trans (enterReady_moves .numberInUse (state := .listening) h (by decide))
  · split
    · exact quiet.trans (setTentative_moves h)
    · rename_i t timing
      split
      · exact quiet.trans (Move.enterJoining { s with silence := 0 } t { t.realigned f age with confirmed := true } h timing rfl
          rfl).moves
      · exact quiet.trans (setTentative_moves h)

theorem abandonFounding_moves {heard : Option (Frame × Nat)} {s : State} (h : s.station = .founding) :
    Moves s (abandonFounding heard s) := by
  have enter := enterListening_moves .foundingAbandoned h (by decide)
  unfold abandonFounding
  dsimp only
  split
  · exact enter
  · exact enter.trans (hearFrame_moves (enterListening_station _ _))

theorem takeFrame_moves (rx : Reception) (f : Frame) (s : State) : Moves s (takeFrame rx f s) := by
  unfold takeFrame
  split
  · refine Relation.ReflTransGen.trans ?_ (processFrame_moves f _)
    have counts : Moves s { s with disagreement := 0 } := counts_moves ..
    cases timing : s.timing with
    | none => rw [Option.map_none]; rw [← timing]; exact counts
    | some t =>
      exact counts.trans (Move.sameSlot { s with disagreement := 0 } t (t.realigned f rx.age) timing rfl rfl).moves
  · split <;> exact counts_moves ..

theorem judged_moves (rx : Reception) (frame : Option Frame) (s : State) : Moves s (judged rx frame s) := by
  unfold judged
  split
  · exact Relation.ReflTransGen.refl
  · split
    · exact hearFrame_moves ‹_›
    · exact abandonFounding_moves ‹_›
    · exact takeFrame_moves _ _ s
    · exact takeFrame_moves _ _ s
    · exact takeFrame_moves _ _ s
    · exact Relation.ReflTransGen.refl
    · exact Relation.ReflTransGen.refl

theorem loseSync_moves (f : Frame) (age : Nat) (s : State) : Moves s (loseSync f age s) := by
  unfold loseSync
  split
  · exact (enterListening_moves _ ‹_› (by decide)).trans (hearFrame_moves (enterListening_station _ _))
  · exact (enterListening_moves _ ‹_› (by decide)).trans (hearFrame_moves (enterListening_station _ _))
  · exact enterReady_moves _ ‹_› (by decide)
  · exact Relation.ReflTransGen.refl
  · exact Relation.ReflTransGen.refl
  · exact Relation.ReflTransGen.refl
  · exact Relation.ReflTransGen.refl

/-! ## The slot end -/

theorem updateOrphan_moves (s : State) : Moves s (updateOrphan s).1 := by
  unfold updateOrphan
  split
  · exact Relation.ReflTransGen.refl
  · split
    · exact counts_moves ..
    · exact Relation.ReflTransGen.refl

theorem updateLeaving_moves (s : State) : Moves s (updateLeaving s).1 := by
  unfold updateLeaving
  split
  · exact Relation.ReflTransGen.refl
  · split
    · exact counts_moves ..
    · exact Relation.ReflTransGen.refl

theorem orphanAct_moves {s : State} (h : s.station = .joining) : Moves s (orphanAct s) := by
  unfold orphanAct
  dsimp only
  split
  · exact (Move.enterOrphanFounded s _ h).moves
  · exact (Move.restartCatchUp s h).moves

theorem work_moves (s : State) (work : List Work) : Moves s { s with work := work } := counts_moves ..

theorem doWork_moves (l : List Work) (s : State) : Moves s (doWork l s) := by
  induction l generalizing s with
  | nil => exact work_moves s []
  | cons w rest ih =>
    unfold doWork
    split
    · have h := accountSlot_moves s
      split
      · rename_i u eq; rw [eq] at h; exact h.trans (ih u)
      · rename_i u r eq; rw [eq] at h; exact h.trans (work_moves u _)
    · have h := updateOrphan_moves s
      split
      · rename_i u eq; rw [eq] at h; exact h.trans (ih u)
      · rename_i u eq; rw [eq] at h; exact h.trans (work_moves u _)
    · have h := updateLeaving_moves s
      split
      · rename_i u eq; rw [eq] at h; exact h.trans (ih u)
      · rename_i u eq; rw [eq] at h; exact h.trans (work_moves u _)
    · rename_i start
      have h := visitLeases_moves (locksFrom start) s
      split
      · rename_i u eq; rw [eq] at h; exact h.trans (ih u)
      · rename_i u L eq; rw [eq] at h; exact h.trans (work_moves u _)
    · rename_i start
      split
      · have h := countWaits_moves (locksFrom start) s
        split
        · rename_i u eq; rw [eq] at h; exact h.trans (ih u)
        · rename_i u L eq; rw [eq] at h; exact h.trans (work_moves u _)
      · exact ih s
    · exact ((Move.beginSlot s).moves).trans (ih _)
    · exact work_moves s _
    · exact work_moves s _
    · exact work_moves s _
    · exact work_moves s _
    · exact work_moves s _
    · exact work_moves s _

theorem resumeWork_moves (s : State) : Moves s (resumeWork s) := doWork_moves s.work s

theorem endSlot_moves (t : Timing) (s : State) : Moves s (endSlot t s) := by
  unfold endSlot
  have h : Moves s { s with freeIndex := s.freeIndex + 1 } := counts_moves ..
  exact h.trans (doWork_moves _ _)

theorem doAbsenceRemoval_moves (s : State) : Moves s (doAbsenceRemoval s) := by
  unfold doAbsenceRemoval
  split
  · exact ((work_moves s _).trans (removeStation_moves _ _ _)).trans (resumeWork_moves _)
  · exact Relation.ReflTransGen.refl

theorem doOrphanAction_moves (s : State) : Moves s (doOrphanAction s) := by
  unfold doOrphanAction
  split
  · split
    · rename_i state
      refine ((work_moves s _).trans (orphanAct_moves ?_)).trans (resumeWork_moves _)
      exact state
    · exact (work_moves s _).trans (resumeWork_moves _)
  · exact Relation.ReflTransGen.refl

theorem doLeavingExpiry_moves (s : State) : Moves s (doLeavingExpiry s) := by
  unfold doLeavingExpiry
  split
  · split
    · rename_i state
      refine ((work_moves s _).trans (enterReady_moves .left (state := .leaving) ?_ (by decide))).trans
        (resumeWork_moves _)
      exact state
    · exact (work_moves s _).trans (resumeWork_moves _)
  · exact Relation.ReflTransGen.refl

theorem doLeaseExpiry_moves (s : State) : Moves s (doLeaseExpiry s) := by
  unfold doLeaseExpiry
  split
  · exact ((work_moves s _).trans (expireLease_moves _ _)).trans (resumeWork_moves _)
  · exact Relation.ReflTransGen.refl

theorem doWaitExpiry_moves (s : State) : Moves s (doWaitExpiry s) := by
  unfold doWaitExpiry
  split
  · exact ((work_moves s _).trans (expireWait_moves _ _)).trans (resumeWork_moves _)
  · exact Relation.ReflTransGen.refl

theorem doSyncLost_moves (s : State) : Moves s (doSyncLost s) := by
  unfold doSyncLost
  split
  · exact ((work_moves s _).trans (loseSync_moves _ _ _)).trans (resumeWork_moves _)
  · exact Relation.ReflTransGen.refl

theorem doHead_moves (s : State) : Moves s (doHead s) := by
  unfold doHead
  split
  · exact doAbsenceRemoval_moves s
  · exact doOrphanAction_moves s
  · exact doLeavingExpiry_moves s
  · exact doLeaseExpiry_moves s
  · exact doWaitExpiry_moves s
  · exact doSyncLost_moves s
  · exact resumeWork_moves s
  · exact resumeWork_moves s
  · exact resumeWork_moves s
  · exact resumeWork_moves s
  · exact resumeWork_moves s
  · exact resumeWork_moves s
  · exact resumeWork_moves s

theorem finishSteps_moves (n : Nat) (s : State) : Moves s (finishSteps n s) := by
  induction n generalizing s with
  | zero => exact Relation.ReflTransGen.refl
  | succ n ih =>
    unfold finishSteps
    split
    · exact Relation.ReflTransGen.refl
    · exact (doHead_moves s).trans (ih _)

theorem finishWork_moves (s : State) : Moves s (finishWork s) := finishSteps_moves workBound s

/-! ## The own slot start -/

/-- What the founding step and the verdict leave alone, and that the station goes on transmitting. -/
theorem foundingStep_spec {s : State} (h : participates s = true) :
    Moves s (foundingStep s) ∧ participates (foundingStep s) = true ∧ (foundingStep s).timing = s.timing := by
  unfold foundingStep
  split
  · rename_i founding
    split
    · exact ⟨counts_moves .., h, rfl⟩
    · refine ⟨(Move.completeFounding s founding).moves, ?_, ?_⟩
      · unfold participates; rw [completeFounding_station]
      · exact (placeEvent_only _ _).timing
  · exact ⟨Relation.ReflTransGen.refl, h, rfl⟩

theorem giveVerdict_spec {s : State} (h : participates s = true) :
    Moves s (giveVerdict s) ∧ participates (giveVerdict s) = true ∧ (giveVerdict s).timing = s.timing := by
  have tally : Moves s (resetTally s) := counts_moves ..
  unfold giveVerdict
  dsimp only
  split
  · rename_i diverged
    refine ⟨tally.trans (Move.enterDiverged _ diverged.2).moves, ?_, ?_⟩
    · unfold participates; rw [enterDiverged_station]
    · unfold enterDiverged changeState
      rw [(placeEvent_only _ _).timing]
      have lost := (loseRecords_only (resetTally s)).timing
      generalize loseRecords (resetTally s) = u at lost ⊢
      exact lost
  · exact ⟨tally, h, rfl⟩

theorem startTransmission_moves {f : Frame} {t : Timing} {s : State} (h : participates s = true)
    (timing : s.timing = some t) : Moves s (startTransmission f t s) := by
  have slot := Move.sameSlot s t t.ownStarted timing rfl rfl
  have move := Move.line { s with timing := some t.ownStarted } (frameBytes f) s.rxBuffer
    (s.reception.map fun rx => rx.inOwnSlot t) (some { frame := f, early := t.startBit, samples := [], after := false }) s.ltxe
    s.ltx s.lineWait s.lineHigh s.lrxLow
  refine slot.moves.trans (move ?_ ?_ ?_).moves
  · rintro (a | a) b
    · exact a
    · rw [b] at a; cases a
  · exact fun a => .inl a
  · exact fun _ => .inr h

theorem emptyGathered_moves (s : State) : Moves s (emptyGathered s) := by
  unfold emptyGathered
  split
  · exact counts_moves ..
  · exact Relation.ReflTransGen.refl

theorem emptyGathered_keeps (s : State) :
    (emptyGathered s).station = s.station ∧ (emptyGathered s).timing = s.timing := by
  unfold emptyGathered; split <;> exact ⟨rfl, rfl⟩

theorem beginOwnSlot_moves {t : Timing} {s : State} (h : participates s = true) (timing : s.timing = some t) :
    Moves s (beginOwnSlot t s) := by
  obtain ⟨m1, p1, t1⟩ := foundingStep_spec h
  obtain ⟨m2, p2, t2⟩ := giveVerdict_spec p1
  unfold beginOwnSlot
  dsimp only
  generalize giveVerdict (foundingStep s) = a at m2 p2 t2 ⊢
  have m3 := supplyItems_moves a
  have o3 := supplyItems_only a
  generalize supplyItems a = supplied at m3 o3 ⊢
  obtain ⟨b, items⟩ := supplied
  dsimp only at m3 o3 ⊢
  obtain ⟨station, time⟩ := emptyGathered_keeps b
  refine (((m1.trans m2).trans m3).trans (emptyGathered_moves b)).trans (startTransmission_moves ?_ ?_)
  · unfold participates at p2 ⊢
    rw [station, o3.station]; exact p2
  · rw [time, o3.timing, t2, t1, timing]

/-! ## The line's commands -/

theorem execOwnSlotStart_moves (s t : State) (h : execOwnSlotStart s = .next t) : Moves s t := by
  unfold execOwnSlotStart at h
  split at h
  · rename_i due
    split at h
    · rename_i time timing
      cases h
      refine beginOwnSlot_moves ?_ timing
      unfold ownSlotStartDue at due
      simp only [Bool.and_eq_true] at due
      exact due.1.2
    · cases h; exact Relation.ReflTransGen.refl
  · cases h; exact Relation.ReflTransGen.refl

theorem execLtxeAsserted_moves (s t : State) (h : execLtxeAsserted s = .next t) : Moves s t := by
  unfold execLtxeAsserted at h
  split at h
  · rename_i due
    cases h
    refine (Move.line s s.txBuffer s.rxBuffer s.reception s.echo true true s.lineWait s.lineHigh s.lrxLow ?_ ?_ ?_).moves
    · intro _ a; cases a
    · intro _; right; intro none
      unfold ltxeDue at due; rw [none] at due; cases due
    · exact fun a => .inl a
  · cases h; exact Relation.ReflTransGen.refl

theorem execTransmissionEnd_moves (s t : State) (h : execTransmissionEnd s = .next t) : Moves s t := by
  unfold execTransmissionEnd at h
  split at h
  · cases h
    refine (Move.line s [] s.rxBuffer s.reception s.echo false true s.lineWait s.lineHigh s.lrxLow ?_ ?_ ?_).moves
    · exact fun _ _ => rfl
    · intro a; cases a
    · exact fun a => .inl a
  · cases h; exact Relation.ReflTransGen.refl

/-- The receiver and the line go on, and the sender does not change. -/
theorem receive_moves (s : State) (rx : List RxChar) (reception : Option Reception) (wait high low : Nat) :
    Moves s { s with rxBuffer := rx, reception := reception, lineWait := wait, lineHigh := high, lrxLow := low } := by
  refine (Move.line s s.txBuffer rx reception s.echo s.ltxe s.ltx wait high low ?_ ?_ ?_).moves
  · rintro (a | a) b
    · exact a
    · rw [b] at a; cases a
  · exact fun a => .inl a
  · exact fun a => .inl a

/-- The echo comparator changes while it watches, or is cleared. -/
theorem echo_moves (s : State) (echo : Option EchoComparator) (h : echo ≠ none → s.echo ≠ none) :
    Moves s { s with echo := echo } := by
  refine (Move.line s s.txBuffer s.rxBuffer s.reception echo s.ltxe s.ltx s.lineWait s.lineHigh s.lrxLow ?_ ?_ ?_).moves
  · rintro (a | a) b
    · exact a
    · rw [b] at a; cases a
  · exact fun a => .inl a
  · exact fun a => .inl (h a)

theorem echoWellFormed_moves {e : EchoComparator} {t : Timing} {s : State} (timing : s.timing = some t) :
    Moves s (echoWellFormed e t s) := by
  have m1 := echo_moves s none (fun a => absurd rfl a)
  have m2 := (Move.sameSlot { s with echo := none } t { t with usable := some (usableOf true e.frame) } timing rfl
    rfl).moves
  exact ((m1.trans m2).trans (outbox_moves _ _)).trans (processOwnFrame_moves _ _)

theorem echoCorrupted_moves {t : Timing} {s : State} (timing : s.timing = some t) :
    Moves s (echoCorrupted t s) := by
  have m1 := echo_moves s none (fun a => absurd rfl a)
  have m2 := (Move.sameSlot { s with echo := none } t { t with echoCorrupt := true } timing rfl rfl).moves
  have m3 := (m1.trans m2).trans (outbox_moves _ (requeueOutbox { s with
    echo := none, timing := some { t with echoCorrupt := true } }).outbox)
  unfold echoCorrupted
  dsimp only
  split
  · rename_i founding
    exact m3.trans (abandonFounding_moves founding)
  · exact m3

theorem execEchoJudged_moves (early : Bool) (samples : List Bool) (after : Bool) (s t : State)
    (h : execEchoJudged early samples after s = .next t) : Moves s t := by
  unfold execEchoJudged at h
  split at h
  · split at h
    · rename_i e time echo timing
      have m : ∀ after, Moves s (endEchoReception time after s) := fun _ =>
        receive_moves s _ _ s.lineWait s.lineHigh s.lrxLow
      dsimp only at h
      split at h
      · cases h; exact (m _).trans (echoWellFormed_moves timing)
      · cases h; exact (m _).trans (echoCorrupted_moves timing)
    · cases h; exact Relation.ReflTransGen.refl
  · cases h; exact Relation.ReflTransGen.refl

/-- The echo comparator goes on watching. -/
theorem watchEcho_moves (f : EchoComparator → Timing → EchoComparator) (s : State) : Moves s (watchEcho f s) := by
  refine echo_moves s _ (fun a b => ?_)
  rw [b] at a; exact a rfl

/-- The timing and the echo comparator note a start bit. -/
theorem noteStartBit_moves (s : State) : Moves s (noteStartBit s) := by
  refine Relation.ReflTransGen.trans ?_ (watchEcho_moves _ _)
  cases timing : s.timing with
  | none => rw [Option.map_none, ← timing]
  | some t => exact (Move.sameSlot s t { t with startBit := true } timing rfl rfl).moves

theorem acceptStartBit_moves (s : State) : Moves s (acceptStartBit s) := by
  unfold acceptStartBit
  split
  · split
    · exact Relation.ReflTransGen.refl
    · exact (receive_moves s s.rxBuffer (some _) s.lineWait s.lineHigh s.lrxLow).trans (noteStartBit_moves _)
  · rename_i t reception timing
    have m1 := (Move.sameSlot s t { t with
      begun := true, windowHeard := t.windowHeard || decide (t.phase ≤ silenceWindow) } timing rfl rfl).moves
    exact m1.trans ((receive_moves _ s.rxBuffer (some _) s.lineWait s.lineHigh s.lrxLow).trans (noteStartBit_moves _))
  · exact receive_moves s s.rxBuffer (some _) s.lineWait s.lineHigh s.lrxLow

theorem lineFalls_moves (low : Nat) (s : State) : Moves s (lineFalls low s) := by
  have rested : Moves s (if lineRested s then { s with lineWait := 0 } else s) := by
    split
    · exact receive_moves s s.rxBuffer s.reception 0 s.lineHigh s.lrxLow
    · exact Relation.ReflTransGen.refl
  have fallen : ∀ u : State, Moves u { u with lrxLow := low, lineHigh := 0 } := fun u =>
    receive_moves u u.rxBuffer u.reception u.lineWait 0 low
  unfold lineFalls
  dsimp only
  split
  · exact (rested.trans (acceptStartBit_moves _)).trans (fallen _)
  · exact rested.trans (fallen _)

theorem execReceptionBegins_moves (low : Nat) (s t : State) (h : execReceptionBegins low s = .next t) : Moves s t := by
  cases h
  exact (finishWork_moves s).trans (lineFalls_moves low _)

theorem endReception_moves (s : State) : Moves s (endReception s) :=
  receive_moves s [] none s.lineWait s.lineHigh s.lrxLow

theorem restLine_moves (s : State) : Moves s (restLine s) := receive_moves s s.rxBuffer s.reception 0 idleBits 0

theorem awaitRest_moves (s : State) : Moves s (awaitRest s) :=
  receive_moves s s.rxBuffer s.reception idleBits 0 s.lrxLow

theorem finishReception_moves (rx : Reception) (chars : List RxChar) (s : State) :
    Moves s (finishReception rx chars s) := by
  have m := (endReception_moves s).trans (restLine_moves _)
  unfold finishReception
  dsimp only
  split
  · exact m.trans (judged_moves _ _ _)
  · exact m

theorem execReceptionEnded_moves (chars : List RxChar) (s t : State) (h : execReceptionEnded chars s = .next t) :
    Moves s t := by
  unfold execReceptionEnded at h
  have m := finishWork_moves s
  dsimp only at h
  generalize finishWork s = u at m h
  split at h
  · cases h; exact m.trans (finishReception_moves _ _ _)
  · cases h; exact m

theorem execReceptionTimeLimit_moves (s t : State) (h : execReceptionTimeLimit s = .next t) : Moves s t := by
  unfold execReceptionTimeLimit at h
  split at h
  · split at h
    · have m := (endReception_moves s).trans (awaitRest_moves _)
      dsimp only at h
      split at h
      · cases h; exact m.trans (judged_moves _ _ _)
      · cases h; exact m
    · cases h; exact Relation.ReflTransGen.refl
  · cases h; exact Relation.ReflTransGen.refl

/-! ## The slot timer's commands -/

theorem execSilenceWindowEnd_moves (s t : State) (h : execSilenceWindowEnd s = .next t) : Moves s t := by
  unfold execSilenceWindowEnd at h
  split at h
  · cases h
    cases timing : s.timing with
    | none => rw [Option.map_none, ← timing]
    | some u => exact (Move.sameSlot s u { u with silent := true } timing rfl rfl).moves
  · cases h; exact Relation.ReflTransGen.refl

theorem execSlotEnd_moves (s t : State) (h : execSlotEnd s = .next t) : Moves s t := by
  unfold execSlotEnd at h
  split at h
  · split at h
    · rename_i u timing
      split at h
      · cases h; exact (Move.sameSlot s u { u with held := true } timing rfl rfl).moves
      · cases h; exact endSlot_moves u s
    · cases h; exact Relation.ReflTransGen.refl
  · cases h; exact Relation.ReflTransGen.refl

theorem execHeldSlotEnd_moves (s t : State) (h : execHeldSlotEnd s = .next t) : Moves s t := by
  unfold execHeldSlotEnd at h
  split at h
  · split at h
    · cases h; exact endSlot_moves _ s
    · cases h; exact Relation.ReflTransGen.refl
  · cases h; exact Relation.ReflTransGen.refl

theorem execFounded_moves (s t : State) (h : execFounded s = .next t) : Moves s t := by
  unfold execFounded at h
  split at h
  · rename_i due
    cases h
    unfold foundedDue at due
    simp only [Bool.and_eq_true, beq_iff_eq] at due
    exact (Move.enterFounding s due.1.2).moves
  · cases h; exact Relation.ReflTransGen.refl

theorem receiveBit_moves (level : Bool) (s : State) : Moves s (receiveBit level s) := by
  unfold receiveBit
  split
  · exact receive_moves s s.rxBuffer s.reception s.lineWait _ s.lrxLow
  · dsimp only
    split
    · exact receive_moves s s.rxBuffer (some _) s.lineWait _ s.lrxLow
    · split
      · exact receive_moves s s.rxBuffer (some _) s.lineWait s.lineHigh s.lrxLow
      · exact receive_moves s _ (some _) _ 0 s.lrxLow

theorem sendBit_moves (phase : Nat) (s : State) : Moves s (sendBit phase s) := by
  refine (Move.line s _ s.rxBuffer s.reception s.echo s.ltxe _ s.lineWait s.lineHigh s.lrxLow ?_ ?_ ?_).moves
  · intro _ a; rw [a]; rfl
  · exact fun a => .inl a
  · exact fun a => .inl a

/-- The receiver's bit time leaves the timing and the station state alone. -/
theorem receiveBit_keeps (level : Bool) (s : State) :
    (receiveBit level s).timing = s.timing ∧ (receiveBit level s).station = s.station
      ∧ (receiveBit level s).silence = s.silence ∧ (receiveBit level s).lrxLow = s.lrxLow := by
  unfold receiveBit countHigh keepCharacter
  split
  · exact ⟨rfl, rfl, rfl, rfl⟩
  · dsimp only; split
    · exact ⟨rfl, rfl, rfl, rfl⟩
    · split <;> exact ⟨rfl, rfl, rfl, rfl⟩

/-- A bit time passes. -/
theorem passBitTime_moves (s : State) : Moves s (passBitTime s) := by
  have received := (watchEcho_moves (.sample (s.lrxLow == 0)) s).trans (receiveBit_moves (s.lrxLow == 0) _)
  have timing : _ = s.timing := (receiveBit_keeps (s.lrxLow == 0) (watchEcho (.sample (s.lrxLow == 0)) s)).1
  unfold passBitTime
  dsimp only
  generalize receiveBit (s.lrxLow == 0) (watchEcho (.sample (s.lrxLow == 0)) s) = u at received timing ⊢
  have counted (silence : Nat) : Moves u { u with silence := silence } := counts_moves ..
  have line (v : State) : Moves v { v with lrxLow := s.lrxLow - 1 } :=
    receive_moves v v.rxBuffer v.reception v.lineWait v.lineHigh _
  refine Relation.ReflTransGen.trans ?_ (sendBit_moves _ _)
  generalize (if s.station = .listening then s.silence + 1 else s.silence) = silence
  cases time : s.timing with
  | none =>
    rw [time] at timing
    rw [Option.map_none, ← timing]
    exact (received.trans (counted silence)).trans (line { u with silence := silence })
  | some t =>
    rw [time] at timing
    exact ((received.trans (counted silence)).trans
      (Move.sameSlot { u with silence := silence } t { t with phase := t.phase + 1 } timing rfl rfl).moves).trans
        (line { u with silence := silence, timing := some { t with phase := t.phase + 1 } })

end Sys2Proof.Machine
end

