-- ==== Sys2Proof/Laws/Commands.lean ====
section
/-! SUPPORT. The host port and the command processor as chains of moves; then every command and every step. -/

namespace Sys2Proof.Machine

/-! ## The host port -/

/-- The phase of a transaction in progress changes, between phases other than idle. -/
theorem phase_moves {s : State} (busy : s.port ≠ .idle) (port : PortPhase) (cut : Bool)
    (room : hasRoom port = true → hasRoom s.port = true ∨ s.commands.length < 8) (next : port ≠ .idle) :
    Moves s { s with port := port, cut := cut } :=
  (Move.port s port cut s.ssel s.shiftIn s.shiftOut s.miso room (fun law =>
    ⟨⟨fun h => absurd h next, fun h => absurd (law.1.2 h) busy⟩, law.2⟩)).moves

/-- Bits are shifted, and the byte coming in stays short of its eighth bit. -/
theorem shift_moves (s : State) (shiftIn shiftOut miso : List Bool) (short : s.shiftIn.length < 8 → shiftIn.length < 8) :
    Moves s { s with shiftIn := shiftIn, shiftOut := shiftOut, miso := miso } :=
  (Move.port s s.port s.cut s.ssel shiftIn shiftOut miso .inl (fun law => ⟨law.1, short law.2⟩)).moves

theorem completeCode_moves (code : Byte) (s : State) : Moves s (completeCode code s) := by
  unfold completeCode
  split
  · rename_i room phase
    have busy : s.port ≠ .idle := by rw [phase]; exact PortPhase.noConfusion
    split
    · refine phase_moves busy _ s.cut ?_ ?_
      · intro h; left; rw [phase]; cases room
        · cases h
        · rfl
      · cases room <;> exact PortPhase.noConfusion
    · split
      · refine phase_moves busy _ s.cut ?_ ?_
        · unfold answerPhase; split <;> intro h <;> cases h
        · unfold answerPhase; split <;> exact PortPhase.noConfusion
      · split
        · exact phase_moves busy .peeking false (fun h => by cases h) PortPhase.noConfusion
        · exact phase_moves busy .ignored s.cut (fun h => by cases h) PortPhase.noConfusion
  · exact Relation.ReflTransGen.refl

theorem beginTransaction_moves (s : State) : Moves s (beginTransaction s) := by
  refine (Move.port s (.code (!commandQueueFull s)) s.cut true [] (msbBits (portStatus s)) [] ?_ ?_).moves
  · intro h; right
    unfold hasRoom commandQueueFull at h
    simp only [Bool.not_eq_true', decide_eq_false_iff_not] at h
    omega
  · intro _
    refine ⟨?_, Nat.zero_lt_succ 7⟩
    constructor <;> intro h <;> cases h

theorem collectByte_moves (s : State) (b : Byte) : Moves s (collectByte s b) := by
  unfold collectByte
  split
  · rename_i bytes phase
    have busy : s.port ≠ .idle := by rw [phase]; exact PortPhase.noConfusion
    have room : hasRoom s.port = true := by rw [phase]; rfl
    have collect : Moves s { s with port := .collecting (bytes ++ [b]) } :=
      phase_moves busy _ s.cut (fun _ => .inl room) PortPhase.noConfusion
    dsimp only
    split
    · exact collect
    · rename_i count third
      split
      · exact phase_moves busy .badCount s.cut (fun h => by cases h) PortPhase.noConfusion
      · rename_i few
        split
        · rename_i whole
          unfold takeRecord
          split
          · rename_i kind tag c params eq
            refine (Move.takeRecord s ⟨kind, tag, params⟩ room busy ?_).moves
            rw [eq] at whole
            unfold maxParams at few
            simp only [List.length_cons] at whole
            dsimp only
            omega
          · exact Relation.ReflTransGen.refl
        · exact collect
  · exact Relation.ReflTransGen.refl

theorem byteSent_moves (s : State) : Moves s (byteSent s) := by
  unfold byteSent
  split
  · rename_i b rest removes phase
    have busy : s.port ≠ .idle := by rw [phase]; exact PortPhase.noConfusion
    have sent : Moves s { s with port := .answering rest (removes && !rest.isEmpty) } :=
      phase_moves busy _ s.cut (fun h => by cases h) PortPhase.noConfusion
    dsimp only
    split
    · exact sent.trans (Move.removeAnswer _).moves
    · exact sent
  · exact Relation.ReflTransGen.refl

theorem byteComplete_moves (b : Byte) (s : State) : Moves s (byteComplete b s) := by
  unfold byteComplete
  split
  · exact completeCode_moves b s
  · exact collectByte_moves s b
  · exact byteSent_moves s
  all_goals exact Relation.ReflTransGen.refl

theorem loadByte_moves (s : State) : Moves s (loadByte s) := shift_moves s s.shiftIn _ s.miso id

theorem clockBit_moves (s : State) (mosi : Bool) : Moves s (clockBit s mosi) := by
  unfold clockBit
  dsimp only
  split
  · exact ((shift_moves s [] _ _ (fun _ => Nat.zero_lt_succ 7)).trans (byteComplete_moves _ _)).trans (loadByte_moves _)
  · rename_i short
    exact shift_moves s _ _ _ (fun _ => by omega)

theorem clockBits_moves (mosi : List Bool) (s : State) : Moves s (clockBits mosi s) := by
  unfold clockBits
  induction mosi generalizing s with
  | nil => exact Relation.ReflTransGen.refl
  | cons b rest ih => exact (clockBit_moves s b).trans (ih _)

theorem clockCode_moves (code : Byte) (s : State) : Moves s (clockCode code s) := by
  unfold clockCode
  split
  · split
    · exact clockBits_moves _ s
    · exact Relation.ReflTransGen.refl
  all_goals exact Relation.ReflTransGen.refl

theorem transact_moves (code : Byte) (phase : State → Bool) (mosi : List Bool) (s : State) :
    Moves s (transact code phase mosi s) := by
  unfold transact
  dsimp only
  split
  · exact (clockCode_moves code s).trans (clockBits_moves mosi _)
  · exact Relation.ReflTransGen.refl

theorem execSselAssert_moves (mosi : List Bool) (s t : State) (h : execSselAssert mosi s = .next t) : Moves s t := by
  unfold execSselAssert at h
  split at h
  · cases h; exact (beginTransaction_moves s).trans (clockBits_moves _ _)
  · split at h
    · cases h; exact clockBits_moves _ _
    · cases h; exact Relation.ReflTransGen.refl

theorem endTransaction_moves (s : State) : Moves s (endTransaction s) :=
  (Move.port s .idle _ false [] [] s.miso (fun h => by cases h)
    (fun _ => ⟨⟨fun _ => rfl, fun _ => rfl⟩, Nat.zero_lt_succ 7⟩)).moves

theorem execCut_moves (s t : State) (h : execCut s = .next t) : Moves s t := by
  unfold execCut at h
  split at h
  · cases h; exact endTransaction_moves s
  · cases h; exact Relation.ReflTransGen.refl

theorem execPeek_moves (s t : State) (h : execPeek s = .next t) : Moves s t := by
  unfold execPeek at h
  split at h
  · cases h; exact clockCode_moves _ s
  · cases h; exact Relation.ReflTransGen.refl

theorem execSselNegated_moves (s t : State) (h : execSselNegated s = .next t) : Moves s t := by
  unfold execSselNegated at h
  split at h
  · cases h; exact endTransaction_moves s
  · cases h; exact Relation.ReflTransGen.refl

theorem execHardReset_moves (s t : State) (h : execHardReset s = .next t) : Moves s t := by
  unfold execHardReset at h
  cases h
  exact (Move.reset s).moves

/-! ## The command processor -/

theorem placeReply_moves {s : State} (room : s.answers.length ≤ 30) (a : Answer) (plain : ∀ n, a ≠ .overrun n) :
    Moves s (placeReply a s) := (Move.placeReply s a room plain).moves

theorem refuse_moves {s : State} (room : s.answers.length ≤ 30) (r : CommandRecord) (reason : RefusalReason) :
    Moves s (refuse r reason s) := placeReply_moves room _ (fun _ => Answer.noConfusion)

theorem accept_moves {s : State} (room : s.answers.length ≤ 30) (r : CommandRecord) : Moves s (accept r s) :=
  placeReply_moves room _ (fun _ => Answer.noConfusion)

/-- A command is a chain of moves when what it does after the common checks is. -/
theorem takeCommand_moves (kind : CommandKind) (act : CommandRecord → State → State)
    (acts : ∀ r u, u.answers.length ≤ 30 → actsIn kind u.station = true → Moves u (act r u)) (s : State) :
    Moves s (takeCommand kind act s) := by
  unfold takeCommand
  split
  · exact Relation.ReflTransGen.refl
  · rename_i r rest head
    split
    · rename_i may
      rw [Bool.and_eq_true] at may
      have room : (dequeue s).answers.length ≤ 30 := by
        have := may.1
        unfold mayTake at this
        simp only [Bool.and_eq_true, decide_eq_true_eq] at this
        exact this.1
      have m : Moves s (dequeue s) := (Move.dequeue s).moves
      split
      · exact m.trans (refuse_moves room r _)
      · split
        · rename_i state
          exact m.trans (acts r _ room state)
        · exact m.trans (refuse_moves room r _)
    · exact Relation.ReflTransGen.refl

theorem withLock_moves (r : CommandRecord) (act : LockNo → State → State) (s : State) (room : s.answers.length ≤ 30)
    (acts : ∀ L, Moves s (act L s)) : Moves s (withLock r act s) := by
  unfold withLock
  split
  · exact refuse_moves room r _
  · exact acts _

theorem execUnknownCommand_moves (s t : State) (h : execUnknownCommand s = .next t) : Moves s t := by
  unfold execUnknownCommand at h
  split at h
  · cases h; exact Relation.ReflTransGen.refl
  · split at h
    · rename_i may
      cases h
      have room : (dequeue s).answers.length ≤ 30 := by
        have := may.1
        unfold mayTake at this
        simp only [Bool.and_eq_true, decide_eq_true_eq] at this
        exact this.1
      exact ((Move.dequeue s).moves).trans (refuse_moves room _ _)
    · cases h; exact Relation.ReflTransGen.refl

/-- The values of an accepted configuration lie in their ranges. -/
theorem readConfig_inRange {r : CommandRecord} {c : StationConfig} (h : readConfig r = some c) : c.inRange := by
  unfold readConfig at h
  dsimp only at h
  split at h
  · rename_i ok
    cases h
    simp only [Bool.and_eq_true, decide_eq_true_eq, List.contains_eq_mem, List.mem_cons, List.not_mem_nil,
      or_false] at ok
    unfold StationConfig.inRange
    dsimp only [Fin.ofNat]
    refine ⟨?_, ?_, ?_, ?_, ?_, ?_, ?_, ?_, ?_, ?_⟩ <;> omega
  · cases h

theorem actConfigure_moves (r : CommandRecord) (u : State) (room : u.answers.length ≤ 30)
    (state : actsIn .configure u.station = true) : Moves u (actConfigure r u) := by
  unfold actConfigure
  split
  · exact refuse_moves room r _
  · rename_i c config
    refine (accept_moves room r).trans (Move.enterConfigured _ c ?_ (readConfig_inRange config)).moves
    show u.station = .unconfigured
    cases station : u.station <;> rw [station] at state <;> first | rfl | cases state

theorem actStart_moves (r : CommandRecord) (u : State) (room : u.answers.length ≤ 30)
    (state : actsIn .start u.station = true) : Moves u (actStart r u) := by
  refine (accept_moves room r).trans (Move.enterListening _ _ ?_).moves
  show u.station ≠ .unconfigured
  intro h; rw [h] at state; cases state

theorem actStop_moves (r : CommandRecord) (u : State) (room : u.answers.length ≤ 30)
    (state : actsIn .stop u.station = true) : Moves u (actStop r u) := by
  unfold actStop
  split
  · rename_i h
    exact (accept_moves room r).trans (enterReady_moves .stopped (state := .listening) h (by decide))
  · rename_i h
    refine (accept_moves room r).trans (Move.enterLeaving _ ?_).moves
    show u.station = .founding ∨ u.station = .joining ∨ u.station = .synced
    cases station : u.station <;> rw [station] at state h <;> simp [actsIn] at state h ⊢

theorem actAbandon_moves (r : CommandRecord) (u : State) (room : u.answers.length ≤ 30)
    (state : actsIn .abandon u.station = true) : Moves u (actAbandon r u) := by
  refine (accept_moves room r).trans (Move.enterReady _ _ ?_).moves
  show u.station ≠ .unconfigured
  intro h; rw [h] at state; cases state

/-- ACQUIRE, RELEASE and ARRIVE act in JOINING and SYNCED. -/
theorem acts_joining_synced {state : StationState}
    (h : actsIn .acquire state = true ∨ actsIn .release state = true ∨ actsIn .arrive state = true) :
    state = .joining ∨ state = .synced := by
  cases state <;> simp [actsIn] at h ⊢

theorem actAcquire_moves (r : CommandRecord) (u : State) (room : u.answers.length ≤ 30)
    (state : actsIn .acquire u.station = true) : Moves u (actAcquire r u) := by
  refine withLock_moves r _ u room (fun L => ?_)
  split
  · exact refuse_moves room r _
  · rename_i free
    split
    · exact refuse_moves room r _
    · rename_i below
      refine (accept_moves room r).trans ?_
      refine Relation.ReflTransGen.trans (Move.addRequest _ L _ ?_ ?_ ?_).moves (queueIntent_moves _ _)
      · exact Bool.eq_false_iff.mpr free
      · show requestCount u < 16
        unfold maxRequests at below; omega
      · exact acts_joining_synced (.inl state)

theorem actRelease_moves (r : CommandRecord) (u : State) (room : u.answers.length ≤ 30) :
    Moves u (actRelease r u) := by
  refine withLock_moves r _ u room (fun L => ?_)
  split
  · exact refuse_moves room r _
  · split
    · exact refuse_moves room r _
    · exact refuse_moves room r _
    · exact (accept_moves room r).trans (hostRelease_moves _ _)
    · exact (accept_moves room r).trans (hostRelease_moves _ _)
    · exact (accept_moves room r).trans (hostRelease_moves _ _)

theorem actRenew_moves (r : CommandRecord) (u : State) (room : u.answers.length ≤ 30) : Moves u (actRenew r u) := by
  refine withLock_moves r _ u room (fun L => ?_)
  split
  · exact refuse_moves room r _
  · split
    · exact refuse_moves room r _
    · split
      · exact (accept_moves room r).trans (hostRenew_moves _ _)
      · exact refuse_moves room r _

theorem actArrive_moves (r : CommandRecord) (u : State) (room : u.answers.length ≤ 30)
    (state : actsIn .arrive u.station = true) : Moves u (actArrive r u) := by
  unfold actArrive
  split
  · exact refuse_moves room r _
  · split
    · exact refuse_moves room r _
    · refine (accept_moves room r).trans ?_
      exact Relation.ReflTransGen.trans (Move.addBarrierRecord (accept r u) _ _
        (acts_joining_synced (.inr (.inr state)))).moves
        (queueIntent_moves _ _)

theorem actStatus_moves (r : CommandRecord) (u : State) (room : u.answers.length ≤ 30) : Moves u (actStatus r u) :=
  (placeReply_moves room _ (fun _ => Answer.noConfusion)).trans (Move.emptyNotices _).moves

theorem actQueryLock_moves (r : CommandRecord) (u : State) (room : u.answers.length ≤ 30) :
    Moves u (actQueryLock r u) :=
  withLock_moves r _ u room (fun _ => placeReply_moves room _ (fun _ => Answer.noConfusion))

theorem actQueryMembers_moves (r : CommandRecord) (u : State) (room : u.answers.length ≤ 30) :
    Moves u (actQueryMembers r u) := placeReply_moves room _ (fun _ => Answer.noConfusion)

/-! ## Every command, every step -/

/-- Every command's effect is a chain of moves. -/
theorem exec_moves (c : Instr) (s t : State) (h : exec c s = .next t) : Moves s t := by
  cases c with
  | hardReset => exact execHardReset_moves s t h
  | sselAssert mosi => exact execSselAssert_moves mosi s t h
  | commandTransaction mosi => cases h; exact transact_moves _ _ mosi s
  | cut => exact execCut_moves s t h
  | answerTransaction mosi => cases h; exact transact_moves _ _ mosi s
  | peek => exact execPeek_moves s t h
  | unknownCommand => exact execUnknownCommand_moves s t h
  | configure => cases h; exact takeCommand_moves _ _ (fun r u a b => actConfigure_moves r u a b) s
  | start => cases h; exact takeCommand_moves _ _ (fun r u a b => actStart_moves r u a b) s
  | stop => cases h; exact takeCommand_moves _ _ (fun r u a b => actStop_moves r u a b) s
  | abandon => cases h; exact takeCommand_moves _ _ (fun r u a b => actAbandon_moves r u a b) s
  | acquire => cases h; exact takeCommand_moves _ _ (fun r u a b => actAcquire_moves r u a b) s
  | release => cases h; exact takeCommand_moves _ _ (fun r u a _ => actRelease_moves r u a) s
  | renew => cases h; exact takeCommand_moves _ _ (fun r u a _ => actRenew_moves r u a) s
  | arrive => cases h; exact takeCommand_moves _ _ (fun r u a b => actArrive_moves r u a b) s
  | status => cases h; exact takeCommand_moves _ _ (fun r u a _ => actStatus_moves r u a) s
  | queryLock => cases h; exact takeCommand_moves _ _ (fun r u a _ => actQueryLock_moves r u a) s
  | queryMembers => cases h; exact takeCommand_moves _ _ (fun r u a _ => actQueryMembers_moves r u a) s
  | ownSlotStart => exact execOwnSlotStart_moves s t h
  | echoJudged early samples after => exact execEchoJudged_moves early samples after s t h
  | receptionEnded chars => exact execReceptionEnded_moves chars s t h
  | receptionTimeLimit => exact execReceptionTimeLimit_moves s t h
  | syncLost => cases h; exact doSyncLost_moves s
  | silenceWindowEnd => exact execSilenceWindowEnd_moves s t h
  | slotEnd => exact execSlotEnd_moves s t h
  | heldSlotEnd => exact execHeldSlotEnd_moves s t h
  | absenceRemoval => cases h; exact doAbsenceRemoval_moves s
  | orphanFounded => cases h; exact doOrphanAction_moves s
  | leavingCountExpiry => cases h; exact doLeavingExpiry_moves s
  | leaseExpiry => cases h; exact doLeaseExpiry_moves s
  | waitLimitExpiry => cases h; exact doWaitExpiry_moves s
  | founded => exact execFounded_moves s t h
  | sselNegated => exact execSselNegated_moves s t h
  | receptionBegins low => exact execReceptionBegins_moves low s t h
  | ltxeAsserted => exact execLtxeAsserted_moves s t h
  | transmissionEnd => exact execTransmissionEnd_moves s t h

end Sys2Proof.Machine
end

