-- ==== Sys2Proof/Laws/Echo.lean ====
section
/-! SUPPORT. What the echo comparator takes in and how it judges (R87). -/

namespace Sys2Proof.Machine

variable (f : EchoComparator → Timing → EchoComparator) (s : State)

theorem watchEcho_of_none (h : s.echo = none) : watchEcho f s = s := by
  unfold watchEcho; rw [h, Option.map_none, ← h]

theorem watchEcho_of_some {e : EchoComparator} {t : Timing} (echo : s.echo = some e) (timing : s.timing = some t) :
    watchEcho f s = { s with echo := some (f e t) } := by
  unfold watchEcho; rw [echo, timing]; rfl

@[simp] theorem watchEcho_timing : (watchEcho f s).timing = s.timing := rfl
@[simp] theorem watchEcho_reception : (watchEcho f s).reception = s.reception := rfl
@[simp] theorem watchEcho_rxBuffer : (watchEcho f s).rxBuffer = s.rxBuffer := rfl
@[simp] theorem watchEcho_lineHigh : (watchEcho f s).lineHigh = s.lineHigh := rfl
@[simp] theorem watchEcho_lineWait : (watchEcho f s).lineWait = s.lineWait := rfl
@[simp] theorem watchEcho_lrxLow : (watchEcho f s).lrxLow = s.lrxLow := rfl
@[simp] theorem watchEcho_station : (watchEcho f s).station = s.station := rfl
@[simp] theorem watchEcho_txBuffer : (watchEcho f s).txBuffer = s.txBuffer := rfl
@[simp] theorem watchEcho_work : (watchEcho f s).work = s.work := rfl

@[simp] theorem sample_frame (level : Bool) (e : EchoComparator) (t : Timing) : (e.sample level t).frame = e.frame := by
  unfold EchoComparator.sample; split <;> rfl

@[simp] theorem startBit_frame (e : EchoComparator) (t : Timing) : (e.startBit t).frame = e.frame := rfl

@[simp] theorem startBit_samples (e : EchoComparator) (t : Timing) : (e.startBit t).samples = e.samples := rfl

/-- Within the frame a start bit is a bit of it: it changes nothing in the comparator. -/
theorem startBit_within_frame {e : EchoComparator} {t : Timing} (first : frameLead ≤ t.phase)
    (last : t.phase < frameEnd e) : e.startBit t = e := by
  unfold EchoComparator.startBit
  simp [Nat.not_lt.2 first, Nat.not_le.2 last]

/-- R87: what a start bit accepted in a slot with timing leaves of the comparator and the timing. -/
theorem noteStartBit_of_some {t : Timing} (timing : s.timing = some t) :
    noteStartBit s = { s with
      timing := some { t with startBit := true }, echo := s.echo.map fun e => e.startBit { t with startBit := true } } := by
  unfold noteStartBit watchEcho; rw [timing]; rfl

/-- R87: the three conditions of a well-formed echo. -/
theorem echoGood_iff (e : EchoComparator) :
    echoGood e = true ↔ e.early = false ∧ e.samples = lineBits (frameBytes e.frame) ∧ e.after = false := by
  unfold echoGood
  simp [and_assoc]

end Sys2Proof.Machine
end

