-- ==== Sys2Proof/Laws/Sets.lean ====
section
/-! SUPPORT. Tables and sets of numbers: what tabulate, setOf, setAdd and setRemove hold at a number. -/

namespace Sys2Proof.Machine

@[simp] theorem tabulate_get {α : Type} {n : Nat} (f : Fin n → α) (i : Fin n) : (tabulate f)[i] = f i := by
  unfold tabulate
  simp [Fin.getElem_fin]

@[simp] theorem tabulate_getElem {α : Type} {n : Nat} (f : Fin n → α) (i : Nat) (h : i < n) :
    (tabulate f)[i] = f ⟨i, h⟩ := tabulate_get f ⟨i, h⟩

theorem set_get {α : Type} {n : Nat} (v : Vector α n) (i j : Fin n) (a : α) :
    (v.set i a)[j] = if j = i then a else v[j] := by
  simp only [Fin.getElem_fin, Vector.getElem_set]
  split
  · rename_i h; rw [if_pos (Fin.ext h.symm)]
  · rename_i h; rw [if_neg (fun e => h (congrArg Fin.val e).symm)]

@[simp] theorem replicate_get {α : Type} {n : Nat} (a : α) (i : Fin n) : (Vector.replicate n a)[i] = a := by
  simp [Fin.getElem_fin]

@[simp] theorem inSet_zero {n : Nat} (i : Fin n) : inSet i (0 : BitVec n) = false := by simp [inSet]

theorem inSet_setAdd {n : Nat} (i j : Fin n) (set : BitVec n) :
    inSet i (setAdd j set) = (inSet i set || decide (i = j)) := by
  unfold inSet setAdd
  rw [BitVec.getLsbD_or, BitVec.getLsbD_twoPow]
  congr 1
  rw [show decide (j.val < n) = true from decide_eq_true j.isLt, Bool.true_and]
  by_cases h : i = j
  · simp [h]
  · have : ¬ (j.val = i.val) := fun e => h (Fin.ext e.symm)
    simp [h, this]

theorem inSet_setRemove {n : Nat} (i j : Fin n) (set : BitVec n) :
    inSet i (setRemove j set) = (inSet i set && !decide (i = j)) := by
  unfold inSet setRemove
  rw [BitVec.getLsbD_and, BitVec.getLsbD_not, BitVec.getLsbD_twoPow]
  rw [show decide (i.val < n) = true from decide_eq_true i.isLt,
    show decide (j.val < n) = true from decide_eq_true j.isLt, Bool.true_and, Bool.true_and]
  congr 2
  by_cases h : i = j
  · simp [h]
  · have : ¬ (j.val = i.val) := fun e => h (Fin.ext e.symm)
    simp [h, this]

theorem inSet_and {n : Nat} (i : Fin n) (a b : BitVec n) : inSet i (a &&& b) = (inSet i a && inSet i b) :=
  BitVec.getLsbD_and ..

theorem inSet_not {n : Nat} (i : Fin n) (a : BitVec n) : inSet i (~~~ a) = !inSet i a := by
  unfold inSet; rw [BitVec.getLsbD_not]; simp

theorem inSet_or {n : Nat} (i : Fin n) (a b : BitVec n) : inSet i (a ||| b) = (inSet i a || inSet i b) :=
  BitVec.getLsbD_or ..

/-- Two sets that name the same numbers are equal. -/
theorem set_ext {n : Nat} {a b : BitVec n} (h : ∀ i : Fin n, inSet i a = inSet i b) : a = b :=
  BitVec.eq_of_getLsbD_eq fun i hi => h ⟨i, hi⟩

theorem subset_iff {n : Nat} (a b : BitVec n) :
    subset a b = true ↔ ∀ i : Fin n, inSet i a = true → inSet i b = true := by
  unfold subset
  rw [beq_iff_eq]
  constructor
  · intro h i ha
    have : inSet i (a &&& ~~~ b) = false := by rw [h]; exact inSet_zero i
    rw [inSet_and, inSet_not, ha] at this
    simpa using this
  · intro h
    refine set_ext fun i => ?_
    rw [inSet_and, inSet_not]
    cases ha : inSet i a
    · exact (inSet_zero i).symm
    · rw [h i ha]; exact (inSet_zero i).symm

/-- The part of a set that a list of numbers contributes. -/
theorem inSet_foldl {n : Nat} (p : Fin n → Bool) (i : Fin n) (l : List (Fin n)) (acc : BitVec n) :
    inSet i (l.foldl (fun acc j => if p j then acc ||| BitVec.twoPow n j.val else acc) acc)
      = (inSet i acc || (decide (i ∈ l) && p i)) := by
  induction l generalizing acc with
  | nil => simp
  | cons a rest ih =>
    rw [List.foldl_cons, ih]
    by_cases ha : p a = true
    · have : inSet i (if p a = true then acc ||| BitVec.twoPow n a.val else acc) = (inSet i acc || decide (i = a)) := by
        rw [if_pos ha]; exact inSet_setAdd i a acc
      rw [this]
      by_cases e : i = a
      · subst e; simp [ha]
      · simp [e]
    · rw [if_neg ha]
      by_cases e : i = a
      · subst e; simp [ha]
      · simp [e]

@[simp] theorem inSet_setOf {n : Nat} (p : Fin n → Bool) (i : Fin n) : inSet i (setOf p) = p i := by
  unfold setOf
  rw [inSet_foldl, inSet_zero]
  simp [List.mem_finRange]

end Sys2Proof.Machine
end

