-- ==== Sys2Proof/Laws/LockEntries.lean ====
section
/-! SUPPORT. What the operations on one lock entry do to its laws (R1, R2, R3) and to the stations it names (R42). -/

namespace Sys2Proof.Machine

/-! ## The laws of an entry, spelled out -/

theorem lockEntryLaw_held (h : StationNo) (lease : Option (BitVec 3)) (ws : List Waiter) :
    lockEntryLaw (.held h lease ws) = true ↔
      lease ≠ some 0#3 ∧ ws.length ≤ 6 ∧ (ws.map Waiter.station).Nodup ∧ h ∉ ws.map Waiter.station := by
  unfold lockEntryLaw
  simp only [Bool.and_eq_true, decide_eq_true_eq, bne_iff_ne, Bool.not_eq_true', List.contains_eq_mem,
    decide_eq_false_iff_not]
  tauto

theorem namesOnly_held (u : StationSet) (h : StationNo) (lease : Option (BitVec 3)) (ws : List Waiter) :
    namesOnly u (.held h lease ws) = true ↔ inSet h u = true ∧ ∀ w ∈ ws, inSet w.station u = true := by
  unfold namesOnly
  simp only [Bool.and_eq_true, List.all_eq_true]

theorem isWaiting_iff (ws : List Waiter) (r : StationNo) :
    isWaiting ws r = true ↔ r ∈ ws.map Waiter.station := by
  unfold isWaiting
  simp only [List.any_eq_true, beq_iff_eq, List.mem_map]

theorem freshLease_ne_zero (leased : Bool) : freshLease leased ≠ some 0#3 := by
  cases leased <;> unfold freshLease <;> decide

/-! ## ACQUIRE (R7, R8) -/

theorem acquireEntry_law (r : StationNo) (leased : Bool) {e : LockEntry} (h : lockEntryLaw e = true) :
    lockEntryLaw (acquireEntry r leased e).1 = true := by
  unfold acquireEntry
  split
  · rw [lockEntryLaw_held]
    exact ⟨freshLease_ne_zero leased, by simp, by simp, by simp⟩
  · rename_i holder lease ws
    split
    · exact h
    · rename_i ne
      split
      · exact h
      · rename_i nw
        split
        · exact h
        · rename_i room
          rw [isWaiting_iff] at nw
          rw [lockEntryLaw_held] at h ⊢
          obtain ⟨h1, h2, h3, h4⟩ := h
          unfold maxWaiters at room
          refine ⟨h1, ?_, ?_, ?_⟩
          · simp; omega
          · rw [List.map_append, List.nodup_append]
            refine ⟨h3, by simp, ?_⟩
            intro a ha b hb
            simp only [List.map_cons, List.map_nil, List.mem_singleton] at hb
            subst hb
            intro e; subst e; exact nw ha
          · rw [List.map_append, List.mem_append]
            rintro (k | k)
            · exact h4 k
            · simp at k; exact ne k

theorem acquireEntry_names (r : StationNo) (leased : Bool) {u : StationSet} {e : LockEntry} (hr : inSet r u = true)
    (h : namesOnly u e = true) : namesOnly u (acquireEntry r leased e).1 = true := by
  unfold acquireEntry
  split
  · rw [namesOnly_held]; exact ⟨hr, by simp⟩
  · split
    · exact h
    · split
      · exact h
      · split
        · exact h
        · rw [namesOnly_held] at h ⊢
          refine ⟨h.1, ?_⟩
          intro w hw
          rcases List.mem_append.mp hw with hw | hw
          · exact h.2 w hw
          · rw [List.mem_singleton] at hw; subst hw; exact hr

/-! ## The pass (R10) and the withdrawal (R13) -/

theorem passEntry_law {h : StationNo} {lease : Option (BitVec 3)} {ws : List Waiter}
    (law : lockEntryLaw (.held h lease ws) = true) : lockEntryLaw (passEntry ws) = true := by
  rw [lockEntryLaw_held] at law
  obtain ⟨-, h2, h3, -⟩ := law
  cases ws with
  | nil => rfl
  | cons w rest =>
    unfold passEntry
    rw [List.map_cons, List.nodup_cons] at h3
    rw [lockEntryLaw_held]
    exact ⟨freshLease_ne_zero _, by simp at h2; omega, h3.2, h3.1⟩

theorem passEntry_names {u : StationSet} {h : StationNo} {lease : Option (BitVec 3)} {ws : List Waiter}
    (names : namesOnly u (.held h lease ws) = true) : namesOnly u (passEntry ws) = true := by
  rw [namesOnly_held] at names
  cases ws with
  | nil => rfl
  | cons w rest =>
    unfold passEntry
    rw [namesOnly_held]
    exact ⟨names.2 w (by simp), fun x hx => names.2 x (by simp [hx])⟩

theorem withdraw_subset (r : StationNo) (ws : List Waiter) : ∀ w ∈ withdraw r ws, w ∈ ws ∧ w.station ≠ r := by
  intro w hw
  unfold withdraw at hw
  simpa using hw

theorem withdraw_law (r : StationNo) {h : StationNo} {lease : Option (BitVec 3)} {ws : List Waiter}
    (law : lockEntryLaw (.held h lease ws) = true) : lockEntryLaw (.held h lease (withdraw r ws)) = true := by
  rw [lockEntryLaw_held] at law ⊢
  obtain ⟨h1, h2, h3, h4⟩ := law
  refine ⟨h1, ?_, ?_, ?_⟩
  · exact (List.length_filter_le _ _).trans h2
  · exact h3.sublist (List.filter_sublist.map _)
  · intro k
    obtain ⟨w, hw, e⟩ := List.mem_map.mp k
    exact h4 (List.mem_map.mpr ⟨w, (withdraw_subset r ws w hw).1, e⟩)

theorem withdraw_names (r : StationNo) {u : StationSet} {h : StationNo} {lease : Option (BitVec 3)} {ws : List Waiter}
    (names : namesOnly u (.held h lease ws) = true) : namesOnly u (.held h lease (withdraw r ws)) = true := by
  rw [namesOnly_held] at names ⊢
  exact ⟨names.1, fun w hw => names.2 w (withdraw_subset r ws w hw).1⟩

/-! ## RENEW (R15) and the lease tick (R17) -/

theorem renewEntry_law (r : StationNo) {e : LockEntry} (law : lockEntryLaw e = true) :
    lockEntryLaw (renewEntry r e) = true := by
  unfold renewEntry
  split
  · split
    · rw [lockEntryLaw_held] at law ⊢
      exact ⟨by decide, law.2⟩
    · exact law
  · exact law
  · exact law

theorem renewEntry_names (r : StationNo) {u : StationSet} {e : LockEntry} (names : namesOnly u e = true) :
    namesOnly u (renewEntry r e) = true := by
  unfold renewEntry
  split
  · split
    · rw [namesOnly_held] at names ⊢; exact names
    · exact names
  · exact names
  · exact names

theorem lowered_law {h : StationNo} {level : BitVec 3} {ws : List Waiter} (above : 1 < level.toNat)
    (law : lockEntryLaw (.held h (some level) ws) = true) : lockEntryLaw (.held h (some (level - 1)) ws) = true := by
  rw [lockEntryLaw_held] at law ⊢
  refine ⟨?_, law.2⟩
  intro e
  injection e with e
  have := congrArg BitVec.toNat e
  simp [BitVec.toNat_sub] at this
  omega

/-! ## The entries of a lock chunk (R23) -/

theorem readLockEntry_law {bytes : List Byte} {e : LockEntry} (h : readLockEntry bytes = some e) :
    lockEntryLaw e = true := by
  unfold readLockEntry at h
  split at h
  · split at h
    · split at h
      · cases h; rfl
      · cases h
    · split at h
      · split at h
        · dsimp only at h
          split at h
          · cases h; assumption
          · cases h
        · cases h
      · cases h
  · cases h

theorem readLockEntries_law {n : Nat} {bytes : List Byte} {es : List LockEntry} (h : readLockEntries n bytes = some es) :
    es.length = n ∧ ∀ e ∈ es, lockEntryLaw e = true := by
  induction n generalizing bytes es with
  | zero =>
    cases bytes <;> simp only [readLockEntries] at h
    · cases h; exact ⟨rfl, by simp⟩
    · cases h
  | succ n ih =>
    unfold readLockEntries at h
    split at h
    · rename_i e es' h1 h2
      cases h
      obtain ⟨l, k⟩ := ih h2
      refine ⟨by simp [l], ?_⟩
      intro x hx
      rcases List.mem_cons.mp hx with rfl | hx
      · exact readLockEntry_law h1
      · exact k x hx
    · cases h

end Sys2Proof.Machine
end

