-- ==== Sys2Proof/Laws/Port.lean ====
section
/-! SUPPORT. The host port byte by byte: eight cycles of SCLK are one byte in each direction (R151), and what whole bytes do
in each phase. -/

namespace Sys2Proof.Machine

theorem msbBits_eq (b : Byte) : msbBits b =
    [b.getLsbD 7, b.getLsbD 6, b.getLsbD 5, b.getLsbD 4, b.getLsbD 3, b.getLsbD 2, b.getLsbD 1, b.getLsbD 0] := rfl

@[simp] theorem msbBits_length (b : Byte) : (msbBits b).length = 8 := rfl

/-- Eight bits and the byte they spell. -/
theorem byteOfBits_msbBits (b : Byte) : byteOfBits (msbBits b) = b := by
  rw [msbBits_eq]
  unfold byteOfBits
  simp only [List.foldl]
  ext i hi
  have : i = 0 ∨ i = 1 ∨ i = 2 ∨ i = 3 ∨ i = 4 ∨ i = 5 ∨ i = 6 ∨ i = 7 := by omega
  rcases this with rfl | rfl | rfl | rfl | rfl | rfl | rfl | rfl <;> simp [BitVec.getElem_shiftConcat, BitVec.getLsbD_eq_getElem]

theorem clockBits_append (a b : List Bool) (s : State) : clockBits (a ++ b) s = clockBits b (clockBits a s) :=
  List.foldl_append ..

/-- Fewer than eight cycles from the start of a byte complete nothing. -/
theorem clockBits_short (bits : List Bool) (s : State) (short : s.shiftIn.length + bits.length < 8)
    (out : bits.length ≤ s.shiftOut.length) : clockBits bits s = { s with
      shiftIn := s.shiftIn ++ bits, shiftOut := s.shiftOut.drop bits.length, miso := s.miso ++ s.shiftOut.take bits.length } := by
  induction bits generalizing s with
  | nil => simp [clockBits]
  | cons b rest ih =>
    simp only [List.length_cons] at short out
    obtain ⟨o, os, eq⟩ := List.exists_cons_of_ne_nil (l := s.shiftOut) (fun h => by rw [h] at out; simp at out)
    have first : clockBit s b = { s with shiftIn := s.shiftIn ++ [b], shiftOut := os, miso := s.miso ++ [o] } := by
      unfold clockBit
      simp only [eq, List.headD_cons, List.tail_cons]
      rw [if_neg (by simp only [List.length_append, List.length_singleton]; omega)]
    show clockBits rest (clockBit s b) = _
    rw [first, ih _ (by simp; omega) (by rw [eq] at out; simpa using out)]
    simp [eq]

/-- A whole byte: `o` goes out while `b` comes in. -/
theorem clockByte (b o : Byte) (s : State) (shiftIn : s.shiftIn = []) (shiftOut : s.shiftOut = msbBits o) :
    clockBits (msbBits b) s = loadByte (byteComplete b { s with shiftOut := [], miso := s.miso ++ msbBits o }) := by
  have split : msbBits b = [b.getLsbD 7, b.getLsbD 6, b.getLsbD 5, b.getLsbD 4, b.getLsbD 3, b.getLsbD 2, b.getLsbD 1]
      ++ [b.getLsbD 0] := rfl
  rw [split, clockBits_append, clockBits_short _ s (by simp [shiftIn]) (by simp [shiftOut])]
  have whole : byteOfBits [b.getLsbD 7, b.getLsbD 6, b.getLsbD 5, b.getLsbD 4, b.getLsbD 3, b.getLsbD 2, b.getLsbD 1,
      b.getLsbD 0] = b := byteOfBits_msbBits b
  simp only [clockBits, List.foldl_cons, List.foldl_nil, clockBit, shiftIn, shiftOut, msbBits_eq o, List.nil_append,
    List.cons_append, List.length_cons, List.length_nil, List.drop, List.take, List.append_assoc, List.headD_cons,
    List.tail_cons, whole]
  rfl

/-- Whole bytes that neither complete a phase nor carry an answer: 00h goes out for each. -/
theorem clockBytes_idle (bytes : List Byte) (s : State) (shiftIn : s.shiftIn = []) (shiftOut : s.shiftOut = msbBits 0)
    (phase : s.port = .awaitNegation ∨ s.port = .badCount ∨ s.port = .taken ∨ s.port = .full ∨ s.port = .peeking
      ∨ s.port = .ignored) :
    clockBits (bytes.flatMap msbBits) s = { s with miso := s.miso ++ List.replicate (8 * bytes.length) false } := by
  induction bytes generalizing s with
  | nil => simp [clockBits]
  | cons b rest ih =>
    rw [List.flatMap_cons, clockBits_append, clockByte b 0 s shiftIn shiftOut]
    have once : loadByte (byteComplete b { s with shiftOut := [], miso := s.miso ++ msbBits 0 })
        = { s with miso := s.miso ++ msbBits 0 } := by
      unfold loadByte byteComplete nextByteOut
      rcases phase with h | h | h | h | h | h <;> simp only [h] <;> rw [← shiftOut]
    rw [once, ih { s with miso := s.miso ++ msbBits 0 } shiftIn shiftOut phase]
    have zeros : msbBits 0 = List.replicate 8 false := by decide
    simp only [zeros, List.append_assoc, List.replicate_append_replicate, List.length_cons]
    rw [show 8 + 8 * rest.length = 8 * (rest.length + 1) by omega]

end Sys2Proof.Machine
end

