-- ==== Sys2Proof/Laws/Transitions.lean ====
section
/-! SUPPORT. What each transition of the station state leaves: one equation for each, with the answer queue and the notice
set left open. -/

namespace Sys2Proof.Machine

/-! ## The records end LOST -/

theorem loseRequest_get (lock L : LockNo) (s : State) :
    (loseRequest lock s).requests[L] = if L = lock then none else s.requests[L] := by
  unfold loseRequest
  split
  · rename_i none
    split
    · rename_i eq; rw [eq]; exact none
    · rfl
  · rename_i r _
    rw [setRequest_requests, (placeEvent_only _ s).requests]
    simp only [Fin.getElem_fin, Vector.getElem_set]
    split
    · rename_i eq; rw [if_pos (Fin.ext eq.symm)]
    · rename_i ne; rw [if_neg (fun eq => ne (congrArg Fin.val eq).symm)]

theorem loseRequests_get (l : List LockNo) (L : LockNo) (s : State) :
    (l.foldl (fun s L => loseRequest L s) s).requests[L] = if L ∈ l then none else s.requests[L] := by
  induction l generalizing s with
  | nil => simp
  | cons a rest ih =>
    rw [List.foldl_cons, ih, loseRequest_get]
    simp only [List.mem_cons]
    by_cases h : L ∈ rest
    · simp [h]
    · by_cases k : L = a <;> simp [h, k]

theorem loseBarrierRecord_get (b B : BarrierNo) (s : State) :
    (loseBarrierRecord b s).barrierRecords[B] = if B = b then none else s.barrierRecords[B] := by
  unfold loseBarrierRecord
  split
  · rename_i none
    split
    · rename_i eq; rw [eq]; exact none
    · rfl
  · rename_i r _
    rw [setBarrierRecord_barrierRecords, (placeEvent_only _ s).barrierRecords]
    simp only [Fin.getElem_fin, Vector.getElem_set]
    split
    · rename_i eq; rw [if_pos (Fin.ext eq.symm)]
    · rename_i ne; rw [if_neg (fun eq => ne (congrArg Fin.val eq).symm)]

theorem loseBarrierRecords_get (l : List BarrierNo) (B : BarrierNo) (s : State) :
    (l.foldl (fun s b => loseBarrierRecord b s) s).barrierRecords[B]
      = if B ∈ l then none else s.barrierRecords[B] := by
  induction l generalizing s with
  | nil => simp
  | cons a rest ih =>
    rw [List.foldl_cons, ih, loseBarrierRecord_get]
    simp only [List.mem_cons]
    by_cases h : B ∈ rest
    · simp [h]
    · by_cases k : B = a <;> simp [h, k]

theorem loseRequest_barrierRecords (lock : LockNo) (s : State) :
    (loseRequest lock s).barrierRecords = s.barrierRecords := by
  unfold loseRequest; split
  · rfl
  · exact (placeEvent_only _ s).barrierRecords

theorem loseBarrierRecord_requests (b : BarrierNo) (s : State) : (loseBarrierRecord b s).requests = s.requests := by
  unfold loseBarrierRecord; split
  · rfl
  · exact (placeEvent_only _ s).requests

theorem loseBarrierRecords_requests (l : List BarrierNo) (s : State) :
    (l.foldl (fun s b => loseBarrierRecord b s) s).requests = s.requests := by
  induction l generalizing s with
  | nil => rfl
  | cons a rest ih => rw [List.foldl_cons, ih, loseBarrierRecord_requests]

/-- R68: every record is gone and the outbox is empty; otherwise only events were placed. -/
theorem loseRecords_eq (s : State) : ∃ a n, loseRecords s = { s with
    answers := a, notices := n, outbox := []
    requests := Vector.replicate 64 none, barrierRecords := Vector.replicate 8 none } := by
  have only := loseRecords_only s
  have requests : (loseRecords s).requests = Vector.replicate 64 none := by
    unfold loseRecords
    rw [emptyOutbox_requests, loseBarrierRecords_requests]
    refine Vector.ext fun i hi => ?_
    have := loseRequests_get allLocks ⟨i, hi⟩ s
    rw [if_pos (show _ ∈ allLocks from List.mem_finRange _)] at this
    rw [Vector.getElem_replicate]
    exact this
  have records : (loseRecords s).barrierRecords = Vector.replicate 8 none := by
    unfold loseRecords
    rw [emptyOutbox_barrierRecords]
    refine Vector.ext fun i hi => ?_
    have := loseBarrierRecords_get allBarriers ⟨i, hi⟩ (allLocks.foldl (fun s L => loseRequest L s) s)
    rw [if_pos (show _ ∈ allBarriers from List.mem_finRange _)] at this
    rw [Vector.getElem_replicate]
    exact this
  have outbox : (loseRecords s).outbox = [] := rfl
  generalize loseRecords s = t at *
  refine ⟨t.answers, t.notices, ?_⟩
  unfold OnlyRecords at only
  rw [requests, records, outbox] at only
  exact only

/-- R114, R145: the state changes, the tally starts again, an event is placed. -/
theorem changeState_eq (state : StationState) (cause : StateCause) (s : State) :
    ∃ a n, changeState state cause s = { s with
      station := state, matchCount := 1, mismatchCount := 0, answers := a, notices := n } :=
  ⟨_, _, placeEvent_only (.state state cause) { resetTally s with station := state }⟩

/-! ## The transitions -/

/-- R115: what a transition to READY leaves. -/
theorem enterReady_eq (cause : StateCause) (s : State) : ∃ a n, enterReady cause s = { s with
    station := .ready, answers := a, notices := n, outbox := []
    requests := Vector.replicate 64 none, barrierRecords := Vector.replicate 8 none
    locks := Vector.replicate 64 .free, barriers := Vector.replicate 8 ⟨0, 0⟩, members := Vector.replicate 16 none
    installed := 0, wanted := 0, gathered := 0, orphanCount := 0, joinHeard := 0
    timing := none, silence := 0, disagreement := 0, work := [], foundingOpen := false, leavingFromJoining := false
    txBuffer := [], echo := none, ltxe := false, ltx := true, reception := none, rxBuffer := [], lineWait := 0
    leavingCount := 0, matchCount := 1, mismatchCount := 0 } := by
  obtain ⟨a, n, h⟩ := loseRecords_eq s
  unfold enterReady
  rw [h]
  dsimp only [discardReplica, setChunks, clearTiming, dropReception, cutTransmission, dropWork]
  exact changeState_eq .ready cause _

/-- R115: what a transition to LISTENING leaves. -/
theorem enterListening_eq (cause : StateCause) (s : State) : ∃ a n, enterListening cause s = { s with
    station := .listening, answers := a, notices := n, outbox := []
    requests := Vector.replicate 64 none, barrierRecords := Vector.replicate 8 none
    locks := Vector.replicate 64 .free, barriers := Vector.replicate 8 ⟨0, 0⟩, members := Vector.replicate 16 none
    installed := 0, wanted := 0, gathered := 0, orphanCount := 0, joinHeard := 0
    timing := none, silence := 0, disagreement := 0, work := [], foundingOpen := false, leavingFromJoining := false
    txBuffer := [], echo := none, ltxe := false, ltx := true
    reception := s.reception.map fun rx => { rx with place := none, late := false, counts := true }
    matchCount := 1, mismatchCount := 0 } := by
  obtain ⟨a, n, h⟩ := loseRecords_eq s
  unfold enterListening
  rw [h]
  dsimp only [discardReplica, setChunks, clearTiming, keepReception, cutTransmission, dropWork]
  exact changeState_eq .listening cause _

/-- R118: what LISTENING to JOINING leaves. -/
theorem enterJoining_eq (cause : StateCause) (s : State) : ∃ a n, enterJoining cause s = { s with
    station := .joining, answers := a, notices := n
    locks := Vector.replicate 64 .free, barriers := Vector.replicate 8 ⟨0, 0⟩, members := Vector.replicate 16 none
    installed := 0, wanted := allChunks, gathered := 0, orphanCount := 0, joinHeard := 0
    silence := 0, disagreement := 0, matchCount := 1, mismatchCount := 0 } :=
  changeState_eq .joining cause _

/-- R107: what LISTENING to FOUNDING leaves. -/
theorem enterFounding_eq (s : State) : ∃ a n, enterFounding s = { s with
    station := .founding, answers := a, notices := n
    locks := Vector.replicate 64 .free, barriers := Vector.replicate 8 ⟨0, 0⟩
    members := tabulate fun r =>
      if inSet r (setAdd s.own 0) then some { joining := decide (r ≠ s.own), absence := 0 } else none
    installed := allChunks, wanted := 0, gathered := 0, orphanCount := 0, joinHeard := 0
    reception := s.reception.map fun rx => { rx with place := none, late := false, counts := true }
    timing := some
      { confirmed := true, slot := s.own, round := 0, phase := 0, windowHeard := false, silent := false
        begun := false, startBit := false, usable := none, echoCorrupt := false, held := false, ownStartDue := true }
    silence := 0, disagreement := 0, foundingOpen := true, matchCount := 1, mismatchCount := 0 } := by
  dsimp only [enterFounding, foundReplica, discardReplica, setChunks, keepReception]
  exact changeState_eq .founding .founded _

/-- R108, R119: what FOUNDING to SYNCED leaves. -/
theorem completeFounding_eq (s : State) : ∃ a n, completeFounding s = { s with
    station := .synced, answers := a, notices := n, matchCount := 1, mismatchCount := 0 } :=
  changeState_eq .synced .foundingComplete s

/-- R120, R136: what the completion of catch-up leaves. -/
theorem enterCaughtUp_eq (s : State) : ∃ a n, enterCaughtUp s = { s with
    station := .synced, answers := a, notices := n
    installed := allChunks, wanted := 0, gathered := 0, orphanCount := 0, joinHeard := 0
    matchCount := 1, mismatchCount := 0 } :=
  changeState_eq .synced .caughtUp _

/-- R126: what a DIVERGED verdict leaves. -/
theorem enterDiverged_eq (s : State) : ∃ a n, enterDiverged s = { s with
    station := .joining, answers := a, notices := n, outbox := []
    requests := Vector.replicate 64 none, barrierRecords := Vector.replicate 8 none
    locks := Vector.replicate 64 .free, barriers := Vector.replicate 8 ⟨0, 0⟩, members := Vector.replicate 16 none
    installed := 0, wanted := allChunks, gathered := 0, orphanCount := 0, joinHeard := 0
    disagreement := 0, matchCount := 1, mismatchCount := 0 } := by
  obtain ⟨a, n, h⟩ := loseRecords_eq s
  unfold enterDiverged
  rw [h]
  dsimp only [discardReplica, setChunks]
  exact changeState_eq .joining .diverged _

/-- R121: what a STOP leaves that leads to LEAVING. -/
theorem enterLeaving_eq (s : State) : ∃ a n, enterLeaving s = { s with
    station := .leaving, answers := a, notices := n, outbox := [newIntent .leave]
    requests := Vector.replicate 64 none, barrierRecords := Vector.replicate 8 none
    wanted := 0, gathered := 0, orphanCount := 0, joinHeard := 0
    leavingCount := 0, leavingFromJoining := s.station == .joining, foundingOpen := false
    matchCount := 1, mismatchCount := 0 } := by
  obtain ⟨a, n, h⟩ := loseRecords_eq s
  unfold enterLeaving
  rw [h]
  dsimp only [queueIntent, setChunks]
  exact changeState_eq .leaving .stopping _

/-- R140: what the founding of an orphaned group leaves. -/
theorem enterOrphanFounded_eq (group : StationSet) (s : State) : ∃ a n, enterOrphanFounded group s = { s with
    station := .synced, answers := a, notices := n
    locks := Vector.replicate 64 .free, barriers := Vector.replicate 8 ⟨0, 0⟩
    members := tabulate fun r =>
      if inSet r group then some { joining := decide (r ≠ s.own), absence := 0 } else none
    installed := allChunks, wanted := 0, gathered := 0, orphanCount := 0, joinHeard := 0
    matchCount := 1, mismatchCount := 0 } :=
  changeState_eq .synced .orphanFounded _

/-- R116: what an accepted configuration leaves. -/
theorem enterConfigured_eq (c : StationConfig) (s : State) : ∃ a n, enterConfigured c s = { s with
    station := .ready, answers := a, notices := n, config := some c, eventMask := c.eventMask, leavingCount := 0
    matchCount := 1, mismatchCount := 0 } :=
  changeState_eq .ready .configured _

/-- What a removal leaves, before the station controller hears of it: only the replica and the records differ. -/
theorem remove_only (r : StationNo) (cause : LeaveCause) (s : State) : OnlyReplica s
    (placeEvent (.memberLeft r cause) (setMember r none (removeFromBarriers r (removeFromLocks r s)))) := by
  have locks := removeFromLocks_only r s
  generalize removeFromLocks r s = a at locks ⊢
  have barriers := removeFromBarriers_only r a
  generalize removeFromBarriers r a = b at barriers ⊢
  exact ((locks.trans barriers).trans (setMember_only _ _ _)).trans (placeEvent_only _ _).records.replica

end Sys2Proof.Machine
end

