-- ==== Sys2Proof/WellFormed.lean ====
section
/-! DEFINITION. Which commands the surroundings can give: a reception holds no more characters than fit
into its time limit, and the samples of an echo no more bit times than the largest frame. -/

namespace Sys2Proof

/-- Most characters a reception can hold: ten bit times each within the 1000 of R83. -/
def maxReceivedChars : Nat := 100

/-- Most bit times of an own frame: ten for each of 95 bytes (section 12.3). -/
def maxEchoSamples : Nat := 950

/-- The operands of `i` are such as the line can deliver. Every command without such operands is well-formed. -/
def Instr.wellFormed : Instr → Bool
  | .receptionEnded chars => decide (chars.length ≤ maxReceivedChars)
  | .echoJudged _ samples _ => decide (samples.length ≤ maxEchoSamples)
  | .hardReset | .sselAssert _ | .commandTransaction _ | .cut | .answerTransaction _ | .peek | .unknownCommand
  | .configure | .start | .stop | .abandon | .acquire | .release | .renew | .arrive | .status | .queryLock
  | .queryMembers | .ownSlotStart | .receptionTimeLimit | .syncLost | .silenceWindowEnd | .slotEnd | .heldSlotEnd
  | .absenceRemoval | .orphanFounded | .leavingCountExpiry | .leaseExpiry | .waitLimitExpiry | .founded | .sselNegated
  | .receptionBegins _ | .ltxeAsserted | .transmissionEnd => true

end Sys2Proof
end

