-- ==== Sys2Proof/Tests/Slice0.lean ====
section
/-! SUPPORT. The model's own tests: the smoke test of WellFormed, one step of each kind of command against what the spec
says of it, and a witness for the hypotheses of each statement. -/

namespace Sys2Proof.Tests

open Sys2Proof.Machine

/-! ## WellFormed: an ill-formed command for each check -/

/-- No more than 100 characters fit into the 1000 bit times of R83. -/
theorem test_wellFormed_refuses_long_reception :
    Instr.wellFormed (.receptionEnded (List.replicate 101 0x1FF#9)) = false := by decide

set_option maxRecDepth 20000 in
/-- The longest frame has 95 bytes (section 12.3). -/
theorem test_wellFormed_refuses_long_echo :
    Instr.wellFormed (.echoJudged false (List.replicate 951 true) false) = false := by decide

set_option maxRecDepth 20000 in
/-- Operands at their limits are well-formed. -/
theorem test_wellFormed_admits_the_limits :
    Instr.wellFormed (.receptionEnded []) = true
      ∧ Instr.wellFormed (.receptionEnded (List.replicate 100 0x1FF#9)) = true
      ∧ Instr.wellFormed (.echoJudged false [] true) = true
      ∧ Instr.wellFormed (.echoJudged true (List.replicate 950 true) false) = true := by decide

/-- The table gives no row any bits, so no word spells a command. -/
theorem test_no_word_spells_a_command : decodeTableWord 8 0x10 = none ∧ decodeTableWord 16 0xFFFF = none := by decide

/-! ## Small states -/

/-- Round size `n`, slots of 1000 bit times, absence limit 2, lease period 2, every kind stored. -/
def config (own : StationNo) (n : Nat) : StationConfig :=
  { number := own, roundSize := n, slotLength := 1000, divisor := 8, absenceLimit := 2, leasePeriod := 2
    eventMask := 0xF#4 }

/-- The present set of the listed stations, some of them marked. -/
def membersOf (present marked : List Nat) : Vector (Option Member) 16 :=
  tabulate fun r => if r.val ∈ present then some { joining := decide (r.val ∈ marked), absence := 0 } else none

/-- A configured station in a state without timing. -/
def quiet (station : StationState) (own : StationNo) (n : Nat) : State :=
  { State.reset with station := station, config := some (config own n) }

/-- A station in slot `slot` of round `round`, its status confirmed, with nothing due. -/
def timed (station : StationState) (own : StationNo) (n : Nat) (slot : StationNo) (round : Word16) : State :=
  { quiet station own n with timing := some (freshSlot true slot round false) }

/-- A SYNCED station of the group of stations 0 to n-1. -/
def synced (own : StationNo) (n : Nat) (slot : StationNo) (round : Word16) : State :=
  { timed .synced own n slot round with installed := allChunks, members := membersOf (List.range n) [] }

/-- A state with a lock entry. -/
def withLockEntry (lock : LockNo) (e : LockEntry) (s : State) : State := { s with locks := s.locks.set lock e }

/-- A state with a request. -/
def withRequest (lock : LockNo) (tag : Byte) (leased : Bool) (wait : Option Nat) (state : RequestState) (s : State) :
    State :=
  { s with requests := s.requests.set lock (some { tag := tag, leased := leased, wait := wait, state := state }) }

/-- A state with one command record waiting. -/
def withCommand (kind tag : Byte) (params : List Byte) (s : State) : State :=
  { s with commands := [{ kind := kind, tag := tag, params := params }] }

/-- A state in an own slot start, or at a phase of the current slot. -/
def withTiming (f : Timing → Timing) (s : State) : State := { s with timing := s.timing.map f }

/-- The state a command leads to. -/
def after (c : Instr) (s : State) : State :=
  match exec c s with
  | .next t => t
  | .fault _ | .refused _ => s

/-- A frame without digest, wanted set and chunk. -/
def plainFrame (station : StationNo) (round : Word16) (items : List Item) : Frame :=
  { station := station, join := false, round := round, digest := none, want := none, chunk := none, items := items }

/-- The characters of a frame as they are received. -/
def heard (f : Frame) : List RxChar := charsOf (frameBytes f)

/-- A reception in the current slot, `age` bit times old. -/
def receiving (age : Nat) (s : State) : State :=
  let place := s.timing.map fun t => (t.slot, t.round)
  { s with
    reception := some { place := place, late := false, counts := true, age := age, samples := none, excess := false } }

/-- An echo comparator that has sampled nothing yet. -/
def comparator (f : Frame) : EchoComparator := { frame := f, early := false, samples := [], after := false }

/-- `n` bit times pass. -/
def passBits : Nat → State → State
  | 0, s => s
  | n + 1, s => passBits n (passBitTime s)

/-! ## Host port -/

/-- R151: a byte travels most significant bit first: 81h. -/
theorem test_bits_of_a_byte : bitsOf [0x81#8] = [true, false, false, false, false, false, false, true] := by decide

/-- R152, Table 12-1: with one answer waiting in SYNCED the status byte is 15h, sent while the code byte comes in. -/
theorem test_sselAssert_sends_the_status :
    (after (.sselAssert (bitsOf [0x03#8])) { synced 1 3 0 7 with answers := [.accepted 1 0x20] }).miso
      = bitsOf [0x15#8] := by decide

/-- R151: seven cycles leave the code byte incomplete: nothing is cleared. -/
theorem test_sselAssert_in_part_has_no_effect :
    let s := { quiet .ready 1 3 with cut := true }
    (after .sselNegated (after (.sselAssert ((bitsOf [0x03#8]).take 7)) s)).cut = true := by decide

set_option maxRecDepth 20000 in
/-- R151: an unknown code, and the three bytes after it: 00h follow the status byte. -/
theorem test_unknown_code_sends_zeros :
    (after (.sselAssert (bitsOf [0x7F#8, 0x11#8, 0x0A#8, 0x00#8])) (quiet .ready 1 3)).miso
      = bitsOf [0x01#8, 0x00#8, 0x00#8, 0x00#8] := by decide

/-- R153: START with tag 0Ah, whole, in two rows. -/
theorem test_commandTransaction_takes_the_record :
    let s := after (.sselAssert []) (quiet .ready 1 3)
    (after (.commandTransaction (bitsOf [0x00#8])) (after (.commandTransaction (bitsOf [0x11#8, 0x0A#8])) s)).commands
      = [{ kind := 0x11, tag := 0x0A, params := [] }] := by decide

/-- R154: cut with the count byte missing. -/
theorem test_cut_sets_the_indication :
    (after .cut (after (.commandTransaction (bitsOf [0x11#8, 0x0A#8]))
      (after (.sselAssert []) (quiet .ready 1 3)))).cut = true := by decide

set_option maxRecDepth 20000 in
/-- R156, Table 12-4: ACCEPTED of tag 33h and kind 20h is 01 04 33 20h, after the status byte. -/
theorem test_answerTransaction_sends_the_head :
    let s := { synced 1 3 0 7 with answers := [.accepted 0x33 0x20] }
    let t := after (.answerTransaction (bitsOf [0x00#8, 0x00#8, 0x00#8, 0x00#8])) (after (.sselAssert []) s)
    t.miso = bitsOf [0x15#8, 0x01#8, 0x04#8, 0x33#8, 0x20#8] ∧ t.answers = [] := by decide

set_option maxRecDepth 20000 in
/-- R156: 31 of the 32 bits leave the record in the queue. -/
theorem test_answerTransaction_in_part_keeps_the_record :
    let s := { synced 1 3 0 7 with answers := [.accepted 0x33 0x20] }
    (after (.answerTransaction (List.replicate 31 false)) (after (.sselAssert []) s)).answers
      = [.accepted 0x33 0x20] := by decide

/-- R157: PEEK clears the cut indication, its own status byte still shows it, and 00h follows. -/
theorem test_peek_clears_the_cut_indication :
    let t := after (.sselAssert (bitsOf [0xFF#8])) (after .peek (after (.sselAssert []) { quiet .ready 1 3 with cut := true }))
    t.cut = false ∧ t.miso = bitsOf [0x41#8, 0x00#8] := by decide

/-- R151: a negation in the code phase ends the transaction without a cut. -/
theorem test_sselNegated_in_the_code_phase :
    let t := after .sselNegated (after (.sselAssert []) (quiet .ready 1 3))
    t.port = .idle ∧ t.cut = false := by decide

/-- R151: with SSEL asserted at the reset its negation is awaited. -/
theorem test_hardReset_awaits_negation :
    let t := after .hardReset (after (.sselAssert []) (synced 1 3 0 7))
    t.station = .unconfigured ∧ t.port = .awaitNegation ∧ t.config = none := by decide

/-! ## Commands -/

/-- R160: kind 7Fh is none of the eleven. -/
theorem test_unknownCommand_is_refused :
    (after .unknownCommand (withCommand 0x7F 0x01 [] (quiet .ready 1 3))).answers
      = [.refused 0x01 0x7F .unknownCommand] := by decide

/-- R116, Table 12-3: number 2, N 4, slot length 1000 (03E8h), divisor 160 (00A0h), M 3, P 2, mask 0Fh. -/
theorem test_configure_reads_its_parameters :
    let t := after .configure
      (withCommand 0x10 0x01 [0x02, 0x04, 0xE8, 0x03, 0xA0, 0x00, 0x03, 0x02, 0x0F] State.reset)
    t.station = .ready ∧ t.config = some
      { number := 2, roundSize := 4, slotLength := 1000, divisor := 160, absenceLimit := 3, leasePeriod := 2
        eventMask := 0xF#4 } := by decide

/-- R116: the own number must lie below N. -/
theorem test_configure_refuses_a_number_at_n :
    (after .configure
      (withCommand 0x10 0x01 [0x04, 0x04, 0xE8, 0x03, 0xA0, 0x00, 0x03, 0x02, 0x0F] State.reset)).answers
      = [.refused 0x01 0x10 .badConfig] := by decide

set_option maxRecDepth 20000 in
/-- R117: START in READY. -/
theorem test_start_listens :
    let t := after .start (withCommand 0x11 0x05 [] (quiet .ready 1 3))
    t.station = .listening ∧ t.answers = [.accepted 0x05 0x11, .event (.state .listening .started)] := by decide

/-- R113: START in SYNCED is refused with BAD_STATE. -/
theorem test_start_in_synced_is_refused :
    (after .start (withCommand 0x11 0x05 [] (synced 1 3 0 7))).answers = [.refused 0x05 0x11 .badState] := by decide

set_option maxRecDepth 20000 in
/-- R121: STOP in SYNCED ends a request LOST and queues the LEAVE intent. -/
theorem test_stop_leaves :
    let t := after .stop (withCommand 0x12 0x05 [] (withRequest 63 0x77 false none .held (synced 1 3 0 7)))
    t.station = .leaving ∧ t.outbox = [newIntent .leave]
      ∧ t.answers = [.accepted 0x05 0x12, .event (.lost 0x77 (.lock 63)), .event (.state .leaving .stopping)] :=
  ⟨by decide, by decide, by decide⟩

set_option maxRecDepth 20000 in
/-- R123: ABANDON in LEAVING. -/
theorem test_abandon_returns :
    let t := after .abandon (withCommand 0x13 0x05 [] { synced 1 3 0 7 with station := .leaving })
    t.station = .ready ∧ t.timing = none ∧ t.installed = 0 := by decide

set_option maxRecDepth 20000 in
/-- R57: a wait limit of 0 leaves the wait remaining absent. -/
theorem test_acquire_without_limit :
    let t := after .acquire (withCommand 0x20 0xC2 [0x05, 0x00, 0x00] (synced 2 3 0 20))
    t.requests[5] = some { tag := 0xC2, leased := false, wait := none, state := .pending }
      ∧ t.outbox = [newIntent (.acquire 5)] := by decide

set_option maxRecDepth 20000 in
/-- R162: a second ACQUIRE for the lock is BUSY. -/
theorem test_acquire_again_is_busy :
    (after .acquire (withCommand 0x20 0xC3 [0x05, 0x01, 0x02]
      (withRequest 5 0xC2 false none .pending (synced 2 3 0 20)))).answers = [.refused 0xC3 0x20 .busy] := by decide

set_option maxRecDepth 20000 in
/-- R65, Table 4-6: RELEASE of a PENDING request whose intent is not in flight cancels it. -/
theorem test_release_cancels :
    let t := after .release (withCommand 0x21 0x99 [0x05]
      { withRequest 5 0xC2 false none .pending (synced 2 3 0 20) with outbox := [newIntent (.acquire 5)] })
    t.requests[5] = none ∧ t.outbox = [] ∧ t.answers = [.accepted 0x99 0x21, .event (.cancelled 0xC2 5)] :=
  ⟨by decide, by decide, by decide⟩

/-- R66: a second RENEW merges with the first. -/
theorem test_renew_merges :
    let s := withRequest 5 0xC2 true none .held (synced 2 3 0 20)
    let t := after .renew (withCommand 0x22 0x02 [0x05] (after .renew (withCommand 0x22 0x01 [0x05] s)))
    t.outbox = [newIntent (.renew 5)] ∧ t.answers = [.accepted 0x01 0x22, .accepted 0x02 0x22] := by decide

/-- R165: barrier 8 does not exist. -/
theorem test_arrive_refuses_barrier_eight :
    (after .arrive (withCommand 0x23 0x01 [0x08] (synced 2 3 0 20))).answers = [.refused 0x01 0x23 .badBarrier] := by
  decide

/-- R70: the record is added in PENDING. -/
theorem test_arrive_adds_a_record :
    let t := after .arrive (withCommand 0x23 0x01 [0x07] (synced 2 3 0 20))
    t.barrierRecords[7] = some { tag := 0x01, arrived := false } ∧ t.outbox = [newIntent (.arrive 7)] := by decide

/-- R166: the reply carries the notices, which are then emptied. -/
theorem test_status_clears_the_notices :
    let t := after .status (withCommand 0x30 0x44 [] { synced 2 3 0 20 with notices := 0x2001#15 })
    t.notices = 0 ∧ t.answers = [.status 0x44
      { state := .synced, round := 20, present := 3, requests := 0, intents := 0, installed := allChunks
        notices := 0x2001#15 }] := by decide

/-- R167: an entry whose chunk is not installed is UNKNOWN. -/
theorem test_queryLock_of_a_chunk_not_installed :
    (after .queryLock (withCommand 0x31 0x44 [0x08] { synced 2 3 0 20 with installed := 0x003#9 })).answers
      = [.lockInfo 0x44 8 .unknown] := by decide

/-- R168: without membership the list is empty. -/
theorem test_queryMembers_without_membership :
    (after .queryMembers (withCommand 0x32 0x44 [] (timed .joining 2 3 0 20))).answers = [.members 0x44 false []] := by
  decide

/-! ## The line -/

/-- Table 5-3: a joiner's frame is six bytes and the wanted set: header 51h for station 1 with JOIN and WANT, round 7. -/
theorem test_ownSlotStart_of_a_joiner :
    let s := withTiming (fun t => { t with ownStartDue := true }) { timed .joining 1 3 1 7 with wanted := allChunks }
    ((after .ownSlotStart s).txBuffer).take 6 = [0x51#8, 0x07#8, 0x00#8, 0x00#8, 0xFF#8, 0x01#8] := by decide

set_option maxRecDepth 20000 in
/-- R148: a tally of 1 and 2 is DIVERGED (Table 13-5). -/
theorem test_ownSlotStart_diverged :
    (giveVerdict { synced 1 3 1 701 with mismatchCount := 2 }).station = .joining := by decide

/-- R80: LTXE from bit time 12 on. -/
theorem test_ltxe_at_bit_time_12 :
    let s := { synced 1 3 1 7 with echo := some (comparator (plainFrame 1 7 [])) }
    (after .ltxeAsserted (withTiming (fun t => { t with phase := 12 }) s)).ltxe = true
      ∧ (after .ltxeAsserted (withTiming (fun t => { t with phase := 11 }) s)).ltxe = false := by decide

/-- R80: six bytes end at bit time 76; LTXE is negated two bit times later. -/
theorem test_transmissionEnd_at_bit_time_78 :
    let s := { synced 1 3 1 7 with echo := some (comparator (plainFrame 1 7 [])), ltxe := true }
    (after .transmissionEnd (withTiming (fun t => { t with phase := 78 }) s)).ltxe = false
      ∧ (after .transmissionEnd (withTiming (fun t => { t with phase := 77 }) s)).ltxe = true := by decide

/-- R77: on a corrupt echo the ACQUIRE in flight returns and nothing is applied (Table 13-5, round 700, slot 1). -/
theorem test_echoJudged_corrupt :
    let f := plainFrame 1 700 [.acquire 40 false]
    let s := withRequest 40 0x71 false none .pending
      { synced 1 3 1 700 with
        echo := some (comparator f)
        outbox := [{ kind := .acquire 40, inFlight := true, trailing := .none }] }
    let t := after (.echoJudged false [] false) (withTiming (fun t => { t with phase := 120 }) s)
    t.outbox = [newIntent (.acquire 40)] ∧ t.locks[40] = .free := ⟨by decide, by decide⟩

/-- `n` bit times pass in which LRX follows LTX, as the transceiver wires them. -/
def hearItself : Nat → State → State
  | 0, s => s
  | n + 1, s => hearItself n (passBitTime (if s.ltx then s else after (.receptionBegins 1) s))

/-- The last character of an own frame of six bytes is about to go out; the others were heard as sent. -/
def lastCharacter : State :=
  let f := plainFrame 1 7 []
  { withTiming (fun t => { t with phase := 66, begun := true }) (synced 1 3 1 7) with
    txBuffer := frameBytes f
    ltxe := true
    ltx := false
    echo := some { comparator f with samples := (lineBits (frameBytes f)).take 50 } }

set_option maxRecDepth 20000 in
/-- R87: an echo heard bit by bit is judged well-formed 4 bit times after the last stop bit, at 16 + 60 + 4 = 80. -/
theorem test_echo_heard_bit_by_bit :
    let s := hearItself 2 (after .transmissionEnd (hearItself 12 lastCharacter))
    partDue s = some (.echoJudged false [] false)
      ∧ (after (.echoJudged false [] false) s).timing.map Timing.usable
          = some (some { own := true, join := false, leave := false }) := by decide

set_option maxRecDepth 20000 in
/-- R87: an echo that is not heard is corrupt. -/
theorem test_echo_not_heard :
    let s := passBits 2 (after .transmissionEnd (passBits 12 lastCharacter))
    partDue s = some (.echoJudged false [] false)
      ∧ (after (.echoJudged false [] false) s).timing.map Timing.echoCorrupt = some true := by decide

set_option maxRecDepth 20000 in
/-- R87: a start bit at bit time 79 lies in the four after the last stop bit, one at bit time 80 does not. -/
theorem test_echo_start_bit_after :
    let s := after .transmissionEnd (hearItself 12 lastCharacter)
    ((after (.receptionBegins 1) (passBits 1 s)).echo.map EchoComparator.after) = some true
      ∧ ((after (.receptionBegins 1) (passBits 2 s)).echo.map EchoComparator.after) = some false := by decide

set_option maxRecDepth 20000 in
/-- R87: at phase 0 of the own slot, before the frame is built, a start bit that goes on with a late reception of the slot
before spoils the echo; without one the echo starts unspoiled. -/
theorem test_start_bit_before_the_frame_is_built :
    let s := withTiming (fun t => { t with ownStartDue := true }) (synced 1 3 1 7)
    let late : Reception :=
      { place := some (0, 7), late := true, counts := true, age := 30, samples := none, excess := false }
    let heard := after (.receptionBegins 1) { s with reception := some late }
    ((after .ownSlotStart heard).echo.map EchoComparator.early) = some true
      ∧ ((after .ownSlotStart { s with reception := some late }).echo.map EchoComparator.early) = some false :=
  ⟨by decide, by decide⟩

/-- R97, R105: in LISTENING a frame out of place that ended a hold replaces the timing, and no hold is left (log 34). -/
theorem test_held_timing_is_replaced :
    let s := withTiming (fun t => { t with phase := 1010, held := true }) (timed .listening 2 3 1 20)
    let t := hearFrame (plainFrame 0 99 []) false 980 s
    t.timing.map Timing.held = some false ∧ t.timing.map Timing.phase = some 996 ∧ t.timing.map Timing.slot = some 0 := by
  decide

/-- R79, R83: a start bit in LISTENING begins a reception without a slot; one sampled at 1 does not. -/
theorem test_receptionBegins :
    ((after (.receptionBegins 1) (quiet .listening 1 3)).reception).isSome = true
      ∧ ((after (.receptionBegins 0) (quiet .listening 1 3)).reception).isSome = false := by decide

/-- R79: a start bit of one bit time and then 1 for the eight data bits and the stop bit: FFh, without an error. -/
theorem test_receiveBit_gathers_a_character :
    let s := passBits 10 (after (.receptionBegins 1) (quiet .listening 1 3))
    s.rxBuffer = [0x1FF#9] ∧ s.lineWait = 0 := by decide

/-- R79: after a stop bit at 0, a start bit is accepted only when the line has stood at 1 for a bit time. -/
theorem test_framing_error_waits_for_one_bit_time :
    let s := passBits 10 (after (.receptionBegins 10) (quiet .listening 1 3))
    let refused := (after (.receptionBegins 1) s).reception
    let accepted := (after (.receptionBegins 1) (passBitTime s)).reception
    s.rxBuffer = [0x000#9] ∧ refused.map Reception.samples = some none ∧ accepted.map Reception.samples = some (some []) := by
  decide

/-- R83: on an empty queue a reception ends Short when the line has stood at 1 for four bit times after its character. -/
theorem test_reception_ends_short :
    let s := after (.receptionBegins 1) (quiet .listening 1 3)
    partDue (passBits 13 s) = none ∧ partDue (passBits 14 s) = some (.receptionEnded []) := by decide

set_option maxRecDepth 20000 in
/-- R79, R82, R85: the frame of station 0 in round 22 with RELEASE(5) reads back. -/
theorem test_frame_reads_back :
    wellFormedFrame (heard (plainFrame 0 22 [.release 5])) = some (plainFrame 0 22 [.release 5]) := by decide

set_option maxRecDepth 20000 in
/-- Table 13-1, round 20, slot 1: ACQUIRE(5) from station 1 at station 2's replica: HELD 0; (1). -/
theorem test_receptionEnded_applies_an_item :
    let s := receiving 90 (withLockEntry 5 (.held 0 none []) (synced 2 3 1 20))
    (after (.receptionEnded (heard (plainFrame 1 20 [.acquire 5 false]))) s).locks[5]
      = .held 0 none [{ station := 1, leased := false }] := by decide

set_option maxRecDepth 20000 in
/-- R101: a frame of another round is out of place, and counts. -/
theorem test_receptionEnded_out_of_place :
    (after (.receptionEnded (heard (plainFrame 1 21 []))) (receiving 90 (synced 2 3 1 20))).disagreement = 1 := by decide

/-- R83: at 1000 bit times the reception ends, and the line must rest for four. -/
theorem test_receptionTimeLimit :
    let t := after .receptionTimeLimit (receiving 1000 (synced 2 3 1 20))
    t.reception = none ∧ t.lineWait = 4 := by decide

/-- R83: after the time limit three bit times at 1, a fall, and three more are not four. -/
theorem test_time_limit_waits_for_four_bit_times :
    let t := after .receptionTimeLimit (receiving 1000 (synced 2 3 1 20))
    let u := passBits 4 (after (.receptionBegins 1) (passBits 3 t))
    (after (.receptionBegins 1) u).reception = none
      ∧ ((after (.receptionBegins 1) (passBits 1 u)).reception).isSome = true := by decide

set_option maxRecDepth 20000 in
/-- R102, R104, R125: from SYNCED to LISTENING, and the frame gives tentative timing. -/
theorem test_syncLost_listens :
    let t := after .syncLost { synced 2 3 1 20 with work := [.syncLost (plainFrame 0 99 []) 60] }
    t.station = .listening ∧ t.timing.map Timing.round = some 99 ∧ t.timing.map Timing.phase = some 76 :=
  ⟨by decide, by decide, by decide⟩

/-! ## Slots -/

/-- R96: no start bit up to phase 64. -/
theorem test_silenceWindowEnd :
    ((after .silenceWindowEnd (withTiming (fun t => { t with phase := 65 }) (synced 2 3 1 20))).timing.map
      Timing.silent) = some true := by decide

set_option maxRecDepth 20000 in
/-- R95, R98: after slot 2 of three comes slot 0 of the next round. -/
theorem test_slotEnd_at_the_round_end :
    let s := withTiming (fun t => { t with phase := 1000 }) { timed .listening 2 3 2 20 with rxBuffer := [] }
    (after .slotEnd s).timing.map Timing.slot = some 0 ∧ (after .slotEnd s).timing.map Timing.round = some 21 :=
  ⟨by decide, by decide⟩

/-- R49: a silent slot raises its owner's count. -/
theorem test_slotEnd_counts_an_absence :
    let s := withTiming (fun t => { t with phase := 1000 }) (synced 2 4 1 20)
    (after .slotEnd s).members[1] = some { joining := false, absence := 1 } := by decide

/-- R97: the held slot end follows when the reception has ended. -/
theorem test_heldSlotEnd :
    let s := withTiming (fun t => { t with phase := 1100, held := true }) (timed .listening 2 3 0 20)
    (after .heldSlotEnd s).timing.map Timing.slot = some 1 := by decide

/-- Table 13-3: the removal of station 3 passes lock 30 to station 2. -/
theorem test_absenceRemoval_passes_a_lock :
    let s := withLockEntry 30 (.held 3 none [{ station := 2, leased := false }])
      { synced 1 4 3 52 with work := [.absenceRemoval 3] }
    (removeFromLock 3 30 s).locks[30] = .held 2 none [] := by decide

/-- R140: station 2 alone in J is its lowest. -/
theorem test_orphanFounded :
    let t := after .orphanFounded { timed .joining 2 3 1 20 with wanted := allChunks, work := [.orphanAction] }
    t.station = .synced ∧ t.installed = allChunks ∧ t.members[2] = some { joining := false, absence := 0 } :=
  ⟨by decide, by decide, by decide⟩

set_option maxRecDepth 20000 in
/-- R122: the STOP completes with cause LEFT. -/
theorem test_leavingCountExpiry :
    (after .leavingCountExpiry { timed .leaving 2 3 1 20 with work := [.leavingExpiry] }).answers
      = [.event (.state .ready .left)] := by decide

/-- R18: the lease of lock 10 expires and it passes, leased, to station 1. -/
theorem test_leaseExpiry_passes :
    let s := withLockEntry 10 (.held 3 (some 1) [{ station := 1, leased := true }])
      { synced 2 4 3 52 with work := [.leaseExpiry 10] }
    (after .leaseExpiry s).locks[10] = .held 1 (some 7) [] := by decide

/-- Table 13-1, end of round 21: the WAITING request becomes EXPIRING and a RELEASE is queued. -/
theorem test_waitLimitExpiry :
    let s := withRequest 5 0xB1 false (some 1) .waiting { synced 1 3 2 21 with work := [.waitExpiry 5] }
    let t := after .waitLimitExpiry s
    t.outbox = [newIntent (.release 5)] ∧ (t.requests[5]).map Request.state = some .expiring := ⟨by decide, by decide⟩

/-- R103, R107: number 1 of N = 3 founds after 8 slot lengths of silence, in its own slot of round 0. -/
theorem test_founded :
    let s := { quiet .listening 1 3 with silence := 8000 }
    (after .founded s).station = .founding ∧ (after .founded s).timing.map Timing.slot = some 1
      ∧ (after .founded { s with silence := 7999 }).station = .listening := ⟨by decide, by decide, by decide⟩

/-! ## Events and items -/

/-- R173, Table 11-3: the 32nd record is a marker with count 1. -/
theorem test_placeEvent_forms_a_marker :
    (placeEvent (.memberJoined 3) { synced 1 3 0 7 with answers := List.replicate 31 (.accepted 0 0x20) }).answers
      = List.replicate 31 (.accepted 0 0x20) ++ [.overrun 1] := by decide

/-- Table 2-2, third and fourth rows: the empty set fails, the set of 0 and 1 passes against the required set of both. -/
theorem test_completionTest : completionTest 0x0000 0x0003 = false ∧ completionTest 0x0003 0x0003 = true := by decide

/-! ## Witnesses: states and operands that meet the hypotheses of each statement, at the limits of their ranges -/

/-- A record of the kind, with tag 1 and these parameters, is the one that waits, and may be taken. -/
def TakesAt (kind : CommandKind) (params : List Byte) (s : State) : Prop :=
  Takes kind { kind := kindByte kind, tag := 1, params := params } [] (withCommand (kindByte kind) 1 params s)

theorem takesAt {kind : CommandKind} {params : List Byte} {s : State} (count : countNeeded kind ≤ params.length)
    (room : s.answers.length ≤ 30) (quiet : s.work = []) : TakesAt kind params s :=
  ⟨rfl, rfl, count, room, quiet⟩

/-- The port in a phase of a transaction. -/
def atPort (phase : PortPhase) (answers : List Answer) : State :=
  { quiet .ready 1 3 with ssel := true, port := phase, answers := answers, shiftOut := bitsOf [0x00#8] }

/-- A reception in progress, within a character when samples are given. -/
def gathering (samples : Option (List Bool)) (s : State) : State :=
  { s with
    reception := some { place := none, late := false, counts := true, age := 1, samples := samples, excess := false } }

/-- Nothing waits and nothing is due. -/
def Idles (s : State) : Prop := s.pending = [] ∧ hostDue s = none ∧ partDue s = none

theorem test_witness_IdleStepPassesABitTime :
    let s := timed .listening 1 3 0 7
    Idles s ∧ s.reception = none ∧ Idles (quiet .listening 1 3)
      ∧ Idles (gathering none s) ∧ Idles (gathering (some []) s) ∧ Idles (gathering (some (List.replicate 8 true)) s)
      ∧ Idles (gathering (some (List.replicate 9 true)) s)
      ∧ ∀ i : Fin 9, (0x1FF#9).getLsbD i.val = (List.replicate 9 true ++ [true]).getD (i.val + 1) false := by
  unfold Idles
  decide

theorem test_witness_AssertionBeginsATransaction :
    State.reset.ssel = false ∧ State.reset.port = .idle ∧ State.reset.answers = []
      ∧ ([] : List Bool).length < 8 ∧ (List.replicate 7 true).length < 8
      ∧ { State.reset with answers := [.overrun 1] }.answers = .overrun 1 :: []
      ∧ (0x00#8 ≠ 0x01#8 ∧ 0x00#8 ≠ 0x02#8 ∧ 0x00#8 ≠ 0x03#8)
      ∧ (atPort .peeking []).ssel = true ∧ (atPort .peeking []).port = .peeking ∧ (atPort .ignored []).port = .ignored
      ∧ (atPort .peeking []).shiftIn = [] ∧ (atPort .peeking []).shiftOut = bitsOf [0x00#8]
      ∧ exec (.sselAssert [true]) State.reset = .next (after (.sselAssert [true]) State.reset) :=
  ⟨rfl, rfl, rfl, by decide, by decide, rfl, by decide, rfl, rfl, rfl, rfl, rfl, rfl⟩

theorem test_witness_CommandRecordIsTakenWhole :
    let s := after (.sselAssert ((bitsOf [0x01#8]).take 7)) (quiet .ready 1 3)
    let t := after (.sselAssert []) (quiet .ready 1 3)
    s.ssel = true ∧ s.port = .code true ∧ s.shiftIn = (bitsOf [0x01#8]).take 7 ∧ s.shiftOut.length = 8 - 7
      ∧ t.ssel = true ∧ t.port = .code true ∧ t.shiftIn = (bitsOf [0x01#8]).take 0 ∧ t.shiftOut.length = 8 - 0
      ∧ (atPort (.collecting []) []).ssel = true ∧ (atPort (.collecting []) []).port = .collecting []
      ∧ (atPort (.collecting []) []).shiftIn = [] ∧ (atPort (.collecting []) []).shiftOut = bitsOf [0x00#8]
      ∧ ([] : List Byte).length ≤ 15 ∧ (List.replicate 15 0xFF#8).length ≤ 15
      ∧ [0x11#8, 0x0A#8] ++ [0x00#8] = 0x11#8 :: 0x0A#8 :: byteOf ([] : List Byte).length :: [] ∧ [0x00#8] ≠ [] := by decide

theorem test_witness_NoRecordIsTakenInPart :
    let s := atPort (.collecting [0x11#8]) []
    s.ssel = true ∧ s.shiftIn = [] ∧ s.shiftOut = bitsOf [0x00#8] ∧ s.port = .collecting [0x11#8] ∧ [0x11#8].length ≤ 2
      ∧ (∃ more, [0x11#8] ++ [0x0A#8, 16#8] = 0x11#8 :: 0x0A#8 :: 16#8 :: more) ∧ 15 < (16#8).toNat
      ∧ ([0x11#8] ++ [0x0A#8]).length ≤ 2
      ∧ (∃ kind tag count params, [0x11#8] ++ ([0x0A#8, 15#8] ++ List.replicate 14 0x00#8) = kind :: tag :: count :: params
          ∧ count.toNat ≤ 15 ∧ params.length < count.toNat)
      ∧ (atPort .full []).port = .full ∧ (atPort .badCount []).port = .badCount ∧ (atPort .taken []).port = .taken
      ∧ (atPort .full []).shiftOut = bitsOf [0x00#8] :=
  ⟨rfl, rfl, by decide, rfl, by decide, ⟨[], rfl⟩, by decide, by decide,
    ⟨0x11, 0x0A, 15, List.replicate 14 0x00#8, rfl, by decide, by decide⟩, rfl, rfl, rfl, by decide⟩

theorem test_witness_NegationEndsTheTransaction :
    (atPort (.collecting []) []).ssel = true ∧ (∃ bytes, (atPort (.collecting []) []).port = .collecting bytes)
      ∧ (atPort .badCount []).port = .badCount
      ∧ (∀ bytes, (atPort .taken []).port ≠ .collecting bytes) ∧ (atPort .taken []).port ≠ .badCount :=
  ⟨rfl, ⟨[], rfl⟩, rfl, (by intro _ h; cases h), by decide⟩

theorem test_witness_AnswerIsClockedOutAndPeekClearsTheCut :
    let start (code : Byte) (k : Nat) (answers : List Answer) :=
      after (.sselAssert ((bitsOf [code]).take k)) { quiet .ready 1 3 with answers := answers }
    let sends := { atPort (.answering [0x01#8, 0x04#8] true) [.accepted 1 2] with shiftOut := bitsOf [0x01#8] }
    (∀ k : Fin 8, (start 0x03 k.val []).port = .code true ∧ (start 0x03 k.val []).shiftOut.length = 8 - k.val
        ∧ (start 0x03 k.val []).shiftIn = (bitsOf [0x03#8]).take k.val)
      ∧ (start 0x02 7 []).shiftIn = (bitsOf [0x02#8]).take 7 ∧ (start 0x02 7 []).answers = []
      ∧ (start 0x02 0 [.accepted 1 2]).answers = .accepted 1 2 :: []
      ∧ sends.ssel = true ∧ sends.port = .answering [0x01#8, 0x04#8] true ∧ sends.shiftIn = []
      ∧ sends.shiftOut = bitsOf [[0x01#8, 0x04#8].headD 0] ∧ (List.replicate 7 true).length < 8
      ∧ (List.replicate 8 true).length = 8 * 1 ∧ 1 < [0x01#8, 0x04#8].length
      ∧ (List.replicate 16 true).length = 8 * 2 ∧ [0x01#8, 0x04#8].length ≤ 2 ∧ [0x01#8, 0x04#8] ≠ []
      ∧ (atPort (.answering [] false) []).port = .answering [] false
      ∧ (atPort (.answering [] false) []).shiftOut = bitsOf [([] : List Byte).headD 0] := by decide

theorem test_witness_FirstThreeChecksRefuse :
    let s := withCommand 0x14 1 [] (quiet .listening 1 3)
    s.commands = { kind := 0x14, tag := 1, params := [] } :: [] ∧ s.work = [] ∧ s.answers.length ≤ 30
      ∧ 0x14#8 ∉ [0x10#8, 0x11#8, 0x12#8, 0x13#8, 0x20#8, 0x21#8, 0x22#8, 0x23#8, 0x30#8, 0x31#8, 0x32#8]
      ∧ (∀ kind ∈ [CommandKind.configure, .acquire, .release, .renew, .arrive, .queryLock],
          (List.replicate (countNeeded kind - 1) 0#8).length < countNeeded kind)
      ∧ (∀ kind ∈ [CommandKind.configure, .start, .acquire, .release, .renew, .arrive],
          countNeeded kind ≤ (List.replicate (countNeeded kind) 0#8).length ∧ actsIn kind .listening = false)
      ∧ (actsIn .stop .leaving = false ∧ actsIn .abandon .ready = false ∧ actsIn .queryLock .unconfigured = false
          ∧ actsIn .queryMembers .unconfigured = false) := by decide

theorem test_witness_ConfigureStoresOrRefuses :
    (⟨0, 2, 1000, 4, 2, 1, 0⟩ : StationConfig).inRange ∧ (⟨15, 16, 8191, 4095, 8, 8, 0xF#4⟩ : StationConfig).inRange
      ∧ State.reset.work = [] ∧ State.reset.answers.length ≤ 30 ∧ State.reset.station = .unconfigured
      ∧ TakesAt .configure [3, 17, 0xE8, 3, 4, 0, 2, 1, 0x10] State.reset
      ∧ 16 < (17#8).toNat ∧ 16 ≤ (0x10#8).toNat := by
  refine ⟨?_, ?_, rfl, by decide, rfl, takesAt (by decide) (by decide) rfl, ?_, ?_⟩
  · simp [StationConfig.inRange]
  · simp [StationConfig.inRange]
  · decide
  · decide

theorem test_witness_StartBeginsToListen :
    TakesAt .start [] (quiet .ready 1 3)
      ∧ (quiet .ready 1 3).station = .ready ∧ RecordsLaw (withCommand (kindByte .start) 1 [] (quiet .ready 1 3)) :=
  ⟨takesAt (by decide) (by decide) rfl, rfl, .inr (.inr ⟨by decide, by decide⟩)⟩

theorem test_witness_StopEndsTheRecords :
    TakesAt .stop [] (quiet .listening 1 3)
      ∧ (quiet .listening 1 3).station = .listening ∧ RecordsLaw (withCommand (kindByte .stop) 1 [] (quiet .listening 1 3))
      ∧ TakesAt .stop [] (withRequest 63 2 true none .held (synced 1 3 0 7))
      ∧ TakesAt .stop [] (timed .founding 1 3 0 7)
      ∧ TakesAt .stop [] (timed .joining 1 3 0 7) :=
  ⟨takesAt (by decide) (by decide) rfl, rfl, .inr (.inr ⟨by decide, by decide⟩),
    takesAt (by decide) (by decide) rfl, takesAt (by decide) (by decide) rfl,
    takesAt (by decide) (by decide) rfl⟩

theorem test_witness_AbandonReturnsToReady :
    TakesAt .abandon [] (withRequest 0 2 true none .held (synced 1 3 0 7))
      ∧ TakesAt .abandon [] (timed .leaving 1 3 0 7) :=
  ⟨takesAt (by decide) (by decide) rfl,
    takesAt (by decide) (by decide) rfl⟩

set_option maxRecDepth 20000 in
theorem test_witness_AcquireAddsARequest :
    TakesAt .acquire [63, 1, 0] (synced 1 3 0 7)
      ∧ TakesAt .acquire [0, 0, 255] (timed .joining 1 3 0 7)
      ∧ (63#8).toNat = (63 : LockNo).val ∧ (0#8).toNat = (0 : LockNo).val
      ∧ (synced 1 3 0 7).requests[(63 : LockNo)] = none ∧ requestCount (synced 1 3 0 7) < 16 :=
  ⟨takesAt (by decide) (by decide) rfl,
    takesAt (by decide) (by decide) rfl, by decide, by decide, by decide, by decide⟩

/-- Sixteen requests, for locks 0 to 15. -/
def fullTable : State :=
  { synced 1 3 0 7 with requests := tabulate fun L =>
      if L.val < 16 then some { tag := 1, leased := false, wait := none, state := .held } else none }

set_option maxRecDepth 20000 in
theorem test_witness_LockCommandsAreRefused :
    (∀ kind ∈ [CommandKind.acquire, .release, .renew, .queryLock],
        TakesAt kind [64, 0, 0] (synced 1 3 0 7)
        ∧ actsIn kind .synced = true ∧ 63 < (64#8).toNat)
      ∧ TakesAt .acquire [15, 0, 0] fullTable
      ∧ (∃ q, fullTable.requests[(15 : LockNo)] = some q) ∧ fullTable.requests[(16 : LockNo)] = none
      ∧ 16 ≤ requestCount fullTable
      ∧ TakesAt .release [63] (withRequest 63 1 true none .expiring fullTable)
      ∧ TakesAt .renew [0] fullTable
      ∧ (∃ q, fullTable.requests[(0 : LockNo)] = some q ∧ q.state = .held ∧ q.leased = false) := by
  refine ⟨?_, takesAt (by decide) (by decide) rfl, ⟨_, rfl⟩, by decide, by decide,
    takesAt (by decide) (by decide) rfl,
    takesAt (by decide) (by decide) rfl, ⟨_, rfl, rfl, rfl⟩⟩
  intro kind h
  refine ⟨takesAt ?_ (by decide) rfl, ?_, by decide⟩ <;> revert h <;> cases kind <;> decide

/-- A request with an intent, in flight or not. -/
def withIntent (kind : IntentKind) (inFlight : Bool) (s : State) : State :=
  { s with outbox := s.outbox ++ [{ kind := kind, inFlight := inFlight, trailing := .none }] }

theorem test_witness_ReleaseActsByState :
    (∀ state ∈ [RequestState.pending, .waiting, .held],
        TakesAt .release [63] (withRequest 63 2 true none state (synced 1 3 0 7)))
      ∧ (63#8).toNat = (63 : LockNo).val
      ∧ ((withRequest 63 2 true none .held (synced 1 3 0 7)).requests[(63 : LockNo)]).map Request.state = some .held
      ∧ (∃ i, (withIntent (.acquire 63) true (synced 1 3 0 7)).outbox.find? (fun i => i.refersToLock 63) = some i
          ∧ i.inFlight = true)
      ∧ (∃ i, (withIntent (.renew 63) false (synced 1 3 0 7)).outbox.find? (fun i => i.refersToLock 63) = some i
          ∧ i.inFlight = false)
      ∧ (synced 1 3 0 7).outbox.find? (fun i => i.refersToLock 63) = none :=
  ⟨fun _ _ => takesAt (by decide) (by simp [withRequest, synced, timed, quiet, State.reset]) rfl,
    by decide, by decide, ⟨_, rfl, rfl⟩, ⟨_, rfl, rfl⟩, rfl⟩

theorem test_witness_RenewQueuesOrMerges :
    TakesAt .renew [63] (withRequest 63 2 true none .held (synced 1 3 0 7))
      ∧ (∃ q, (withRequest 63 2 true none .held (synced 1 3 0 7)).requests[(63 : LockNo)] = some q ∧ q.state = .held
          ∧ q.leased = true)
      ∧ (∀ i ∈ (synced 1 3 0 7).outbox, i.refersToLock 63 = false)
      ∧ ∃ i ∈ (withIntent (.renew 63) true (synced 1 3 0 7)).outbox, i.refersToLock 63 = true :=
  ⟨takesAt (by decide) (by decide) rfl, ⟨_, rfl, rfl, rfl⟩, by decide,
    ⟨_, List.mem_singleton_self _, rfl⟩⟩

theorem test_witness_ArriveAddsABarrierRecord :
    TakesAt .arrive [8] (synced 1 3 0 7) ∧ 7 < (8#8).toNat
      ∧ TakesAt .arrive [7] (timed .joining 1 3 0 7)
      ∧ (7#8).toNat = (7 : BarrierNo).val ∧ (timed .joining 1 3 0 7).barrierRecords[(7 : BarrierNo)] = none
      ∧ ∃ b, (setBarrierRecord 7 (some { tag := 1, arrived := true }) (synced 1 3 0 7)).barrierRecords[(7 : BarrierNo)]
          = some b :=
  ⟨takesAt (by decide) (by decide) rfl, by decide,
    takesAt (by decide) (by decide) rfl, by decide, by decide, ⟨_, rfl⟩⟩

theorem test_witness_StatusReportsAndClearsNotices :
    TakesAt .status [] State.reset
      ∧ TakesAt .status [0xFF]
          { synced 1 3 0 7 with answers := List.replicate 30 (.overrun 1) } :=
  ⟨takesAt (by decide) (by decide) rfl, takesAt (by decide) (by decide) rfl⟩

theorem test_witness_QueriesReportTheReplica :
    TakesAt .queryLock [63] (synced 1 3 0 7)
      ∧ (synced 1 3 0 7).station ≠ .unconfigured ∧ (63#8).toNat = (63 : LockNo).val
      ∧ TakesAt .queryMembers [] (synced 1 3 0 7)
      ∧ (synced 1 3 0 7).installed.getLsbD 0 = true
      ∧ TakesAt .queryMembers [] (quiet .ready 1 3)
      ∧ (quiet .ready 1 3).installed.getLsbD 0 = false :=
  ⟨takesAt (by decide) (by decide) rfl, by decide, by decide,
    takesAt (by decide) (by decide) rfl, by decide,
    takesAt (by decide) (by decide) rfl, by decide⟩

/-- The phase of the current slot. -/
def atPhase (phase : Nat) (s : State) : State := withTiming (fun t => { t with phase := phase }) s

/-- An own slot start that is due. -/
def ownStart (s : State) : State := withTiming (fun t => { t with ownStartDue := true }) s

/-- An own slot whose frame without items is on its way. -/
def sending (s : State) : State := { s with echo := some (comparator (plainFrame 1 7 [])) }

/-- The hypotheses shared by the statements about OWN_SLOT_START. -/
def OwnStart (s : State) : Prop := s.work = [] ∧ ∃ t, s.timing = some t ∧ t.ownStartDue = true

theorem test_witness_OwnSlotStart_in_every_state :
    OwnStart (ownStart (synced 1 3 1 7)) ∧ (synced 1 3 1 7).station = .synced
      ∧ (synced 1 3 1 7).mismatchCount ≤ (synced 1 3 1 7).matchCount
      ∧ OwnStart (ownStart { synced 1 3 1 7 with mismatchCount := 2 })
      ∧ { synced 1 3 1 7 with mismatchCount := 2 }.matchCount < { synced 1 3 1 7 with mismatchCount := 2 }.mismatchCount
      ∧ OwnStart (ownStart (timed .joining 1 3 1 7))
      ∧ OwnStart (ownStart { timed .founding 1 3 1 0 with foundingOpen := true })
      ∧ OwnStart (ownStart (timed .founding 1 3 1 1)) ∧ (timed .founding 1 3 1 1).foundingOpen = false
      ∧ OwnStart (ownStart { timed .leaving 1 3 1 1 with leavingFromJoining := true }) := by
  refine ⟨⟨rfl, _, rfl, rfl⟩, rfl, by decide, ⟨rfl, _, rfl, rfl⟩, by decide, ⟨rfl, _, rfl, rfl⟩, ⟨rfl, _, rfl, rfl⟩,
    ⟨rfl, _, rfl, rfl⟩, rfl, ⟨rfl, _, rfl, rfl⟩⟩

/-- The donor's conditions, with chunk 0 or chunk 8 the lowest of its union, and a station below which another stands. -/
theorem test_witness_donor :
    (∀ r : StationNo, (0x0007#16).getLsbD r.val = ((synced 0 3 0 7).members[r]).isSome)
      ∧ (∀ r : StationNo, (0x0000#16).getLsbD r.val = ((synced 0 3 0 7).members[r]).any fun m => m.joining)
      ∧ (∃ m, (synced 0 3 0 7).members[(synced 0 3 0 7).cfg.number] = some m ∧ m.joining = false)
      ∧ (∀ r : StationNo, r < (synced 0 3 0 7).cfg.number → ¬ ∃ m, (synced 0 3 0 7).members[r] = some m ∧ m.joining = false)
      ∧ (0x1FF#9).getLsbD (0 : ChunkNo).val = true ∧ (∀ j : ChunkNo, j < 0 → (0x1FF#9).getLsbD j.val = false)
      ∧ (0x100#9).getLsbD (8 : ChunkNo).val = true ∧ (∀ j : ChunkNo, j < 8 → (0x100#9).getLsbD j.val = false)
      ∧ (0 : StationNo) < (synced 1 3 1 7).cfg.number
      ∧ (∃ m, (synced 1 3 1 7).members[(0 : StationNo)] = some m ∧ m.joining = false) := by
  refine ⟨by decide, by decide, ⟨{ joining := false, absence := 0 }, by decide, rfl⟩, ?_, by decide, by decide, by decide,
    by decide, by decide,
    ⟨{ joining := false, absence := 0 }, by decide, rfl⟩⟩
  intro r below
  exact absurd below (Nat.not_lt_zero r.val)

theorem test_witness_LineIsDrivenForTheFrame :
    (∃ e, (sending (synced 1 3 1 7)).echo = some e ∧ 16 + 10 * (frameBytes e.frame).length + 2 = 78)
      ∧ (∃ t, (atPhase 12 (synced 1 3 1 7)).timing = some t ∧ 12 ≤ t.phase ∧ t.phase < 78)
      ∧ (∃ t, (atPhase 77 (synced 1 3 1 7)).timing = some t ∧ 12 ≤ t.phase ∧ t.phase < 78)
      ∧ ∃ t, (atPhase 78 (synced 1 3 1 7)).timing = some t ∧ 78 ≤ t.phase :=
  ⟨⟨_, rfl, by decide⟩, ⟨_, rfl, by decide, by decide⟩, ⟨_, rfl, by decide, by decide⟩, ⟨_, rfl, by decide⟩⟩

/-- A leaving station whose LEAVE is on its way, judged now. -/
def leaving (installed : ChunkSet) (members : Vector (Option Member) 16) : State :=
  atPhase 100 { timed .leaving 1 3 1 7 with
    installed := installed, members := members, echo := some (comparator (plainFrame 1 7 [.leave])) }

theorem test_witness_GoodEchoAppliesTheOwnFrame :
    (∃ e t, (atPhase 80 (sending (synced 1 3 1 7))).echo = some e
      ∧ (atPhase 80 (sending (synced 1 3 1 7))).timing = some t
      ∧ (atPhase 80 (sending (synced 1 3 1 7))).work = [] ∧ (atPhase 80 (sending (synced 1 3 1 7))).ltxe = false
      ∧ 16 + 10 * (frameBytes e.frame).length + 4 ≤ t.phase ∧ e.early = false ∧ e.after = false
      ∧ e.samples ++ lineBits (frameBytes e.frame) = lineBits (frameBytes e.frame)
      ∧ (atPhase 80 (sending (synced 1 3 1 7))).pending = [] ∧ (atPhase 80 (sending (synced 1 3 1 7))).commands = []
      ∧ t.ownStartDue = false)
    ∧ (∃ e t m, (leaving allChunks (membersOf [0, 1] [])).echo = some e
      ∧ (leaving allChunks (membersOf [0, 1] [])).timing = some t ∧ 16 + 10 * (frameBytes e.frame).length + 4 ≤ t.phase
      ∧ e.frame.station = (leaving allChunks (membersOf [0, 1] [])).cfg.number ∧ e.frame.items = [.leave]
      ∧ RecordsLaw (leaving allChunks (membersOf [0, 1] []))
      ∧ (leaving allChunks (membersOf [0, 1] [])).members[(1 : StationNo)] = some m ∧ m.joining = e.frame.join)
    ∧ (leaving 0 (membersOf [] [])).station = .leaving ∧ (leaving 0 (membersOf [] [])).installed.getLsbD 0 = false
    ∧ RecordsLaw (leaving 0 (membersOf [] []))
    ∧ (leaving 0 (membersOf [] [])).members[(leaving 0 (membersOf [] [])).cfg.number] = none :=
  ⟨⟨_, _, rfl, rfl, rfl, rfl, by decide, rfl, rfl, rfl, rfl, rfl, rfl⟩,
    ⟨_, _, { joining := false, absence := 0 }, rfl, rfl, by decide, rfl, rfl, .inr (.inr ⟨by decide, by decide⟩),
      by decide, rfl⟩,
    rfl, by decide, .inr (.inr ⟨by decide, by decide⟩), by decide⟩

/-- A comparator that has sampled the whole frame needs nothing more. -/
theorem test_witness_GoodEcho_sampled :
    let e := { comparator (plainFrame 1 7 []) with samples := lineBits (frameBytes (plainFrame 1 7 [])) }
    e.samples ++ [] = lineBits (frameBytes e.frame) ∧ e.early = false ∧ e.after = false := ⟨rfl, rfl, rfl⟩

theorem test_witness_CorruptEchoReturnsTheIntents :
    (∃ e t, (atPhase 80 (sending (timed .founding 1 3 1 7))).echo = some e
        ∧ (atPhase 80 (sending (timed .founding 1 3 1 7))).timing = some t
        ∧ 16 + 10 * (frameBytes e.frame).length + 4 ≤ t.phase ∧ ([] : List Bool) ≠ lineBits (frameBytes e.frame))
      ∧ RecordsLaw (timed .founding 1 3 1 7) ∧ (timed .founding 1 3 1 7).station = .founding
      ∧ (synced 1 3 1 7).station ≠ .founding :=
  ⟨⟨_, _, rfl, rfl, by decide, by decide⟩, .inr (.inr ⟨by decide, by decide⟩), rfl, by decide⟩

theorem test_witness_StartBitBeginsAReception :
    let s := quiet .listening 1 3
    (quiet .ready 1 3).work = [] ∧ (quiet .ready 1 3).station = .ready
      ∧ { s with lineWait := 1 }.lineHigh < { s with lineWait := 1 }.lineWait
      ∧ { s with lineWait := 4, lineHigh := 4 }.lineWait ≤ { s with lineWait := 4, lineHigh := 4 }.lineHigh
      ∧ s.station ≠ .unconfigured ∧ s.station ≠ .ready ∧ s.reception = none ∧ s.lineWait ≤ s.lineHigh ∧ s.timing = none
      ∧ ((gathering (some []) s).reception).map Reception.samples = some (some [])
      ∧ ((gathering none s).reception).map Reception.samples = some none
      ∧ (atPhase 64 (synced 1 3 0 7)).timing = some { freshSlot true 0 7 false with phase := 64 }
      ∧ (atPhase 65 (synced 1 3 0 7)).timing = some { freshSlot true 0 7 false with phase := 65 } := by decide

set_option maxRecDepth 20000 in
theorem test_witness_BadReceptionHasNoEffect :
    (receiving 1000 (synced 1 3 0 7)).work = [] ∧ (∃ rx, (receiving 1000 (synced 1 3 0 7)).reception = some rx ∧ 1000 ≤ rx.age)
      ∧ 95 < (List.replicate 90 0x1FF#9 ++ List.replicate 6 0x1FF#9).length ∧ wellFormedFrame ([] ++ [0x100#9]) = none
      ∧ (∃ rx, (gathering none { quiet .listening 1 3 with lineHigh := 4 }).reception = some rx ∧ rx.samples = none)
      ∧ (gathering none { quiet .listening 1 3 with lineHigh := 4 }).work = []
      ∧ (gathering none { quiet .listening 1 3 with lineHigh := 4 }).pending = []
      ∧ (gathering none { quiet .listening 1 3 with lineHigh := 4 }).commands = []
      ∧ (gathering none { quiet .listening 1 3 with lineHigh := 4 }).echo = none
      ∧ (gathering none { quiet .listening 1 3 with lineHigh := 4 }).timing = none
      ∧ 4 ≤ (gathering none { quiet .listening 1 3 with lineHigh := 4 }).lineHigh :=
  ⟨rfl, ⟨_, rfl, by decide⟩, by decide, by decide, ⟨_, rfl, rfl⟩, rfl, rfl, rfl, rfl, rfl, by decide⟩

set_option maxRecDepth 20000 in
theorem test_witness_FrameIsTakenByItsPlace :
    let s := receiving 60 (synced 1 3 0 7)
    let digested : Frame := { plainFrame 0 7 [] with digest := some 0 }
    (∃ rx t, s.reception = some rx ∧ s.timing = some t ∧ rx.counts = true ∧ rx.excess = false ∧ rx.late = false
        ∧ rx.place = some ((plainFrame 0 7 []).station, (plainFrame 0 7 []).round)
        ∧ rx.place ≠ some ((plainFrame 0 8 []).station, (plainFrame 0 8 []).round))
      ∧ s.work = [] ∧ s.station = .synced
      ∧ wellFormedFrame (s.rxBuffer ++ heard (plainFrame 0 7 [])) = some (plainFrame 0 7 [])
      ∧ wellFormedFrame ([] ++ heard (plainFrame 0 8 [])) = some (plainFrame 0 8 [])
      ∧ s.disagreement = 0 ∧ 1 ≤ { s with disagreement := 1 }.disagreement
      ∧ digested.digest = some 0 ∧ s.members[digested.station] = some { joining := false, absence := 0 }
      ∧ (plainFrame 0 7 []).digest = none ∧ (timed .joining 1 3 0 7).station ≠ .synced
      ∧ { synced 1 3 0 7 with members := membersOf [0, 1, 2] [0] }.members[(0 : StationNo)]
          = some { joining := true, absence := 0 } :=
  ⟨⟨_, _, rfl, rfl, rfl, rfl, rfl, rfl, by decide⟩, rfl, rfl, by decide, by decide, rfl, by decide, rfl, by decide, rfl,
    by decide, by decide⟩

set_option maxRecDepth 20000 in
theorem test_witness_FrameHeardInListening :
    let s := receiving 60 (timed .listening 1 3 0 7)
    let founder := receiving 60 (timed .founding 1 3 0 7)
    s.station = .listening ∧ s.work = [] ∧ RecordsLaw s
      ∧ (∃ rx t, s.reception = some rx ∧ s.timing = some t ∧ rx.counts = true ∧ rx.excess = false ∧ rx.late = false
          ∧ rx.place = some ((plainFrame 0 7 []).station, (plainFrame 0 7 []).round))
      ∧ wellFormedFrame (s.rxBuffer ++ heard (plainFrame 0 7 [])) = some (plainFrame 0 7 [])
      ∧ (plainFrame 0 7 []).station ≠ s.cfg.number
      ∧ wellFormedFrame (s.rxBuffer ++ heard (plainFrame 1 7 [])) = some (plainFrame 1 7 [])
      ∧ (plainFrame 1 7 []).station = s.cfg.number
      ∧ (receiving 60 (quiet .listening 1 3)).timing = none
      ∧ founder.station = .founding ∧ founder.work = [] ∧ RecordsLaw founder
      ∧ (∃ rx, founder.reception = some rx ∧ rx.counts = true ∧ rx.excess = false) :=
  ⟨rfl, rfl, .inr (.inr ⟨by decide, by decide⟩), ⟨_, _, rfl, rfl, rfl, rfl, rfl, rfl⟩, by decide, by decide, by decide, rfl,
    rfl, rfl, rfl, .inr (.inr ⟨by decide, by decide⟩), ⟨_, rfl, rfl, rfl⟩⟩

theorem test_witness_SyncLossReturnsToListening :
    { synced 1 3 0 7 with work := [.syncLost (plainFrame 0 9 []) 0] }.work = .syncLost (plainFrame 0 9 []) 0 :: []
      ∧ (synced 1 3 0 7).station = .synced ∧ (plainFrame 0 9 []).station ≠ (synced 1 3 0 7).cfg.number
      ∧ (plainFrame 1 9 []).station = (synced 1 3 0 7).cfg.number
      ∧ (timed .leaving 1 3 0 7).station = .leaving ∧ RecordsLaw (timed .leaving 1 3 0 7) :=
  ⟨rfl, rfl, by decide, rfl, rfl, .inr (.inr ⟨by decide, by decide⟩)⟩

/-! ### Slots -/

theorem test_witness_SlotsFollowOneAnother :
    (∃ t, (atPhase 65 (timed .listening 1 3 2 7)).timing = some t ∧ t.windowHeard = false ∧ t.silent = false ∧ 64 < t.phase)
      ∧ (∃ t rx, (receiving 900 (atPhase 1000 (synced 1 3 0 7))).timing = some t
          ∧ (receiving 900 (atPhase 1000 (synced 1 3 0 7))).reception = some rx ∧ t.held = false ∧ t.ownStartDue = false
          ∧ rx.counts = true ∧ rx.late = false ∧ rx.place = some (t.slot, t.round) ∧ (synced 1 3 0 7).cfg.slotLength ≤ t.phase)
      ∧ (timed .listening 1 3 2 7).work = [] ∧ (timed .listening 1 3 2 7).cfg.roundSize ≤ 16
      ∧ (∀ rx, (timed .listening 1 3 2 7).reception = some rx → rx.counts = false) :=
  ⟨⟨_, rfl, rfl, rfl, by decide⟩, ⟨_, _, rfl, rfl, rfl, rfl, rfl, rfl, rfl, by decide⟩, rfl, by decide, fun _ h => by cases h⟩

/-- The hypotheses shared by the statements about the end of a slot. -/
def SlotEnds (s : State) : Prop :=
  s.work = [] ∧ (∃ t, s.timing = some t ∧ t.held = false ∧ t.ownStartDue = false ∧ s.cfg.slotLength ≤ t.phase)
    ∧ s.cfg.roundSize ≤ 16 ∧ s.reception = none

theorem test_witness_SlotEndAccountsTheOwner :
    SlotEnds (atPhase 1000 (synced 1 4 0 7)) ∧ (synced 1 4 0 7).installed.getLsbD 0 = true
      ∧ (0 : StationNo).val + 1 < (synced 1 4 0 7).cfg.roundSize
      ∧ { synced 1 4 3 7 with members := membersOf [0, 1] [] }.members[(3 : StationNo)] = none
      ∧ (∃ m, (synced 1 4 0 7).members[(0 : StationNo)] = some m ∧ m.absence + 1 < (synced 1 4 0 7).cfg.absenceLimit)
      ∧ (∃ m, (setMember 0 (some { joining := false, absence := 1 }) (synced 1 4 0 7)).members[(0 : StationNo)] = some m
          ∧ (synced 1 4 0 7).cfg.absenceLimit ≤ m.absence + 1)
      ∧ SlotEnds (atPhase 1000 (timed .founding 1 4 3 7)) ∧ SlotEnds (atPhase 1000 (timed .leaving 1 4 3 7))
      ∧ (3 : StationNo) ≠ (timed .leaving 1 4 3 7).cfg.number
      ∧ (∃ m, { timed .leaving 1 4 1 7 with members := membersOf [0, 1] [] }.members[(1 : StationNo)] = some m)
      ∧ (8#16).toNat % (synced 1 4 3 8).cfg.leasePeriod = 0 ∧ (7#16).toNat % (synced 1 4 3 7).cfg.leasePeriod ≠ 0 :=
  ⟨⟨rfl, ⟨_, rfl, rfl, rfl, by decide⟩, by decide, rfl⟩, by decide, by decide, by decide, ⟨_, rfl, by decide⟩,
    ⟨_, rfl, by decide⟩, ⟨rfl, ⟨_, rfl, rfl, rfl, by decide⟩, by decide, rfl⟩,
    ⟨rfl, ⟨_, rfl, rfl, rfl, by decide⟩, by decide, rfl⟩, by decide, ⟨_, rfl⟩, by decide, by decide⟩

/-- With no lock held and no request nothing runs, so that the end of slot N-1 is covered too. -/
theorem test_witness_nothingRuns : nothingRuns (timed .joining 1 4 3 7) := by
  constructor
  · intro lock holder level waiters h
    have free : (timed .joining 1 4 3 7).locks[lock] = .free := Vector.getElem_replicate _
    rw [free] at h
    cases h
  · intro lock q h
    have none : (timed .joining 1 4 3 7).requests[lock] = none := Vector.getElem_replicate _
    rw [none] at h
    cases h

theorem test_witness_SlotEndCountsOrphanSlots :
    SlotEnds (atPhase 1000 (timed .joining 1 4 3 7)) ∧ (timed .joining 1 4 3 7).installed.getLsbD 0 = false
      ∧ 6 + 1 < 2 * (timed .joining 1 4 3 7).cfg.roundSize ∧ 2 * (timed .joining 1 4 3 7).cfg.roundSize ≤ 7 + 1
      ∧ { timed .joining 1 4 3 7 with installed := 1 }.installed.getLsbD 0 = true
      ∧ (∃ m, (setMember 3 (some { joining := false, absence := 1 }) (timed .joining 1 4 3 7)).members[(3 : StationNo)] = some m
          ∧ (timed .joining 1 4 3 7).cfg.absenceLimit ≤ m.absence + 1) :=
  ⟨⟨rfl, ⟨_, rfl, rfl, rfl, by decide⟩, by decide, rfl⟩, by decide, by decide, by decide, by decide, ⟨_, rfl, by decide⟩⟩

theorem test_witness_AbsenceRemovesAMember :
    { synced 1 3 0 7 with work := [.absenceRemoval 0, .nextSlot] }.work = .absenceRemoval 0 :: [.nextSlot]
      ∧ (0 : StationNo) ≠ (synced 1 3 0 7).cfg.number ∧ (1 : StationNo) = (synced 1 3 1 7).cfg.number
      ∧ (synced 1 3 1 7).station = .synced ∧ (timed .leaving 1 3 1 7).station = .leaving
      ∧ RecordsLaw { timed .leaving 1 3 1 7 with work := [.absenceRemoval 1] } :=
  ⟨rfl, by decide, rfl, rfl, rfl, .inr (.inr ⟨by decide, by decide⟩)⟩

theorem test_witness_OrphanActionFoundsOrRestarts :
    (timed .joining 1 3 0 7).station = .joining
      ∧ { timed .joining 1 3 0 7 with work := [.orphanAction, .accounting, .nextSlot] }.work
          = .orphanAction :: [.accounting, .nextSlot]
      ∧ (∀ r : StationNo, r < 1 → ((0x0004#16 ||| BitVec.twoPow 16 1).getLsbD r.val) = false)
      ∧ ∃ r : StationNo, r < 1 ∧ ((0x0001#16 ||| BitVec.twoPow 16 1).getLsbD r.val) = true := by decide

theorem test_witness_LeavingCountCompletesTheStop :
    let s := withTiming (fun t => { t with echoCorrupt := true, phase := 1000 }) (timed .leaving 1 3 1 7)
    SlotEnds s ∧ s.station = .leaving ∧ RecordsLaw s ∧ (∃ t, s.timing = some t ∧ t.slot = s.cfg.number ∧ t.echoCorrupt = true)
      ∧ s.members[s.cfg.number] = none ∧ 0 + 1 < s.cfg.absenceLimit ∧ s.cfg.absenceLimit ≤ 1 + 1
      ∧ { s with work := [.leavingExpiry, .nextSlot] }.work = .leavingExpiry :: [.nextSlot] :=
  ⟨⟨rfl, ⟨_, rfl, rfl, rfl, by decide⟩, by decide, rfl⟩, rfl, .inr (.inr ⟨by decide, by decide⟩), ⟨_, rfl, rfl, rfl⟩,
    by decide, by decide, by decide, rfl⟩

theorem test_witness_LeaseExpiryPassesTheLock :
    let held (holder : StationNo) (waiters : List Waiter) := withLockEntry 63 (.held holder (some 1) waiters)
      { synced 1 3 2 8 with work := [.leaseExpiry 63] }
    (held 0 []).work = .leaseExpiry 63 :: [] ∧ (held 0 []).locks[(63 : LockNo)] = .held 0 (some 1) []
      ∧ (0 : StationNo) ≠ (held 0 []).cfg.number ∧ (none : Option StationNo) ≠ some (held 0 []).cfg.number
      ∧ (1 : StationNo) = (held 1 []).cfg.number
      ∧ ([{ station := 1, leased := true }] : List Waiter).head?.map Waiter.station = some (held 0 []).cfg.number
      ∧ (∀ state ∈ [RequestState.held, .releasing, .expiring, .waiting],
          ((withRequest 63 1 true none state (held 1 [])).requests[(63 : LockNo)]).map Request.state = some state) := by
  decide

theorem test_witness_WaitLimitExpiryEndsTheWait :
    { synced 1 3 2 8 with work := [.waitExpiry 63] }.work = .waitExpiry 63 :: []
      ∧ (∀ state ∈ [RequestState.pending, .waiting],
          ((withRequest 63 1 true (some 1) state (synced 1 3 2 8)).requests[(63 : LockNo)]).map Request.state = some state) := by
  decide

theorem test_witness_SilenceLeadsToFounding :
    (quiet .listening 1 3).station = .listening ∧ (quiet .listening 1 3).work = []
      ∧ (2 * (quiet .listening 1 3).cfg.roundSize + (quiet .listening 1 3).cfg.number.val + 1)
          * (quiet .listening 1 3).cfg.slotLength ≤ { quiet .listening 1 3 with silence := 8000 }.silence := by decide

/-! ### Items, events, layouts and the whole machine -/

theorem test_witness_AcquireItemHasTheTableOutcomes :
    let w (r : StationNo) : Waiter := { station := r, leased := false }
    let s := synced 1 3 0 7
    let withEntry (e : LockEntry) (state : RequestState) := withRequest 63 5 false none state (withLockEntry 63 e s)
    (0 : StationNo) ≠ 1 ∧ [w 2, w 1] = [w 2] ++ w 1 :: [] ∧ (∀ x ∈ [w 2], x.station ≠ 1)
      ∧ (∀ x ∈ [w 2, w 3, w 4, w 5, w 6, w 7], x.station ≠ 1) ∧ 6 ≤ [w 2, w 3, w 4, w 5, w 6, w 7].length
      ∧ [w 2, w 3, w 4, w 5, w 6].length < 6
      ∧ isUnmarked s 2 = true ∧ lockInPlace s 63 = true ∧ isUnmarked s 3 = false
      ∧ (2 : StationNo) ≠ s.cfg.number ∧ (1 : StationNo) = s.cfg.number ∧ isUnmarked s 1 = true
      ∧ (∀ state ∈ [RequestState.pending, .releasing, .waiting, .held, .expiring],
          ((withEntry .free state).requests[(63 : LockNo)]).map Request.state = some state)
      ∧ (acquireEntry 1 false .free).2 = .granted
      ∧ (acquireEntry 1 false (.held 0 none [w 2])).2 = .queued 2
      ∧ (acquireEntry 1 false (.held 0 none [w 1])).2 = .alreadyWaiting 1
      ∧ (acquireEntry 1 false (.held 0 none [w 2, w 3, w 4, w 5, w 6, w 7])).2 = .queueFull := by decide

theorem test_witness_RenewAndReleaseItems :
    isUnmarked (synced 1 3 0 7) 2 = true ∧ lockInPlace (synced 1 3 0 7) 63 = true
      ∧ (withLockEntry 63 (.held 2 (some 1) []) (synced 1 3 0 7)).locks[(63 : LockNo)] = .held 2 (some 1) []
      ∧ (∀ level waiters, LockEntry.free ≠ .held 2 (some level) waiters)
      ∧ (0 : StationNo) ≠ 2 ∧ (1 : StationNo) = (synced 1 3 0 7).cfg.number
      ∧ (∀ state ∈ [RequestState.pending, .releasing, .waiting, .held, .expiring],
          ((withRequest 63 1 true none state (synced 1 3 0 7)).requests[(63 : LockNo)]).map Request.state = some state)
      ∧ (∃ lease w others, (withLockEntry 63 (.held 2 none [{ station := 1, leased := true }]) (synced 1 3 0 7)).locks[
            (63 : LockNo)] = .held 2 lease (w :: others) ∧ w.station = (synced 1 3 0 7).cfg.number)
      ∧ (synced 1 3 0 7).requests[(63 : LockNo)] = none :=
  ⟨by decide, by decide, by decide, (by intro _ _ h; cases h), by decide, rfl, by decide,
    ⟨none, { station := 1, leased := true }, [], by decide, rfl⟩, by decide⟩

theorem test_witness_RoundEndVisits :
    (visitLeases (locksFrom 63) (withLockEntry 63 (.held 2 (some 1) []) (synced 1 3 0 8))).2 = some 63
      ∧ (countWaits (locksFrom 63) (withRequest 63 1 true (some 1) .pending (synced 1 3 0 8))).2 = some 63
      ∧ (synced 1 3 0 8).station = .synced ∧ (timed .leaving 1 3 0 8).station ≠ .joining
      ∧ (timed .leaving 1 3 0 8).station ≠ .synced
      ∧ (synced 1 3 2 8).timing = some (freshSlot true 2 8 false) ∧ (synced 1 3 2 8).cfg.roundSize ≤ 16 := by decide

/-- R17: a level of 1 is not lowered: the lease runs out there, and a later lock stays. -/
theorem test_visitLeases_stops_at_the_first :
    let s := withLockEntry 9 (.held 0 (some 5) []) (withLockEntry 8 (.held 0 (some 1) []) (synced 1 3 0 8))
    let t := (visitLeases (locksFrom 0) (withLockEntry 3 (.held 0 (some 2) []) s)).1
    t.locks[3] = .held 0 (some 1) [] ∧ t.locks[8] = .held 0 (some 1) [] ∧ t.locks[9] = .held 0 (some 5) [] := by decide

theorem test_witness_ArriveItemCompletesABarrier :
    isUnmarked (synced 1 3 0 7) 2 = true ∧ (synced 1 3 0 7).installed.getLsbD 0 = true
      ∧ (0x0004#16).getLsbD (2 : StationNo).val = true ∧ (0x0003#16).getLsbD (2 : StationNo).val = false
      ∧ (∀ r : StationNo, ∀ m, (synced 1 3 0 7).members[r] = some m → m.joining = false →
          (0x0003#16 ||| BitVec.twoPow 16 (2 : StationNo).val).getLsbD r.val = true)
      ∧ ¬ (∀ r : StationNo, ∀ m, (synced 1 3 0 7).members[r] = some m → m.joining = false →
          (0x0000#16 ||| BitVec.twoPow 16 (2 : StationNo).val).getLsbD r.val = true) := by
  refine ⟨by decide, by decide, by decide, by decide, ?_, ?_⟩
  · intro r m h _
    have only : ∀ r : StationNo, (synced 1 3 0 7).members[r] = none
        ∨ (0x0003#16 ||| BitVec.twoPow 16 (2 : StationNo).val).getLsbD r.val = true := by decide
    rcases only r with none | set
    · rw [none] at h; cases h
    · exact set
  · intro all
    exact absurd (all 0 { joining := false, absence := 0 } (by decide) rfl) (by decide)

/-- R33, R71: the own record, ARRIVED or not, and the own number in the arrived set or outside it. -/
theorem test_witness_ArriveItem_own_record :
    let s := setBarrierRecord 7 (some { tag := 1, arrived := true }) (synced 1 3 0 7)
    let record (arrived : Bool) (sender : StationNo) : Option BarrierRecord :=
      some { tag := 1, arrived := arrived || decide (sender = s.cfg.number) }
    (s.barrierRecords[(7 : BarrierNo)]) = record true 2 ∧ (∀ q, record true 2 = some q → q.arrived = true)
      ∧ (∀ q, record false 1 = some q → q.arrived = true) ∧ (∀ q, record false 2 = some q → q.arrived = false)
      ∧ (0x0003#16 ||| BitVec.twoPow 16 (2 : StationNo).val).getLsbD (s.cfg.number).val = true
      ∧ (0x0001#16 ||| BitVec.twoPow 16 (2 : StationNo).val).getLsbD (s.cfg.number).val = false :=
  ⟨by decide, (by intro q h; cases h; rfl), (by intro q h; cases h; rfl), (by intro q h; cases h; rfl), by decide, by decide⟩

/-- R48, R122: a LEAVE of a present sender, of an absent one, and of the own number without membership. -/
theorem test_witness_RemovalLeavesNoTrace :
    (synced 1 3 0 7).members[(2 : StationNo)] = some { joining := false, absence := 0 }
      ∧ (synced 1 2 0 7).members[(2 : StationNo)] = none ∧ (2 : StationNo) ≠ (synced 1 2 0 7).cfg.number
      ∧ (leaving 0 (membersOf [] [])).members[(1 : StationNo)] = none
      ∧ (1 : StationNo) = (leaving 0 (membersOf [] [])).cfg.number
      ∧ (leaving 0 (membersOf [] [])).installed.getLsbD 0 = false ∧ RecordsLaw (leaving 0 (membersOf [] [])) :=
  ⟨by decide, by decide, by decide, by decide, rfl, by decide, .inr (.inr ⟨by decide, by decide⟩)⟩

theorem test_witness_RemovalAndPresentSet :
    (2 : StationNo) ≠ (synced 1 3 0 7).cfg.number ∧ (plainFrame 2 7 []).items = [] ∧ (plainFrame 2 7 []).chunk = none
      ∧ (plainFrame 2 7 []).join = false ∧ { plainFrame 2 7 [] with join := true }.join = true
      ∧ (synced 1 3 0 7).installed.getLsbD 0 = true ∧ (synced 1 2 0 7).members[(2 : StationNo)] = none
      ∧ ((synced 1 3 0 7).members[(2 : StationNo)]).map Member.joining = some false
      ∧ ({ synced 1 3 0 7 with members := membersOf [0, 1, 2] [2] }.members[(2 : StationNo)]).map Member.joining
          = some true := by decide

theorem test_witness_EventIsStoredMaskedOrCounted :
    (List.replicate 30 (Answer.accepted 0 0)).length ≤ 30
      ∧ 31 ≤ (List.replicate 30 (Answer.accepted 0 0) ++ [Answer.overrun 255]).length
      ∧ 31 ≤ (List.replicate 31 (Answer.accepted 0 0)).length
      ∧ (List.replicate 31 (Answer.accepted 0 0)).getLast? = some (.accepted 0 0)
      ∧ (!(0xE#4).getLsbD 0) = true ∧ (!(0xF#4).getLsbD 0) = false ∧ AnswerQueueLaw State.reset := by
  refine ⟨by decide, by decide, by decide, by decide, by decide, by decide, ?_⟩
  exact ⟨by decide, fun h => absurd h (by decide), (by intro a h; cases h)⟩

/-- Station 1 of three, SYNCED, with lock 5 held by station 0 and station 1 waiting for it. -/
def member : State :=
  withRequest 5 0xB1 false (some 2) .waiting
    (withLockEntry 5 (.held 0 none [{ station := 1, leased := false }]) (synced 1 3 0 20))

set_option maxRecDepth 20000 in
/-- A SYNCED station meets every law, and has a next state. -/
theorem test_witness_Laws : Laws member ∧ ∃ t, step member = .next t := by
  refine ⟨⟨by unfold LockTableLaw; decide, by unfold BarrierLaw; decide,
    ⟨by decide, by decide, fun h => absurd h (by decide)⟩, ?_, ⟨rfl, rfl⟩,
    .inr (.inl rfl), ?_, ?_, ?_, ?_, ?_, ?_, ?_⟩, _, rfl⟩
  · intro r m h
    have all : ∀ r : StationNo, ((member.members[r]).all fun m => decide (m.absence < 2)) = true := by decide
    have below := all r
    rw [h] at below
    exact of_decide_eq_true below
  · show requestCount member ≤ 16
    decide
  · exact ⟨by decide, fun h => absurd h (by decide), (by intro a h; cases h)⟩
  · exact ⟨by decide, fun h => absurd h (by decide), (by intro a h; cases h)⟩
  · refine ⟨by decide, ?_⟩
    simp [config, StationConfig.inRange]
  · exact ⟨fun _ => ⟨_, rfl, rfl⟩, fun h => absurd h (by decide), fun h => absurd h (by decide),
      (by intro t h; cases h; decide)⟩
  · exact ⟨fun _ => rfl, fun _ => rfl⟩
  · exact ⟨⟨fun _ => rfl, fun _ => rfl⟩, by decide⟩

theorem test_witness_whole_machine :
    Instr.configure ≠ .hardReset ∧ (quiet .ready 1 3).station ≠ .unconfigured
      ∧ (after .founded { quiet .listening 1 3 with silence := 8000 }).station ≠ (quiet .listening 1 3).station := by
  decide

/-- The frame of a JOIN with LEAVE and a wanted set, and one with six items, are proper. -/
theorem test_witness_FramesReadBackWhole :
    ({ plainFrame 15 0xFFFF [.leave] with join := true, want := some allChunks } : Frame).proper
      ∧ (plainFrame 0 0 (List.replicate 6 (.acquire 63 true))).proper := by
  constructor
  · exact ⟨by decide, (by intro c h; cases h), by decide, by decide⟩
  · exact ⟨by decide, (by intro c h; cases h), by decide, by decide⟩

set_option maxRecDepth 20000 in
/-- Each way of being corrupt, at the first value beyond its limit. -/
theorem test_witness_OthersAreCorrupt :
    (∃ c ∈ [0x0FF#9], c.getLsbD 8 = false)
      ∧ (charsOf [0x00#8, 0x12#8, 0x34#8]).map rxData = [0x00#8] ++ [0x12#8, 0x34#8]
      ∧ 256 * (0x12#8).toNat + (0x34#8).toNat ≠ (crc16 [0x00#8]).toNat
      ∧ (List.replicate 5 0x1FF#9).length < 6 ∧ 95 < (List.replicate 96 0x1FF#9).length
      ∧ (heard (plainFrame 0 7 [])).map rxData = 0x00#8 :: 0x07#8 :: 0x00#8 :: 0x00#8 :: (frameBytes (plainFrame 0 7 [])).drop 4
      ∧ 6 < (7#8).toNat ∧ (0x00#8).getLsbD 7 = false ∧ (List.replicate 7 0x1FF#9).length ≠ 4 + 0 + 2 * (0#8).toNat + 2
      ∧ (0x80#8).getLsbD 7 = true ∧ ([] : List Byte).length ≤ 0 ∧ [9#8][0]? = some 9#8 ∧ 8 < (9#8).toNat
      ∧ [0#8][0]? = some 0#8 ∧ (List.replicate 42 0x1FF#9).length ≠ 4 + 0 + 37 + 2 * (0#8).toNat + 2 := by decide

/-- A whole layout with one item; each item, wanted set and header that is unknown, out of range or out of place. -/
theorem test_witness_OthersAreCorrupt_by_content :
    (charsOf [0x00#8, 0x07#8, 0x00#8, 0x01#8, 0x06#8, 0x00#8, 0xAA#8, 0xBB#8]).map rxData
        = 0x00#8 :: 0x07#8 :: 0x00#8 :: 0x01#8 :: ([] ++ [] ++ []
          ++ [((0x06#8 : Byte), (0x00#8 : Byte))].flatMap (fun item => [item.1, item.2]) ++ [0xAA#8, 0xBB#8])
      ∧ (0x06#8 ∉ [0x01#8, 0x81#8, 0x02#8, 0x03#8, 0x04#8, 0x05#8]) ∧ 63 < (64#8).toNat ∧ 7 < (8#8).toNat ∧ 1#8 ≠ 0
      ∧ (∃ b ∈ [0xFF#8, 0x02#8].tail, 1 < b.toNat) ∧ (0x10#8).getLsbD 4 = true
      ∧ ((∃ item ∈ [((0x05#8 : Byte), (0x00#8 : Byte)), (0x02#8, 0x00#8)], item.1 = 0x05#8)
          ∧ [((0x05#8 : Byte), (0x00#8 : Byte)), (0x02#8, 0x00#8)].length ≠ 1)
      ∧ ∃ item ∈ [((0x02#8 : Byte), (0x00#8 : Byte))], item.1 ≠ 0x05#8 := by decide

/-- A station in JOINING that wants the chunks, with those of the others installed. -/
def catching (installed wanted : ChunkSet) (members : Vector (Option Member) 16) : State :=
  { timed .joining 1 3 0 7 with installed := installed, wanted := wanted, members := members }

/-- Chunk 0 of a group of stations 0 to 2 with the own number 1 marked: a body of 36 bytes. -/
def chunk0 (sender : StationNo) : Frame :=
  { plainFrame sender 7 [] with
    chunk := some { number := 0, body := chunkBody 0 { synced 0 3 0 7 with members := membersOf [0, 1, 2] [1] } } }

/-- Chunk 8, with the entry for the first of its eight locks. -/
def lockChunk (entry : LockEntry) : Frame :=
  { plainFrame 0 7 [] with chunk := some { number := 8, body := chunkBody 8 (withLockEntry 56 entry (synced 0 3 0 7)) } }

set_option maxRecDepth 20000 in
/-- R53, R134: chunk 0 from an unmarked member is installed; the same from a station that it marks is not. -/
theorem test_installChunk_0 :
    let s := catching 0 allChunks (membersOf [] [])
    (installChunk (chunk0 0) s).installed = 1 ∧ (installChunk (chunk0 0) s).members = membersOf [0, 1, 2] [1]
      ∧ (installChunk (chunk0 1) s).installed = 0 ∧ (((chunk0 0).chunk).map fun c => c.body.length) = some 36 := by
  decide

set_option maxRecDepth 20000 in
/-- R54, R134: a lock chunk whose holder is an unmarked member is installed; one whose holder is marked is not. -/
theorem test_installChunk_of_locks :
    let s := catching 1 0x100#9 (membersOf [0, 1, 2] [1])
    let held (holder : StationNo) : LockEntry := .held holder (some 7) [{ station := 2, leased := true }]
    (installChunk (lockChunk (held 0)) s).locks[56] = held 0 ∧ (installChunk (lockChunk (held 0)) s).wanted = 0
      ∧ (installChunk (lockChunk (held 1)) s).wanted = 0x100#9 := by decide

theorem test_witness_ChunksCarryTheReplicaAndInstall :
    let s := catching 1 0x100#9 (membersOf [0, 1, 2] [1])
    s.station = .joining ∧ (plainFrame 0 7 []).join = false ∧ s.wanted.getLsbD (8 : ChunkNo).val = true
      ∧ s.wanted.getLsbD (7 : ChunkNo).val = false ∧ (catching 0 0x100#9 (membersOf [] [])).installed.getLsbD 0 = false
      ∧ s.installed.getLsbD 0 = true ∧ s.members[(0 : StationNo)] = some { joining := false, absence := 0 }
      ∧ s.members[(1 : StationNo)] = some { joining := true, absence := 0 }
      ∧ (catching allChunks 0 (membersOf [0, 1] [1])).wanted = 0
      ∧ (∃ m, (catching allChunks 0 (membersOf [0, 1] [1])).members[(1 : StationNo)] = some m)
      ∧ (catching allChunks 0 (membersOf [0] [])).members[(1 : StationNo)] = none
      ∧ { plainFrame 2 7 [] with join := true, want := some allChunks }.want = some allChunks
      ∧ (timed .founding 1 3 0 7).station = .founding :=
  ⟨rfl, rfl, by decide, by decide, by decide, by decide, by decide, by decide, rfl,
    ⟨{ joining := true, absence := 0 }, by decide⟩, by decide, rfl, rfl⟩

end Sys2Proof.Tests
end

/-! An ACQUIRE item at the lock table: the cases of Table 1-7 (R7, R8), who is told of the outcome (R9), and what the
request of the station makes of it (R59). -/

namespace Sys2Proof.Machine

/-! ## The waiter queue -/

theorem isWaiting_eq_false {ws : List Waiter} {r : StationNo} (absent : ∀ x ∈ ws, x.station ≠ r) :
    isWaiting ws r = false := by
  rw [Bool.eq_false_iff, Ne, isWaiting_iff, List.mem_map]
  rintro ⟨x, mem, eq⟩
  exact absent x mem eq

theorem isWaiting_append_cons {w : Waiter} {r : StationNo} (before after : List Waiter) (named : w.station = r) :
    isWaiting (before ++ w :: after) r = true :=
  (isWaiting_iff _ _).2 (List.mem_map.2 ⟨w, by simp, named⟩)

/-- R3: the position of the first record that names the station is counted from 1 at the head. -/
theorem positionOf_append_cons {before : List Waiter} {w : Waiter} {r : StationNo} (after : List Waiter)
    (named : w.station = r) (first : ∀ x ∈ before, x.station ≠ r) :
    positionOf (before ++ w :: after) r = before.length + 1 := by
  have none_before : before.findIdx (fun w => w.station == r) = before.length :=
    List.findIdx_eq_length.2 fun x mem => beq_eq_false_iff_ne.2 (first x mem)
  simp [positionOf, List.findIdx_append, none_before, List.findIdx_cons, named]

/-! ## The cases of Table 1-7, in the order they are tested -/

section
variable {r holder : StationNo} {leased : Bool} {lease : Option (BitVec 3)} {ws : List Waiter}

theorem acquireEntry_of_holder (is : holder = r) :
    acquireEntry r leased (.held holder lease ws) = (.held holder lease ws, .alreadyHolder) := by
  simp only [acquireEntry, if_pos is]

theorem acquireEntry_of_waiting (other : holder ≠ r) (waits : isWaiting ws r = true) :
    acquireEntry r leased (.held holder lease ws) = (.held holder lease ws, .alreadyWaiting (positionOf ws r)) := by
  simp only [acquireEntry, if_neg other, if_pos waits]

theorem acquireEntry_of_full (other : holder ≠ r) (absent : isWaiting ws r = false)
    (full : maxWaiters ≤ ws.length) :
    acquireEntry r leased (.held holder lease ws) = (.held holder lease ws, .queueFull) := by
  simp only [acquireEntry, if_neg other, absent, Bool.false_eq_true, if_false, if_pos full]

theorem acquireEntry_of_room (other : holder ≠ r) (absent : isWaiting ws r = false) (room : ws.length < maxWaiters) :
    acquireEntry r leased (.held holder lease ws)
      = (.held holder lease (ws ++ [⟨r, leased⟩]), .queued (ws.length + 1)) := by
  simp only [acquireEntry, if_neg other, absent, Bool.false_eq_true, if_false, if_neg (Nat.not_le.2 room)]

end

/-! ## The report to the request (R9, R59) -/

theorem AcquireOutcome.handed_of_granted {o : AcquireOutcome} (h : o = .granted ∨ o = .alreadyHolder) :
    o.handed = .granted := by
  rcases h with rfl | rfl <;> rfl

theorem AcquireOutcome.handed_of_queued {o : AcquireOutcome} {p : Nat} (h : o = .queued p ∨ o = .alreadyWaiting p) :
    o.handed = .queued p := by
  rcases h with rfl | rfl <;> rfl

theorem AcquireOutcome.handed_ne_queueFull {o : AcquireOutcome} (h : o ≠ .queueFull) : o.handed ≠ .queueFull := by
  cases o with
  | queueFull => exact absurd rfl h
  | granted | alreadyHolder | alreadyWaiting | queued => exact fun eq => nomatch eq

section
variable {lock : LockNo} {q : Request} {s : State}

theorem reportAcquire_of_no_request (o : AcquireReport) (request : s.requests[lock] = none) :
    reportAcquire lock o s = s := by
  simp only [reportAcquire, request]

theorem reportAcquire_granted (request : s.requests[lock] = some q) (state : q.state = .pending) :
    reportAcquire lock .granted s
      = placeEvent (.granted q.tag lock) (setRequest lock (some (q.withState .held)) s) := by
  simp only [reportAcquire, request, state]

theorem reportAcquire_queued (p : Nat) (request : s.requests[lock] = some q) (state : q.state = .pending) :
    reportAcquire lock (.queued p) s
      = placeEvent (.queued q.tag lock p) (setRequest lock (some (q.withState .waiting)) s) := by
  simp only [reportAcquire, request, state]

theorem reportAcquire_queueFull (request : s.requests[lock] = some q)
    (state : q.state = .pending ∨ q.state = .releasing) :
    reportAcquire lock .queueFull s = endRequest lock (.queueRefused q.tag lock) s := by
  rcases state with state | state <;> simp only [reportAcquire, request, state]

theorem reportAcquire_releasing {o : AcquireReport} (request : s.requests[lock] = some q) (state : q.state = .releasing)
    (room : o ≠ .queueFull) : reportAcquire lock o s = s := by
  cases o with
  | queueFull => exact absurd rfl room
  | granted | queued => simp only [reportAcquire, request, state]

theorem reportAcquire_settled (o : AcquireReport) (request : s.requests[lock] = some q)
    (state : q.state = .waiting ∨ q.state = .held ∨ q.state = .expiring) : reportAcquire lock o s = s := by
  rcases state with state | state | state <;> simp only [reportAcquire, request, state]

end

/-- R58: ending a request places the event and takes the request and its intents away; the event is placed on the answer
queue alone. -/
theorem endRequest_eq (lock : LockNo) (e : Event) (s : State) :
    endRequest lock e s = { placeEvent e s with
      requests := s.requests.set lock none, outbox := s.outbox.filter fun i => !i.refersToLock lock } := by
  rw [← (placeEvent_only e s).requests, ← (placeEvent_only e s).outbox]
  rfl

/-! ## The item -/

section
variable {r : StationNo} {lock : LockNo} {leased : Bool} {s : State}

theorem applyItem_acquire_inadmissible (marked : isUnmarked s r = false) :
    applyItem r s (.acquire lock leased) = s := by
  simp only [applyItem, admissible, marked, Bool.false_and, Bool.false_eq_true, if_false]

theorem applyItem_acquire (member : isUnmarked s r = true) (place : lockInPlace s lock = true) :
    applyItem r s (.acquire lock leased) = applyAcquire r lock leased s := by
  simp only [applyItem, admissible, member, place, Bool.and_true, if_true]

theorem applyAcquire_other (other : r ≠ s.own) :
    applyAcquire r lock leased s = setLock lock (acquireEntry r leased s.locks[lock]).1 s :=
  if_neg other

theorem applyAcquire_own (own : r = s.own) :
    applyAcquire r lock leased s = reportAcquire lock (acquireEntry r leased s.locks[lock]).2.handed
      (setLock lock (acquireEntry r leased s.locks[lock]).1 s) :=
  if_pos own

end

/-- Settles O44: Table 1-7 case by case; then the item, by whose it is and, for the own one, by the state of the own
request and the outcome handed to it. -/
theorem acquireItemHasTheTableOutcomes : Obligations.AcquireItemHasTheTableOutcomes := by
  intro r leased
  refine ⟨rfl, fun holder lease waiters => ⟨acquireEntry_of_holder, ?waiting, ?full, ?room⟩, fun s lock =>
    ⟨applyItem_acquire_inadmissible, fun member place => ?_⟩⟩
  case waiting =>
    rintro before w after other rfl named first
    rw [acquireEntry_of_waiting other (isWaiting_append_cons before after named),
      positionOf_append_cons after named first]
  case full => exact fun other absent full => acquireEntry_of_full other (isWaiting_eq_false absent) full
  case room => exact fun other absent room => acquireEntry_of_room other (isWaiting_eq_false absent) room
  intro entered outcome after
  have applied : after = applyAcquire r lock leased s := applyItem_acquire member place
  have reported (own : r = s.cfg.number) : after = reportAcquire lock outcome.handed entered :=
    applied.trans (applyAcquire_own own)
  refine ⟨?untouched, fun q own request => ?_⟩
  case untouched =>
    intro unconcerned
    by_cases own : r = s.cfg.number
    · have no_request := unconcerned.resolve_left (not_not_intro own)
      exact (reported own).trans (reportAcquire_of_no_request _ no_request)
    · exact applied.trans (applyAcquire_other own)
  have present : entered.requests[lock] = some q := request
  rw [reported own]
  refine ⟨fun pending granted => ?_, fun position pending queued => ?_, fun state full => ?_, ?stays⟩
  · rw [AcquireOutcome.handed_of_granted granted]
    exact reportAcquire_granted present pending
  · rw [AcquireOutcome.handed_of_queued queued]
    exact reportAcquire_queued position present pending
  · rw [full]
    exact (reportAcquire_queueFull present state).trans (endRequest_eq lock _ entered)
  case stays =>
    rintro (⟨releasing, room⟩ | settled)
    · exact reportAcquire_releasing present releasing (AcquireOutcome.handed_ne_queueFull room)
    · exact reportAcquire_settled _ present settled

end Sys2Proof.Machine

/-! The command processor takes the head record: once the common checks are passed it leaves the queue and the command's
own part runs (R159, R160), here for ARRIVE (R70, R165) and STATUS (R166). -/

namespace Sys2Proof.Machine

/-! ## The record taken and its reply -/

section
variable {kind : CommandKind} {r : CommandRecord} {rest : List CommandRecord} {s : State}

theorem mayTake_of_takes (takes : Takes kind r rest s) : mayTake s = true := by
  simp only [mayTake, decide_eq_true takes.room, takes.quiet, List.isEmpty_nil, Bool.and_self]

/-- R159: a record of the kind, whole and in a state where the kind acts, passes checks 1 to 3 and leaves the queue. -/
theorem takeCommand_of_takes (act : CommandRecord → State → State) (takes : Takes kind r rest s)
    (acts : actsIn kind s.station = true) : takeCommand kind act s = act r (dequeue s) := by
  have taken : (mayTake s && r.kind == kindByte kind) = true :=
    Bool.and_eq_true_iff.2 ⟨mayTake_of_takes takes, beq_iff_eq.2 takes.kindIs⟩
  simp only [takeCommand, takes.head, if_pos taken, if_neg (Nat.not_lt.2 takes.count), if_pos acts]

/-- R160: the reply of the record taken is placed at the tail of the answer queue, and nothing else changes. -/
theorem placeReply_dequeue (head : s.commands = r :: rest) (a : Answer) :
    placeReply a (dequeue s) = s.answered rest a := by
  simp only [placeReply, dequeue, head, List.tail_cons, State.answered]

end

/-! ## ARRIVE -/

theorem readBarrier_of_gt {b : Byte} (above : 7 < b.toNat) : readBarrier b = none :=
  dif_neg (Nat.not_lt.2 above)

theorem readBarrier_eq_some {b : Byte} {barrier : BarrierNo} (names : b.toNat = barrier.val) :
    readBarrier b = some barrier :=
  have below : b.toNat < 8 := names ▸ barrier.isLt
  (dif_pos below).trans (congrArg some (Fin.ext names))

section
variable {r : CommandRecord} {barrier : BarrierNo} {s : State}

theorem actArrive_badBarrier (above : 7 < (param r 0).toNat) : actArrive r s = refuse r .badBarrier s := by
  simp only [actArrive, readBarrier_of_gt above]

theorem actArrive_busy {b : BarrierRecord} (names : (param r 0).toNat = barrier.val)
    (record : s.barrierRecords[barrier] = some b) : actArrive r s = refuse r .busy s := by
  simp only [actArrive, readBarrier_eq_some names, record, Option.isSome_some, if_true]

theorem actArrive_accepted (names : (param r 0).toNat = barrier.val) (free : s.barrierRecords[barrier] = none) :
    actArrive r s = addBarrierRecord barrier r.tag (accept r s) := by
  simp only [actArrive, readBarrier_eq_some names, free, Option.isSome_none, Bool.false_eq_true, if_false]

end

theorem actsIn_arrive {state : StationState} (member : state = .joining ∨ state = .synced) :
    actsIn .arrive state = true := by
  rcases member with rfl | rfl <;> rfl

/-- ARRIVE taken in JOINING or SYNCED: checks 4 and 5 and the effects, on the state without the record. -/
theorem exec_arrive_of_takes {s : State} {r : CommandRecord} {rest : List CommandRecord} (takes : Takes .arrive r rest s)
    (member : s.station = .joining ∨ s.station = .synced) : exec .arrive s = .next (actArrive r (dequeue s)) :=
  congrArg Host.Outcome.next (takeCommand_of_takes actArrive takes (actsIn_arrive member))

/-- Settles O20: the barrier number is judged first, then the barrier's record; what is left is accepted. -/
theorem arriveAddsABarrierRecord : Obligations.ArriveAddsABarrierRecord := by
  intro s r rest takes member
  have answered := placeReply_dequeue (s := s) takes.head
  rw [exec_arrive_of_takes takes member]
  refine ⟨fun above => ?badBarrier, fun barrier names => ⟨fun b record => ?busy, fun free => ?accepted⟩⟩
  case badBarrier => rw [actArrive_badBarrier above, refuse, answered]
  case busy => rw [actArrive_busy names (s := dequeue s) record, refuse, answered]
  case accepted =>
    rw [actArrive_accepted names (s := dequeue s) free, accept, answered]
    rfl

/-! ## STATUS -/

/-- STATUS acts in every state: the reply and the emptied notice set, on the state without the record. -/
theorem exec_status_of_takes {s : State} {r : CommandRecord} {rest : List CommandRecord}
    (takes : Takes .status r rest s) : exec .status s = .next (actStatus r (dequeue s)) :=
  congrArg Host.Outcome.next (takeCommand_of_takes actStatus takes rfl)

/-- Table 10-6 does not speak of the command queue: the contents are those before the record left it. -/
theorem statusContent_dequeue (s : State) : statusContent (dequeue s) = statusContent s := rfl

/-- Settles O21: the reply carries the notice set that is emptied after it. -/
theorem statusReportsAndClearsNotices : Obligations.StatusReportsAndClearsNotices := by
  intro s r rest takes
  rw [exec_status_of_takes takes, actStatus, statusContent_dequeue, placeReply_dequeue takes.head]
  rfl

end Sys2Proof.Machine

/-! Placing an event (R173): the notice set, the mask (R172), the stored record, and the overrun marker (R174). -/

namespace Sys2Proof.Machine

/-! ## The overrun marker -/

/-- R174: a marker that is last takes the count of one more event, up to the limit. -/
theorem countEvent_append_marker (before : List Answer) (n : Nat) :
    countEvent (before ++ [.overrun n]) = before ++ [.overrun (min (n + 1) markerLimit)] := by
  induction before with
  | nil => rfl
  | cons a before ih =>
    have nonempty : before ++ [.overrun n] ≠ [] := List.append_ne_nil_of_right_ne_nil before (List.cons_ne_nil _ [])
    obtain ⟨b, rest, split⟩ := List.exists_cons_of_ne_nil nonempty
    rw [List.cons_append, split, countEvent_cons_cons, ← split, ih, List.cons_append]

/-- R174: where no marker is last, one with count 1 is appended. -/
theorem countEvent_of_no_marker {l : List Answer} (unmarked : ∀ n, l.getLast? ≠ some (.overrun n)) :
    countEvent l = l ++ [.overrun 1] := by
  induction l using countEvent.induct with
  | case1 => rfl
  | case2 n => exact absurd rfl (unmarked n)
  | case3 a other =>
    cases a with
    | overrun n => exact absurd rfl (other n)
    | accepted | refused | status | lockInfo | members | event => rfl
  | case4 a b rest ih =>
    simp only [List.getLast?_cons_cons] at unmarked
    simp only [countEvent_cons_cons, ih unmarked, List.cons_append]

/-! ## The three ways an event is taken -/

section
variable {e : Event} {s : State}

theorem placeEvent_masked (masked : isMasked s.eventMask (kindOf e) = true) :
    placeEvent e s = { s with notices := addNotice (kindOf e) s.notices } :=
  if_pos masked

theorem placeEvent_unmasked (unmasked : isMasked s.eventMask (kindOf e) = false) :
    placeEvent e s = if s.answers.length ≤ 30
      then { s with notices := addNotice (kindOf e) s.notices, answers := s.answers ++ [.event e] }
      else { s with
        notices := addNotice .overrun (addNotice (kindOf e) s.notices), answers := countEvent s.answers } :=
  if_neg (Bool.eq_false_iff.1 unmasked)

theorem placeEvent_stored (unmasked : isMasked s.eventMask (kindOf e) = false) (room : s.answers.length ≤ 30) :
    placeEvent e s = { s with notices := addNotice (kindOf e) s.notices, answers := s.answers ++ [.event e] } :=
  (placeEvent_unmasked unmasked).trans (if_pos room)

theorem placeEvent_counted (unmasked : isMasked s.eventMask (kindOf e) = false) (full : 31 ≤ s.answers.length) :
    placeEvent e s = { s with
      notices := addNotice .overrun (addNotice (kindOf e) s.notices), answers := countEvent s.answers } :=
  (placeEvent_unmasked unmasked).trans (if_neg (Nat.not_le.2 full))

end

/-! ## The queue's law -/

/-- R174: counting an event keeps a queue of at most 32 records within its law: a full one ends with the marker that is
raised, and a marker formed in a shorter one is the 32nd record at most. -/
theorem countEvent_length_le {l : List Answer} (bound : l.length ≤ 32) (full : l.length = 32 → LastIsMarker l) :
    (countEvent l).length ≤ 32 := by
  obtain ⟨-, raised, formed⟩ := countEvent_spec l
  by_cases marker : LastIsMarker l
  · rw [raised marker]
    exact bound
  · have short : l.length ≠ 32 := fun eq => marker (full eq)
    rw [formed marker]
    omega

/-- R169, R173, R174: placing an event keeps the answer queue's law. -/
theorem placeEvent_keeps_answerQueueLaw (e : Event) {s : State} (law : AnswerQueueLaw s) :
    AnswerQueueLaw (placeEvent e s) := by
  obtain ⟨bound, full, ranges⟩ := law
  unfold AnswerQueueLaw
  rcases placeEvent_cases e s with ⟨-, answers⟩ | ⟨-, room, answers⟩ | ⟨-, -, answers⟩ <;> rw [answers]
  case inl => exact ⟨bound, full, ranges⟩
  case inr.inl =>
    have length : (s.answers ++ [Answer.event e]).length = s.answers.length + 1 := List.length_append
    refine ⟨by omega, fun eq => by omega, fun a mem => ?_⟩
    rcases List.mem_append.1 mem with old | new
    · exact ranges a old
    · rw [List.mem_singleton.1 new]
      trivial
  case inr.inr =>
    exact ⟨countEvent_length_le bound full, fun _ => (countEvent_spec s.answers).1, countEvent_range ranges⟩

/-- Settles O51: the mask, the room in the queue and the record that is last decide between the four ways the event is
taken. -/
theorem eventIsStoredMaskedOrCounted : Obligations.EventIsStoredMaskedOrCounted := by
  intro e s masked noticed overrun
  have masks : isMasked s.eventMask (kindOf e) = masked := by cases e <;> rfl
  refine ⟨fun on => ?masked, fun off room => ?stored, fun before n off full last => ?raised,
    fun off full unmarked => ?formed, placeEvent_keeps_answerQueueLaw e⟩
  case masked => exact placeEvent_masked (masks.trans on)
  case stored => exact placeEvent_stored (masks.trans off) room
  case raised =>
    rw [placeEvent_counted (masks.trans off) full, last, countEvent_append_marker]
    rfl
  case formed =>
    rw [placeEvent_counted (masks.trans off) full, countEvent_of_no_marker unmarked]
    rfl

end Sys2Proof.Machine


/-! Events leave everything but the answer queue and the notice set alone, so that they can be placed before or after any
other change; with this, what each transition of the station state leaves is one equation (R68, R115). -/

namespace Sys2Proof.Machine

/-! ## Events and the other fields -/

/-- Two states that an event finds alike: the mask, the answer queue and the notice set are the same. -/
structure SameQueue (s t : State) : Prop where
  mask : t.eventMask = s.eventMask
  answers : t.answers = s.answers
  notices : t.notices = s.notices

theorem SameQueue.refl (s : State) : SameQueue s s := ⟨rfl, rfl, rfl⟩

theorem SameQueue.symm {s t : State} (h : SameQueue s t) : SameQueue t s :=
  ⟨h.mask.symm, h.answers.symm, h.notices.symm⟩

theorem SameQueue.trans {s t u : State} (h : SameQueue s t) (k : SameQueue t u) : SameQueue s u :=
  ⟨k.mask.trans h.mask, k.answers.trans h.answers, k.notices.trans h.notices⟩

/-- What an event makes of the queue and the notice set depends on these and the mask alone. -/
theorem SameQueue.placeEvent (e : Event) {s t : State} (h : SameQueue s t) :
    SameQueue (placeEvent e s) (placeEvent e t) := by
  obtain ⟨mask, answers, notices⟩ := h
  refine ⟨?_, ?_, ?_⟩
  · rw [(placeEvent_only e s).eventMask, (placeEvent_only e t).eventMask, mask]
  · unfold Machine.placeEvent
    dsimp only
    rw [mask, answers]
    split
    · rfl
    · split <;> rfl
  · unfold Machine.placeEvent
    dsimp only
    rw [mask, answers, notices]
    split
    · rfl
    · split <;> rfl

theorem placeEvents_nil (s : State) : placeEvents [] s = s := rfl

theorem placeEvents_cons (e : Event) (l : List Event) (s : State) :
    placeEvents (e :: l) s = placeEvents l (placeEvent e s) := rfl

theorem placeEvents_append (a b : List Event) (s : State) :
    placeEvents (a ++ b) s = placeEvents b (placeEvents a s) := List.foldl_append

theorem SameQueue.placeEvents (l : List Event) {s t : State} (h : SameQueue s t) :
    SameQueue (placeEvents l s) (placeEvents l t) := by
  induction l generalizing s t with
  | nil => exact h
  | cons e l ih => exact ih (h.placeEvent e)

theorem placeEvents_only (l : List Event) (s : State) : OnlyAnswers s (placeEvents l s) := by
  induction l generalizing s with
  | nil => exact .refl s
  | cons e l ih => exact (placeEvent_only e s).trans (ih _)

/-- An event placed on a state that differs elsewhere. -/
theorem placeEvent_of_same (e : Event) {s t : State} (h : SameQueue s t) :
    placeEvent e t = { t with answers := (placeEvent e s).answers, notices := (placeEvent e s).notices } := by
  rw [← (h.placeEvent e).answers, ← (h.placeEvent e).notices]
  exact placeEvent_only e t

theorem placeEvents_of_same (l : List Event) {s t : State} (h : SameQueue s t) :
    placeEvents l t = { t with answers := (placeEvents l s).answers, notices := (placeEvents l s).notices } := by
  rw [← (h.placeEvents l).answers, ← (h.placeEvents l).notices]
  exact placeEvents_only l t

/-! ## The records end LOST (R68) -/

/-- The LOST event of the request for a lock, if there is one. -/
def lostRequest (s : State) (lock : LockNo) : Option Event := (s.requests[lock]).map fun q => .lost q.tag (.lock lock)

/-- The LOST event of a barrier's record, if there is one. -/
def lostRecord (s : State) (barrier : BarrierNo) : Option Event :=
  (s.barrierRecords[barrier]).map fun q => .lost q.tag (.barrier barrier)

theorem lostEvents_eq (s : State) :
    lostEvents s = allLocks.filterMap (lostRequest s) ++ allBarriers.filterMap (lostRecord s) := rfl

theorem loseRequest_queue (lock : LockNo) (s : State) :
    SameQueue (placeEvents (lostRequest s lock).toList s) (loseRequest lock s) := by
  unfold loseRequest lostRequest
  cases s.requests[lock] with
  | none => exact .refl s
  | some q => exact ⟨rfl, rfl, rfl⟩

theorem loseBarrierRecord_queue (barrier : BarrierNo) (s : State) :
    SameQueue (placeEvents (lostRecord s barrier).toList s) (loseBarrierRecord barrier s) := by
  unfold loseBarrierRecord lostRecord
  cases s.barrierRecords[barrier] with
  | none => exact .refl s
  | some q => exact ⟨rfl, rfl, rfl⟩

theorem filterMap_cons_toList {α β : Type} (f : α → Option β) (a : α) (l : List α) :
    (a :: l).filterMap f = (f a).toList ++ l.filterMap f := by
  rw [List.filterMap_cons]
  cases f a <;> rfl

/-- R68: the requests of distinct locks end with their events in the order of the list. -/
theorem loseRequests_queue (l : List LockNo) (distinct : l.Nodup) (s : State) :
    SameQueue (placeEvents (l.filterMap (lostRequest s)) s) (l.foldl (fun s L => loseRequest L s) s) := by
  induction l generalizing s with
  | nil => exact .refl s
  | cons a l ih =>
    obtain ⟨fresh, distinct⟩ := List.nodup_cons.1 distinct
    have others : l.filterMap (lostRequest (loseRequest a s)) = l.filterMap (lostRequest s) := by
      refine List.filterMap_congr fun L mem => ?_
      rw [lostRequest, loseRequest_get, if_neg fun eq : L = a => fresh (eq ▸ mem), lostRequest]
    rw [filterMap_cons_toList, placeEvents_append, List.foldl_cons, ← others]
    exact ((loseRequest_queue a s).placeEvents _).trans (ih distinct _)

/-- R68: the records of distinct barriers end with their events in the order of the list. -/
theorem loseBarrierRecords_queue (l : List BarrierNo) (distinct : l.Nodup) (s : State) :
    SameQueue (placeEvents (l.filterMap (lostRecord s)) s) (l.foldl (fun s b => loseBarrierRecord b s) s) := by
  induction l generalizing s with
  | nil => exact .refl s
  | cons a l ih =>
    obtain ⟨fresh, distinct⟩ := List.nodup_cons.1 distinct
    have others : l.filterMap (lostRecord (loseBarrierRecord a s)) = l.filterMap (lostRecord s) := by
      refine List.filterMap_congr fun b mem => ?_
      rw [lostRecord, loseBarrierRecord_get, if_neg fun eq : b = a => fresh (eq ▸ mem), lostRecord]
    rw [filterMap_cons_toList, placeEvents_append, List.foldl_cons, ← others]
    exact ((loseBarrierRecord_queue a s).placeEvents _).trans (ih distinct _)

theorem loseRequests_barrierRecords (l : List LockNo) (s : State) :
    (l.foldl (fun s L => loseRequest L s) s).barrierRecords = s.barrierRecords := by
  induction l generalizing s with
  | nil => rfl
  | cons a l ih => rw [List.foldl_cons, ih, loseRequest_barrierRecords]

/-- R68: all the records end with the LOST events of the state before. -/
theorem loseRecords_queue (s : State) : SameQueue (placeEvents (lostEvents s) s) (loseRecords s) := by
  have locks := loseRequests_queue allLocks (List.nodup_finRange 64) s
  have barriers := loseBarrierRecords_queue allBarriers (List.nodup_finRange 8)
    (allLocks.foldl (fun s L => loseRequest L s) s)
  have same : lostRecord (allLocks.foldl (fun s L => loseRequest L s) s) = lostRecord s := by
    funext b
    rw [lostRecord, loseRequests_barrierRecords, lostRecord]
  rw [same] at barriers
  rw [lostEvents_eq, placeEvents_append]
  refine ((locks.placeEvents _).trans barriers).trans ?_
  unfold loseRecords
  generalize allBarriers.foldl _ _ = u
  exact ⟨rfl, rfl, rfl⟩

/-- R68: what the end of the records leaves, with its events in order. -/
theorem loseRecords_events (s : State) : loseRecords s = (placeEvents (lostEvents s) s).withoutRecords := by
  have queue := loseRecords_queue s
  have events := placeEvents_only (lostEvents s) s
  obtain ⟨a, n, eq⟩ := loseRecords_eq s
  rw [eq] at queue ⊢
  generalize placeEvents (lostEvents s) s = u at events queue ⊢
  rw [events, show a = u.answers from queue.answers, show n = u.notices from queue.notices]
  rfl

/-- R69: a station that holds no records loses none. -/
theorem lostEvents_of_none {s : State} (requests : ∀ lock : LockNo, s.requests[lock] = none)
    (records : ∀ barrier : BarrierNo, s.barrierRecords[barrier] = none) : lostEvents s = [] := by
  rw [lostEvents_eq, List.filterMap_eq_nil_iff.2 fun L _ => by rw [lostRequest, requests]; rfl,
    List.filterMap_eq_nil_iff.2 fun b _ => by rw [lostRecord, records]; rfl]
  rfl

theorem lostEvents_of_recordsLaw {s : State} (law : RecordsLaw s) (joining : s.station ≠ .joining)
    (synced : s.station ≠ .synced) : lostEvents s = [] := by
  rcases law with h | h | ⟨requests, records⟩
  · exact absurd h joining
  · exact absurd h synced
  · exact lostEvents_of_none requests records

/-! ## The transitions, with their events -/

/-- R115: what a transition to READY leaves, with its events in order. -/
theorem enterReady_events (cause : StateCause) (s : State) :
    enterReady cause s = placeEvent (.state .ready cause) (placeEvents (lostEvents s) s).atRest := by
  unfold enterReady
  rw [loseRecords_events]
  generalize placeEvents (lostEvents s) s = u
  rfl

/-- R115: what a transition to LISTENING leaves, with its events in order. -/
theorem enterListening_events (cause : StateCause) (s : State) :
    enterListening cause s = placeEvent (.state .listening cause) (placeEvents (lostEvents s) s).atListening := by
  unfold enterListening
  rw [loseRecords_events]
  generalize placeEvents (lostEvents s) s = u
  rfl

theorem enterReady_of_no_records (cause : StateCause) {s : State} (none : lostEvents s = []) :
    enterReady cause s = placeEvent (.state .ready cause) s.atRest := by
  rw [enterReady_events, none, placeEvents_nil]

theorem enterListening_of_no_records (cause : StateCause) {s : State} (none : lostEvents s = []) :
    enterListening cause s = placeEvent (.state .listening cause) s.atListening := by
  rw [enterListening_events, none, placeEvents_nil]

/-- R121: what a STOP leaves that leads to LEAVING, with its events in order. -/
theorem enterLeaving_events (s : State) :
    enterLeaving s = placeEvent (.state .leaving .stopping)
      { ((placeEvents (lostEvents s) s).withoutRecords).withChunks s.installed 0 with
        station := .leaving
        outbox := [newIntent .leave]
        leavingCount := 0
        leavingFromJoining := s.station == .joining
        foundingOpen := false } := by
  have installed : (placeEvents (lostEvents s) s).installed = s.installed := (placeEvents_only _ s).installed
  unfold enterLeaving
  rw [loseRecords_events, ← installed]
  generalize placeEvents (lostEvents s) s = u
  rfl

/-- R126: what a DIVERGED verdict leaves, with its events in order. -/
theorem enterDiverged_events (s : State) :
    enterDiverged s = placeEvent (.state .joining .diverged)
      { (((placeEvents (lostEvents s) s).withoutRecords).withoutReplica).withChunks 0 allChunks with
        station := .joining, disagreement := 0 } := by
  unfold enterDiverged
  rw [loseRecords_events]
  generalize placeEvents (lostEvents s) s = u
  rfl

/-! ## Work that is left -/

theorem resumeWork_of_none {s : State} (none : s.work = []) : resumeWork s = s := by
  rw [resumeWork, none, doWork, ← none]

theorem placeEvent_work (e : Event) (s : State) : (placeEvent e s).work = s.work := (placeEvent_only e s).work

theorem enterReady_work (cause : StateCause) (s : State) : (enterReady cause s).work = [] := by
  rw [enterReady_events, placeEvent_work]
  rfl

theorem enterListening_work (cause : StateCause) (s : State) : (enterListening cause s).work = [] := by
  rw [enterListening_events, placeEvent_work]
  rfl

theorem lostEvents_work (s : State) (work : List Work) : lostEvents { s with work := work } = lostEvents s := rfl

/-- What a transition to READY leaves does not depend on the work it ends. -/
theorem enterReady_of_work (cause : StateCause) (s : State) (work : List Work) :
    enterReady cause { s with work := work } = enterReady cause s := by
  rw [enterReady_events, enterReady_events, lostEvents_work,
    placeEvents_of_same (s := s) (t := { s with work := work }) _ ⟨rfl, rfl, rfl⟩]
  have events := placeEvents_only (lostEvents s) s
  generalize placeEvents (lostEvents s) s = u at events ⊢
  rw [events]
  rfl

theorem enterListening_of_work (cause : StateCause) (s : State) (work : List Work) :
    enterListening cause { s with work := work } = enterListening cause s := by
  rw [enterListening_events, enterListening_events, lostEvents_work,
    placeEvents_of_same (s := s) (t := { s with work := work }) _ ⟨rfl, rfl, rfl⟩]
  have events := placeEvents_only (lostEvents s) s
  generalize placeEvents (lostEvents s) s = u at events ⊢
  rw [events]
  rfl

end Sys2Proof.Machine


/-! The removal of a station (R19, R34, R50): what it leaves of each lock, each barrier and the records, for any list of
locks and barriers that is visited, and for the whole table. -/

namespace Sys2Proof.Machine

/-! ## The groups of fields that the two halves of a removal can change -/

/-- Only locks and requests differ, beside the answer queue and the notice set. -/
def OnlyLocks (s t : State) : Prop :=
  t = { s with answers := t.answers, notices := t.notices, requests := t.requests, locks := t.locks }

/-- Only barriers, barrier records and the outbox differ, beside the answer queue and the notice set. -/
def OnlyBarriers (s t : State) : Prop :=
  t = { s with
    answers := t.answers, notices := t.notices, barrierRecords := t.barrierRecords, outbox := t.outbox
    barriers := t.barriers }

theorem OnlyLocks.refl (s : State) : OnlyLocks s s := rfl
theorem OnlyBarriers.refl (s : State) : OnlyBarriers s s := rfl

theorem OnlyLocks.trans {s t u : State} (h : OnlyLocks s t) (k : OnlyLocks t u) : OnlyLocks s u := by
  unfold OnlyLocks at *; rw [k, h]

theorem OnlyBarriers.trans {s t u : State} (h : OnlyBarriers s t) (k : OnlyBarriers t u) : OnlyBarriers s u := by
  unfold OnlyBarriers at *; rw [k, h]

theorem OnlyAnswers.onlyLocks {s t : State} (h : OnlyAnswers s t) : OnlyLocks s t := by
  unfold OnlyAnswers OnlyLocks at *; rw [h]

theorem OnlyAnswers.onlyBarriers {s t : State} (h : OnlyAnswers s t) : OnlyBarriers s t := by
  unfold OnlyAnswers OnlyBarriers at *; rw [h]

theorem OnlyLocks.installed {s t : State} (h : OnlyLocks s t) : t.installed = s.installed := (congrArg State.installed h :)
theorem OnlyLocks.config {s t : State} (h : OnlyLocks s t) : t.config = s.config := (congrArg State.config h :)
theorem OnlyLocks.barriers {s t : State} (h : OnlyLocks s t) : t.barriers = s.barriers := (congrArg State.barriers h :)
theorem OnlyLocks.members {s t : State} (h : OnlyLocks s t) : t.members = s.members := (congrArg State.members h :)
theorem OnlyLocks.outbox {s t : State} (h : OnlyLocks s t) : t.outbox = s.outbox := (congrArg State.outbox h :)
theorem OnlyLocks.barrierRecords {s t : State} (h : OnlyLocks s t) : t.barrierRecords = s.barrierRecords :=
  (congrArg State.barrierRecords h :)

theorem OnlyBarriers.installed {s t : State} (h : OnlyBarriers s t) : t.installed = s.installed :=
  (congrArg State.installed h :)
theorem OnlyBarriers.config {s t : State} (h : OnlyBarriers s t) : t.config = s.config := (congrArg State.config h :)
theorem OnlyBarriers.locks {s t : State} (h : OnlyBarriers s t) : t.locks = s.locks := (congrArg State.locks h :)
theorem OnlyBarriers.members {s t : State} (h : OnlyBarriers s t) : t.members = s.members := (congrArg State.members h :)
theorem OnlyBarriers.requests {s t : State} (h : OnlyBarriers s t) : t.requests = s.requests :=
  (congrArg State.requests h :)

theorem OnlyLocks.lockInPlace {s t : State} (h : OnlyLocks s t) (lock : LockNo) :
    lockInPlace t lock = lockInPlace s lock := by
  unfold Machine.lockInPlace chunkInstalled; rw [h.installed]

theorem OnlyLocks.own {s t : State} (h : OnlyLocks s t) : t.own = s.own := by
  unfold State.own State.cfg; rw [h.config]

theorem OnlyBarriers.own {s t : State} (h : OnlyBarriers s t) : t.own = s.own := by
  unfold State.own State.cfg; rw [h.config]

theorem OnlyBarriers.requiredSet {s t : State} (h : OnlyBarriers s t) : requiredSet t = requiredSet s := by
  unfold Machine.requiredSet; rw [h.members]

theorem setLock_own (lock : LockNo) (e : LockEntry) (s : State) : (setLock lock e s).own = s.own := rfl

/-! ## The pass to the own station (R61) -/

theorem reportPass_waiting {lock : LockNo} {q : Request} {s : State} (request : s.requests[lock] = some q)
    (state : q.state = .waiting) :
    reportPass lock s = placeEvent (.granted q.tag lock) (setRequest lock (some (q.withState .held)) s) := by
  simp only [reportPass, request, state]

theorem reportPass_of_not_waiting {lock : LockNo} {s : State}
    (state : ∀ q, s.requests[lock] = some q → q.state ≠ .waiting) : reportPass lock s = s := by
  unfold reportPass
  split
  · rfl
  · rename_i q request
    split
    · exact absurd ‹_› (state q request)
    all_goals rfl

theorem reportPass_onlyLocks (lock : LockNo) (s : State) : OnlyLocks s (reportPass lock s) := by
  unfold reportPass
  split
  · exact .refl s
  · split
    · exact OnlyLocks.trans (t := setRequest lock _ s) rfl (placeEvent_only _ _).onlyLocks
    all_goals exact .refl s

theorem reportPass_locks (lock : LockNo) (s : State) : (reportPass lock s).locks = s.locks := by
  unfold reportPass
  split
  · rfl
  · split
    · exact (placeEvent_only _ _).locks
    all_goals rfl

/-! ## One lock -/

/-- R19: what the removal of a station leaves of an entry in place. -/
def entryWithout (r : StationNo) : LockEntry → LockEntry
  | .free => .free
  | .held holder lease waiters =>
    if holder = r then passEntry waiters else .held holder lease (withdraw r waiters)

/-- R19, R61: the own WAITING request that the removal of a station makes HELD. -/
def passGrant (r : StationNo) (s : State) (lock : LockNo) : Option Request :=
  match s.locks[lock], s.requests[lock] with
  | .held holder _ (w :: _), some q =>
    if lockInPlace s lock ∧ holder = r ∧ w.station = s.cfg.number ∧ q.state = .waiting then some q else none
  | _, _ => none

/-- The request of a lock after the removal of a station. -/
def requestAfterPass (r : StationNo) (s : State) (lock : LockNo) : Option Request :=
  match passGrant r s lock with
  | some q => some { q with state := .held }
  | none => s.requests[lock]

/-- The GRANTED event of a pass to the own station. -/
def passEvent (r : StationNo) (s : State) (lock : LockNo) : Option Event :=
  (passGrant r s lock).map fun q => .granted q.tag lock

theorem entryWithout_holder (r : StationNo) (lease : Option (BitVec 3)) (waiters : List Waiter) :
    entryWithout r (.held r lease waiters) = passEntry waiters := if_pos rfl

theorem entryWithout_other {r holder : StationNo} (other : holder ≠ r) (lease : Option (BitVec 3))
    (waiters : List Waiter) :
    entryWithout r (.held holder lease waiters) = .held holder lease (withdraw r waiters) := if_neg other

section
variable {r holder : StationNo} {lock : LockNo} {lease : Option (BitVec 3)} {waiters : List Waiter} {s : State}

theorem removeFromLock_absent (absent : lockInPlace s lock = false) : removeFromLock r lock s = s := by
  simp only [removeFromLock, absent, Bool.false_eq_true, if_false]

theorem removeFromLock_free (free : s.locks[lock] = .free) : removeFromLock r lock s = s := by
  simp only [removeFromLock, free, ite_self]

theorem removeFromLock_waiter (place : lockInPlace s lock = true) (entry : s.locks[lock] = .held holder lease waiters)
    (other : holder ≠ r) : removeFromLock r lock s = setLock lock (.held holder lease (withdraw r waiters)) s := by
  simp only [removeFromLock, place, entry, if_neg other, if_true]

theorem removeFromLock_own (place : lockInPlace s lock = true) (entry : s.locks[lock] = .held r lease waiters)
    (own : r = s.own) : removeFromLock r lock s = setLock lock (passEntry waiters) s := by
  simp only [removeFromLock, place, entry, if_true, if_pos own]

theorem removeFromLock_holder (place : lockInPlace s lock = true) (entry : s.locks[lock] = .held r lease waiters)
    (foreign : r ≠ s.own) : removeFromLock r lock s = passLock lock waiters s := by
  simp only [removeFromLock, place, entry, if_true, if_neg foreign]

end

theorem passLock_onlyLocks (lock : LockNo) (waiters : List Waiter) (s : State) :
    OnlyLocks s (passLock lock waiters s) := by
  unfold passLock
  dsimp only
  split
  · exact OnlyLocks.trans (t := setLock lock _ s) rfl (reportPass_onlyLocks _ _)
  · exact rfl

theorem passLock_locks (lock : LockNo) (waiters : List Waiter) (s : State) :
    (passLock lock waiters s).locks = s.locks.set lock (passEntry waiters) := by
  unfold passLock
  dsimp only
  split
  · rw [reportPass_locks, setLock_locks]
  · rw [setLock_locks]

/-- R19: only locks and requests change, and the entry of the lock in place is the one without the station. -/
theorem removeFromLock_spec (r : StationNo) (lock : LockNo) (s : State) :
    OnlyLocks s (removeFromLock r lock s) ∧ (removeFromLock r lock s).locks
      = if lockInPlace s lock = true then s.locks.set lock (entryWithout r s.locks[lock]) else s.locks := by
  cases place : lockInPlace s lock with
  | false => rw [removeFromLock_absent place]; exact ⟨.refl s, rfl⟩
  | true =>
    rw [if_pos rfl]
    cases entry : s.locks[lock] with
    | free =>
      rw [removeFromLock_free entry, entryWithout, ← entry]
      exact ⟨.refl s, by simp⟩
    | held holder lease waiters =>
      by_cases holds : holder = r
      · subst holds
        rw [entryWithout_holder]
        by_cases own : holder = s.own
        · rw [removeFromLock_own place entry own]
          exact ⟨rfl, rfl⟩
        · rw [removeFromLock_holder place entry own]
          exact ⟨passLock_onlyLocks _ _ s, passLock_locks _ _ s⟩
      · rw [removeFromLock_waiter place entry holds, entryWithout_other holds]
        exact ⟨rfl, rfl⟩

theorem removeFromLock_onlyLocks (r : StationNo) (lock : LockNo) (s : State) : OnlyLocks s (removeFromLock r lock s) :=
  (removeFromLock_spec r lock s).1

theorem removeFromLock_get (r : StationNo) (lock L : LockNo) (s : State) :
    (removeFromLock r lock s).locks[L]
      = if L = lock ∧ lockInPlace s lock = true then entryWithout r s.locks[lock] else s.locks[L] := by
  rw [(removeFromLock_spec r lock s).2]
  cases lockInPlace s lock with
  | false => simp
  | true =>
    rw [if_pos rfl, set_get]
    by_cases eq : L = lock
    · rw [if_pos eq, if_pos ⟨eq, rfl⟩]
    · rw [if_neg eq, if_neg fun h => eq h.1]

/-- The pass of a lock that the station holds, to the own WAITING request. -/
theorem passGrant_eq_some {r : StationNo} {lock : LockNo} {lease : Option (BitVec 3)} {w : Waiter} {others : List Waiter}
    {q : Request} {s : State} (place : lockInPlace s lock = true)
    (entry : s.locks[lock] = .held r lease (w :: others)) (request : s.requests[lock] = some q)
    (own : w.station = s.own) (waiting : q.state = .waiting) : passGrant r s lock = some q := by
  unfold passGrant
  rw [entry, request]
  exact if_pos ⟨place, rfl, own, waiting⟩

/-- Every other visit grants nothing. -/
theorem passGrant_eq_none {r : StationNo} {lock : LockNo} {s : State}
    (not : ∀ lease w others q, lockInPlace s lock = true → s.locks[lock] = .held r lease (w :: others) →
      s.requests[lock] = some q → w.station = s.own → q.state ≠ .waiting) : passGrant r s lock = none := by
  unfold passGrant
  split
  · rename_i holder lease w others q entry request
    refine if_neg ?_
    rintro ⟨place, rfl, own, waiting⟩
    exact not lease w others q place entry request own waiting
  · rfl

/-- R61: what becomes of the own requests when one lock is visited, and which event tells of it. -/
theorem removeFromLock_requests {r : StationNo} {lock : LockNo} {s : State} (foreign : r ≠ s.own) :
    SameQueue (placeEvents (passEvent r s lock).toList s) (removeFromLock r lock s)
      ∧ ∀ L : LockNo, (removeFromLock r lock s).requests[L]
        = if L = lock then requestAfterPass r s lock else s.requests[L] := by
  have quiet {u : State} (queue : SameQueue s u) (requests : u.requests = s.requests) (none : passGrant r s lock = none) :
      SameQueue (placeEvents (passEvent r s lock).toList s) u
        ∧ ∀ L : LockNo, u.requests[L] = if L = lock then requestAfterPass r s lock else s.requests[L] := by
    unfold passEvent requestAfterPass
    rw [none, requests]
    refine ⟨queue, fun L => ?_⟩
    split
    · rename_i eq; rw [eq]
    · rfl
  cases place : lockInPlace s lock with
  | false =>
    rw [removeFromLock_absent place]
    exact quiet (.refl s) rfl (passGrant_eq_none fun _ _ _ _ h => by rw [place] at h; cases h)
  | true =>
  cases entry : s.locks[lock] with
  | free =>
    rw [removeFromLock_free entry]
    exact quiet (.refl s) rfl (passGrant_eq_none fun _ _ _ _ _ h => by rw [entry] at h; cases h)
  | held holder lease waiters =>
  by_cases holds : holder = r
  case neg =>
    rw [removeFromLock_waiter place entry holds]
    refine quiet ⟨rfl, rfl, rfl⟩ rfl (passGrant_eq_none fun _ _ _ _ _ h => ?_)
    rw [entry] at h
    injection h with h
    exact absurd h holds
  subst holds
  rw [removeFromLock_holder place entry foreign, passLock]
  by_cases next : holderOf (passEntry waiters) = some s.own
  case neg =>
    rw [setLock_own, if_neg next]
    refine quiet ⟨rfl, rfl, rfl⟩ rfl (passGrant_eq_none fun _ w others _ _ h _ own => ?_)
    rw [entry] at h
    injection h with _ _ h
    rw [h] at next
    exact absurd (congrArg some own) next
  rw [setLock_own, if_pos next]
  by_cases waits : ∃ q, s.requests[lock] = some q ∧ q.state = .waiting
  · obtain ⟨q, request, waiting⟩ := waits
    obtain ⟨w, others, rfl⟩ : ∃ w others, waiters = w :: others := by
      cases waiters with
      | nil => cases next
      | cons w others => exact ⟨w, others, rfl⟩
    have granted := passGrant_eq_some place entry request (Option.some.inj next) waiting
    rw [reportPass_waiting (s := setLock lock _ s) request waiting, passEvent, requestAfterPass, granted]
    have same : SameQueue s (setRequest lock (some (q.withState .held)) (setLock lock (passEntry (w :: others)) s)) :=
      ⟨rfl, rfl, rfl⟩
    refine ⟨same.placeEvent (.granted q.tag lock), fun L => ?_⟩
    rw [(placeEvent_only _ _).requests, setRequest_requests, setLock_requests, set_get]
    rfl
  · have idle (q : Request) (request : s.requests[lock] = some q) : q.state ≠ .waiting :=
      fun waiting => waits ⟨q, request, waiting⟩
    rw [reportPass_of_not_waiting (s := setLock lock _ s) idle]
    exact quiet ⟨rfl, rfl, rfl⟩ rfl (passGrant_eq_none fun _ _ _ q _ _ request _ => idle q request)

/-! ## The lock table -/

theorem removeFromLock_fold_onlyLocks (r : StationNo) (l : List LockNo) (s : State) :
    OnlyLocks s (l.foldl (fun s L => removeFromLock r L s) s) := by
  induction l generalizing s with
  | nil => exact .refl s
  | cons a l ih => exact (removeFromLock_onlyLocks r a s).trans (ih _)

theorem removeFromLock_fold_get (r : StationNo) (l : List LockNo) (distinct : l.Nodup) (L : LockNo) (s : State) :
    (l.foldl (fun s L => removeFromLock r L s) s).locks[L]
      = if L ∈ l ∧ lockInPlace s L = true then entryWithout r s.locks[L] else s.locks[L] := by
  induction l generalizing s with
  | nil => simp
  | cons a l ih =>
    obtain ⟨fresh, distinct⟩ := List.nodup_cons.1 distinct
    rw [List.foldl_cons, ih distinct, removeFromLock_get, (removeFromLock_onlyLocks r a s).lockInPlace]
    by_cases eq : L = a
    · subst eq
      simp [fresh]
    · simp [eq]

/-- Visiting one lock changes nothing that decides about the pass of another. -/
theorem passGrant_removeFromLock {r : StationNo} {lock L : LockNo} {s : State} (other : r ≠ s.own) (ne : L ≠ lock) :
    passGrant r (removeFromLock r lock s) L = passGrant r s L := by
  have only := removeFromLock_onlyLocks r lock s
  have own : (removeFromLock r lock s).cfg.number = s.cfg.number := only.own
  unfold passGrant
  rw [removeFromLock_get, if_neg fun h => ne h.1, (removeFromLock_requests other).2, if_neg ne, own, only.lockInPlace]

theorem removeFromLock_fold_requests {r : StationNo} {l : List LockNo} (distinct : l.Nodup) {s : State}
    (other : r ≠ s.own) :
    SameQueue (placeEvents (l.filterMap (passEvent r s)) s) (l.foldl (fun s L => removeFromLock r L s) s)
      ∧ ∀ L : LockNo, (l.foldl (fun s L => removeFromLock r L s) s).requests[L]
        = if L ∈ l then requestAfterPass r s L else s.requests[L] := by
  induction l generalizing s with
  | nil => exact ⟨.refl s, by simp⟩
  | cons a l ih =>
    obtain ⟨fresh, distinct⟩ := List.nodup_cons.1 distinct
    obtain ⟨queue, requests⟩ := removeFromLock_requests (lock := a) other
    have own := (removeFromLock_onlyLocks r a s).own
    obtain ⟨queue', requests'⟩ := ih distinct (s := removeFromLock r a s) (own ▸ other)
    have same (L : LockNo) (ne : L ≠ a) : passGrant r (removeFromLock r a s) L = passGrant r s L :=
      passGrant_removeFromLock other ne
    have events : l.filterMap (passEvent r (removeFromLock r a s)) = l.filterMap (passEvent r s) :=
      List.filterMap_congr fun L mem => by
        rw [passEvent, same L fun eq : L = a => fresh (eq ▸ mem), passEvent]
    rw [filterMap_cons_toList, placeEvents_append, List.foldl_cons, ← events]
    refine ⟨(queue.placeEvents _).trans queue', fun L => ?_⟩
    rw [requests', requests]
    by_cases eq : L = a
    · subst eq
      simp [fresh]
    · rw [requestAfterPass, same L eq, requests, if_neg eq]
      simp only [List.mem_cons, eq, false_or]
      rfl

/-- R19: the lock table after a removal. -/
theorem removeFromLocks_get (r : StationNo) (L : LockNo) (s : State) :
    (removeFromLocks r s).locks[L] = if lockInPlace s L = true then entryWithout r s.locks[L] else s.locks[L] := by
  have visited := removeFromLock_fold_get r allLocks (List.nodup_finRange 64) L s
  simp only [show L ∈ allLocks from List.mem_finRange L, true_and] at visited
  exact visited

theorem removeFromLocks_onlyLocks (r : StationNo) (s : State) : OnlyLocks s (removeFromLocks r s) :=
  removeFromLock_fold_onlyLocks r allLocks s

/-- R19, R61: the requests and the events of a removal's visit of the lock table. -/
theorem removeFromLocks_requests {r : StationNo} {s : State} (other : r ≠ s.own) :
    SameQueue (placeEvents (allLocks.filterMap (passEvent r s)) s) (removeFromLocks r s)
      ∧ ∀ L : LockNo, (removeFromLocks r s).requests[L] = requestAfterPass r s L := by
  obtain ⟨queue, requests⟩ := removeFromLock_fold_requests (List.nodup_finRange 64) other
  exact ⟨queue, fun L => (requests L).trans (if_pos (List.mem_finRange L))⟩

/-! ## One barrier (R31, R32, R34, R71) -/

/-- The entry of a barrier that completes. -/
def completedEntry (e : BarrierEntry) : BarrierEntry := { generation := e.generation + 1, arrived := 0 }

/-- R71: the own ARRIVED record that the completion of a barrier ends. -/
def completionRecord (s : State) (barrier : BarrierNo) : Option BarrierRecord :=
  if inSet s.own s.barriers[barrier].arrived then (s.barrierRecords[barrier]).filter BarrierRecord.arrived else none

theorem endBarrierRecord_eq (barrier : BarrierNo) (e : Event) (s : State) :
    endBarrierRecord barrier e s = { placeEvent e s with
      barrierRecords := s.barrierRecords.set barrier none
      outbox := s.outbox.filter fun i => !i.refersToBarrier barrier } := by
  rw [← (placeEvent_only e s).barrierRecords, ← (placeEvent_only e s).outbox]
  rfl

/-- R32, R71: a completion without an ARRIVED record of the own station. -/
theorem completeBarrier_of_none {barrier : BarrierNo} {s : State} (none : completionRecord s barrier = none) :
    completeBarrier barrier s = setBarrier barrier (completedEntry s.barriers[barrier]) s := by
  have untold : (if inSet s.own s.barriers[barrier].arrived then
      reportCompletion barrier s.barriers[barrier].generation s else s) = s := by
    unfold completionRecord at none
    split
    · rename_i arrived
      rw [if_pos arrived] at none
      unfold reportCompletion
      split
      · rfl
      · rename_i q record
        rw [record, Option.filter_some] at none
        split
        · rename_i ends; rw [if_pos ends] at none; cases none
        · rfl
    · rfl
  unfold completeBarrier
  dsimp only
  rw [untold]
  rfl

/-- R32, R71: a completion that ends the own ARRIVED record. -/
theorem completeBarrier_of_some {barrier : BarrierNo} {q : BarrierRecord} {s : State}
    (some : completionRecord s barrier = some q) :
    completeBarrier barrier s = setBarrier barrier (completedEntry s.barriers[barrier])
      (endBarrierRecord barrier (.barrierDone q.tag barrier s.barriers[barrier].generation) s) := by
  unfold completionRecord at some
  split at some
  · rename_i arrived
    rw [Option.filter_eq_some_iff] at some
    obtain ⟨record, ends⟩ := some
    unfold completeBarrier
    dsimp only
    rw [if_pos arrived, reportCompletion, record]
    dsimp only
    rw [if_pos ends]
    rfl
  · cases some

theorem completeBarrier_onlyBarriers (barrier : BarrierNo) (s : State) : OnlyBarriers s (completeBarrier barrier s) := by
  cases h : completionRecord s barrier with
  | none => rw [completeBarrier_of_none h]; rfl
  | some q =>
    rw [completeBarrier_of_some h]
    exact OnlyBarriers.trans (t := placeEvent _ s) (placeEvent_only _ s).onlyBarriers rfl

theorem completeBarrier_get (barrier B : BarrierNo) (s : State) :
    (completeBarrier barrier s).barriers[B]
      = if B = barrier then completedEntry s.barriers[barrier] else s.barriers[B] := by
  cases h : completionRecord s barrier with
  | none => rw [completeBarrier_of_none h, setBarrier_barriers, set_get]
  | some q =>
    rw [completeBarrier_of_some h, setBarrier_barriers, endBarrierRecord_eq, (placeEvent_only _ s).barriers, set_get]

theorem completeBarrier_records (barrier B : BarrierNo) (s : State) :
    (completeBarrier barrier s).barrierRecords[B]
      = if B = barrier ∧ (completionRecord s barrier).isSome then none else s.barrierRecords[B] := by
  cases h : completionRecord s barrier with
  | none => rw [completeBarrier_of_none h, setBarrier_barrierRecords]; simp
  | some q => rw [completeBarrier_of_some h, setBarrier_barrierRecords, endBarrierRecord_eq, set_get]; simp

theorem completeBarrier_outbox (barrier : BarrierNo) (s : State) :
    (completeBarrier barrier s).outbox
      = s.outbox.filter fun i => !((completionRecord s barrier).isSome && i.refersToBarrier barrier) := by
  cases h : completionRecord s barrier with
  | none => rw [completeBarrier_of_none h, setBarrier_outbox]; simp
  | some q => rw [completeBarrier_of_some h, setBarrier_outbox, endBarrierRecord_eq]; simp

/-- The BARRIER_DONE event of a completion. -/
def completionEvent (s : State) (barrier : BarrierNo) : Option Event :=
  (completionRecord s barrier).map fun q => .barrierDone q.tag barrier s.barriers[barrier].generation

theorem completeBarrier_queue (barrier : BarrierNo) (s : State) :
    SameQueue (placeEvents (completionEvent s barrier).toList s) (completeBarrier barrier s) := by
  unfold completionEvent
  cases h : completionRecord s barrier with
  | none => rw [completeBarrier_of_none h]; exact ⟨rfl, rfl, rfl⟩
  | some q => rw [completeBarrier_of_some h]; exact ⟨rfl, rfl, rfl⟩

/-! ## The barrier table -/

/-- R34: the barrier completes in the removal of a station. -/
def removalCompletes (r : StationNo) (s : State) (barrier : BarrierNo) : Bool :=
  completionTest s.barriers[barrier].arrived (setRemove r (requiredSet s))

/-- R34, R71: the own record that the test of a barrier during a removal ends. -/
def removalRecord (r : StationNo) (s : State) (barrier : BarrierNo) : Option BarrierRecord :=
  if removalCompletes r s barrier then completionRecord s barrier else none

/-- Its BARRIER_DONE event. -/
def removalEvent (r : StationNo) (s : State) (barrier : BarrierNo) : Option Event :=
  (removalRecord r s barrier).map fun q => .barrierDone q.tag barrier s.barriers[barrier].generation

theorem testDuringRemoval_onlyBarriers (r : StationNo) (s : State) (barrier : BarrierNo) :
    OnlyBarriers s (testDuringRemoval r s barrier) := by
  unfold testDuringRemoval
  split
  · exact completeBarrier_onlyBarriers barrier s
  · exact .refl s

theorem testDuringRemoval_completes {r : StationNo} {s : State} {barrier : BarrierNo}
    (completes : removalCompletes r s barrier = true) : testDuringRemoval r s barrier = completeBarrier barrier s :=
  if_pos completes

theorem testDuringRemoval_stays {r : StationNo} {s : State} {barrier : BarrierNo}
    (incomplete : removalCompletes r s barrier = false) : testDuringRemoval r s barrier = s :=
  if_neg (Bool.eq_false_iff.1 incomplete)

theorem testDuringRemoval_get (r : StationNo) (s : State) (barrier B : BarrierNo) :
    (testDuringRemoval r s barrier).barriers[B]
      = if B = barrier ∧ removalCompletes r s barrier = true then completedEntry s.barriers[B] else s.barriers[B] := by
  cases completes : removalCompletes r s barrier with
  | false => rw [testDuringRemoval_stays completes]; simp
  | true =>
    rw [testDuringRemoval_completes completes, completeBarrier_get]
    by_cases eq : B = barrier
    · subst eq; simp
    · simp [eq]

theorem testDuringRemoval_records (r : StationNo) (s : State) (barrier : BarrierNo) :
    SameQueue (placeEvents (removalEvent r s barrier).toList s) (testDuringRemoval r s barrier)
      ∧ (∀ B : BarrierNo, (testDuringRemoval r s barrier).barrierRecords[B]
        = if B = barrier ∧ (removalRecord r s barrier).isSome then none else s.barrierRecords[B])
      ∧ (testDuringRemoval r s barrier).outbox
        = s.outbox.filter fun i => !((removalRecord r s barrier).isSome && i.refersToBarrier barrier) := by
  cases completes : removalCompletes r s barrier with
  | false =>
    have record : removalRecord r s barrier = none := if_neg (Bool.eq_false_iff.1 completes)
    rw [testDuringRemoval_stays completes, removalEvent, record]
    exact ⟨.refl s, fun B => by simp, by simp⟩
  | true =>
    have record : removalRecord r s barrier = completionRecord s barrier := if_pos completes
    have event : removalEvent r s barrier = completionEvent s barrier := by rw [removalEvent, record]; rfl
    rw [testDuringRemoval_completes completes, record, event]
    exact ⟨completeBarrier_queue barrier s, fun B => completeBarrier_records barrier B s, completeBarrier_outbox barrier s⟩

theorem testDuringRemoval_fold_onlyBarriers (r : StationNo) (l : List BarrierNo) (s : State) :
    OnlyBarriers s (l.foldl (testDuringRemoval r) s) := by
  induction l generalizing s with
  | nil => exact .refl s
  | cons a l ih => exact (testDuringRemoval_onlyBarriers r s a).trans (ih _)

/-- Testing one barrier changes nothing that decides about another. -/
theorem removalCompletes_testDuringRemoval {r : StationNo} {s : State} {barrier B : BarrierNo} (ne : B ≠ barrier) :
    removalCompletes r (testDuringRemoval r s barrier) B = removalCompletes r s B := by
  unfold removalCompletes
  rw [testDuringRemoval_get, if_neg fun h => ne h.1, (testDuringRemoval_onlyBarriers r s barrier).requiredSet]

theorem removalRecord_testDuringRemoval {r : StationNo} {s : State} {barrier B : BarrierNo} (ne : B ≠ barrier) :
    removalRecord r (testDuringRemoval r s barrier) B = removalRecord r s B := by
  have entry : (testDuringRemoval r s barrier).barriers[B] = s.barriers[B] :=
    (testDuringRemoval_get r s barrier B).trans (if_neg fun h => ne h.1)
  have record : (testDuringRemoval r s barrier).barrierRecords[B] = s.barrierRecords[B] :=
    ((testDuringRemoval_records r s barrier).2.1 B).trans (if_neg fun h => ne h.1)
  unfold removalRecord completionRecord
  rw [removalCompletes_testDuringRemoval ne, entry, record, (testDuringRemoval_onlyBarriers r s barrier).own]

theorem testDuringRemoval_fold_get (r : StationNo) (l : List BarrierNo) (distinct : l.Nodup) (s : State) (B : BarrierNo) :
    (l.foldl (testDuringRemoval r) s).barriers[B]
      = if B ∈ l ∧ removalCompletes r s B = true then completedEntry s.barriers[B] else s.barriers[B] := by
  induction l generalizing s with
  | nil => simp
  | cons a l ih =>
    obtain ⟨fresh, distinct⟩ := List.nodup_cons.1 distinct
    rw [List.foldl_cons, ih distinct]
    by_cases eq : B = a
    · subst eq
      rw [testDuringRemoval_get]
      simp [fresh]
    · rw [removalCompletes_testDuringRemoval eq, testDuringRemoval_get]
      simp [eq]

theorem testDuringRemoval_fold_records (r : StationNo) (l : List BarrierNo) (distinct : l.Nodup) (s : State) :
    SameQueue (placeEvents (l.filterMap (removalEvent r s)) s) (l.foldl (testDuringRemoval r) s)
      ∧ (∀ B : BarrierNo, (l.foldl (testDuringRemoval r) s).barrierRecords[B]
        = if B ∈ l ∧ (removalRecord r s B).isSome then none else s.barrierRecords[B])
      ∧ (l.foldl (testDuringRemoval r) s).outbox
        = s.outbox.filter fun i => l.all fun b => !((removalRecord r s b).isSome && i.refersToBarrier b) := by
  induction l generalizing s with
  | nil => exact ⟨.refl s, by simp, by simp⟩
  | cons a l ih =>
    obtain ⟨fresh, distinct⟩ := List.nodup_cons.1 distinct
    obtain ⟨queue, records, outbox⟩ := testDuringRemoval_records r s a
    obtain ⟨queue', records', outbox'⟩ := ih distinct (testDuringRemoval r s a)
    have same (B : BarrierNo) (mem : B ∈ l) : removalRecord r (testDuringRemoval r s a) B = removalRecord r s B :=
      removalRecord_testDuringRemoval fun eq : B = a => fresh (eq ▸ mem)
    have events : l.filterMap (removalEvent r (testDuringRemoval r s a)) = l.filterMap (removalEvent r s) :=
      List.filterMap_congr fun B mem => by
        have entry : (testDuringRemoval r s a).barriers[B] = s.barriers[B] :=
          (testDuringRemoval_get r s a B).trans (if_neg fun ⟨eq, _⟩ => fresh (eq ▸ mem))
        rw [removalEvent, same B mem, entry, removalEvent]
    rw [filterMap_cons_toList, placeEvents_append, List.foldl_cons, ← events]
    refine ⟨(queue.placeEvents _).trans queue', fun B => ?_, ?_⟩
    · rw [records', records]
      by_cases mem : B ∈ l
      · rw [same B mem]
        have ne : B ≠ a := fun eq => fresh (eq ▸ mem)
        simp [mem, ne]
      · simp only [mem, false_and, if_false, List.mem_cons, or_false]
        by_cases eq : B = a
        · rw [eq]
        · simp [eq]
    · rw [outbox', outbox, List.filter_filter]
      refine List.filter_congr fun i _ => ?_
      have rest : (l.all fun b => !((removalRecord r (testDuringRemoval r s a) b).isSome && i.refersToBarrier b))
          = l.all fun b => !((removalRecord r s b).isSome && i.refersToBarrier b) := by
        rw [Bool.eq_iff_iff, List.all_eq_true, List.all_eq_true]
        exact forall₂_congr fun B mem => by rw [same B mem]
      rw [rest, List.all_cons, Bool.and_comm]

/-! ## The whole removal (R50) -/

/-- What the removal finds at a barrier once the station is withdrawn. -/
theorem withdrawArrivals_get (r : StationNo) (s : State) (B : BarrierNo) :
    (withdrawArrivals r s).barriers[B] = { s.barriers[B] with arrived := setRemove r s.barriers[B].arrived } :=
  tabulate_get _ B

theorem withdrawArrivals_onlyBarriers (r : StationNo) (s : State) : OnlyBarriers s (withdrawArrivals r s) := rfl

theorem removeFromBarriers_onlyBarriers (r : StationNo) (s : State) : OnlyBarriers s (removeFromBarriers r s) :=
  (withdrawArrivals_onlyBarriers r s).trans (testDuringRemoval_fold_onlyBarriers r allBarriers _)

/-- R34: the arrived set of a barrier without a station that is removed. -/
def arrivedWithout (r : StationNo) (s : State) (B : BarrierNo) : StationSet := setRemove r s.barriers[B].arrived

/-- R34: the barrier then holds every other unmarked member and completes. -/
def completesWithout (r : StationNo) (s : State) (B : BarrierNo) : Bool :=
  completionTest (arrivedWithout r s B) (setRemove r (requiredSet s))

theorem removalCompletes_withdrawArrivals (r : StationNo) (s : State) (B : BarrierNo) :
    removalCompletes r (withdrawArrivals r s) B = completesWithout r s B := by
  unfold removalCompletes
  rw [withdrawArrivals_get]
  rfl

/-- R34: the barrier table after a removal. -/
theorem removeFromBarriers_get (r : StationNo) (s : State) (B : BarrierNo) :
    (removeFromBarriers r s).barriers[B] = if completesWithout r s B = true
      then { generation := s.barriers[B].generation + 1, arrived := 0 }
      else { generation := s.barriers[B].generation, arrived := arrivedWithout r s B } := by
  unfold removeFromBarriers
  rw [testDuringRemoval_fold_get r allBarriers (List.nodup_finRange 8), removalCompletes_withdrawArrivals,
    withdrawArrivals_get]
  simp only [show B ∈ allBarriers from List.mem_finRange B, true_and]
  rfl

end Sys2Proof.Machine


/-! The laws of the replica, move by move: what a move does to a lock entry, a barrier, the present set and the chunks
keeps the lock table's law, the replica's law, the barrier law and the absence law (R1 to R3, R6, R31, R39, R40, R42). -/

namespace Sys2Proof.Machine

theorem set_self {α : Type} {n : Nat} {v : Vector α n} (i : Fin n) {a : α} (holds : v[i] = a) : v.set i a = v := by
  rw [← holds, Fin.getElem_fin, Vector.set_getElem_self]

/-! ## The fields that the next slot and a chunk leave alone -/

theorem beginSlot_eq (s : State) : beginSlot s = { s with timing := (beginSlot s).timing } := by
  unfold beginSlot
  split <;> rfl

theorem beginSlot_only (s : State) : ∃ timing, beginSlot s = { s with timing := timing } := ⟨_, beginSlot_eq s⟩

/-- R133, R134: what becomes of the chunk of a frame. -/
theorem installChunk_cases (f : Frame) (s : State) : installChunk f s = s ∨
    (∃ (c : Chunk0), s.station = .joining ∧ inSet 0 s.wanted = true ∧ membershipCheck c f.station s = true
      ∧ barrierCheck c = true ∧ installChunk f s = markInstalled 0 (installChunk0 c s)) ∨
    ∃ (k : ChunkNo) (body : List Byte) (entries : List LockEntry), k ≠ 0 ∧ s.station = .joining
      ∧ inSet k s.wanted = true ∧ membershipHeld s = true ∧ readLockChunk (requiredSet s) body = some entries
      ∧ installChunk f s = markInstalled k (installLocks k entries s) := by
  unfold installChunk
  split
  · exact .inl rfl
  · rename_i c _
    split
    case isFalse => exact .inl rfl
    rename_i considered
    obtain ⟨joining, -, wanted⟩ := considered
    split
    · rename_i first
      split
      · exact .inl rfl
      · rename_i body _
        split
        · rename_i checks
          rw [Bool.and_eq_true] at checks
          exact .inr (.inl ⟨body, joining, first ▸ wanted, checks.1, checks.2, rfl⟩)
        · exact .inl rfl
    · rename_i later
      split
      · rename_i checks
        rw [Bool.and_eq_true] at checks
        split
        · exact .inl rfl
        · rename_i entries read
          exact .inr (.inr ⟨c.number, c.body, entries, later, joining, wanted, checks.1, read, rfl⟩)
      · exact .inl rfl

theorem lockInPlace_eq_inSet (s : State) (lock : LockNo) :
    lockInPlace s lock = inSet (chunkOfLock lock) s.installed := rfl

theorem chunkOfLock_ne_zero (lock : LockNo) : chunkOfLock lock ≠ 0 := by
  intro eq
  have := congrArg Fin.val eq
  simp [chunkOfLock] at this

/-! ## ARRIVE (R30, R33, R71) -/

/-- R71: the own record of a barrier once an ARRIVE of the sender is applied. -/
def recordAfterArrive (sender : StationNo) (barrier : BarrierNo) (s : State) : Option BarrierRecord :=
  (s.barrierRecords[barrier]).map fun q => { q with arrived := q.arrived || decide (sender = s.cfg.number) }

theorem reportArrive_eq (barrier : BarrierNo) (s : State) : reportArrive barrier s = { s with
    barrierRecords := s.barrierRecords.set barrier ((s.barrierRecords[barrier]).map fun q => { q with arrived := true }) } := by
  unfold reportArrive
  cases record : s.barrierRecords[barrier] with
  | none => rw [Option.map_none, set_self _ record]
  | some q => rfl

/-- The own record is told of the own ARRIVE, and of no other. -/
theorem tellArrive_eq (sender : StationNo) (barrier : BarrierNo) (s : State) :
    (if sender = s.own then reportArrive barrier s else s)
      = { s with barrierRecords := s.barrierRecords.set barrier (recordAfterArrive sender barrier s) } := by
  unfold recordAfterArrive
  by_cases own : sender = s.own
  · have told : decide (sender = s.cfg.number) = true := decide_eq_true own
    rw [if_pos own, reportArrive_eq, told]
    simp only [Bool.or_true]
  · have untold : decide (sender = s.cfg.number) = false := decide_eq_false own
    rw [if_neg own, untold]
    simp

section
variable {sender : StationNo} {barrier : BarrierNo} {s : State}

/-- R30: the barrier with the sender arrived. -/
def arriveEntry (sender : StationNo) (e : BarrierEntry) : BarrierEntry := { e with arrived := setAdd sender e.arrived }

/-- The state with the sender arrived and the own record told, before the completion test. -/
def arriveState (sender : StationNo) (barrier : BarrierNo) (s : State) : State :=
  { s with
    barriers := s.barriers.set barrier (arriveEntry sender s.barriers[barrier])
    barrierRecords := s.barrierRecords.set barrier (recordAfterArrive sender barrier s) }

theorem applyArrive_again (again : inSet sender s.barriers[barrier].arrived = true) : applyArrive sender barrier s
    = { s with barrierRecords := s.barrierRecords.set barrier (recordAfterArrive sender barrier s) } := by
  unfold applyArrive
  dsimp only
  rw [if_pos again, tellArrive_eq]

theorem applyArrive_new (new : inSet sender s.barriers[barrier].arrived = false) : applyArrive sender barrier s
    = if completionTest (setAdd sender s.barriers[barrier].arrived) (requiredSet s)
      then completeBarrier barrier (arriveState sender barrier s) else arriveState sender barrier s := by
  unfold applyArrive
  dsimp only
  rw [if_neg (Bool.eq_false_iff.1 new), tellArrive_eq]
  rfl

theorem arriveState_onlyBarriers (sender : StationNo) (barrier : BarrierNo) (s : State) :
    OnlyBarriers s (arriveState sender barrier s) := rfl

theorem applyArrive_onlyBarriers (sender : StationNo) (barrier : BarrierNo) (s : State) :
    OnlyBarriers s (applyArrive sender barrier s) := by
  cases h : inSet sender s.barriers[barrier].arrived with
  | true => rw [applyArrive_again h]; rfl
  | false =>
    rw [applyArrive_new h]
    split
    · exact (arriveState_onlyBarriers _ _ _).trans (completeBarrier_onlyBarriers _ _)
    · exact arriveState_onlyBarriers _ _ _

/-- R30, R31, R32: the barrier table after an ARRIVE: the barrier of the item holds what it held, or its arrival, or has
completed. -/
theorem applyArrive_get (sender : StationNo) (barrier B : BarrierNo) (s : State) :
    (applyArrive sender barrier s).barriers[B] = s.barriers[B]
    ∨ (completionTest (setAdd sender s.barriers[B].arrived) (requiredSet s) = false
      ∧ (applyArrive sender barrier s).barriers[B] = arriveEntry sender s.barriers[B])
    ∨ (applyArrive sender barrier s).barriers[B] = completedEntry s.barriers[B] := by
  cases h : inSet sender s.barriers[barrier].arrived with
  | true => rw [applyArrive_again h]; exact .inl rfl
  | false =>
    rw [applyArrive_new h]
    have arrived : (arriveState sender barrier s).barriers[B]
        = if B = barrier then arriveEntry sender s.barriers[barrier] else s.barriers[B] :=
      set_get s.barriers barrier B (arriveEntry sender s.barriers[barrier])
    by_cases eq : B = barrier
    · subst eq
      rw [if_pos rfl] at arrived
      cases test : completionTest (setAdd sender s.barriers[B].arrived) (requiredSet s) with
      | true =>
        rw [if_pos rfl, completeBarrier_get, if_pos rfl, arrived]
        exact .inr (.inr rfl)
      | false => exact .inr (.inl ⟨rfl, arrived⟩)
    · rw [if_neg eq] at arrived
      left
      split
      · rw [completeBarrier_get, if_neg eq, arrived]
      · exact arrived

end

/-! ## The required set (R31) -/

theorem inSet_requiredSet (s : State) (i : StationNo) :
    inSet i (requiredSet s) = (s.members[i].map fun m => !m.joining).getD false := by
  unfold requiredSet unmarkedOf
  exact inSet_setOf _ i

theorem isUnmarked_iff (s : State) (i : StationNo) :
    isUnmarked s i = true ↔ ∃ m, s.members[i] = some m ∧ m.joining = false := by
  unfold isUnmarked
  rw [inSet_requiredSet]
  cases s.members[i] <;> simp

theorem inSet_requiredSet_setMember (r i : StationNo) (m : Option Member) (s : State) :
    inSet i (requiredSet (setMember r m s))
      = if i = r then (m.map fun m => !m.joining).getD false else inSet i (requiredSet s) := by
  rw [inSet_requiredSet, inSet_requiredSet, setMember_members, set_get]
  split <;> rfl

/-- A member record that is unmarked exactly when the station was leaves the required set. -/
theorem requiredSet_setMember_same {r : StationNo} {m : Option Member} {s : State}
    (same : (m.map fun m => !m.joining).getD false = inSet r (requiredSet s)) :
    requiredSet (setMember r m s) = requiredSet s := by
  refine set_ext fun i => ?_
  rw [inSet_requiredSet_setMember]
  split
  · rename_i eq; rw [eq, same]
  · rfl

theorem requiredSet_setMember_none (r : StationNo) (s : State) :
    requiredSet (setMember r none s) = setRemove r (requiredSet s) := by
  refine set_ext fun i => ?_
  rw [inSet_requiredSet_setMember, inSet_setRemove]
  by_cases eq : i = r <;> simp [eq]

theorem requiredSet_of_members {s t : State} (members : t.members = s.members) : requiredSet t = requiredSet s := by
  unfold requiredSet
  rw [members]

/-! ## The lock table's law (R1, R2, R3) -/

theorem LockTableLaw.of_locks {s t : State} (law : LockTableLaw s) (locks : t.locks = s.locks) : LockTableLaw t := by
  unfold LockTableLaw
  rw [locks]
  exact law

theorem LockTableLaw.of_free {t : State} (free : t.locks = Vector.replicate 64 .free) : LockTableLaw t := by
  intro lock
  rw [free, replicate_get]
  rfl

theorem LockTableLaw.setLock {s : State} (law : LockTableLaw s) {lock : LockNo} {e : LockEntry}
    (entry : lockEntryLaw e = true) : LockTableLaw (setLock lock e s) := by
  intro L
  rw [setLock_locks, set_get]
  split
  · exact entry
  · exact law L

theorem LockTableLaw.held {s : State} (law : LockTableLaw s) {lock : LockNo} {e : LockEntry}
    (entry : s.locks[lock] = e) : lockEntryLaw e = true := entry ▸ law lock

theorem entryWithout_law (r : StationNo) {e : LockEntry} (law : lockEntryLaw e = true) :
    lockEntryLaw (entryWithout r e) = true := by
  cases e with
  | free => rfl
  | held holder lease waiters =>
    by_cases eq : holder = r
    · rw [eq, entryWithout_holder]; exact passEntry_law law
    · rw [entryWithout_other eq]; exact withdraw_law r law

theorem LockTableLaw.removal {s : State} (law : LockTableLaw s) (r : StationNo) : LockTableLaw (removeFromLocks r s) := by
  intro L
  rw [removeFromLocks_get]
  split
  · exact entryWithout_law r (law L)
  · exact law L

theorem readLockChunk_entries {unmarked : StationSet} {body : List Byte} {entries : List LockEntry}
    (read : readLockChunk unmarked body = some entries) :
    entries.length = 8 ∧ (∀ e ∈ entries, lockEntryLaw e = true) ∧ ∀ e ∈ entries, namesOnly unmarked e = true := by
  unfold readLockChunk at read
  split at read
  · rename_i es h
    split at read
    · rename_i names
      cases read
      exact ⟨(readLockEntries_law h).1, (readLockEntries_law h).2, List.all_eq_true.1 names⟩
    · cases read
  · cases read

theorem installLocks_get (k : ChunkNo) (entries : List LockEntry) (s : State) (L : LockNo) :
    (installLocks k entries s).locks[L]
      = if chunkOfLock L = k then entries.getD (L.val % 8) .free else s.locks[L] := by
  unfold installLocks
  exact tabulate_get _ L

/-- An entry of a chunk of eight is one of them. -/
theorem getD_mem_of_chunk {entries : List LockEntry} (length : entries.length = 8) (L : LockNo) :
    entries.getD (L.val % 8) .free ∈ entries := by
  have below : L.val % 8 < entries.length := by omega
  rw [List.getD_eq_getElem _ _ below]
  exact List.getElem_mem below

theorem Move.keeps_lockTableLaw {s t : State} (move : Move s t) (laws : Laws s) : LockTableLaw t := by
  have law := laws.lockTable
  cases move with
  | reset => exact LockTableLaw.of_free rfl
  | placeEvent e => exact law.of_locks (placeEvent_only e s).locks
  | beginSlot =>
    obtain ⟨timing, eq⟩ := beginSlot_only s
    rw [eq]; exact law
  | acquire r lock leased => exact law.setLock (acquireEntry_law r leased (law lock))
  | pass lock holder lease waiters entry => exact law.setLock (passEntry_law (law.held entry))
  | withdraw r lock holder lease waiters entry => exact law.setLock (withdraw_law r (law.held entry))
  | renew r lock => exact law.setLock (renewEntry_law r (law lock))
  | lower lock holder level waiters entry above => exact law.setLock (lowered_law above (law.held entry))
  | arrive r b => exact law.of_locks (applyArrive_onlyBarriers r b s).locks
  | remove r cause =>
    refine (law.removal r).of_locks ?_
    rw [(placeEvent_only _ _).locks, setMember_locks, (removeFromBarriers_onlyBarriers _ _).locks]
  | installChunk f =>
    rcases installChunk_cases f s with eq | ⟨c, -, -, -, -, eq⟩ | ⟨k, body, entries, -, -, -, -, read, eq⟩ <;> rw [eq]
    · exact law
    · exact law
    · intro L
      have entry := installLocks_get k entries s L
      show lockEntryLaw (installLocks k entries s).locks[L] = true
      rw [entry]
      obtain ⟨length, lawful, -⟩ := readLockChunk_entries read
      split
      · exact lawful _ (getD_mem_of_chunk length L)
      · exact law L
  | enterReady cause => obtain ⟨a, n, eq⟩ := enterReady_eq cause s; rw [eq]; exact .of_free rfl
  | enterListening cause => obtain ⟨a, n, eq⟩ := enterListening_eq cause s; rw [eq]; exact .of_free rfl
  | enterJoining t u =>
    obtain ⟨a, n, eq⟩ := enterJoining_eq .timingAcquired { s with timing := some u }
    rw [eq]; exact .of_free rfl
  | enterFounding => obtain ⟨a, n, eq⟩ := enterFounding_eq s; rw [eq]; exact .of_free rfl
  | completeFounding => obtain ⟨a, n, eq⟩ := completeFounding_eq s; rw [eq]; exact law
  | enterCaughtUp => obtain ⟨a, n, eq⟩ := enterCaughtUp_eq s; rw [eq]; exact law
  | enterDiverged => obtain ⟨a, n, eq⟩ := enterDiverged_eq s; rw [eq]; exact .of_free rfl
  | enterLeaving => obtain ⟨a, n, eq⟩ := enterLeaving_eq s; rw [eq]; exact law
  | enterOrphanFounded group => obtain ⟨a, n, eq⟩ := enterOrphanFounded_eq group s; rw [eq]; exact .of_free rfl
  | restartCatchUp => exact .of_free rfl
  | enterConfigured c => obtain ⟨a, n, eq⟩ := enterConfigured_eq c s; rw [eq]; exact law
  | _ => exact law

/-! ## The replica's law (R6, R40, R42) -/

theorem namesOnly_mono {small large : StationSet} (sub : ∀ i, inSet i small = true → inSet i large = true)
    {e : LockEntry} (names : namesOnly small e = true) : namesOnly large e = true := by
  cases e with
  | free => rfl
  | held holder lease waiters =>
    rw [namesOnly_held] at names ⊢
    exact ⟨sub _ names.1, fun w mem => sub _ (names.2 w mem)⟩

/-- R19: an entry that a station has left names it no more. -/
theorem entryWithout_names (r : StationNo) {unmarked : StationSet} {e : LockEntry} (law : lockEntryLaw e = true)
    (names : namesOnly unmarked e = true) : namesOnly (setRemove r unmarked) (entryWithout r e) = true := by
  have kept {i : StationNo} (ne : i ≠ r) (mem : inSet i unmarked = true) : inSet i (setRemove r unmarked) = true := by
    rw [inSet_setRemove, mem, decide_eq_false ne]; rfl
  cases e with
  | free => rfl
  | held holder lease waiters =>
    obtain ⟨-, -, distinct, foreign⟩ := (lockEntryLaw_held _ _ _).1 law
    obtain ⟨member, waiting⟩ := (namesOnly_held _ _ _ _).1 names
    by_cases eq : holder = r
    · subst eq
      rw [entryWithout_holder]
      have others : ∀ w ∈ waiters, inSet w.station (setRemove holder unmarked) = true := fun w mem =>
        kept (fun eq => foreign (List.mem_map.2 ⟨w, mem, eq⟩)) (waiting w mem)
      cases waiters with
      | nil => rfl
      | cons w rest =>
        rw [passEntry, namesOnly_held]
        exact ⟨others w (by simp), fun x mem => others x (by simp [mem])⟩
    · rw [entryWithout_other eq, namesOnly_held]
      refine ⟨kept eq member, fun w mem => ?_⟩
      obtain ⟨mem, ne⟩ := withdraw_subset r waiters w mem
      exact kept ne (waiting w mem)

theorem ReplicaLaw.of_same {s t : State} (law : ReplicaLaw s) (installed : t.installed = s.installed)
    (locks : t.locks = s.locks) (barriers : t.barriers = s.barriers) (members : t.members = s.members) :
    ReplicaLaw t := by
  unfold ReplicaLaw lockInPlace membershipHeld chunkInstalled requiredSet
  rw [installed, locks, barriers, members]
  exact law

/-- R4, R28, R40: an empty replica, of which nothing or everything is installed. -/
theorem ReplicaLaw.of_free {t : State} (free : t.locks = Vector.replicate 64 .free)
    (rest : membershipHeld t = false →
      t.installed = 0 ∧ (∀ r : StationNo, t.members[r] = none) ∧ ∀ barrier : BarrierNo, t.barriers[barrier] = ⟨0, 0⟩) :
    ReplicaLaw t := by
  refine ⟨fun lock _ => by rw [free, replicate_get], fun lock => ?_, rest⟩
  rw [free, replicate_get]
  rfl

theorem ReplicaLaw.of_empty {t : State} (installed : t.installed = 0) (locks : t.locks = Vector.replicate 64 .free)
    (barriers : t.barriers = Vector.replicate 8 ⟨0, 0⟩) (members : t.members = Vector.replicate 16 none) :
    ReplicaLaw t :=
  .of_free locks fun _ =>
    ⟨installed, fun r => by rw [members, replicate_get], fun b => by rw [barriers, replicate_get]⟩

theorem ReplicaLaw.of_founded {t : State} (installed : t.installed = allChunks)
    (locks : t.locks = Vector.replicate 64 .free) : ReplicaLaw t :=
  .of_free locks fun absent => by
    have held : membershipHeld t = true := by unfold membershipHeld chunkInstalled; rw [installed]; decide
    rw [held] at absent
    cases absent

theorem ReplicaLaw.setLock {s : State} (law : ReplicaLaw s) {lock : LockNo} {e : LockEntry}
    (place : lockInPlace s lock = false → e = .free) (names : namesOnly (requiredSet s) e = true) :
    ReplicaLaw (setLock lock e s) := by
  obtain ⟨absent, named, unheld⟩ := law
  refine ⟨fun L gone => ?_, fun L => ?_, unheld⟩
  · rw [setLock_locks, set_get]
    split
    · rename_i eq; exact place (eq ▸ gone)
    · exact absent L gone
  · rw [setLock_locks, set_get]
    split
    · exact names
    · exact named L

/-- An entry that is HELD stands in a chunk in place. -/
theorem ReplicaLaw.place_of_held {s : State} (law : ReplicaLaw s) {lock : LockNo} {holder : StationNo}
    {lease : Option (BitVec 3)} {waiters : List Waiter} (entry : s.locks[lock] = .held holder lease waiters)
    (e : LockEntry) : lockInPlace s lock = false → e = .free := by
  intro gone
  have free := law.1 lock gone
  rw [entry] at free
  cases free

theorem ReplicaLaw.named {s : State} (law : ReplicaLaw s) {lock : LockNo} {e : LockEntry} (entry : s.locks[lock] = e) :
    namesOnly (requiredSet s) e = true := entry ▸ law.2.1 lock

/-- R40: where membership is held, only the locks and the present set matter to the law. -/
theorem ReplicaLaw.of_members {s t : State} (law : ReplicaLaw s) (held : membershipHeld s = true)
    (installed : t.installed = s.installed) (locks : t.locks = s.locks)
    (grown : ∀ i, inSet i (requiredSet s) = true → inSet i (requiredSet t) = true) : ReplicaLaw t := by
  obtain ⟨absent, named, -⟩ := law
  have held' : membershipHeld t = true := by unfold membershipHeld chunkInstalled at *; rw [installed]; exact held
  refine ⟨fun lock gone => ?_, fun lock => ?_, fun unheld => ?_⟩
  · rw [locks]
    refine absent lock ?_
    rw [lockInPlace_eq_inSet, ← installed]
    exact gone
  · rw [locks]
    exact namesOnly_mono grown (named lock)
  · rw [held'] at unheld
    cases unheld

theorem completionTest_zero (required : StationSet) : completionTest 0 required = false := rfl

theorem setRemove_zero (r : StationNo) : setRemove r (0 : StationSet) = 0 := by
  refine set_ext fun i => ?_
  rw [inSet_setRemove, inSet_zero]
  rfl

/-- R19, R34, R50: a removal keeps the replica's law. -/
theorem ReplicaLaw.removal {s : State} (law : ReplicaLaw s) (lawful : LockTableLaw s) (r : StationNo) :
    ReplicaLaw (setMember r none (removeFromBarriers r (removeFromLocks r s))) := by
  obtain ⟨absent, named, unheld⟩ := law
  have locks := removeFromLocks_get r (s := s)
  have locksOnly := removeFromLocks_onlyLocks r s
  generalize removeFromLocks r s = a at locks locksOnly ⊢
  have barriers := removeFromBarriers_get r a
  have barriersOnly := removeFromBarriers_onlyBarriers r a
  generalize removeFromBarriers r a = b at barriers barriersOnly ⊢
  have installed : b.installed = s.installed := barriersOnly.installed.trans locksOnly.installed
  have required : requiredSet (setMember r none b) = setRemove r (requiredSet s) := by
    rw [requiredSet_setMember_none, barriersOnly.requiredSet, requiredSet_of_members locksOnly.members]
  refine ⟨fun lock gone => ?_, fun lock => ?_, fun gone => ?_⟩
  · have gone : lockInPlace s lock = false := by
      rw [lockInPlace_eq_inSet, ← installed]; exact gone
    rw [setMember_locks, barriersOnly.locks, locks, gone]
    exact absent lock gone
  · rw [required, setMember_locks, barriersOnly.locks, locks]
    split
    · exact entryWithout_names r (lawful lock) (named lock)
    · rename_i gone
      rw [absent lock (Bool.eq_false_iff.2 gone)]
      rfl
  · have gone : membershipHeld s = false := by
      unfold membershipHeld chunkInstalled at *
      rw [← installed]; exact gone
    obtain ⟨nothing, nobody, barriers_zero⟩ := unheld gone
    refine ⟨installed.trans nothing, fun i => ?_, fun B => ?_⟩
    · rw [setMember_members, set_get, barriersOnly.members, locksOnly.members, nobody, ite_self]
    · have entry : a.barriers[B] = ⟨0, 0⟩ := by rw [locksOnly.barriers]; exact barriers_zero B
      have arrived : arrivedWithout r a B = 0 := by
        rw [arrivedWithout, entry]; exact setRemove_zero r
      rw [setMember_barriers, barriers, completesWithout, arrived, completionTest_zero, entry]
      rfl

/-- R129: a chunk that is wanted in JOINING is not installed. -/
theorem ChunkLaw.not_installed {s : State} (law : ChunkLaw s) (joining : s.station = .joining) {k : ChunkNo}
    (wanted : inSet k s.wanted = true) : inSet k s.installed = false := by
  unfold ChunkLaw at law
  rw [joining] at law
  rw [show s.wanted = _ from law, inSet_and, inSet_not, Bool.and_eq_true, Bool.not_eq_true'] at wanted
  exact wanted.2

theorem markInstalled_inPlace (k : ChunkNo) (s : State) (lock : LockNo) :
    lockInPlace (markInstalled k s) lock = (lockInPlace s lock || decide (chunkOfLock lock = k)) := by
  rw [lockInPlace_eq_inSet, lockInPlace_eq_inSet]
  exact inSet_setAdd _ _ _

theorem markInstalled_held {k : ChunkNo} {s : State} (held : k = 0 ∨ membershipHeld s = true) :
    membershipHeld (markInstalled k s) = true := by
  show inSet 0 (setAdd k s.installed) = true
  rw [inSet_setAdd]
  rcases held with rfl | held
  · simp
  · rw [show inSet 0 s.installed = true from held]; rfl

/-- R22, R54: a lock chunk that passes its checks keeps the law. -/
theorem ReplicaLaw.installLocks {s : State} (law : ReplicaLaw s) {k : ChunkNo} {body : List Byte}
    {entries : List LockEntry} (held : membershipHeld s = true)
    (read : readLockChunk (requiredSet s) body = some entries) :
    ReplicaLaw (markInstalled k (installLocks k entries s)) := by
  obtain ⟨absent, named, -⟩ := law
  obtain ⟨length, -, names⟩ := readLockChunk_entries read
  refine ⟨fun lock gone => ?_, fun lock => ?_, fun unheld => ?_⟩
  · rw [markInstalled_inPlace, Bool.or_eq_false_iff, decide_eq_false_iff_not] at gone
    show (Machine.installLocks k entries s).locks[lock] = .free
    rw [installLocks_get, if_neg gone.2]
    exact absent lock gone.1
  · show namesOnly (requiredSet s) (Machine.installLocks k entries s).locks[lock] = true
    rw [installLocks_get]
    split
    · exact names _ (getD_mem_of_chunk length lock)
    · exact named lock
  · rw [markInstalled_held (s := Machine.installLocks k entries s) (.inr held)] at unheld
    cases unheld

theorem Move.keeps_replicaLaw {s t : State} (move : Move s t) (laws : Laws s) : ReplicaLaw t := by
  have law := laws.replica
  cases move with
  | reset => exact .of_empty rfl rfl rfl rfl
  | placeEvent e =>
    have only := placeEvent_only e s
    exact law.of_same only.installed only.locks only.barriers only.members
  | beginSlot =>
    obtain ⟨timing, eq⟩ := beginSlot_only s
    rw [eq]; exact law
  | acquire r lock leased member place =>
    exact law.setLock (fun gone => by rw [place] at gone; cases gone) (acquireEntry_names r leased member (law.2.1 lock))
  | pass lock holder lease waiters entry =>
    exact law.setLock (law.place_of_held entry _) (passEntry_names (law.named entry))
  | withdraw r lock holder lease waiters entry =>
    exact law.setLock (law.place_of_held entry _) (withdraw_names r (law.named entry))
  | renew r lock =>
    exact law.setLock (fun gone => by rw [law.1 lock gone]; rfl) (renewEntry_names r (law.2.1 lock))
  | lower lock holder level waiters entry above =>
    refine law.setLock (law.place_of_held entry _) ?_
    have names := law.named entry
    rw [namesOnly_held] at names ⊢
    exact names
  | arrive r b member held =>
    have only := applyArrive_onlyBarriers r b s
    exact law.of_members held only.installed only.locks fun i mem => by rw [only.requiredSet]; exact mem
  | remove r cause =>
    have only := placeEvent_only (.memberLeft r cause) (setMember r none (removeFromBarriers r (removeFromLocks r s)))
    exact (law.removal laws.lockTable r).of_same only.installed only.locks only.barriers only.members
  | addMember r absent held =>
    refine law.of_members held rfl rfl fun i mem => ?_
    rwa [requiredSet_setMember_same]
    rw [inSet_requiredSet, absent]
    rfl
  | clearMark r m member mark held =>
    refine law.of_members held rfl rfl fun i mem => ?_
    rw [inSet_requiredSet_setMember]
    split
    · rfl
    · exact mem
  | account r m count member held =>
    refine law.of_members held rfl rfl fun i mem => ?_
    rwa [requiredSet_setMember_same]
    rw [inSet_requiredSet, member]
    rfl
  | installChunk f =>
    rcases installChunk_cases f s with eq | ⟨c, joining, wanted, -, -, eq⟩ | ⟨k, body, entries, -, -, -, held, read, eq⟩
      <;> rw [eq]
    · exact law
    · have absent : membershipHeld s = false := laws.chunks.not_installed joining wanted
      have nothing := (law.2.2 absent).1
      have free (lock : LockNo) : s.locks[lock] = .free :=
        law.1 lock (by rw [lockInPlace_eq_inSet, nothing]; exact inSet_zero _)
      refine .of_free (Vector.ext fun i below => ?_) fun unheld => ?_
      · rw [Vector.getElem_replicate]
        exact free ⟨i, below⟩
      · rw [markInstalled_held (.inl rfl)] at unheld
        cases unheld
    · exact law.installLocks held read
  | enterReady cause => obtain ⟨a, n, eq⟩ := enterReady_eq cause s; rw [eq]; exact .of_empty rfl rfl rfl rfl
  | enterListening cause => obtain ⟨a, n, eq⟩ := enterListening_eq cause s; rw [eq]; exact .of_empty rfl rfl rfl rfl
  | enterJoining t u =>
    obtain ⟨a, n, eq⟩ := enterJoining_eq .timingAcquired { s with timing := some u }
    rw [eq]; exact .of_empty rfl rfl rfl rfl
  | enterFounding => obtain ⟨a, n, eq⟩ := enterFounding_eq s; rw [eq]; exact .of_founded rfl rfl
  | completeFounding => obtain ⟨a, n, eq⟩ := completeFounding_eq s; rw [eq]; exact law
  | enterCaughtUp joining wanted =>
    obtain ⟨a, n, eq⟩ := enterCaughtUp_eq s
    rw [eq]
    have chunks := laws.chunks
    unfold ChunkLaw at chunks
    rw [joining, wanted] at chunks
    have installed : s.installed = allChunks := by
      have complete : ∀ i : BitVec 9, 0#9 = allChunks &&& ~~~ i → i = allChunks := by decide
      exact complete _ chunks
    rw [← installed]
    exact law
  | enterDiverged => obtain ⟨a, n, eq⟩ := enterDiverged_eq s; rw [eq]; exact .of_empty rfl rfl rfl rfl
  | enterLeaving => obtain ⟨a, n, eq⟩ := enterLeaving_eq s; rw [eq]; exact law
  | enterOrphanFounded group => obtain ⟨a, n, eq⟩ := enterOrphanFounded_eq group s; rw [eq]; exact .of_founded rfl rfl
  | restartCatchUp => exact .of_empty rfl rfl rfl rfl
  | enterConfigured c => obtain ⟨a, n, eq⟩ := enterConfigured_eq c s; rw [eq]; exact law
  | _ => exact law

/-! ## The barrier law (R31, R42) -/

theorem completionTest_eq_true_iff (arrived required : StationSet) :
    completionTest arrived required = true ↔ arrived ≠ 0 ∧ subset required arrived = true := by
  unfold completionTest
  rw [Bool.and_eq_true, bne_iff_ne]

theorem subset_zero (required : StationSet) : subset 0 required = true :=
  (subset_iff _ _).2 fun i mem => by rw [inSet_zero] at mem; cases mem

/-- R31, R42: a barrier that stands within the law. -/
def BarrierStands (required : StationSet) (e : BarrierEntry) : Prop :=
  subset e.arrived required = true ∧ completionTest e.arrived required = false

theorem barrierStands_empty (required : StationSet) (generation : BitVec 8) :
    BarrierStands required ⟨generation, 0⟩ := ⟨subset_zero required, completionTest_zero required⟩

/-- A barrier that does not stand complete stands no more so when members are added. -/
theorem BarrierStands.mono {small large : StationSet} {e : BarrierEntry} (stands : BarrierStands small e)
    (sub : ∀ i, inSet i small = true → inSet i large = true) : BarrierStands large e := by
  obtain ⟨within, incomplete⟩ := stands
  refine ⟨(subset_iff _ _).2 fun i mem => sub i ((subset_iff _ _).1 within i mem), Bool.eq_false_iff.2 fun test => ?_⟩
  obtain ⟨some, all⟩ := (completionTest_eq_true_iff _ _).1 test
  refine Bool.eq_false_iff.1 incomplete ((completionTest_eq_true_iff _ _).2 ⟨some, ?_⟩)
  exact (subset_iff _ _).2 fun i mem => (subset_iff _ _).1 all i (sub i mem)

theorem BarrierLaw.of_same {s t : State} (law : BarrierLaw s) (barriers : t.barriers = s.barriers)
    (required : requiredSet t = requiredSet s) : BarrierLaw t := by
  unfold BarrierLaw
  rw [barriers, required]
  exact law

theorem BarrierLaw.of_empty {t : State} (barriers : t.barriers = Vector.replicate 8 ⟨0, 0⟩) : BarrierLaw t := by
  intro b
  rw [barriers, replicate_get]
  exact barrierStands_empty _ 0

/-- R34, R42: a barrier that a station has left stands within the law of the others, or has completed. -/
theorem BarrierLaw.removal {s : State} (law : BarrierLaw s) (r : StationNo) :
    BarrierLaw (setMember r none (removeFromBarriers r s)) := by
  intro b
  have get := removeFromBarriers_get r s b
  have only := removeFromBarriers_onlyBarriers r s
  generalize removeFromBarriers r s = u at get only ⊢
  rw [requiredSet_setMember_none, only.requiredSet, setMember_barriers, get]
  cases test : completesWithout r s b with
  | true => exact barrierStands_empty _ _
  | false =>
    refine ⟨(subset_iff _ _).2 fun i mem => ?_, test⟩
    have mem : inSet i (setRemove r s.barriers[b].arrived) = true := mem
    rw [inSet_setRemove, Bool.and_eq_true] at mem ⊢
    exact ⟨(subset_iff _ _).1 (law b).1 i mem.1, mem.2⟩

/-- R30, R31: an ARRIVE item keeps the barrier law. -/
theorem BarrierLaw.arrive {s : State} (law : BarrierLaw s) {r : StationNo} (member : isUnmarked s r = true)
    (barrier : BarrierNo) : BarrierLaw (applyArrive r barrier s) := by
  intro b
  rw [(applyArrive_onlyBarriers r barrier s).requiredSet]
  rcases applyArrive_get r barrier b s with eq | ⟨test, eq⟩ | eq <;> rw [eq]
  · exact law b
  · refine ⟨(subset_iff _ _).2 fun i mem => ?_, test⟩
    have mem : inSet i (setAdd r s.barriers[b].arrived) = true := mem
    rw [inSet_setAdd, Bool.or_eq_true, decide_eq_true_eq] at mem
    rcases mem with old | rfl
    · exact (subset_iff _ _).1 (law b).1 i old
    · exact member
  · exact barrierStands_empty _ _

theorem inSet_unmarked_of_chunk0 (c : Chunk0) (s : State) (i : StationNo) :
    inSet i (requiredSet (installChunk0 c s)) = inSet i c.unmarked := by
  have members : (installChunk0 c s).members[i]
      = if inSet i c.present then some { joining := inSet i c.marks, absence := c.counts[i] } else none :=
    tabulate_get _ i
  rw [inSet_requiredSet, members, Chunk0.unmarked, inSet_and, inSet_not]
  cases inSet i c.present <;> rfl

/-- R37: chunk 0's barriers stand within the law of the members it brings. -/
theorem BarrierLaw.of_chunk0 {c : Chunk0} (check : barrierCheck c = true) (k : ChunkNo) (s : State) :
    BarrierLaw (markInstalled k (installChunk0 c s)) := by
  have required : requiredSet (installChunk0 c s) = c.unmarked := set_ext fun i => inSet_unmarked_of_chunk0 c s i
  intro b
  have checked := List.all_eq_true.1 check b (List.mem_finRange b)
  rw [Bool.and_eq_true, Bool.not_eq_true'] at checked
  show BarrierStands (requiredSet (installChunk0 c s)) c.barriers[b]
  rw [required]
  exact checked

theorem Move.keeps_barrierLaw {s t : State} (move : Move s t) (laws : Laws s) : BarrierLaw t := by
  have law := laws.barriers
  cases move with
  | reset => exact .of_empty rfl
  | placeEvent e =>
    have only := placeEvent_only e s
    exact law.of_same only.barriers (requiredSet_of_members only.members)
  | beginSlot =>
    obtain ⟨timing, eq⟩ := beginSlot_only s
    rw [eq]; exact law
  | arrive r b member held => exact law.arrive member b
  | remove r cause =>
    have only := placeEvent_only (.memberLeft r cause) (setMember r none (removeFromBarriers r (removeFromLocks r s)))
    have locksOnly := removeFromLocks_onlyLocks r s
    have law' : BarrierLaw (removeFromLocks r s) :=
      law.of_same locksOnly.barriers (requiredSet_of_members locksOnly.members)
    exact (law'.removal r).of_same only.barriers (requiredSet_of_members only.members)
  | addMember r absent held =>
    refine law.of_same rfl (requiredSet_setMember_same ?_)
    rw [inSet_requiredSet, absent]
    rfl
  | clearMark r m member mark held =>
    refine fun b => BarrierStands.mono (law b) fun i mem => ?_
    rw [inSet_requiredSet_setMember]
    split
    · rfl
    · exact mem
  | account r m count member held =>
    refine law.of_same rfl (requiredSet_setMember_same ?_)
    rw [inSet_requiredSet, member]
    rfl
  | installChunk f =>
    rcases installChunk_cases f s with eq | ⟨c, -, -, -, check, eq⟩ | ⟨k, body, entries, -, -, -, -, -, eq⟩ <;> rw [eq]
    · exact law
    · exact .of_chunk0 check 0 s
    · exact law
  | enterReady cause => obtain ⟨a, n, eq⟩ := enterReady_eq cause s; rw [eq]; exact .of_empty rfl
  | enterListening cause => obtain ⟨a, n, eq⟩ := enterListening_eq cause s; rw [eq]; exact .of_empty rfl
  | enterJoining t u =>
    obtain ⟨a, n, eq⟩ := enterJoining_eq .timingAcquired { s with timing := some u }
    rw [eq]; exact .of_empty rfl
  | enterFounding => obtain ⟨a, n, eq⟩ := enterFounding_eq s; rw [eq]; exact .of_empty rfl
  | completeFounding => obtain ⟨a, n, eq⟩ := completeFounding_eq s; rw [eq]; exact law
  | enterCaughtUp => obtain ⟨a, n, eq⟩ := enterCaughtUp_eq s; rw [eq]; exact law
  | enterDiverged => obtain ⟨a, n, eq⟩ := enterDiverged_eq s; rw [eq]; exact .of_empty rfl
  | enterLeaving => obtain ⟨a, n, eq⟩ := enterLeaving_eq s; rw [eq]; exact law
  | enterOrphanFounded group => obtain ⟨a, n, eq⟩ := enterOrphanFounded_eq group s; rw [eq]; exact .of_empty rfl
  | restartCatchUp => exact .of_empty rfl
  | enterConfigured c => obtain ⟨a, n, eq⟩ := enterConfigured_eq c s; rw [eq]; exact law
  | _ => exact law

/-! ## The absence law (R39) -/

theorem AbsenceLaw.of_same {s t : State} (law : AbsenceLaw s) (config : t.config = s.config)
    (members : t.members = s.members) : AbsenceLaw t := by
  unfold AbsenceLaw State.cfg
  rw [members, config]
  exact law

theorem AbsenceLaw.of_empty {t : State} (nobody : ∀ r : StationNo, t.members[r] = none) : AbsenceLaw t := by
  intro r m member
  rw [nobody] at member
  cases member

theorem AbsenceLaw.of_discarded {t : State} (members : t.members = Vector.replicate 16 none) : AbsenceLaw t :=
  .of_empty fun r => by rw [members, replicate_get]

theorem AbsenceLaw.setMember {s : State} (law : AbsenceLaw s) {r : StationNo} {record : Option Member}
    (below : ∀ m, record = some m → m.absence < s.cfg.absenceLimit) : AbsenceLaw (setMember r record s) := by
  intro i m member
  rw [setMember_members, set_get] at member
  split at member
  · exact below m member
  · exact law i m member

/-- R4, R40: founded members start at count 0. -/
theorem AbsenceLaw.of_founded {t : State} {group : StationSet} {own : StationNo} (limit : 0 < t.cfg.absenceLimit)
    (members : t.members = tabulate fun r =>
      if inSet r group then some { joining := decide (r ≠ own), absence := 0 } else none) : AbsenceLaw t := by
  intro r m member
  rw [members, tabulate_get] at member
  split at member
  · cases member; exact limit
  · cases member

/-- A station that is configured has an absence limit (Table 7-1). -/
theorem ConfigLaw.limit_pos {s : State} (law : ConfigLaw s) (configured : s.station ≠ .unconfigured) :
    0 < s.cfg.absenceLimit := by
  unfold ConfigLaw at law
  unfold State.cfg
  split at law
  · exact absurd law configured
  · rename_i c config
    rw [config]
    obtain ⟨-, -, -, -, -, -, -, -, low, -, -⟩ := law
    exact Nat.lt_of_lt_of_le Nat.zero_lt_two low

/-- R129: an unconfigured station has nothing installed, and so holds no membership. -/
theorem Laws.configured_of_held {s : State} (laws : Laws s) (held : membershipHeld s = true) :
    s.station ≠ .unconfigured := by
  intro state
  have chunks := laws.chunks
  unfold ChunkLaw at chunks
  rw [state] at chunks
  rw [membershipHeld, chunkInstalled, chunks.1, inSet_zero] at held
  cases held

theorem AbsenceLaw.of_chunk0 {c : Chunk0} {sender : StationNo} {s : State} (check : membershipCheck c sender s = true)
    (k : ChunkNo) : AbsenceLaw (markInstalled k (installChunk0 c s)) := by
  intro r m member
  have members : (installChunk0 c s).members[r]
      = if inSet r c.present then some { joining := inSet r c.marks, absence := c.counts[r] } else none :=
    tabulate_get _ r
  rw [show (markInstalled k (installChunk0 c s)).members[r] = (installChunk0 c s).members[r] from rfl, members] at member
  split at member
  · cases member
    unfold membershipCheck at check
    simp only [Bool.and_eq_true, decide_eq_true_eq, List.all_eq_true] at check
    exact (check.1.1.1 r (List.mem_finRange r)).1.2
  · cases member

theorem Move.keeps_absenceLaw {s t : State} (move : Move s t) (laws : Laws s) : AbsenceLaw t := by
  have law := laws.absence
  cases move with
  | reset => exact .of_discarded rfl
  | placeEvent e => exact law.of_same (placeEvent_only e s).config (placeEvent_only e s).members
  | beginSlot =>
    obtain ⟨timing, eq⟩ := beginSlot_only s
    rw [eq]; exact law
  | arrive r b =>
    have only := applyArrive_onlyBarriers r b s
    exact law.of_same only.config only.members
  | remove r cause =>
    have only := placeEvent_only (.memberLeft r cause) (setMember r none (removeFromBarriers r (removeFromLocks r s)))
    have locksOnly := removeFromLocks_onlyLocks r s
    have barriersOnly := removeFromBarriers_onlyBarriers r (removeFromLocks r s)
    have law' : AbsenceLaw (removeFromBarriers r (removeFromLocks r s)) :=
      law.of_same (barriersOnly.config.trans locksOnly.config) (barriersOnly.members.trans locksOnly.members)
    exact (law'.setMember (r := r) (record := none) nofun).of_same only.config only.members
  | addMember r absent held =>
    exact law.setMember fun m eq => by cases eq; exact laws.config.limit_pos (laws.configured_of_held held)
  | clearMark r m member mark held => exact law.setMember fun m' eq => by cases eq; exact law r m member
  | account r m count member held limit =>
    refine law.setMember fun m' eq => ?_
    cases eq
    rcases limit with rfl | below
    · exact Nat.zero_lt_of_lt (law r m member)
    · exact below
  | installChunk f =>
    rcases installChunk_cases f s with eq | ⟨c, -, -, check, -, eq⟩ | ⟨k, body, entries, -, -, -, -, -, eq⟩ <;> rw [eq]
    · exact law
    · exact .of_chunk0 check 0
    · exact law
  | enterReady cause => obtain ⟨a, n, eq⟩ := enterReady_eq cause s; rw [eq]; exact .of_discarded rfl
  | enterListening cause => obtain ⟨a, n, eq⟩ := enterListening_eq cause s; rw [eq]; exact .of_discarded rfl
  | enterJoining t u =>
    obtain ⟨a, n, eq⟩ := enterJoining_eq .timingAcquired { s with timing := some u }
    rw [eq]; exact .of_discarded rfl
  | enterFounding state =>
    obtain ⟨a, n, eq⟩ := enterFounding_eq s
    rw [eq]
    exact .of_founded (laws.config.limit_pos (by rw [state]; exact StationState.noConfusion)) rfl
  | completeFounding => obtain ⟨a, n, eq⟩ := completeFounding_eq s; rw [eq]; exact law
  | enterCaughtUp => obtain ⟨a, n, eq⟩ := enterCaughtUp_eq s; rw [eq]; exact law
  | enterDiverged => obtain ⟨a, n, eq⟩ := enterDiverged_eq s; rw [eq]; exact .of_discarded rfl
  | enterLeaving => obtain ⟨a, n, eq⟩ := enterLeaving_eq s; rw [eq]; exact law
  | enterOrphanFounded group state =>
    obtain ⟨a, n, eq⟩ := enterOrphanFounded_eq group s
    rw [eq]
    exact .of_founded (laws.config.limit_pos (by rw [state]; exact StationState.noConfusion)) rfl
  | restartCatchUp => exact .of_discarded rfl
  | enterConfigured c state =>
    have unheld : membershipHeld s = false :=
      Bool.eq_false_iff.2 fun held => laws.configured_of_held held state
    obtain ⟨a, n, eq⟩ := enterConfigured_eq c s
    rw [eq]
    exact .of_empty (laws.replica.2.2 unheld).2.1
  | _ => exact law

end Sys2Proof.Machine


/-! The laws of the host's side and of the station, move by move, and with those of the replica the whole of Laws: every
step keeps it (R39, R56, R69, R80, R94, R111, R129, R151, R158, R169, R174). -/

namespace Sys2Proof.Machine

/-! ## Invariants of the records (R58, R61, R71) -/

/-- A predicate that events, the end or the change of a record, and changes of the outbox and the replica keep. -/
structure RecordInvariant (P : State → Prop) : Prop where
  event : ∀ {s} (e : Event), P s → P (placeEvent e s)
  endRequest : ∀ {s} (lock : LockNo), P s → P (setRequest lock none s)
  changeRequest : ∀ {s} (lock : LockNo) (q : Request), (s.requests[lock]).isSome = true → P s →
    P (setRequest lock (some q) s)
  endRecord : ∀ {s} (b : BarrierNo), P s → P (setBarrierRecord b none s)
  changeRecord : ∀ {s} (b : BarrierNo) (q : BarrierRecord), (s.barrierRecords[b]).isSome = true → P s →
    P (setBarrierRecord b (some q) s)
  rest : ∀ {s} (outbox : List Intent) (locks : Vector LockEntry 64) (barriers : Vector BarrierEntry 8)
    (members : Vector (Option Member) 16), P s →
    P { s with outbox := outbox, locks := locks, barriers := barriers, members := members }

section
variable {P : State → Prop} (inv : RecordInvariant P) {s : State}
include inv

theorem RecordInvariant.setLock (lock : LockNo) (e : LockEntry) (h : P s) : P (setLock lock e s) :=
  inv.rest s.outbox (s.locks.set lock e) s.barriers s.members h

theorem RecordInvariant.setBarrier (b : BarrierNo) (e : BarrierEntry) (h : P s) : P (setBarrier b e s) :=
  inv.rest s.outbox s.locks (s.barriers.set b e) s.members h

theorem RecordInvariant.setMember (r : StationNo) (m : Option Member) (h : P s) : P (setMember r m s) :=
  inv.rest s.outbox s.locks s.barriers (s.members.set r m) h

theorem RecordInvariant.reportPass (lock : LockNo) (h : P s) : P (reportPass lock s) := by
  unfold Machine.reportPass
  split
  · exact h
  · rename_i q request
    split
    · exact inv.event _ (inv.changeRequest lock _ (by rw [request]; rfl) h)
    all_goals exact h

theorem RecordInvariant.removeFromLock (r : StationNo) (lock : LockNo) (h : P s) : P (removeFromLock r lock s) := by
  unfold Machine.removeFromLock
  split
  · split
    · exact h
    · split
      · split
        · exact inv.setLock lock _ h
        · unfold passLock
          dsimp only
          split
          · exact inv.reportPass lock (inv.setLock lock _ h)
          · exact inv.setLock lock _ h
      · exact inv.setLock lock _ h
  · exact h

theorem RecordInvariant.removeFromLocks (r : StationNo) (h : P s) : P (removeFromLocks r s) :=
  List.foldlRecOn (motive := P) allLocks _ h fun _ ih lock _ => inv.removeFromLock r lock ih

theorem RecordInvariant.completeBarrier (b : BarrierNo) (h : P s) : P (completeBarrier b s) := by
  cases record : completionRecord s b with
  | none => rw [completeBarrier_of_none record]; exact inv.setBarrier b _ h
  | some q =>
    rw [completeBarrier_of_some record]
    refine inv.setBarrier b _ ?_
    have placed := inv.event (.barrierDone q.tag b s.barriers[b].generation) h
    unfold endBarrierRecord
    generalize placeEvent _ s = u at placed ⊢
    exact inv.rest _ u.locks u.barriers u.members (inv.endRecord b placed)

theorem RecordInvariant.removeFromBarriers (r : StationNo) (h : P s) : P (removeFromBarriers r s) := by
  have left : P (withdrawArrivals r s) := inv.rest s.outbox s.locks _ s.members h
  refine List.foldlRecOn (motive := P) allBarriers _ left fun u ih b _ => ?_
  unfold testDuringRemoval
  split
  · exact inv.completeBarrier b ih
  · exact ih

theorem RecordInvariant.removal (r : StationNo) (cause : LeaveCause) (h : P s) :
    P (placeEvent (.memberLeft r cause) (Machine.setMember r none
      (Machine.removeFromBarriers r (Machine.removeFromLocks r s)))) :=
  inv.event _ (inv.setMember r none (inv.removeFromBarriers r (inv.removeFromLocks r h)))

theorem RecordInvariant.tellArrive (r : StationNo) (b : BarrierNo) (h : P s) :
    P (setBarrierRecord b (recordAfterArrive r b s) s) := by
  unfold recordAfterArrive
  cases record : s.barrierRecords[b] with
  | none => exact inv.endRecord b h
  | some q => exact inv.changeRecord b _ (by rw [record]; rfl) h

theorem RecordInvariant.applyArrive (r : StationNo) (b : BarrierNo) (h : P s) : P (applyArrive r b s) := by
  have told := inv.tellArrive r b h
  have arrived : P (arriveState r b s) := inv.rest s.outbox s.locks _ s.members told
  cases again : inSet r s.barriers[b].arrived with
  | true => rw [applyArrive_again again]; exact told
  | false =>
    rw [applyArrive_new again]
    split
    · exact inv.completeBarrier b arrived
    · exact arrived

theorem RecordInvariant.loseRecords (h : P s) : P (loseRecords s) := by
  have requests : P (allLocks.foldl (fun s L => loseRequest L s) s) :=
    List.foldlRecOn (motive := P) allLocks _ h fun u ih lock _ => by
      unfold loseRequest
      split
      · exact ih
      · exact inv.endRequest lock (inv.event _ ih)
  unfold Machine.loseRecords
  generalize allLocks.foldl (fun s L => loseRequest L s) s = v at requests
  have records : P (allBarriers.foldl (fun s b => loseBarrierRecord b s) v) :=
    List.foldlRecOn (motive := P) allBarriers _ requests fun u ih b _ => by
      unfold loseBarrierRecord
      split
      · exact ih
      · exact inv.endRecord b (inv.event _ ih)
  generalize allBarriers.foldl (fun s b => loseBarrierRecord b s) v = u at records
  exact inv.rest [] u.locks u.barriers u.members records

end

/-! ## The answer queue (R169, R173, R174) -/

theorem AnswerQueueLaw.of_same {s t : State} (law : AnswerQueueLaw s) (answers : t.answers = s.answers) :
    AnswerQueueLaw t := by
  unfold AnswerQueueLaw
  rw [answers]
  exact law

theorem answerQueueLaw_recordInvariant : RecordInvariant AnswerQueueLaw where
  event e law := placeEvent_keeps_answerQueueLaw e law
  endRequest _ law := law
  changeRequest _ _ _ law := law
  endRecord _ law := law
  changeRecord _ _ _ law := law
  rest _ _ _ _ law := law

theorem AnswerQueueLaw.placeEvents {s : State} (law : AnswerQueueLaw s) (l : List Event) :
    AnswerQueueLaw (placeEvents l s) :=
  List.foldlRecOn (motive := AnswerQueueLaw) l _ law fun _ ih e _ => placeEvent_keeps_answerQueueLaw e ih

/-- R156: the head record leaves. -/
theorem AnswerQueueLaw.removeAnswer {s : State} (law : AnswerQueueLaw s) : AnswerQueueLaw (removeAnswer s) := by
  obtain ⟨bound, -, ranges⟩ := law
  have length : (Machine.removeAnswer s).answers.length = s.answers.length - 1 := List.length_tail
  exact ⟨by omega, fun full => by omega, fun a mem => ranges a (List.mem_of_mem_tail mem)⟩

/-- R170: a reply is placed only while 30 records or fewer are held. -/
theorem AnswerQueueLaw.placeReply {s : State} (law : AnswerQueueLaw s) {a : Answer} (room : s.answers.length ≤ 30)
    (plain : ∀ n, a ≠ .overrun n) : AnswerQueueLaw (placeReply a s) := by
  obtain ⟨-, -, ranges⟩ := law
  have length : (Machine.placeReply a s).answers.length = s.answers.length + 1 := List.length_append
  refine ⟨by omega, fun full => by omega, fun x mem => ?_⟩
  rcases List.mem_append.1 mem with old | new
  · exact ranges x old
  · rw [List.mem_singleton.1 new]
    cases a with
    | overrun n => exact absurd rfl (plain n)
    | accepted | refused | status | lockInfo | members | event => trivial

/-- R114: a change of state places its event. -/
theorem AnswerQueueLaw.changeState {s u : State} (law : AnswerQueueLaw s) (state : StationState) (cause : StateCause)
    (answers : u.answers = s.answers) : AnswerQueueLaw (changeState state cause u) :=
  placeEvent_keeps_answerQueueLaw _ (law.of_same answers)

theorem Move.keeps_answerQueueLaw {s t : State} (move : Move s t) (law : AnswerQueueLaw s) : AnswerQueueLaw t := by
  have lost := answerQueueLaw_recordInvariant.loseRecords law
  cases move with
  | reset => exact ⟨Nat.zero_le 32, nofun, nofun⟩
  | removeAnswer => exact law.removeAnswer
  | placeReply a room plain => exact law.placeReply room plain
  | placeEvent e => exact placeEvent_keeps_answerQueueLaw e law
  | beginSlot =>
    obtain ⟨timing, eq⟩ := beginSlot_only s
    rw [eq]; exact law
  | arrive r b => exact answerQueueLaw_recordInvariant.applyArrive r b law
  | remove r cause => exact answerQueueLaw_recordInvariant.removal r cause law
  | installChunk f =>
    rcases installChunk_cases f s with eq | ⟨c, -, -, -, -, eq⟩ | ⟨k, body, entries, -, -, -, -, -, eq⟩ <;> rw [eq] <;>
      exact law
  | enterReady cause =>
    unfold Machine.enterReady
    generalize loseRecords s = u at lost ⊢
    exact lost.changeState .ready cause rfl
  | enterListening cause =>
    unfold Machine.enterListening
    generalize loseRecords s = u at lost ⊢
    exact lost.changeState .listening cause rfl
  | enterJoining t u => exact law.changeState .joining .timingAcquired rfl
  | enterFounding => exact law.changeState .founding .founded rfl
  | completeFounding => exact law.changeState .synced .foundingComplete rfl
  | enterCaughtUp => exact law.changeState .synced .caughtUp rfl
  | enterDiverged =>
    unfold Machine.enterDiverged
    generalize loseRecords s = u at lost ⊢
    exact lost.changeState .joining .diverged rfl
  | enterLeaving =>
    unfold Machine.enterLeaving
    generalize loseRecords s = u at lost ⊢
    exact lost.changeState .leaving .stopping rfl
  | enterOrphanFounded group => exact law.changeState .synced .orphanFounded rfl
  | enterConfigured c => exact law.changeState .ready .configured rfl
  | _ => exact law

/-! ## The command queue and the port (R151, R153, R155, R158) -/

/-- What the laws of the command queue and the port speak of is the same. -/
structure SameHost (s t : State) : Prop where
  commands : t.commands = s.commands
  port : t.port = s.port
  ssel : t.ssel = s.ssel
  shiftIn : t.shiftIn = s.shiftIn

theorem OnlyReplica.sameHost {s t : State} (only : OnlyReplica s t) : SameHost s t :=
  ⟨only.commands, only.port, only.ssel, only.shiftIn⟩

theorem CommandQueueLaw.of_same {s t : State} (law : CommandQueueLaw s) (same : SameHost s t) : CommandQueueLaw t := by
  unfold CommandQueueLaw
  rw [same.commands, same.port]
  exact law

theorem PortLaw.of_same {s t : State} (law : PortLaw s) (same : SameHost s t) : PortLaw t := by
  unfold PortLaw
  rw [same.port, same.ssel, same.shiftIn]
  exact law

/-- The moves of the host's side: a reset, the port, a record taken, a record that leaves; every other move leaves the
command queue and the port alone. -/
theorem Move.host_cases {s t : State} (move : Move s t) : SameHost s t
    ∨ t = { State.reset with
        ssel := s.ssel, port := if s.ssel then .awaitNegation else .idle, lrxLow := s.lrxLow
        freeIndex := s.freeIndex, pending := s.pending }
    ∨ (t.commands = s.commands ∧ (hasRoom t.port = true → hasRoom s.port = true ∨ s.commands.length < 8)
        ∧ (PortLaw s → PortLaw t))
    ∨ (∃ r : CommandRecord, hasRoom s.port = true ∧ s.port ≠ .idle ∧ r.params.length ≤ 15
        ∧ t = { s with commands := s.commands ++ [r], port := .taken })
    ∨ t = Machine.dequeue s := by
  cases move with
  | reset => exact .inr (.inl rfl)
  | port port cut ssel shiftIn shiftOut miso room law => exact .inr (.inr (.inl ⟨rfl, room, law⟩))
  | takeRecord r room busy few => exact .inr (.inr (.inr (.inl ⟨r, room, busy, few, rfl⟩)))
  | dequeue => exact .inr (.inr (.inr (.inr rfl)))
  | placeEvent e => exact .inl (placeEvent_only e s).records.replica.sameHost
  | beginSlot =>
    obtain ⟨timing, eq⟩ := beginSlot_only s
    rw [eq]; exact .inl ⟨rfl, rfl, rfl, rfl⟩
  | arrive r b => exact .inl (applyArrive_only r b s).sameHost
  | remove r cause => exact .inl (remove_only r cause s).sameHost
  | installChunk f =>
    rcases installChunk_cases f s with eq | ⟨c, -, -, -, -, eq⟩ | ⟨k, body, entries, -, -, -, -, -, eq⟩ <;> rw [eq] <;>
      exact .inl ⟨rfl, rfl, rfl, rfl⟩
  | enterReady cause => obtain ⟨a, n, eq⟩ := enterReady_eq cause s; rw [eq]; exact .inl ⟨rfl, rfl, rfl, rfl⟩
  | enterListening cause => obtain ⟨a, n, eq⟩ := enterListening_eq cause s; rw [eq]; exact .inl ⟨rfl, rfl, rfl, rfl⟩
  | enterJoining t u =>
    obtain ⟨a, n, eq⟩ := enterJoining_eq .timingAcquired { s with timing := some u }
    rw [eq]; exact .inl ⟨rfl, rfl, rfl, rfl⟩
  | enterFounding => obtain ⟨a, n, eq⟩ := enterFounding_eq s; rw [eq]; exact .inl ⟨rfl, rfl, rfl, rfl⟩
  | completeFounding => obtain ⟨a, n, eq⟩ := completeFounding_eq s; rw [eq]; exact .inl ⟨rfl, rfl, rfl, rfl⟩
  | enterCaughtUp => obtain ⟨a, n, eq⟩ := enterCaughtUp_eq s; rw [eq]; exact .inl ⟨rfl, rfl, rfl, rfl⟩
  | enterDiverged => obtain ⟨a, n, eq⟩ := enterDiverged_eq s; rw [eq]; exact .inl ⟨rfl, rfl, rfl, rfl⟩
  | enterLeaving => obtain ⟨a, n, eq⟩ := enterLeaving_eq s; rw [eq]; exact .inl ⟨rfl, rfl, rfl, rfl⟩
  | enterOrphanFounded group =>
    obtain ⟨a, n, eq⟩ := enterOrphanFounded_eq group s; rw [eq]; exact .inl ⟨rfl, rfl, rfl, rfl⟩
  | enterConfigured c => obtain ⟨a, n, eq⟩ := enterConfigured_eq c s; rw [eq]; exact .inl ⟨rfl, rfl, rfl, rfl⟩
  | _ => exact .inl ⟨rfl, rfl, rfl, rfl⟩

theorem Move.keeps_commandQueueLaw {s t : State} (move : Move s t) (law : CommandQueueLaw s) : CommandQueueLaw t := by
  have ⟨bound, below, params⟩ := law
  rcases move.host_cases with same | rfl | ⟨commands, room, -⟩ | ⟨r, room, -, few, rfl⟩ | rfl
  · exact law.of_same same
  · exact ⟨Nat.zero_le 8, fun _ => Nat.zero_lt_succ 7, nofun⟩
  · unfold CommandQueueLaw
    rw [commands]
    exact ⟨bound, fun has => (room has).elim below id, params⟩
  · have length : (s.commands ++ [r]).length = s.commands.length + 1 := List.length_append
    refine ⟨length.trans_le (below room), nofun, fun x mem => ?_⟩
    rcases List.mem_append.1 mem with old | new
    · exact params x old
    · rw [List.mem_singleton.1 new]; exact few
  · have length : (Machine.dequeue s).commands.length = s.commands.length - 1 := List.length_tail
    refine ⟨by omega, fun has => ?_, fun x mem => params x (List.mem_of_mem_tail mem)⟩
    have := below has
    omega

theorem Move.keeps_portLaw {s t : State} (move : Move s t) (law : PortLaw s) : PortLaw t := by
  rcases move.host_cases with same | rfl | ⟨-, -, kept⟩ | ⟨r, -, busy, -, rfl⟩ | rfl
  · exact law.of_same same
  · refine ⟨?_, Nat.zero_lt_succ 7⟩
    show (if s.ssel then PortPhase.awaitNegation else .idle) = .idle ↔ s.ssel = false
    cases s.ssel <;> decide
  · exact kept law
  · exact ⟨⟨nofun, fun negated => absurd (law.1.2 negated) busy⟩, law.2⟩
  · exact law

/-! ## The records (R56, R69) -/

theorem filter_length_le {α : Type} (p : α → Bool) (l : List α) (f : α → Bool) (le : ∀ a ∈ l, f a = true → p a = true) :
    (l.filter f).length ≤ (l.filter p).length := by
  rw [← List.countP_eq_length_filter, ← List.countP_eq_length_filter]
  exact List.countP_mono_left le

theorem requestCount_le_of_subset {s t : State}
    (sub : ∀ lock : LockNo, (t.requests[lock]).isSome = true → (s.requests[lock]).isSome = true) :
    requestCount t ≤ requestCount s :=
  filter_length_le _ _ _ fun lock _ => sub lock

theorem isSome_setRequest (lock L : LockNo) (q : Option Request) (s : State) :
    ((setRequest lock q s).requests[L]).isSome = if L = lock then q.isSome else (s.requests[L]).isSome := by
  rw [setRequest_requests, set_get]
  split <;> rfl

/-- R57: one more request. -/
theorem requestCount_setRequest_le (lock : LockNo) (q : Option Request) (s : State) :
    requestCount (setRequest lock q s) ≤ requestCount s + 1 := by
  have others : (allLocks.filter fun L => ((setRequest lock q s).requests[L]).isSome).length
      ≤ (allLocks.filter fun L => decide (L = lock) || (s.requests[L]).isSome).length :=
    filter_length_le _ _ _ fun L _ some => by
      rw [isSome_setRequest] at some
      split at some
      · rename_i eq; simp [eq]
      · rw [some, Bool.or_true]
  have split : ∀ l : List LockNo, l.Nodup →
      (l.filter fun L => decide (L = lock) || (s.requests[L]).isSome).length
        ≤ (l.filter fun L => (s.requests[L]).isSome).length + if lock ∈ l then 1 else 0 := by
    intro l distinct
    induction l with
    | nil => simp
    | cons a l ih =>
      obtain ⟨fresh, distinct⟩ := List.nodup_cons.1 distinct
      have ih := ih distinct
      by_cases eq : a = lock
      · subst eq
        simp only [List.filter_cons, decide_true, Bool.true_or, if_true, List.length_cons, List.mem_cons, true_or]
        simp only [fresh, if_false] at ih
        split
        · simp only [List.length_cons]; omega
        · omega
      · simp only [List.filter_cons, decide_eq_false eq, Bool.false_or, List.mem_cons, Ne.symm eq, false_or]
        split
        · simp only [List.length_cons]; omega
        · exact ih
  have bound := split allLocks (List.nodup_finRange 64)
  rw [if_pos (show lock ∈ allLocks from List.mem_finRange lock)] at bound
  exact others.trans bound

/-- R56, R69: the number of requests and the states in which records exist. -/
def RecordLaws (s : State) : Prop := RequestCountLaw s ∧ RecordsLaw s

theorem RecordLaws.of_same {s t : State} (laws : RecordLaws s) (requests : t.requests = s.requests)
    (records : t.barrierRecords = s.barrierRecords) (station : t.station = s.station) : RecordLaws t := by
  unfold RecordLaws RequestCountLaw requestCount RecordsLaw
  rw [requests, records, station]
  exact laws

/-- A station without records meets both laws in any state. -/
theorem RecordLaws.of_none {t : State} (requests : ∀ lock : LockNo, t.requests[lock] = none)
    (records : ∀ b : BarrierNo, t.barrierRecords[b] = none) : RecordLaws t := by
  refine ⟨?_, .inr (.inr ⟨requests, records⟩)⟩
  unfold RequestCountLaw requestCount
  rw [List.filter_eq_nil_iff.2 fun lock _ => by rw [requests]; exact Bool.false_ne_true]
  exact Nat.zero_le 16

theorem RecordLaws.of_discarded {t : State} (requests : t.requests = Vector.replicate 64 none)
    (records : t.barrierRecords = Vector.replicate 8 none) : RecordLaws t :=
  .of_none (fun lock => by rw [requests, replicate_get]) fun b => by rw [records, replicate_get]

/-- The records stay over a change of the station state out of and into any other. -/
theorem RecordLaws.of_station {s t : State} (laws : RecordLaws s) (requests : t.requests = s.requests)
    (records : t.barrierRecords = s.barrierRecords)
    (station : (s.station ≠ .joining ∧ s.station ≠ .synced) ∨ t.station = .joining ∨ t.station = .synced) :
    RecordLaws t := by
  obtain ⟨count, law⟩ := laws
  rcases station with ⟨joining, synced⟩ | station
  · have ⟨noRequests, noRecords⟩ := (law.resolve_left joining).resolve_left synced
    exact .of_none (fun lock => by rw [requests]; exact noRequests lock) fun b => by rw [records]; exact noRecords b
  · refine ⟨?_, or_assoc.1 (.inl station)⟩
    unfold RequestCountLaw requestCount
    rw [requests]
    exact count

/-- A record that changes stands in JOINING or SYNCED, and so does one that is added. -/
theorem RecordLaws.setRequest {s : State} (laws : RecordLaws s) {lock : LockNo} {q : Option Request}
    (count : requestCount (setRequest lock q s) ≤ 16)
    (state : q = none ∨ (s.requests[lock]).isSome = true ∨ s.station = .joining ∨ s.station = .synced) :
    RecordLaws (setRequest lock q s) := by
  obtain ⟨-, law⟩ := laws
  refine ⟨count, ?_⟩
  rcases law with joining | synced | ⟨noRequests, noRecords⟩
  · exact .inl joining
  · exact .inr (.inl synced)
  · rcases state with rfl | old | joining | synced
    · refine .inr (.inr ⟨fun L => ?_, noRecords⟩)
      rw [setRequest_requests, set_get, noRequests, ite_self]
    · rw [noRequests] at old
      cases old
    · exact .inl joining
    · exact .inr (.inl synced)

theorem RecordLaws.setRecord {s : State} (laws : RecordLaws s) {b : BarrierNo} {q : Option BarrierRecord}
    (state : q = none ∨ (s.barrierRecords[b]).isSome = true ∨ s.station = .joining ∨ s.station = .synced) :
    RecordLaws (setBarrierRecord b q s) := by
  obtain ⟨count, law⟩ := laws
  refine ⟨count, ?_⟩
  rcases law with joining | synced | ⟨noRequests, noRecords⟩
  · exact .inl joining
  · exact .inr (.inl synced)
  · rcases state with rfl | old | joining | synced
    · refine .inr (.inr ⟨noRequests, fun B => ?_⟩)
      rw [setBarrierRecord_barrierRecords, set_get, noRecords, ite_self]
    · rw [noRecords] at old
      cases old
    · exact .inl joining
    · exact .inr (.inl synced)

theorem recordLaws_recordInvariant : RecordInvariant RecordLaws where
  event {s} e laws := laws.of_same (placeEvent_only e s).requests (placeEvent_only e s).barrierRecords
    (placeEvent_only e s).station
  endRequest {s} lock laws := laws.setRequest ((requestCount_le_of_subset fun L some => by
    rw [isSome_setRequest] at some
    split at some
    · cases some
    · exact some).trans laws.1) (.inl rfl)
  changeRequest {s} lock q old laws := laws.setRequest ((requestCount_le_of_subset fun L some => by
    rw [isSome_setRequest] at some
    split at some
    · rename_i eq; rw [eq]; exact old
    · exact some).trans laws.1) (.inr (.inl old))
  endRecord b laws := laws.setRecord (.inl rfl)
  changeRecord b q old laws := laws.setRecord (.inr (.inl old))
  rest _ _ _ _ laws := laws

theorem Move.keeps_recordLaws {s t : State} (move : Move s t) (laws : RecordLaws s) : RecordLaws t := by
  cases move with
  | reset => exact .of_discarded rfl rfl
  | placeEvent e => exact recordLaws_recordInvariant.event e laws
  | endRequest lock => exact recordLaws_recordInvariant.endRequest lock laws
  | changeRequest lock q old => exact recordLaws_recordInvariant.changeRequest lock q old laws
  | addRequest lock q new room state =>
    exact laws.setRequest ((requestCount_setRequest_le lock _ s).trans room) (.inr (.inr state))
  | endBarrierRecord b => exact recordLaws_recordInvariant.endRecord b laws
  | changeBarrierRecord b q old => exact recordLaws_recordInvariant.changeRecord b q old laws
  | addBarrierRecord b q state => exact laws.setRecord (.inr (.inr state))
  | beginSlot =>
    obtain ⟨timing, eq⟩ := beginSlot_only s
    rw [eq]; exact laws
  | arrive r b => exact recordLaws_recordInvariant.applyArrive r b laws
  | remove r cause => exact recordLaws_recordInvariant.removal r cause laws
  | installChunk f =>
    rcases installChunk_cases f s with eq | ⟨c, -, -, -, -, eq⟩ | ⟨k, body, entries, -, -, -, -, -, eq⟩ <;> rw [eq] <;>
      exact laws
  | enterReady cause => obtain ⟨a, n, eq⟩ := enterReady_eq cause s; rw [eq]; exact .of_discarded rfl rfl
  | enterListening cause => obtain ⟨a, n, eq⟩ := enterListening_eq cause s; rw [eq]; exact .of_discarded rfl rfl
  | enterJoining t u =>
    obtain ⟨a, n, eq⟩ := enterJoining_eq .timingAcquired { s with timing := some u }
    rw [eq]; exact laws.of_station rfl rfl (.inr (.inl rfl))
  | enterFounding state =>
    obtain ⟨a, n, eq⟩ := enterFounding_eq s
    rw [eq]; exact laws.of_station rfl rfl (.inl (by rw [state]; decide))
  | completeFounding => obtain ⟨a, n, eq⟩ := completeFounding_eq s; rw [eq]; exact laws.of_station rfl rfl (.inr (.inr rfl))
  | enterCaughtUp => obtain ⟨a, n, eq⟩ := enterCaughtUp_eq s; rw [eq]; exact laws.of_station rfl rfl (.inr (.inr rfl))
  | enterDiverged => obtain ⟨a, n, eq⟩ := enterDiverged_eq s; rw [eq]; exact .of_discarded rfl rfl
  | enterLeaving => obtain ⟨a, n, eq⟩ := enterLeaving_eq s; rw [eq]; exact .of_discarded rfl rfl
  | enterOrphanFounded group =>
    obtain ⟨a, n, eq⟩ := enterOrphanFounded_eq group s
    rw [eq]; exact laws.of_station rfl rfl (.inr (.inr rfl))
  | enterConfigured c state =>
    obtain ⟨a, n, eq⟩ := enterConfigured_eq c s
    rw [eq]; exact laws.of_station rfl rfl (.inl (by rw [state]; decide))
  | _ => exact laws

/-! ## Configuration (R111, R116) -/

theorem ConfigLaw.of_same {s t : State} (law : ConfigLaw s) (config : t.config = s.config)
    (station : t.station = .unconfigured ↔ s.station = .unconfigured) : ConfigLaw t := by
  unfold ConfigLaw at law ⊢
  rw [config]
  split at law <;> rename_i eq
  · exact station.2 law
  · exact ⟨fun state => law.1 (station.1 state), law.2⟩

/-- A transition from one configured state to another. -/
theorem ConfigLaw.of_states {s t : State} (law : ConfigLaw s) (config : t.config = s.config)
    (before : s.station ≠ .unconfigured) (after : t.station ≠ .unconfigured) : ConfigLaw t :=
  law.of_same config (iff_of_false after before)

theorem Move.keeps_configLaw {s t : State} (move : Move s t) (law : ConfigLaw s) : ConfigLaw t := by
  cases move with
  | reset => exact rfl
  | placeEvent e =>
    have only := placeEvent_only e s
    exact law.of_same only.config (by rw [only.station])
  | beginSlot =>
    obtain ⟨timing, eq⟩ := beginSlot_only s
    rw [eq]; exact law
  | arrive r b =>
    have only := applyArrive_only r b s
    exact law.of_same only.config (by rw [only.station])
  | remove r cause =>
    have only := remove_only r cause s
    exact law.of_same only.config (by rw [only.station])
  | installChunk f =>
    rcases installChunk_cases f s with eq | ⟨c, -, -, -, -, eq⟩ | ⟨k, body, entries, -, -, -, -, -, eq⟩ <;> rw [eq] <;>
      exact law
  | enterReady cause state =>
    have ⟨a, n, eq⟩ := enterReady_eq cause s; rw [eq]; exact law.of_states rfl state nofun
  | enterListening cause state =>
    have ⟨a, n, eq⟩ := enterListening_eq cause s; rw [eq]; exact law.of_states rfl state nofun
  | enterJoining t u state =>
    have ⟨a, n, eq⟩ := enterJoining_eq .timingAcquired { s with timing := some u }
    rw [eq]; exact law.of_states rfl (by rw [state]; decide) nofun
  | enterFounding state =>
    have ⟨a, n, eq⟩ := enterFounding_eq s; rw [eq]; exact law.of_states rfl (by rw [state]; decide) nofun
  | completeFounding state =>
    have ⟨a, n, eq⟩ := completeFounding_eq s; rw [eq]; exact law.of_states rfl (by rw [state]; decide) nofun
  | enterCaughtUp state =>
    have ⟨a, n, eq⟩ := enterCaughtUp_eq s; rw [eq]; exact law.of_states rfl (by rw [state]; decide) nofun
  | enterDiverged state =>
    have ⟨a, n, eq⟩ := enterDiverged_eq s; rw [eq]; exact law.of_states rfl (by rw [state]; decide) nofun
  | enterLeaving state =>
    have ⟨a, n, eq⟩ := enterLeaving_eq s
    rw [eq]; exact law.of_states rfl (by rcases state with h | h | h <;> rw [h] <;> decide) nofun
  | enterOrphanFounded group state =>
    have ⟨a, n, eq⟩ := enterOrphanFounded_eq group s; rw [eq]; exact law.of_states rfl (by rw [state]; decide) nofun
  | enterConfigured c state range =>
    have ⟨a, n, eq⟩ := enterConfigured_eq c s
    rw [eq]; exact ⟨StationState.noConfusion, range⟩
  | _ => exact law

/-! ## Chunk sets (R129) -/

theorem ChunkLaw.of_same {s t : State} (law : ChunkLaw s) (station : t.station = s.station)
    (installed : t.installed = s.installed) (wanted : t.wanted = s.wanted) : ChunkLaw t := by
  unfold ChunkLaw
  rw [station, installed, wanted]
  exact law

/-- R134: a chunk that is installed is wanted no more. -/
theorem ChunkLaw.markInstalled {s u : State} (law : ChunkLaw s) (joining : s.station = .joining) (k : ChunkNo)
    (station : u.station = s.station) (installed : u.installed = s.installed) (wanted : u.wanted = s.wanted) :
    ChunkLaw (markInstalled k u) := by
  unfold ChunkLaw at law ⊢
  rw [joining] at law
  rw [show (Machine.markInstalled k u).station = .joining from station.trans joining]
  show setRemove k u.wanted = allChunks &&& ~~~ setAdd k u.installed
  rw [installed, wanted, show s.wanted = _ from law]
  refine set_ext fun i => ?_
  rw [inSet_setRemove, inSet_and, inSet_and, inSet_not, inSet_not, inSet_setAdd, Bool.not_or, Bool.and_assoc]

theorem Move.keeps_chunkLaw {s t : State} (move : Move s t) (law : ChunkLaw s) : ChunkLaw t := by
  cases move with
  | reset => exact ⟨rfl, rfl⟩
  | placeEvent e =>
    have only := placeEvent_only e s
    exact law.of_same only.station only.installed only.wanted
  | beginSlot =>
    obtain ⟨timing, eq⟩ := beginSlot_only s
    rw [eq]; exact law
  | arrive r b =>
    have only := applyArrive_only r b s
    exact law.of_same only.station only.installed only.wanted
  | remove r cause =>
    have only := remove_only r cause s
    exact law.of_same only.station only.installed only.wanted
  | installChunk f =>
    rcases installChunk_cases f s with eq | ⟨c, joining, -, -, -, eq⟩ | ⟨k, body, entries, -, joining, -, -, -, eq⟩ <;>
      rw [eq]
    · exact law
    · exact law.markInstalled joining 0 rfl rfl rfl
    · exact law.markInstalled joining k rfl rfl rfl
  | enterReady cause => have ⟨a, n, eq⟩ := enterReady_eq cause s; rw [eq]; exact ⟨rfl, rfl⟩
  | enterListening cause => have ⟨a, n, eq⟩ := enterListening_eq cause s; rw [eq]; exact ⟨rfl, rfl⟩
  | enterJoining t u =>
    have ⟨a, n, eq⟩ := enterJoining_eq .timingAcquired { s with timing := some u }
    rw [eq]; exact (by decide : allChunks = allChunks &&& ~~~ (0 : ChunkSet))
  | enterFounding => have ⟨a, n, eq⟩ := enterFounding_eq s; rw [eq]; exact ⟨rfl, rfl⟩
  | completeFounding state =>
    have ⟨a, n, eq⟩ := completeFounding_eq s
    rw [eq]
    unfold ChunkLaw at law ⊢
    rw [state] at law
    exact law
  | enterCaughtUp => have ⟨a, n, eq⟩ := enterCaughtUp_eq s; rw [eq]; exact ⟨rfl, rfl⟩
  | enterDiverged => have ⟨a, n, eq⟩ := enterDiverged_eq s; rw [eq]; exact (by decide : allChunks = allChunks &&& ~~~ (0 : ChunkSet))
  | enterLeaving => have ⟨a, n, eq⟩ := enterLeaving_eq s; rw [eq]; exact (rfl : (0 : ChunkSet) = 0)
  | enterOrphanFounded group => have ⟨a, n, eq⟩ := enterOrphanFounded_eq group s; rw [eq]; exact ⟨rfl, rfl⟩
  | restartCatchUp state =>
    unfold ChunkLaw
    rw [show (Machine.restartCatchUp s).station = .joining from state]
    exact (by decide : allChunks = allChunks &&& ~~~ (0 : ChunkSet))
  | enterConfigured c state =>
    have ⟨a, n, eq⟩ := enterConfigured_eq c s
    rw [eq]
    unfold ChunkLaw at law ⊢
    rw [state] at law
    exact law
  | _ => exact law

/-! ## The line (R80, R112) -/

theorem LineLaw.of_same {s t : State} (law : LineLaw s) (ltxe : t.ltxe = s.ltxe) (ltx : t.ltx = s.ltx)
    (echo : t.echo = s.echo) (station : t.station = s.station) : LineLaw t := by
  unfold LineLaw participates
  rw [ltxe, ltx, echo, station]
  exact law

/-- Between two states that transmit, the line goes on. -/
theorem LineLaw.of_participates {s t : State} (law : LineLaw s) (ltxe : t.ltxe = s.ltxe) (ltx : t.ltx = s.ltx)
    (transmits : participates t = true) : LineLaw t := by
  refine ⟨fun off => ?_, fun _ => transmits⟩
  rw [ltx]
  exact law.1 (ltxe ▸ off)

/-- Where nothing is sent, the line is released. -/
theorem LineLaw.of_silent {t : State} (ltxe : t.ltxe = false) (ltx : t.ltx = true) (echo : t.echo = none) :
    LineLaw t := by
  refine ⟨fun _ => ltx, ?_⟩
  rintro (on | watches)
  · rw [ltxe] at on; cases on
  · exact absurd echo watches

theorem Move.keeps_lineLaw {s t : State} (move : Move s t) (law : LineLaw s) : LineLaw t := by
  cases move with
  | reset => exact .of_silent rfl rfl rfl
  | line tx rx reception echo ltxe ltx wait high low idle drive send =>
    obtain ⟨released, transmits⟩ := law
    refine ⟨fun off => idle ?_ off, ?_⟩
    · cases on : s.ltxe with
      | true => exact .inr rfl
      | false => exact .inl (released on)
    · rintro (on | watches)
      · exact transmits (drive on)
      · exact (send watches).elim (fun watched => transmits (.inr watched)) id
  | placeEvent e =>
    have only := placeEvent_only e s
    exact law.of_same only.ltxe only.ltx only.echo only.station
  | beginSlot =>
    obtain ⟨timing, eq⟩ := beginSlot_only s
    rw [eq]; exact law
  | arrive r b =>
    have only := applyArrive_only r b s
    exact law.of_same only.ltxe only.ltx only.echo only.station
  | remove r cause =>
    have only := remove_only r cause s
    exact law.of_same only.ltxe only.ltx only.echo only.station
  | installChunk f =>
    rcases installChunk_cases f s with eq | ⟨c, -, -, -, -, eq⟩ | ⟨k, body, entries, -, -, -, -, -, eq⟩ <;> rw [eq] <;>
      exact law
  | enterReady cause => obtain ⟨a, n, eq⟩ := enterReady_eq cause s; rw [eq]; exact .of_silent rfl rfl rfl
  | enterListening cause => obtain ⟨a, n, eq⟩ := enterListening_eq cause s; rw [eq]; exact .of_silent rfl rfl rfl
  | enterJoining t u =>
    obtain ⟨a, n, eq⟩ := enterJoining_eq .timingAcquired { s with timing := some u }
    rw [eq]; exact law.of_participates rfl rfl rfl
  | enterFounding => obtain ⟨a, n, eq⟩ := enterFounding_eq s; rw [eq]; exact law.of_participates rfl rfl rfl
  | completeFounding => obtain ⟨a, n, eq⟩ := completeFounding_eq s; rw [eq]; exact law.of_participates rfl rfl rfl
  | enterCaughtUp => obtain ⟨a, n, eq⟩ := enterCaughtUp_eq s; rw [eq]; exact law.of_participates rfl rfl rfl
  | enterDiverged => obtain ⟨a, n, eq⟩ := enterDiverged_eq s; rw [eq]; exact law.of_participates rfl rfl rfl
  | enterLeaving => obtain ⟨a, n, eq⟩ := enterLeaving_eq s; rw [eq]; exact law.of_participates rfl rfl rfl
  | enterOrphanFounded group =>
    obtain ⟨a, n, eq⟩ := enterOrphanFounded_eq group s; rw [eq]; exact law.of_participates rfl rfl rfl
  | enterConfigured c state =>
    obtain ⟨released, transmits⟩ := law
    have silent : ¬ (s.ltxe = true ∨ s.echo ≠ none) := fun sends => by
      have := transmits sends
      unfold participates at this
      rw [state] at this
      cases this
    rw [not_or, Bool.not_eq_true, not_not] at silent
    obtain ⟨a, n, eq⟩ := enterConfigured_eq c s
    rw [eq]
    exact .of_silent silent.1 (released silent.1) silent.2
  | _ => exact law

/-! ## Timing (R94) -/

theorem TimingLaw.of_same {s t : State} (law : TimingLaw s) (station : t.station = s.station)
    (timing : t.timing = s.timing) (config : t.config = s.config) : TimingLaw t := by
  obtain ⟨confirmed, tentative, none, slot⟩ := law
  refine ⟨?_, ?_, ?_, ?_⟩
  · unfold participates; rw [station, timing]; exact confirmed
  · rw [station, timing]; exact tentative
  · rw [station, timing]; exact none
  · unfold State.cfg; rw [timing, config]; exact slot

theorem TimingLaw.of_none {t : State} (timing : t.timing = Option.none) (listens : participates t = false) : TimingLaw t := by
  refine ⟨fun transmits => ?_, fun _ u eq => ?_, fun _ => timing, fun u eq => ?_⟩
  · rw [listens] at transmits; cases transmits
  · rw [timing] at eq; cases eq
  · rw [timing] at eq; cases eq

/-- R94: a state that transmits, with confirmed timing. -/
theorem TimingLaw.of_confirmed {t : State} {u : Timing} (transmits : participates t = true) (timing : t.timing = some u)
    (confirmed : u.confirmed = true) (slot : u.slot.val < t.cfg.roundSize) : TimingLaw t := by
  refine ⟨fun _ => ⟨u, timing, confirmed⟩, fun listening => ?_, fun quiet => ?_, fun v eq => ?_⟩
  · unfold participates at transmits; rw [listening] at transmits; cases transmits
  · unfold participates at transmits
    rcases quiet with quiet | quiet <;> rw [quiet] at transmits <;> cases transmits
  · rw [timing] at eq; cases eq; exact slot

/-- Another timing of the same status takes the place of one, with a slot below N. -/
theorem TimingLaw.setTiming {s : State} (law : TimingLaw s) {t u : Timing} (timing : s.timing = some t)
    (status : u.confirmed = t.confirmed) (slot : u.slot.val < s.cfg.roundSize) :
    TimingLaw { s with timing := some u } := by
  obtain ⟨confirmed, tentative, none, -⟩ := law
  refine ⟨fun transmits => ?_, fun listening v eq => ?_, fun quiet => ?_, fun v eq => ?_⟩
  · obtain ⟨v, eq, is⟩ := confirmed transmits
    rw [timing] at eq
    cases eq
    exact ⟨u, rfl, status.trans is⟩
  · cases eq
    exact status.trans (tentative listening t timing)
  · have gone := none quiet
    rw [timing] at gone
    cases gone
  · cases eq
    exact slot

/-- A transition from a state that transmits to another one keeps the timing. -/
theorem TimingLaw.of_transmits {s t : State} (law : TimingLaw s) (before : participates s = true)
    (after : participates t = true) (timing : t.timing = s.timing) (config : t.config = s.config) : TimingLaw t := by
  obtain ⟨u, some, confirmed⟩ := law.confirmed before
  refine .of_confirmed after (timing.trans some) confirmed ?_
  unfold State.cfg
  rw [config]
  exact law.slot u some

theorem ConfigLaw.roundSize {s : State} (law : ConfigLaw s) (configured : s.station ≠ .unconfigured) :
    2 ≤ s.cfg.roundSize ∧ s.cfg.roundSize ≤ 16 ∧ s.own.val < s.cfg.roundSize := by
  unfold ConfigLaw at law
  unfold State.own State.cfg
  split at law
  · exact absurd law configured
  · rename_i c config
    rw [config]
    obtain ⟨-, low, high, own, -⟩ := law
    exact ⟨low, high, own⟩

/-- R95: the slot after a slot below N lies below N. -/
theorem slotAfter_lt {slot : StationNo} {n : Nat} (pos : 0 < n) (most : n ≤ 16) : (slotAfter slot n).val < n := by
  unfold slotAfter
  split
  · rename_i below
    have : (slot + 1).val = slot.val + 1 := by
      rw [Fin.val_add_one_of_lt (Fin.lt_def.2 (by rw [Fin.val_last]; omega))]
    omega
  · exact pos

theorem Move.keeps_timingLaw {s t : State} (move : Move s t) (law : TimingLaw s) (config : ConfigLaw s) : TimingLaw t := by
  cases move with
  | reset => exact .of_none rfl rfl
  | sameSlot t u timing slot status => exact law.setTiming timing status (by rw [slot]; exact law.slot t timing)
  | placeEvent e =>
    have only := placeEvent_only e s
    exact law.of_same only.station only.timing only.config
  | beginSlot =>
    unfold Machine.beginSlot
    split
    · exact law
    · rename_i t timing
      have configured : s.station ≠ .unconfigured := fun state => by
        have := law.none (.inl state)
        rw [timing] at this
        cases this
      obtain ⟨low, high, -⟩ := config.roundSize configured
      exact law.setTiming timing rfl (slotAfter_lt (by omega) high)
  | tentative u state status slot =>
    refine ⟨fun transmits => ?_, fun _ v eq => ?_, fun quiet => ?_, fun v eq => ?_⟩
    · unfold participates at transmits; rw [state] at transmits; cases transmits
    · cases eq; exact status
    · rw [state] at quiet; rcases quiet with quiet | quiet <;> cases quiet
    · cases eq; exact slot
  | arrive r b =>
    have only := applyArrive_only r b s
    exact law.of_same only.station only.timing only.config
  | remove r cause =>
    have only := remove_only r cause s
    exact law.of_same only.station only.timing only.config
  | installChunk f =>
    rcases installChunk_cases f s with eq | ⟨c, -, -, -, -, eq⟩ | ⟨k, body, entries, -, -, -, -, -, eq⟩ <;> rw [eq]
    · exact law
    · exact law.of_same rfl rfl rfl
    · exact law.of_same rfl rfl rfl
  | enterReady cause => obtain ⟨a, n, eq⟩ := enterReady_eq cause s; rw [eq]; exact .of_none rfl rfl
  | enterListening cause => obtain ⟨a, n, eq⟩ := enterListening_eq cause s; rw [eq]; exact .of_none rfl rfl
  | enterJoining t u state timing slot status =>
    obtain ⟨a, n, eq⟩ := enterJoining_eq .timingAcquired { s with timing := some u }
    rw [eq]; exact .of_confirmed rfl rfl status (by rw [slot]; exact law.slot t timing)
  | enterFounding state =>
    obtain ⟨a, n, eq⟩ := enterFounding_eq s
    rw [eq]; exact .of_confirmed rfl rfl rfl (config.roundSize (by rw [state]; decide)).2.2
  | completeFounding state =>
    obtain ⟨a, n, eq⟩ := completeFounding_eq s
    rw [eq]; exact law.of_transmits (by unfold participates; rw [state]) rfl rfl rfl
  | enterCaughtUp state =>
    obtain ⟨a, n, eq⟩ := enterCaughtUp_eq s
    rw [eq]; exact law.of_transmits (by unfold participates; rw [state]) rfl rfl rfl
  | enterDiverged state =>
    obtain ⟨a, n, eq⟩ := enterDiverged_eq s
    rw [eq]; exact law.of_transmits (by unfold participates; rw [state]) rfl rfl rfl
  | enterLeaving state =>
    obtain ⟨a, n, eq⟩ := enterLeaving_eq s
    rw [eq]
    refine law.of_transmits ?_ rfl rfl rfl
    unfold participates
    rcases state with state | state | state <;> rw [state]
  | enterOrphanFounded group state =>
    obtain ⟨a, n, eq⟩ := enterOrphanFounded_eq group s
    rw [eq]; exact law.of_transmits (by unfold participates; rw [state]) rfl rfl rfl
  | enterConfigured c state =>
    obtain ⟨a, n, eq⟩ := enterConfigured_eq c s
    rw [eq]; exact .of_none (law.none (.inl state)) rfl
  | _ => exact law.of_same rfl rfl rfl

/-! ## All the laws -/

theorem Move.keeps_laws {s t : State} (move : Move s t) (laws : Laws s) : Laws t where
  lockTable := move.keeps_lockTableLaw laws
  barriers := move.keeps_barrierLaw laws
  replica := move.keeps_replicaLaw laws
  absence := move.keeps_absenceLaw laws
  chunks := move.keeps_chunkLaw laws.chunks
  records := (move.keeps_recordLaws ⟨laws.requestCount, laws.records⟩).2
  requestCount := (move.keeps_recordLaws ⟨laws.requestCount, laws.records⟩).1
  answers := move.keeps_answerQueueLaw laws.answers
  commands := move.keeps_commandQueueLaw laws.commands
  config := move.keeps_configLaw laws.config
  timing := move.keeps_timingLaw laws.timing laws.config
  line := move.keeps_lineLaw laws.line
  port := move.keeps_portLaw laws.port

theorem exec_keeps_laws {c : Instr} {s t : State} (next : exec c s = .next t) (laws : Laws s) : Laws t :=
  (exec_moves c s t next).keep (fun _ _ => Move.keeps_laws) laws

/-- The laws do not speak of the queue of commands and the counter of the free choices. -/
theorem Laws.of_queue {s : State} (laws : Laws s) (freeIndex : Nat) (pending : List Instr) :
    Laws { s with freeIndex := freeIndex, pending := pending } :=
  ⟨laws.lockTable, laws.barriers, laws.replica, laws.absence, laws.chunks, laws.records, laws.requestCount, laws.answers,
    laws.commands, laws.config, ⟨laws.timing.confirmed, laws.timing.tentative, laws.timing.none, laws.timing.slot⟩,
    laws.line, laws.port⟩

/-- A step is a command, on the queue's rest or after a free choice, or the passing of a bit time. -/
theorem step_cases {s t : State} (next : step s = .next t) :
    t = passBitTime s ∨ ∃ c freeIndex pending, exec c { s with freeIndex := freeIndex, pending := pending } = .next t := by
  unfold step at next
  split at next
  · exact .inr ⟨_, s.freeIndex, _, next⟩
  · unfold idleStep at next
    split at next
    · cases next; exact .inl rfl
    · exact .inr ⟨_, s.freeIndex, s.pending, next⟩
    · exact .inr ⟨_, s.freeIndex, s.pending, next⟩
    · exact .inr ⟨_, s.freeIndex + 1, s.pending, next⟩

/-- Every step keeps all the laws. -/
theorem step_keeps_laws {s t : State} (laws : Laws s) (next : step s = .next t) : Laws t := by
  rcases step_cases next with rfl | ⟨c, freeIndex, pending, next⟩
  · exact (passBitTime_moves s).keep (fun _ _ => Move.keeps_laws) laws
  · exact exec_keeps_laws next (laws.of_queue freeIndex pending)

/-- Settles O4: a hard reset of any lawful state would do; here each law is read off the reset values. -/
theorem resetMeetsTheLaws : Obligations.ResetMeetsTheLaws where
  lockTable := .of_free rfl
  barriers := .of_empty rfl
  replica := .of_empty rfl rfl rfl rfl
  absence := .of_discarded rfl
  chunks := ⟨rfl, rfl⟩
  records := (RecordLaws.of_discarded rfl rfl).2
  requestCount := (RecordLaws.of_discarded rfl rfl).1
  answers := ⟨Nat.zero_le 32, nofun, nofun⟩
  commands := ⟨Nat.zero_le 8, nofun, nofun⟩
  config := rfl
  timing := .of_none rfl rfl
  line := .of_silent rfl rfl rfl
  port := ⟨iff_of_true rfl rfl, Nat.zero_lt_succ 7⟩

/-- Settles O55: the lock table's law and the replica's law are among those that every step keeps. -/
theorem stepsKeepTheLockTableLaws : Obligations.StepsKeepTheLockTableLaws := fun _ _ laws next =>
  have after := step_keeps_laws laws next
  ⟨after.lockTable, after.replica⟩

/-- Settles O56: the barrier law and the absence law are among those that every step keeps. -/
theorem stepsKeepTheMembershipLaws : Obligations.StepsKeepTheMembershipLaws := fun _ _ laws next =>
  have after := step_keeps_laws laws next
  ⟨after.barriers, after.absence⟩

/-- Settles O57: the laws of the host's side are among those that every step keeps. -/
theorem stepsKeepTheHostSideLaws : Obligations.StepsKeepTheHostSideLaws := fun _ _ laws next =>
  have after := step_keeps_laws laws next
  ⟨after.answers, after.commands, after.port, after.requestCount, after.records⟩

/-- Settles O58: the laws of the station are among those that every step keeps. -/
theorem stepsKeepTheStationLaws : Obligations.StepsKeepTheStationLaws := fun _ _ laws next =>
  have after := step_keeps_laws laws next
  ⟨after.config, after.timing, after.chunks, after.line⟩

end Sys2Proof.Machine


/-! The command processor: checks 1 to 3 (R113, R160), the lifecycle commands (R116, R117, R121, R123), the commands on
requests (R57, R65, R66, R162 to R164) and the queries (R167, R168). -/

namespace Sys2Proof.Machine

/-! ## The queue of commands and the reset -/

/-- Settles O1: a step takes the command at the front of the queue. -/
theorem queuedCommandRuns : Obligations.QueuedCommandRuns := fun _ _ _ => rfl

/-- Settles O3: the reset values do not depend on the state. -/
theorem hardResetSetsEveryBlock : Obligations.HardResetSetsEveryBlock := fun _ => rfl

/-! ## Checks 1 to 3 -/

/-- What each command does with a record that has passed checks 1 to 3. -/
def actOf : CommandKind → CommandRecord → State → State
  | .configure => actConfigure
  | .start => actStart
  | .stop => actStop
  | .abandon => actAbandon
  | .acquire => actAcquire
  | .release => actRelease
  | .renew => actRenew
  | .arrive => actArrive
  | .status => actStatus
  | .queryLock => actQueryLock
  | .queryMembers => actQueryMembers

theorem exec_takerOf (kind : CommandKind) (s : State) :
    exec (takerOf kind) s = .next (takeCommand kind (actOf kind) s) := by
  cases kind <;> rfl

section
variable {kind : CommandKind} {r : CommandRecord} {rest : List CommandRecord} {s : State}

/-- A record taken in a state where its kind acts, on the state without the record. -/
theorem exec_of_takes (takes : Takes kind r rest s) (acts : actsIn kind s.station = true) :
    exec (takerOf kind) s = .next (actOf kind r (dequeue s)) := by
  rw [exec_takerOf, takeCommand_of_takes _ takes acts]

theorem refuse_dequeue (head : s.commands = r :: rest) (reason : RefusalReason) :
    refuse r reason (dequeue s) = s.answered rest (.refused r.tag r.kind reason) := placeReply_dequeue head _

theorem accept_dequeue (head : s.commands = r :: rest) :
    accept r (dequeue s) = s.answered rest (.accepted r.tag r.kind) := placeReply_dequeue head _

/-- R160: check 2. -/
theorem takeCommand_short (act : CommandRecord → State → State) (head : s.commands = r :: rest)
    (may : mayTake s = true) (kindIs : r.kind = kindByte kind) (short : r.params.length < countNeeded kind) :
    takeCommand kind act s = refuse r .shortRecord (dequeue s) := by
  simp only [takeCommand, head, may, kindIs, BEq.rfl, Bool.and_self, if_true, if_pos short]

/-- R113, R160: check 3. -/
theorem takeCommand_badState (act : CommandRecord → State → State) (head : s.commands = r :: rest)
    (may : mayTake s = true) (kindIs : r.kind = kindByte kind) (count : countNeeded kind ≤ r.params.length)
    (idle : actsIn kind s.station = false) : takeCommand kind act s = refuse r .badState (dequeue s) := by
  simp only [takeCommand, head, may, kindIs, BEq.rfl, Bool.and_self, if_true, if_neg (Nat.not_lt.2 count), idle,
    Bool.false_eq_true, if_false]

/-- R160: check 1. -/
theorem exec_unknownCommand (head : s.commands = r :: rest) (may : mayTake s = true) (unknown : readKind r.kind = none) :
    exec .unknownCommand s = .next (refuse r .unknownCommand (dequeue s)) := by
  show execUnknownCommand s = _
  simp only [execUnknownCommand, head, may, unknown, and_self, if_true]

end

theorem readKind_eq_none {b : Byte} (other : ∀ kind, b ≠ kindByte kind) : readKind b = none :=
  List.find?_eq_none.2 fun kind _ eq => other kind (beq_iff_eq.1 eq).symm

/-- Settles O11: the tables are read kind by kind; the checks are made in their order on any head record. -/
theorem firstThreeChecksRefuse : Obligations.FirstThreeChecksRefuse := by
  unfold Obligations.FirstThreeChecksRefuse
  intro code needs states s r rest head quiet room
  have may : mayTake s = true := by simp only [mayTake, decide_eq_true room, quiet, List.isEmpty_nil, Bool.and_self]
  have tables : ∀ kind, kindByte kind = code kind ∧ countNeeded kind = needs kind ∧
      ∀ state, actsIn kind state = decide (state ∈ states kind) := by
    intro kind
    cases kind <;> exact ⟨rfl, rfl, fun state => by cases state <;> rfl⟩
  refine ⟨fun unknown => ?_, fun kind => ⟨tables kind, fun kindIs => ?_⟩⟩
  · have unread := readKind_eq_none fun kind => (tables kind).1 ▸ unknown kind
    rw [exec_unknownCommand head may unread, refuse_dequeue head]
  · obtain ⟨codeIs, countIs, statesAre⟩ := tables kind
    rw [← codeIs] at kindIs
    rw [← countIs, exec_takerOf]
    refine ⟨fun short => ?_, fun count idle => ?_⟩
    · rw [takeCommand_short _ head may kindIs short, refuse_dequeue head]
    · rw [takeCommand_badState _ head may kindIs count ((statesAre _).trans (decide_eq_false idle)), refuse_dequeue head]

/-! ## CONFIGURE -/

theorem toNat_byteOf (n : Nat) : (byteOf n).toNat = n % 256 := BitVec.toNat_ofNat n 8

/-- R172: the event mask is four bits of its byte, the others at 0. -/
theorem highBits_eq_zero_iff (b : Byte) : (b &&& 0xF0#8 == 0) = decide (b.toNat < 16) := by
  revert b
  decide

/-- Table 7-1: a value outside its range makes the record unreadable. -/
theorem readConfig_eq_none {r : CommandRecord}
    (outside : (param r 1).toNat < 2 ∨ 16 < (param r 1).toNat ∨ (param r 1).toNat ≤ (param r 0).toNat
      ∨ paramWord r 2 < 1000 ∨ 8191 < paramWord r 2 ∨ paramWord r 4 < 4 ∨ 4095 < paramWord r 4
      ∨ (param r 6).toNat < 2 ∨ 8 < (param r 6).toNat ∨ (param r 7).toNat ∉ [1, 2, 4, 8] ∨ 16 ≤ (param r 8).toNat) :
    readConfig r = none := by
  refine if_neg fun inside => ?_
  simp only [Bool.and_eq_true, decide_eq_true_eq, List.contains_eq_mem, highBits_eq_zero_iff] at inside
  obtain ⟨⟨⟨⟨⟨⟨⟨⟨⟨⟨⟨-, _⟩, _⟩, _⟩, _⟩, _⟩, _⟩, _⟩, _⟩, _⟩, period⟩, _⟩ := inside
  simp only [period, not_true_eq_false, false_or] at outside
  omega

/-- The parameters of a CONFIGURE record (Table 12-3). -/
def configParams (c : StationConfig) : List Byte :=
  [byteOf c.number.val, byteOf c.roundSize, byteOf (c.slotLength % 256), byteOf (c.slotLength / 256),
    byteOf (c.divisor % 256), byteOf (c.divisor / 256), byteOf c.absenceLimit, byteOf c.leasePeriod,
    c.eventMask.setWidth 8]

/-- R177, R178: the record of a configuration in range reads back. -/
theorem readConfig_configParams {c : StationConfig} (range : c.inRange) (kind tag : Byte) (more : List Byte) :
    readConfig { kind := kind, tag := tag, params := configParams c ++ more } = some c := by
  obtain ⟨number, roundSize, slotLength, divisor, absenceLimit, leasePeriod, eventMask⟩ := c
  obtain ⟨_, _, _, _, _, _, _, _, _, period⟩ := range
  dsimp only at *
  have mask : (eventMask.setWidth 8).toNat = eventMask.toNat := by
    rw [BitVec.toNat_setWidth, Nat.mod_eq_of_lt (by omega)]
  have periods : leasePeriod % 256 ∈ [1, 2, 4, 8] := by
    rcases period with rfl | rfl | rfl | rfl <;> decide
  unfold readConfig paramWord param configParams
  simp only [List.cons_append, List.getD_cons_zero, List.getD_cons_succ, toNat_byteOf, highBits_eq_zero_iff, mask,
    List.contains_eq_mem, periods, decide_true, Bool.and_true, ← Bool.decide_and]
  rw [if_pos (decide_eq_true (by omega))]
  refine congrArg some ?_
  rw [StationConfig.mk.injEq]
  refine ⟨Fin.ext ?_, ?_, ?_, ?_, ?_, ?_, ?_⟩
  · show number.val % 256 % 16 = number.val
    omega
  · omega
  · omega
  · omega
  · omega
  · omega
  · rw [BitVec.setWidth_setWidth_of_le _ (by decide), BitVec.setWidth_eq]

theorem actConfigure_of_none {r : CommandRecord} (s : State) (unread : readConfig r = none) :
    actConfigure r s = refuse r .badConfig s := by
  unfold actConfigure
  generalize readConfig r = read at unread
  rw [unread]

theorem actConfigure_of_some {r : CommandRecord} {c : StationConfig} (s : State) (read : readConfig r = some c) :
    actConfigure r s = enterConfigured c (accept r s) := by
  unfold actConfigure
  generalize readConfig r = found at read
  rw [read]

theorem exec_configure_of_takes {s : State} {r : CommandRecord} {rest : List CommandRecord}
    (takes : Takes .configure r rest s) (state : s.station = .unconfigured) :
    exec .configure s = .next (actConfigure r (dequeue s)) :=
  exec_of_takes takes (by rw [state]; rfl)

/-- Settles O12: the record reads back as the configuration it was made of, or is unreadable. -/
theorem configureStoresOrRefuses : Obligations.ConfigureStoresOrRefuses := by
  unfold Obligations.ConfigureStoresOrRefuses
  intro s rest state
  refine ⟨?_, fun r takes => ?_⟩
  · intro c tag more range quiet room record head
    have takes : Takes .configure record rest s := ⟨head, rfl, Nat.le_add_left 9 more.length, room, quiet⟩
    have read : readConfig record = some c := readConfig_configParams range _ _ more
    rw [exec_configure_of_takes takes state, actConfigure_of_some _ read, accept_dequeue head]
    rfl
  · intro number roundSize slotLength divisor absenceLimit leasePeriod outside
    rw [exec_configure_of_takes takes state, actConfigure_of_none _ (readConfig_eq_none outside), refuse_dequeue takes.head]

/-! ## START, STOP and ABANDON -/

theorem lostEvents_answered (s : State) (rest : List CommandRecord) (a : Answer) :
    lostEvents (s.answered rest a) = lostEvents s := rfl

/-- Settles O13: a READY station has no records to lose. -/
theorem startBeginsToListen : Obligations.StartBeginsToListen := by
  intro s r rest takes state law
  have none : lostEvents s = [] := lostEvents_of_recordsLaw law (by rw [state]; decide) (by rw [state]; decide)
  rw [show exec .start s = _ from exec_of_takes takes (by rw [state]; rfl), actOf, actStart, accept_dequeue takes.head,
    enterListening_of_no_records _ ((lostEvents_answered s rest _).trans none)]

/-- Settles O14: from LISTENING no records are lost; from the other states they end LOST before the transition. -/
theorem stopEndsTheRecords : Obligations.StopEndsTheRecords := by
  intro s r rest takes
  have taken (acts : actsIn .stop s.station = true) : exec .stop s = .next (actStop r (dequeue s)) :=
    exec_of_takes takes acts
  refine ⟨fun state law => ?_, fun state => ?_⟩
  · have none : lostEvents s = [] := lostEvents_of_recordsLaw law (by rw [state]; decide) (by rw [state]; decide)
    rw [taken (by rw [state]; rfl), actStop, if_pos (show (dequeue s).station = .listening from state),
      accept_dequeue takes.head, enterReady_of_no_records _ ((lostEvents_answered s rest _).trans none)]
  · have acts : actsIn .stop s.station = true := by rcases state with h | h | h <;> rw [h] <;> rfl
    have other : (dequeue s).station ≠ .listening := by
      rcases state with h | h | h <;> rw [dequeue_station, h] <;> decide
    rw [taken acts, actStop, if_neg other, accept_dequeue takes.head, enterLeaving_events, lostEvents_answered]
    rfl

/-- Settles O15: the records end LOST before the transition to READY. -/
theorem abandonReturnsToReady : Obligations.AbandonReturnsToReady := by
  intro s r rest takes state
  have acts : actsIn .abandon s.station = true := by rcases state with h | h | h | h | h <;> rw [h] <;> rfl
  rw [show exec .abandon s = _ from exec_of_takes takes acts, actOf, actAbandon, accept_dequeue takes.head,
    enterReady_events, lostEvents_answered]

/-! ## Lock commands: checks 4 and 5 -/

theorem readLock_of_gt {b : Byte} (above : 63 < b.toNat) : readLock b = none := dif_neg (Nat.not_lt.2 above)

theorem readLock_eq_some {b : Byte} {lock : LockNo} (names : b.toNat = lock.val) : readLock b = some lock :=
  have below : b.toNat < 64 := names ▸ lock.isLt
  (dif_pos below).trans (congrArg some (Fin.ext names))

theorem withLock_badLock {r : CommandRecord} (act : LockNo → State → State) (s : State)
    (above : 63 < (param r 0).toNat) : withLock r act s = refuse r .badLock s := by
  rw [withLock, readLock_of_gt above]

theorem withLock_names {r : CommandRecord} {lock : LockNo} (act : LockNo → State → State) (s : State)
    (names : (param r 0).toNat = lock.val) : withLock r act s = act lock s := by
  rw [withLock, readLock_eq_some names]

theorem actsIn_acquire {state : StationState} (member : state = .joining ∨ state = .synced) :
    actsIn .acquire state = true := by
  rcases member with rfl | rfl <;> rfl

theorem actsIn_release {state : StationState} (member : state = .joining ∨ state = .synced) :
    actsIn .release state = true := by
  rcases member with rfl | rfl <;> rfl

section
variable {r : CommandRecord} {lock : LockNo} {q : Request} {s : State} (names : (param r 0).toNat = lock.val)
include names

theorem actAcquire_busy (request : s.requests[lock] = some q) : actAcquire r s = refuse r .busy s := by
  rw [actAcquire, withLock_names _ _ names, request, Option.isSome_some, if_pos rfl]

theorem actAcquire_tableFull (free : s.requests[lock] = none) (full : 16 ≤ requestCount s) :
    actAcquire r s = refuse r .tableFull s := by
  rw [actAcquire, withLock_names _ _ names, free, Option.isSome_none, if_neg Bool.false_ne_true, if_pos (show maxRequests ≤ _ from full)]

theorem actAcquire_accepted (free : s.requests[lock] = none) (room : requestCount s < 16) :
    actAcquire r s = addRequest lock r.tag ((param r 1).getLsbD 0) (param r 2).toNat (accept r s) := by
  rw [actAcquire, withLock_names _ _ names, free, Option.isSome_none, if_neg Bool.false_ne_true,
    if_neg (show ¬ maxRequests ≤ _ from Nat.not_le.2 room)]

theorem actRelease_notHolder (free : s.requests[lock] = none) : actRelease r s = refuse r .notHolder s := by
  simp only [actRelease, withLock_names _ _ names, free]

theorem actRelease_busy (request : s.requests[lock] = some q) (state : q.state = .releasing ∨ q.state = .expiring) :
    actRelease r s = refuse r .busy s := by
  rcases state with state | state <;> simp only [actRelease, withLock_names _ _ names, request, state]

theorem actRelease_accepted (request : s.requests[lock] = some q)
    (state : q.state = .pending ∨ q.state = .waiting ∨ q.state = .held) :
    actRelease r s = hostRelease lock (accept r s) := by
  rcases state with state | state | state <;> simp only [actRelease, withLock_names _ _ names, request, state]

theorem actRenew_notHolder (other : ∀ q, s.requests[lock] = some q → q.state ≠ .held) :
    actRenew r s = refuse r .notHolder s := by
  rw [actRenew, withLock_names _ _ names]
  cases request : s.requests[lock] with
  | none => rfl
  | some q => exact if_pos (other q request)

theorem actRenew_notLeased (request : s.requests[lock] = some q) (held : q.state = .held) (unleased : q.leased = false) :
    actRenew r s = refuse r .notLeased s := by
  simp only [actRenew, withLock_names _ _ names, request, held, unleased, ne_eq, not_true_eq_false, Bool.false_eq_true,
    if_false]

theorem actRenew_accepted (request : s.requests[lock] = some q) (held : q.state = .held) (leased : q.leased = true) :
    actRenew r s = hostRenew lock (accept r s) := by
  simp only [actRenew, withLock_names _ _ names, request, held, leased, ne_eq, not_true_eq_false, if_false, if_true]

end

/-- Settles O17: check 4 for each kind that names a lock; then check 5 of each command on a lock in range. -/
theorem lockCommandsAreRefused : Obligations.LockCommandsAreRefused := by
  intro s r rest
  refine ⟨fun kind lockKind takes acts above => ?_, fun lock names => ⟨fun takes member => ?_, fun takes member => ?_,
    fun takes state => ?_⟩⟩
  · have refused : actOf kind r (dequeue s) = refuse r .badLock (dequeue s) := by
      simp only [List.mem_cons, List.not_mem_nil, or_false] at lockKind
      rcases lockKind with rfl | rfl | rfl | rfl <;> dsimp only [actOf, actAcquire, actRelease, actRenew, actQueryLock]
        <;> rw [withLock_badLock _ _ above]
    rw [exec_of_takes takes acts, refused, refuse_dequeue takes.head]
  · rw [show exec .acquire s = _ from exec_of_takes takes (actsIn_acquire member), actOf]
    refine ⟨fun q request => ?_, fun free full => ?_⟩
    · rw [actAcquire_busy names (s := dequeue s) request, refuse_dequeue takes.head]
    · rw [actAcquire_tableFull names (s := dequeue s) free full, refuse_dequeue takes.head]
  · rw [show exec .release s = _ from exec_of_takes takes (actsIn_release member), actOf]
    refine ⟨fun free => ?_, fun q request state => ?_⟩
    · rw [actRelease_notHolder names (s := dequeue s) free, refuse_dequeue takes.head]
    · rw [actRelease_busy names (s := dequeue s) request state, refuse_dequeue takes.head]
  · rw [show exec .renew s = _ from exec_of_takes takes (by rw [state]; rfl), actOf]
    refine ⟨fun other => ?_, fun q request held unleased => ?_⟩
    · rw [actRenew_notHolder names (s := dequeue s) other, refuse_dequeue takes.head]
    · rw [actRenew_notLeased names (s := dequeue s) request held unleased, refuse_dequeue takes.head]

/-! ## Lock commands: their effects -/

/-- R57: a wait limit byte of 0 asks for no limit. -/
theorem waitRemaining_byte (b : Byte) : waitRemaining b.toNat = if b = 0 then none else some b.toNat := by
  simp only [waitRemaining, BitVec.toNat_eq, BitVec.ofNat_eq_ofNat, BitVec.toNat_ofNat, Nat.zero_mod]

/-- Settles O16: checks 4 and 5 pass, and the request and its intent are added after the reply. -/
theorem acquireAddsARequest : Obligations.AcquireAddsARequest := by
  intro s r rest lock takes member names free room
  rw [show exec .acquire s = _ from exec_of_takes takes (actsIn_acquire member), actOf,
    actAcquire_accepted names (s := dequeue s) free room, accept_dequeue takes.head, addRequest, waitRemaining_byte]
  rfl

section
variable {lock : LockNo} {q : Request} {i : Intent} {s : State} (request : s.requests[lock] = some q)
include request

theorem hostRelease_pending (pending : q.state = .pending) (quiet : ∀ i, lockIntent s lock = some i → i.inFlight = false) :
    hostRelease lock s = endRequest lock (.cancelled q.tag lock) s := by
  have idle : (lockIntent s lock).any Intent.inFlight = false := by
    cases intent : lockIntent s lock with
    | none => rfl
    | some i => exact quiet i intent
  simp only [hostRelease, request, pending, idle, Bool.false_eq_true, if_false]

/-- R65, R72: an intent in flight carries the RELEASE behind it. -/
theorem hostRelease_inFlight (state : q.state = .pending ∨ q.state = .held) (intent : lockIntent s lock = some i)
    (flying : i.inFlight = true) :
    hostRelease lock s = mapLockIntent lock giveTrailing (setRequest lock (some (q.withState .releasing)) s) := by
  rcases state with state | state <;>
    simp only [hostRelease, request, state, intent, Option.any_some, flying, if_true]

theorem hostRelease_queues (state : q.state = .waiting ∨ (q.state = .held ∧ lockIntent s lock = none)) :
    hostRelease lock s = queueIntent (.release lock) (setRequest lock (some (q.withState .releasing)) s) := by
  rcases state with state | ⟨state, none⟩
  · simp only [hostRelease, request, state]
  · simp only [hostRelease, request, state, none]

theorem hostRelease_replaces (held : q.state = .held) (intent : lockIntent s lock = some i)
    (quiet : i.inFlight = false) :
    hostRelease lock s = mapLockIntent lock (fun _ => newIntent (.release lock))
      (setRequest lock (some (q.withState .releasing)) s) := by
  simp only [hostRelease, request, held, intent, quiet, Bool.false_eq_true, if_false]

end

/-- Settles O18: Table 4-6, one equation of `hostRelease` for each of its rows. -/
theorem releaseActsByState : Obligations.ReleaseActsByState := by
  intro s r rest lock q takes member names request accepted releasing release own trailing
  have acted (state : q.state = .pending ∨ q.state = .waiting ∨ q.state = .held) :
      exec .release s = .next (hostRelease lock accepted) := by
    rw [show exec .release s = _ from exec_of_takes takes (actsIn_release member), actOf,
      actRelease_accepted names (s := dequeue s) request state, accept_dequeue takes.head]
  have present : accepted.requests[lock] = some q := request
  refine ⟨fun pending quiet => ?_, fun i state intent flying => ?_, fun state => ?_, fun i held intent quiet => ?_⟩
  · rw [acted (.inl pending), hostRelease_pending present pending quiet, endRequest_eq]
    rfl
  · rw [acted (state.elim .inl (.inr ∘ .inr)), hostRelease_inFlight present state intent flying]
    rfl
  · rw [acted (state.elim (.inr ∘ .inl) fun held => .inr (.inr held.1)), hostRelease_queues present state]
    rfl
  · rw [acted (.inr (.inr held)), hostRelease_replaces present held intent quiet]
    rfl

/-- Settles O19: an intent of the request is found in the outbox, or there is none. -/
theorem renewQueuesOrMerges : Obligations.RenewQueuesOrMerges := by
  intro s r rest lock q takes state names request held leased
  have acted : exec .renew s = .next (hostRenew lock (s.answered rest (.accepted r.tag r.kind))) := by
    rw [show exec .renew s = _ from exec_of_takes takes (by rw [state]; rfl), actOf,
      actRenew_accepted names (s := dequeue s) request held leased, accept_dequeue takes.head]
  have same : lockIntent (s.answered rest (.accepted r.tag r.kind)) lock = lockIntent s lock := rfl
  rw [acted, hostRenew, same]
  refine ⟨fun none => ?_, fun ⟨i, mem, refers⟩ => ?_⟩
  · have absent : lockIntent s lock = .none := List.find?_eq_none.2 fun i mem => Bool.eq_false_iff.1 (none i mem)
    rw [absent]
    rfl
  · have found : (lockIntent s lock).isSome = true := List.find?_isSome.2 ⟨i, mem, refers⟩
    obtain ⟨j, intent⟩ := Option.isSome_iff_exists.1 found
    rw [intent]

/-! ## Queries -/

theorem actsIn_query {state : StationState} (configured : state ≠ .unconfigured) :
    actsIn .queryLock state = true ∧ actsIn .queryMembers state = true := by
  cases state with
  | unconfigured => exact absurd rfl configured
  | ready | listening | founding | joining | synced | leaving => exact ⟨rfl, rfl⟩

/-- Settles O22: the replies are formed from the chunk that covers the lock, and from chunk 0. -/
theorem queriesReportTheReplica : Obligations.QueriesReportTheReplica := by
  intro s r rest configured
  obtain ⟨queryLock, queryMembers⟩ := actsIn_query configured
  have reply (takes : Takes .queryMembers r rest s) : exec .queryMembers s
      = .next (s.answered rest (.members r.tag (membershipHeld s) (if membershipHeld s then memberList s else []))) := by
    rw [show exec .queryMembers s = _ from exec_of_takes takes queryMembers, ← placeReply_dequeue takes.head]
    rfl
  refine ⟨fun lock takes names => ?_, fun takes held => ?_, fun takes held => ?_⟩
  · rw [show exec .queryLock s = _ from exec_of_takes takes queryLock, ← placeReply_dequeue takes.head, actOf,
      actQueryLock, withLock_names _ _ names]
    rfl
  · rw [reply takes, show membershipHeld s = true from held, if_pos rfl]
    rfl
  · rw [reply takes, show membershipHeld s = false from held, if_neg Bool.false_ne_true]

end Sys2Proof.Machine


/-! The host port: the bits of a byte over the rows they are given in, the code byte, the collection of a command record
and the clocking out of an answer record (R151 to R157); and the layouts of Tables 12-1 and 12-4 to 12-6. -/

namespace Sys2Proof.Machine

/-! ## Bits and bytes -/

theorem bitsOf_singleton (b : Byte) : bitsOf [b] = msbBits b := rfl

theorem bitsOf_cons (b : Byte) (bytes : List Byte) : bitsOf (b :: bytes) = msbBits b ++ bitsOf bytes := rfl

theorem bitsOf_append (a b : List Byte) : bitsOf (a ++ b) = bitsOf a ++ bitsOf b := List.flatMap_append

theorem bitsOf_zeros (n : Nat) : bitsOf (List.replicate n 0#8) = List.replicate (8 * n) false := by
  induction n with
  | zero => rfl
  | succ n ih =>
    rw [List.replicate_succ, bitsOf_cons, ih, show msbBits 0#8 = List.replicate 8 false by decide,
      List.replicate_append_replicate, show 8 + 8 * n = 8 * (n + 1) by omega]

/-- Eight bits are those of a byte. -/
theorem msbBits_byteOfBits (a b c d e f g h : Bool) :
    msbBits (byteOfBits [a, b, c, d, e, f, g, h]) = [a, b, c, d, e, f, g, h] := by
  revert a b c d e f g h
  decide

/-- R151: whole bytes are in the cycles when their number is a multiple of eight. -/
theorem exists_bitsOf (n : Nat) (bits : List Bool) (length : bits.length = 8 * n) :
    ∃ bytes : List Byte, bytes.length = n ∧ bits = bitsOf bytes := by
  induction n generalizing bits with
  | zero => exact ⟨[], rfl, List.length_eq_zero_iff.1 length⟩
  | succ n ih =>
    match bits, length with
    | a :: b :: c :: d :: e :: f :: g :: h :: bits, length =>
      obtain ⟨bytes, count, eq⟩ := ih bits (by simp only [List.length_cons] at length; omega)
      refine ⟨byteOfBits [a, b, c, d, e, f, g, h] :: bytes, congrArg (· + 1) count, ?_⟩
      rw [bitsOf_cons, msbBits_byteOfBits, eq]
      rfl

/-- The bits that complete a byte. -/
theorem clockBits_completes {rest : List Bool} {b : Byte} {s : State} (bits : s.shiftIn ++ rest = msbBits b)
    (more : rest ≠ []) (out : s.shiftOut.length = rest.length) : clockBits rest s =
      loadByte (byteComplete b { s with shiftIn := [], shiftOut := [], miso := s.miso ++ s.shiftOut }) := by
  obtain ⟨init, last, rfl⟩ := List.eq_nil_or_concat' rest |>.resolve_left more
  have whole : s.shiftIn.length + init.length + 1 = 8 := by
    have := congrArg List.length bits
    simpa [Nat.add_assoc] using this
  rw [List.length_append, List.length_singleton] at out
  obtain ⟨o, drop⟩ : ∃ o, s.shiftOut.drop init.length = [o] :=
    List.length_eq_one_iff.1 (by rw [List.length_drop]; omega)
  have taken : s.shiftOut.take init.length ++ [o] = s.shiftOut := by rw [← drop, List.take_append_drop]
  rw [clockBits_append, clockBits_short init s (by omega) (by omega)]
  show clockBit _ last = _
  unfold clockBit
  dsimp only
  rw [drop, List.append_assoc, bits, if_pos (by rw [msbBits_length]), byteOfBits_msbBits, List.append_assoc,
    List.headD_cons, taken]
  rfl

/-- R151, log 6: the code byte completes, whatever part of it has come in. -/
theorem clockCode_completes {room : Bool} {code : Byte} {k : Nat} {s : State} (port : s.port = .code room) (below : k < 8)
    (shiftIn : s.shiftIn = (msbBits code).take k) (shiftOut : s.shiftOut.length = 8 - k) : clockCode code s =
      loadByte (completeCode code { s with shiftIn := [], shiftOut := [], miso := s.miso ++ s.shiftOut }) := by
  have length : s.shiftIn.length = k := by rw [shiftIn, List.length_take, msbBits_length]; omega
  have isPrefix : s.shiftIn.isPrefixOf (msbBits code) = true :=
    List.isPrefixOf_iff_prefix.2 (shiftIn ▸ List.take_prefix k _)
  have left : ((msbBits code).drop k).length = 8 - k := by rw [List.length_drop, msbBits_length]
  unfold clockCode
  rw [port]
  dsimp only
  rw [if_pos isPrefix, length, clockBits_completes (b := code) (by rw [shiftIn, List.take_append_drop])
    (List.ne_nil_of_length_pos (by omega)) (shiftOut.trans left.symm)]
  simp only [byteComplete, port]

/-- Only a transaction whose code byte is not complete has one to complete. -/
theorem clockCode_of_begun {s : State} (begun : ∀ room, s.port ≠ .code room) (code : Byte) : clockCode code s = s := by
  unfold clockCode
  split
  · rename_i room port; exact absurd port (begun room)
  all_goals rfl

theorem transact_of_begun {phase : State → Bool} {s : State} (code : Byte) (mosi : List Bool)
    (begun : ∀ room, s.port ≠ .code room) (asserted : s.ssel = true) (inPhase : phase s = true) :
    transact code phase mosi s = clockBits mosi s := by
  simp only [transact, clockCode_of_begun begun, asserted, inPhase, Bool.and_self, if_true]

/-- A row that begins before the code byte is complete is one that begins after it. -/
theorem transact_completes {phase : State → Bool} {s t : State} (code : Byte) (mosi : List Bool)
    (completes : clockCode code s = t) (begun : ∀ room, t.port ≠ .code room) (asserted : s.ssel = true)
    (still : t.ssel = true) (inPhase : phase t = true) :
    transact code phase mosi s = transact code phase mosi t := by
  rw [transact_of_begun code mosi begun still inPhase]
  simp only [transact, completes, asserted, inPhase, Bool.and_self, if_true]

theorem loadByte_of_next {s : State} {o : Byte} (next : nextByteOut s = o) :
    loadByte s = { s with shiftOut := msbBits o } := by rw [loadByte, next]

theorem answerPhase_nil {s : State} (empty : s.answers = []) : answerPhase s = .answering [0x00#8] false := by
  simp only [answerPhase, empty]
  rfl

theorem answerPhase_cons {s : State} {a : Answer} {rest : List Answer} (head : s.answers = a :: rest) :
    answerPhase s = .answering (answerBytes a) true := by
  simp only [answerPhase, head]

theorem nextByteOut_answering {s : State} {bytes : List Byte} {removes : Bool} (port : s.port = .answering bytes removes) :
    nextByteOut s = bytes.headD 0#8 := by
  unfold nextByteOut
  rw [port]
  cases bytes <;> rfl

/-! ## The assertion -/

theorem completeCode_command {room : Bool} {s : State} (port : s.port = .code room) :
    completeCode 0x01#8 s = { s with port := if room then .collecting [] else .full } := by
  unfold completeCode
  rw [port]
  rfl

theorem completeCode_answer {room : Bool} {s : State} (port : s.port = .code room) :
    completeCode 0x02#8 s = { s with port := answerPhase s } := by
  unfold completeCode
  rw [port]
  rfl

theorem completeCode_peek {room : Bool} {s : State} (port : s.port = .code room) :
    completeCode 0x03#8 s = { s with port := .peeking, cut := false } := by
  unfold completeCode
  rw [port]
  rfl

theorem completeCode_other {room : Bool} {s : State} {code : Byte} (port : s.port = .code room)
    (command : code ≠ 0x01#8) (answer : code ≠ 0x02#8) (peek : code ≠ 0x03#8) :
    completeCode code s = { s with port := .ignored } := by
  unfold completeCode codeCommand codeAnswer codePeek
  rw [port]
  dsimp only
  rw [if_neg (show ¬ code = 1 from command), if_neg (show ¬ code = 2 from answer), if_neg (show ¬ code = 3 from peek)]

theorem exec_sselAssert_begins {s : State} (negated : s.ssel = false) (idle : s.port = .idle) (mosi : List Bool) :
    exec (.sselAssert mosi) s = .next (clockBits mosi (beginTransaction s)) := if_pos ⟨negated, idle⟩

theorem exec_sselAssert_goesOn {s : State} (asserted : s.ssel = true) (mosi : List Bool) :
    exec (.sselAssert mosi) s = .next (clockBits mosi s) :=
  (if_neg fun h => Bool.false_ne_true (h.1.symm.trans asserted)).trans (if_pos asserted)

theorem byteComplete_ssel (b : Byte) (s : State) : (byteComplete b s).ssel = s.ssel := by
  unfold byteComplete completeCode collectByte takeRecord byteSent removeAnswer
  split
  · split
    · split
      · rfl
      · split
        · rfl
        · split <;> rfl
    · rfl
  · split
    · dsimp only
      split
      · rfl
      · split
        · rfl
        · split
          · split <;> rfl
          · rfl
    · rfl
  · split
    · dsimp only
      split <;> rfl
    · rfl
  all_goals rfl

theorem clockBits_ssel (bits : List Bool) (s : State) : (clockBits bits s).ssel = s.ssel := by
  induction bits generalizing s with
  | nil => rfl
  | cons b bits ih =>
    refine (ih (clockBit s b)).trans ?_
    unfold clockBit
    dsimp only
    split
    · exact byteComplete_ssel _ _
    · rfl

/-- The code byte of a transaction that begins, in one row. -/
theorem exec_sselAssert_code {s : State} (negated : s.ssel = false) (idle : s.port = .idle) (code : Byte) :
    exec (.sselAssert (bitsOf [code])) s = .next (loadByte (completeCode code
      { beginTransaction s with shiftOut := [], miso := bitsOf [portStatus s] })) := by
  rw [exec_sselAssert_begins negated idle, bitsOf_singleton, clockByte code (portStatus s) _ rfl rfl]
  rfl

/-- Settles O5: the code byte completes as Table 10-1 has it; two rows are one by the append of their cycles. -/
theorem assertionBeginsATransaction : Obligations.AssertionBeginsATransaction := by
  intro s
  refine ⟨fun negated idle => ?_, fun bytes asserted phase shiftIn shiftOut => ?_, fun first later t begins run => ?_⟩
  · intro room status next
    have room_eq : (!commandQueueFull s) = room := by
      rw [Bool.eq_iff_iff, Bool.not_eq_true', commandQueueFull, decide_eq_false_iff_not, decide_eq_true_eq, Nat.not_le]
    have code (b : Byte) := exec_sselAssert_code negated idle b
    refine ⟨fun mosi short => ?_, ?_, fun empty => ?_, fun a rest head => ?_, ?_, fun b command answer peek => ?_⟩
    · rw [exec_sselAssert_begins negated idle, clockBits_short mosi _ (by rw [← Nat.zero_add mosi.length] at short; exact short)
        (by show mosi.length ≤ (msbBits _).length; rw [msbBits_length]; omega), ← room_eq]
      rfl
    · rw [code, completeCode_command rfl, room_eq, loadByte_of_next (o := 0#8) (by cases room <;> rfl)]
      rfl
    · rw [code, completeCode_answer rfl, answerPhase_nil (by exact empty)]
      rfl
    · rw [code, completeCode_answer rfl, answerPhase_cons (by exact head), loadByte_of_next (nextByteOut_answering rfl)]
      rfl
    · rw [code, completeCode_peek rfl]
      rfl
    · rw [code, completeCode_other rfl command answer peek]
      rfl
  · rw [exec_sselAssert_goesOn asserted, bitsOf_zeros]
    exact congrArg _ (clockBytes_idle bytes s shiftIn shiftOut (by rcases phase with h | h <;> simp [h]))
  · have goesOn {u : State} (asserted : u.ssel = true) (eq : clockBits first u = t) (b : List Bool) :
        exec (.sselAssert b) t = .next (clockBits (first ++ b) u) := by
      rw [clockBits_append, eq]
      exact exec_sselAssert_goesOn (by rw [← eq, clockBits_ssel, asserted]) b
    cases asserted : s.ssel with
    | true =>
      rw [exec_sselAssert_goesOn asserted] at run ⊢
      cases run
      exact goesOn asserted rfl later
    | false =>
      have idle := begins.resolve_left (by rw [asserted]; exact Bool.false_ne_true)
      rw [exec_sselAssert_begins asserted idle] at run ⊢
      cases run
      exact goesOn rfl rfl later

/-! ## COMMAND_TRANSACTION -/

/-- R153: the bytes of a record that is not yet whole, and whose count, if it has come in, is at most 15. -/
def RecordOpen (bytes : List Byte) : Prop :=
  bytes.length ≤ 2 ∨ ∃ kind tag count params, bytes = kind :: tag :: count :: params ∧ count.toNat ≤ 15
    ∧ params.length < count.toNat

theorem RecordOpen.of_append {a b : List Byte} (isOpen : RecordOpen (a ++ b)) : RecordOpen a := by
  rcases isOpen with short | ⟨kind, tag, count, params, eq, low, few⟩
  · exact .inl (le_trans (by rw [List.length_append]; omega) short)
  · match a with
    | [] | [_] | [_, _] => exact .inl (by simp)
    | x :: y :: z :: rest =>
      simp only [List.cons_append, List.cons.injEq] at eq
      obtain ⟨rfl, rfl, rfl, rfl⟩ := eq
      rw [List.length_append] at few
      exact .inr ⟨x, y, z, rest, rfl, low, by omega⟩

section
variable {s : State} {bytes : List Byte} {b : Byte} (port : s.port = .collecting bytes)
include port

theorem collectByte_open (isOpen : RecordOpen (bytes ++ [b])) :
    collectByte s b = { s with port := .collecting (bytes ++ [b]) } := by
  unfold collectByte
  rw [port]
  dsimp only
  generalize bytes ++ [b] = all at isOpen ⊢
  rcases isOpen with short | ⟨kind, tag, count, params, rfl, low, few⟩
  · rw [List.getElem?_eq_none short]
  · simp only [List.getElem?_cons_succ, List.getElem?_cons_zero, List.length_cons]
    rw [if_neg (show ¬ count.toNat > maxParams from Nat.not_lt.2 low), if_neg (by omega)]

theorem collectByte_badCount {kind tag count : Byte} {more : List Byte} (all : bytes ++ [b] = kind :: tag :: count :: more)
    (high : 15 < count.toNat) : collectByte s b = { s with port := .badCount } := by
  unfold collectByte
  rw [port]
  dsimp only
  rw [all]
  exact if_pos high

theorem collectByte_whole {kind tag : Byte} {params : List Byte} (few : params.length ≤ 15)
    (all : bytes ++ [b] = kind :: tag :: byteOf params.length :: params) : collectByte s b =
      { s with commands := s.commands ++ [{ kind := kind, tag := tag, params := params }], port := .taken } := by
  have count : (byteOf params.length).toNat = params.length := by rw [toNat_byteOf, Nat.mod_eq_of_lt (by omega)]
  unfold collectByte
  rw [port]
  dsimp only
  rw [all]
  simp only [List.getElem?_cons_succ, List.getElem?_cons_zero, List.length_cons, count]
  rw [if_neg (show ¬ params.length > maxParams from Nat.not_lt.2 few), if_pos (by omega)]
  rfl

end

/-- A byte of a COMMAND transaction, at a byte's boundary. -/
theorem clockByte_collecting {s : State} {bytes : List Byte} (b : Byte) (port : s.port = .collecting bytes)
    (shiftIn : s.shiftIn = []) (shiftOut : s.shiftOut = msbBits 0#8) :
    clockBits (msbBits b) s = loadByte (collectByte { s with shiftOut := [], miso := s.miso ++ msbBits 0#8 } b) := by
  rw [clockByte b 0#8 s shiftIn shiftOut]
  simp only [byteComplete, port]

/-- R153: bytes of a record that is not yet whole are held. -/
theorem clockBits_collecting {s : State} (earlier later : List Byte) (port : s.port = .collecting earlier)
    (shiftIn : s.shiftIn = []) (shiftOut : s.shiftOut = msbBits 0#8) (isOpen : RecordOpen (earlier ++ later)) :
    clockBits (bitsOf later) s = { s with
      port := .collecting (earlier ++ later), miso := s.miso ++ bitsOf (List.replicate later.length 0#8) } := by
  induction later generalizing earlier s with
  | nil =>
    rw [List.append_nil, ← port]
    show s = { s with miso := s.miso ++ [] }
    rw [List.append_nil]
  | cons b later ih =>
    rw [List.append_cons] at isOpen
    rw [bitsOf_cons, clockBits_append, clockByte_collecting b port shiftIn shiftOut,
      collectByte_open (b := b) (bytes := earlier) (by exact port) isOpen.of_append,
      ih (earlier ++ [b]) rfl (by exact shiftIn) rfl isOpen, List.length_cons, List.replicate_succ, bitsOf_cons,
      ← List.append_cons, ← List.append_assoc s.miso]
    show _ = { s with shiftOut := s.shiftOut, port := _, miso := _ }
    rw [shiftOut]
    rfl

theorem exec_commandTransaction_of_begun {s : State} (mosi : List Bool) (asserted : s.ssel = true)
    (begun : inCommandPhase s = true) : exec (.commandTransaction mosi) s = .next (clockBits mosi s) := by
  refine congrArg Host.Outcome.next (transact_of_begun _ _ (fun room port => ?_) asserted begun)
  unfold inCommandPhase at begun
  rw [port] at begun
  cases begun

/-- Settles O7: the bytes up to the last are held, the last one completes the record, and 00h goes out behind it. -/
theorem commandRecordIsTakenWhole : Obligations.CommandRecordIsTakenWhole := by
  intro s asserted
  refine ⟨fun room k mosi port below shiftIn shiftOut => ?_, fun kind tag params earlier later more port shiftIn shiftOut few
    record nonempty => ?_⟩
  · refine congrArg Host.Outcome.next (transact_completes _ _ ?_ (fun r => ?_) asserted asserted ?_)
    · rw [clockCode_completes (code := codeCommand) port below shiftIn shiftOut, codeCommand,
        show completeCode 1 _ = _ from completeCode_command (by exact port)]
      cases room <;> rfl
    · cases room <;> exact PortPhase.noConfusion
    · cases room <;> rfl
  · obtain ⟨init, last, rfl⟩ := List.eq_nil_or_concat' later |>.resolve_left nonempty
    have all : (earlier ++ init) ++ [last] = kind :: tag :: byteOf params.length :: params :=
      (List.append_assoc ..).trans record
    have isOpen : RecordOpen (earlier ++ init) := by
      have count : (byteOf params.length).toNat = params.length := by rw [toNat_byteOf, Nat.mod_eq_of_lt (by omega)]
      generalize earlier ++ init = held at all
      match held with
      | [] | [_] | [_, _] => exact .inl (by simp)
      | x :: y :: z :: rest =>
        have length := congrArg List.length all
        simp only [List.length_append, List.length_cons, List.length_nil] at length
        simp only [List.cons_append, List.cons.injEq] at all
        obtain ⟨-, -, rfl, -⟩ := all
        exact .inr ⟨x, y, _, rest, rfl, by omega, by omega⟩
    rw [exec_commandTransaction_of_begun _ asserted (by unfold inCommandPhase; rw [port]), bitsOf_append, bitsOf_append,
      clockBits_append, clockBits_append, clockBits_collecting earlier init port shiftIn shiftOut isOpen, bitsOf_singleton,
      clockByte_collecting last rfl (by exact shiftIn) (by exact shiftOut),
      collectByte_whole (bytes := earlier ++ init) rfl few all]
    refine congrArg Host.Outcome.next ((clockBytes_idle more _ (by exact shiftIn) rfl (.inr (.inr (.inl rfl)))).trans ?_)
    rw [loadByte_of_next (o := 0#8) rfl]
    simp only [bitsOf_zeros, List.append_assoc, List.replicate_append_replicate, List.length_append,
      List.length_singleton, show msbBits 0#8 = List.replicate 8 false by decide, shiftOut, bitsOf_singleton, Nat.mul_add, Nat.mul_one]

/-- Settles O8: a record not yet whole, a count above 15, and the phases in which bytes are ignored. -/
theorem noRecordIsTakenInPart : Obligations.NoRecordIsTakenInPart := by
  intro s asserted shiftIn shiftOut
  refine ⟨fun kind tag count earlier later port header ⟨more, record⟩ high => ?_, fun earlier later port isOpen => ?_,
    fun bytes phase => ?_⟩
  · obtain ⟨init, rest, rfl, heading⟩ : ∃ init rest, later = init ++ count :: rest ∧ earlier ++ init = [kind, tag] := by
      match earlier, header with
      | [], _ => exact ⟨[kind, tag], more, record, rfl⟩
      | [x], _ =>
        simp only [List.cons_append, List.nil_append, List.cons.injEq] at record
        exact ⟨[tag], more, record.2, by rw [record.1]; rfl⟩
      | [x, y], _ =>
        simp only [List.cons_append, List.nil_append, List.cons.injEq] at record
        exact ⟨[], more, record.2.2, by rw [record.1, record.2.1]; rfl⟩
    have isOpen : RecordOpen (earlier ++ init) := .inl (by rw [heading]; exact Nat.le_refl 2)
    rw [exec_commandTransaction_of_begun _ asserted (by unfold inCommandPhase; rw [port]), bitsOf_append, bitsOf_cons,
      clockBits_append, clockBits_append, clockBits_collecting earlier init port shiftIn shiftOut isOpen,
      clockByte_collecting count rfl (by exact shiftIn) (by exact shiftOut),
      collectByte_badCount (bytes := earlier ++ init) rfl (more := []) (by rw [heading]; rfl) high]
    refine congrArg Host.Outcome.next ((clockBytes_idle rest _ (by exact shiftIn) rfl (.inr (.inl rfl))).trans ?_)
    rw [loadByte_of_next (o := 0#8) rfl]
    simp only [bitsOf_zeros, List.append_assoc, List.replicate_append_replicate, List.length_append,
      List.length_cons, show msbBits 0#8 = List.replicate 8 false by decide, shiftOut, bitsOf_singleton, Nat.mul_add,
      Nat.add_comm rest.length, Nat.add_assoc]
  · rw [exec_commandTransaction_of_begun _ asserted (by unfold inCommandPhase; rw [port]),
      clockBits_collecting earlier later port shiftIn shiftOut isOpen]
  · have begun : inCommandPhase s = true := by unfold inCommandPhase; rcases phase with h | h | h <;> rw [h]
    rw [exec_commandTransaction_of_begun _ asserted begun, bitsOf_zeros]
    exact congrArg _ (clockBytes_idle bytes s shiftIn shiftOut (by rcases phase with h | h | h <;> simp [h]))

/-- Settles O9: the phase alone says whether the negation cuts. -/
theorem negationEndsTheTransaction : Obligations.NegationEndsTheTransaction := by
  intro s asserted ended
  have negated : exec .sselNegated s = .next (endTransaction s) := if_pos asserted
  refine ⟨fun phase => ?_, fun collecting badCount => ?_⟩
  · have cuts : cutsOnNegation s.port = true := by
      rcases phase with ⟨bytes, h⟩ | h <;> rw [h] <;> rfl
    have cut : exec .cut s = .next (endTransaction s) := if_pos ⟨asserted, cuts⟩
    rw [cut, negated, endTransaction, cuts, Bool.or_true]
    exact ⟨rfl, rfl⟩
  · have leaves : cutsOnNegation s.port = false := by
      cases port : s.port with
      | collecting bytes => exact absurd port (collecting bytes)
      | badCount => exact absurd port badCount
      | idle | awaitNegation | code | taken | full | answering | peeking | ignored => rfl
    rw [negated, endTransaction, leaves, Bool.or_false]

/-! ## ANSWER_TRANSACTION and PEEK -/

section
variable {s : State} {removes : Bool}

/-- R156: a byte goes out that is not the last one. -/
theorem clockByte_answering {o next : Byte} {rest : List Byte} (b : Byte) (port : s.port = .answering (o :: next :: rest) removes)
    (shiftIn : s.shiftIn = []) (shiftOut : s.shiftOut = msbBits o) : clockBits (msbBits b) s = { s with
      port := .answering (next :: rest) removes, shiftOut := msbBits next, miso := s.miso ++ msbBits o } := by
  rw [clockByte b o s shiftIn shiftOut]
  simp only [byteComplete, byteSent, port, List.isEmpty_cons, Bool.not_false, Bool.and_true, Bool.and_false,
    Bool.false_eq_true, if_false, loadByte, nextByteOut]

/-- R156: the last byte goes out, and the record with it. -/
theorem clockByte_lastAnswering {o : Byte} (b : Byte) (port : s.port = .answering [o] removes)
    (shiftIn : s.shiftIn = []) (shiftOut : s.shiftOut = msbBits o) : clockBits (msbBits b) s = { s with
      port := .answering [] false, answers := if removes then s.answers.tail else s.answers
      shiftOut := msbBits 0#8, miso := s.miso ++ msbBits o } := by
  rw [clockByte b o s shiftIn shiftOut]
  simp only [byteComplete, byteSent, port, List.isEmpty_nil, Bool.not_true, Bool.and_true, Bool.and_false, loadByte,
    nextByteOut]
  cases removes <;> rfl

/-- R156: 00h follows what there was to send. -/
theorem clockBits_answered (bytes : List Byte) (port : s.port = .answering [] removes) (shiftIn : s.shiftIn = [])
    (shiftOut : s.shiftOut = msbBits 0#8) :
    clockBits (bitsOf bytes) s = { s with miso := s.miso ++ bitsOf (List.replicate bytes.length 0#8) } := by
  induction bytes generalizing s with
  | nil =>
    show s = { s with miso := s.miso ++ [] }
    rw [List.append_nil]
  | cons b bytes ih =>
    have once : clockBits (msbBits b) s = { s with miso := s.miso ++ msbBits 0#8 } := by
      rw [clockByte b 0#8 s shiftIn shiftOut]
      simp only [byteComplete, byteSent, port, loadByte, nextByteOut]
      rw [show msbBits 0 = s.shiftOut from shiftOut.symm, shiftOut]
    rw [bitsOf_cons, clockBits_append, once, ih (by exact port) (by exact shiftIn) (by exact shiftOut), List.length_cons,
      List.replicate_succ, bitsOf_cons, List.append_assoc]

/-- R156: bytes go out one after another, up to one that is not the last. -/
theorem clockBits_answering (bytes out : List Byte) (port : s.port = .answering out removes) (shiftIn : s.shiftIn = [])
    (shiftOut : s.shiftOut = msbBits (out.headD 0#8)) (few : bytes.length < out.length) :
    clockBits (bitsOf bytes) s = { s with
      port := .answering (out.drop bytes.length) removes
      shiftOut := msbBits ((out.drop bytes.length).headD 0#8)
      miso := s.miso ++ bitsOf (out.take bytes.length) } := by
  induction bytes generalizing s out with
  | nil =>
    rw [List.length_nil, List.drop_zero, List.take_zero, ← port, ← shiftOut]
    show s = { s with miso := s.miso ++ [] }
    rw [List.append_nil]
  | cons b bytes ih =>
    match out, few with
    | o :: next :: rest, few =>
      rw [bitsOf_cons, clockBits_append, clockByte_answering b port shiftIn shiftOut,
        ih (next :: rest) rfl (by exact shiftIn) rfl (Nat.lt_of_succ_lt_succ few), List.length_cons, List.drop_succ_cons,
        List.take_succ_cons, bitsOf_cons, List.append_assoc]

/-- R156: the whole record goes out and leaves the queue, and 00h follows. -/
theorem clockBits_answersWhole (bytes out : List Byte) (port : s.port = .answering out removes) (shiftIn : s.shiftIn = [])
    (shiftOut : s.shiftOut = msbBits (out.headD 0#8)) (nonempty : out ≠ []) (many : out.length ≤ bytes.length) :
    clockBits (bitsOf bytes) s = { s with
      port := .answering [] false
      answers := if removes then s.answers.tail else s.answers
      shiftOut := msbBits 0#8
      miso := s.miso ++ bitsOf (out ++ List.replicate (bytes.length - out.length) 0#8) } := by
  obtain ⟨init, last, rfl⟩ := List.eq_nil_or_concat' out |>.resolve_left nonempty
  rw [List.length_append, List.length_singleton] at many
  obtain ⟨before, b, after, rfl, length⟩ : ∃ before b after, bytes = before ++ b :: after ∧ before.length = init.length := by
    have below : init.length < bytes.length := by omega
    exact ⟨bytes.take init.length, bytes[init.length], bytes.drop (init.length + 1),
      by rw [List.getElem_cons_drop, List.take_append_drop], by rw [List.length_take]; omega⟩
  rw [bitsOf_append, bitsOf_cons, clockBits_append, clockBits_append,
    clockBits_answering before _ port shiftIn shiftOut (by rw [length, List.length_append]; exact Nat.lt_succ_self _),
    length, List.drop_left, List.take_left,
    clockByte_lastAnswering b rfl (by exact shiftIn) rfl,
    clockBits_answered after rfl (by exact shiftIn) rfl]
  simp only [List.length_append, List.length_cons, List.length_nil, length, bitsOf_append, bitsOf_singleton,
    List.append_assoc, Nat.zero_add]
  rw [show init.length + (after.length + 1) - (init.length + 1) = after.length by omega]

end

theorem exec_answerTransaction_of_begun {s : State} {bytes : List Byte} {removes : Bool} (mosi : List Bool)
    (asserted : s.ssel = true) (port : s.port = .answering bytes removes) :
    exec (.answerTransaction mosi) s = .next (clockBits mosi s) := by
  refine congrArg Host.Outcome.next (transact_of_begun _ _ (fun room code => ?_) asserted ?_)
  · rw [port] at code
    cases code
  · unfold inAnswerPhase
    rw [port]

/-- Settles O10: the code byte completes; then the bytes go out up to the last, with it, or behind it. -/
theorem answerIsClockedOutAndPeekClearsTheCut : Obligations.AnswerIsClockedOutAndPeekClearsTheCut := by
  intro s asserted
  refine ⟨fun room k port below shiftOut => ⟨fun shiftIn => ?_, fun shiftIn mosi => ?_⟩,
    fun bytes removes mosi port shiftIn shiftOut => ?_⟩
  · have run : exec .peek s = .next (clockCode codePeek s) := if_pos asserted
    rw [run, clockCode_completes (code := codePeek) port below shiftIn shiftOut, codePeek,
      show completeCode 3 _ = _ from completeCode_peek (by exact port)]
    rfl
  · have completes := clockCode_completes port below shiftIn shiftOut
    rw [completeCode_answer (by exact port)] at completes
    have row {t : State} (eq : clockCode codeAnswer s = t) (rest : List Byte) (removes : Bool)
        (phase : t.port = .answering rest removes) (still : t.ssel = true) :
        exec (.answerTransaction mosi) s = exec (.answerTransaction mosi) t := by
      refine congrArg Host.Outcome.next (transact_completes _ _ eq (fun room code => ?_) asserted still ?_)
      · rw [phase] at code
        cases code
      · unfold inAnswerPhase
        rw [phase]
    refine ⟨fun empty => ?_, fun a rest head => ?_⟩
    · refine row (completes.trans ?_) [0] false rfl asserted
      rw [answerPhase_nil (by exact empty)]
      rfl
    · refine row (completes.trans ?_) (answerBytes a) true rfl asserted
      rw [answerPhase_cons (by exact head), loadByte_of_next (nextByteOut_answering rfl)]
      rfl
  · rw [exec_answerTransaction_of_begun mosi asserted port]
    refine ⟨fun short => ?_, fun n length => ?_⟩
    · rw [clockBits_short mosi s (by rw [shiftIn, List.length_nil]; omega)
        (by rw [shiftOut, bitsOf_singleton, msbBits_length]; omega), shiftIn, List.nil_append]
    · obtain ⟨sent, rfl, rfl⟩ := exists_bitsOf n mosi length
      refine ⟨fun few => ?_, fun nonempty many => ?_, fun empty => ?_⟩
      · rw [clockBits_answering sent bytes port shiftIn shiftOut few]
        rfl
      · rw [clockBits_answersWhole sent bytes port shiftIn shiftOut nonempty many]
        rfl
      · rw [empty] at port shiftOut
        rw [clockBits_answered sent port shiftIn shiftOut]

/-! ## Layouts -/

theorem lsbFirst_eq (w : Word16) : lsbFirst w = [byteOf (w.toNat % 256), byteOf (w.toNat / 256)] := by
  have low : lowByte w = byteOf (w.toNat % 256) := by
    apply BitVec.eq_of_toNat_eq
    rw [toNat_byteOf, lowByte, BitVec.toNat_setWidth]
    omega
  have high : highByte w = byteOf (w.toNat / 256) := by
    apply BitVec.eq_of_toNat_eq
    rw [toNat_byteOf, highByte, BitVec.toNat_setWidth, BitVec.toNat_ushiftRight, Nat.shiftRight_eq_div_pow]
  rw [lsbFirst, low, high]

theorem chunkSetBytes_eq (set : ChunkSet) : chunkSetBytes set = [byteOf (set.toNat % 256), byteOf (set.toNat / 256)] := by
  have fits : set.toNat % 2 ^ 16 = set.toNat := Nat.mod_eq_of_lt (by omega)
  rw [chunkSetBytes, lsbFirst_eq, BitVec.toNat_setWidth, fits]

theorem leaseByte_some (level : BitVec 3) : leaseByte (some level) = byteOf (128 + level.toNat) := by
  revert level
  decide

theorem waiterByte_eq (w : Waiter) : waiterByte w = byteOf (w.station.val + if w.leased then 128 else 0) := by
  obtain ⟨station, leased⟩ := w
  revert station leased
  decide

theorem memberByte_eq {m : StationNo × Member} (low : m.2.absence < 8) :
    memberByte m = byteOf (m.1.val + (if m.2.joining then 16 else 0) + 32 * m.2.absence) := by
  obtain ⟨station, joining, absence⟩ := m
  have table : ∀ (station : StationNo) (joining : Bool) (absence : Fin 8),
      memberByte (station, ⟨joining, absence.val⟩)
        = byteOf (station.val + (if joining then 16 else 0) + 32 * absence.val) := by decide
  exact table station joining ⟨absence, low⟩

theorem portStatusByte_bits (state : StationState) (waiting full cut : Bool) :
    (portStatusByte state waiting full cut).extractLsb' 0 4 = (byteOf (stateCode state)).setWidth 4
      ∧ (portStatusByte state waiting full cut).getLsbD 4 = waiting
      ∧ (portStatusByte state waiting full cut).getLsbD 5 = full
      ∧ (portStatusByte state waiting full cut).getLsbD 6 = cut
      ∧ (portStatusByte state waiting full cut).getLsbD 7 = false := by
  cases state <;> revert waiting full cut <;> decide

/-- Settles O6: the status byte bit by bit, and each record from its kind and its fields. -/
theorem portStatusAndAnswerRecordLayouts : Obligations.PortStatusAndAnswerRecordLayouts := by
  unfold Obligations.PortStatusAndAnswerRecordLayouts
  intro state reason cause leave number lease waiter lock
  have states (st : StationState) : byteOf (stateCode st) = state st := by cases st <;> rfl
  have reasons (r : RefusalReason) : byteOf (reasonCode r) = reason r := by cases r <;> rfl
  have causes (c : StateCause) : byteOf (stateCauseCode c) = cause c := by cases c <;> rfl
  have leaves (c : LeaveCause) : byteOf (leaveCauseCode c) = leave c := by cases c <;> rfl
  have leases (level : Option (BitVec 3)) : leaseByte level = lease level := by
    cases level with
    | none => rfl
    | some level => exact leaseByte_some level
  refine ⟨msbBits_eq, fun s => ⟨?attn, ?_⟩, fun _ _ => rfl, fun tag kind r => ?refused, fun tag c => ?status,
    fun tag l => ⟨rfl, rfl, fun holder level waiters => ?lockInfo⟩, fun tag held list low => ?members,
    fun tag l => ⟨rfl, fun _ => rfl, rfl, rfl, rfl, rfl, rfl, rfl⟩, fun tag b generation => ⟨rfl, rfl⟩,
    fun r => ⟨rfl, rfl, fun c => ?memberLeft, rfl⟩, fun r c => ?state, fun count => rfl⟩
  case attn =>
    cases answers : s.answers <;> simp [State.attn, answers]
  case refused => rw [answerBytes, answerRecord, reasons]; rfl
  case status =>
    have fits : c.notices.toNat % 2 ^ 16 = c.notices.toNat := Nat.mod_eq_of_lt (by omega)
    rw [answerBytes, answerRecord, states, lsbFirst_eq, lsbFirst_eq, chunkSetBytes_eq, BitVec.toNat_setWidth, fits]
    rfl
  case lockInfo =>
    rw [answerBytes, answerRecord, lockFormBytes, leases, show waiterByte = waiter from funext waiterByte_eq]
    simp only [List.length_cons, List.length_map, List.cons_append, List.nil_append]
    rw [show waiters.length + 1 + 1 + 1 + 1 + 1 + 1 + 2 = 8 + waiters.length by omega]
    rfl
  case members =>
    rw [answerBytes, answerRecord, List.map_congr_left fun m mem => memberByte_eq (low m mem)]
    simp only [List.length_cons, List.length_map, List.cons_append, List.nil_append]
    rw [show list.length + 1 + 1 + 1 + 2 = 5 + list.length by omega]
    rfl
  case memberLeft => rw [answerBytes, eventBytes, answerRecord, leaves]; rfl
  case state => rw [answerBytes, eventBytes, answerRecord, states, causes]; rfl
  · rw [← states]
    obtain ⟨low, waiting, full, cut, high⟩ := portStatusByte_bits s.station s.attn (commandQueueFull s) s.cut
    exact ⟨low, waiting, full, cut, high⟩

end Sys2Proof.Machine


/-! The passing of a bit time (R79, R80, R83, R87, R95, R103), and the own slot start: the verdict, the items the outbox
supplies, the donor's chunk, and the frame of Table 5-3 (R74, R80, R81, R95, R108, R130 to R132, R142, R143, R148). -/

namespace Sys2Proof.Machine

/-! ## A step on an empty queue -/

theorem step_of_no_command {s : State} (empty : s.pending = []) : step s = idleStep s := by
  unfold step
  rw [empty]

theorem idleStep_of_none {s : State} (host : hostDue s = none) (part : partDue s = none) :
    idleStep s = .next (passBitTime s) := by
  unfold idleStep
  rw [host, part]

theorem idleStep_of_part {s : State} {c : Instr} (host : hostDue s = none) (part : partDue s = some c) :
    idleStep s = exec c s := by
  unfold idleStep
  rw [host, part]

theorem hostDue_of_no_record {s : State} (empty : s.commands = []) : hostDue s = none := by
  unfold hostDue
  rw [empty]

theorem partDue_of_no_work {s : State} (none : s.work = []) : partDue s = lineDue s := by
  unfold partDue workDue
  rw [none]
  rfl

/-! ## A bit time -/

/-- R78, R80: what a bit time brings to the sender. -/
theorem sendBit_eq (phase : Nat) (s : State) : sendBit phase s = { s with
    txBuffer := if 16 + 10 * s.txBuffer.length ≤ phase then [] else s.txBuffer
    ltx := !s.ltxe || decide (phase < 16) || (lineBits s.txBuffer).getD (phase - 16) true } := by
  have buffer : (if (!s.txBuffer.isEmpty && decide (frameLead + 10 * s.txBuffer.length ≤ phase)) = true then []
      else s.txBuffer) = if 16 + 10 * s.txBuffer.length ≤ phase then [] else s.txBuffer := by
    cases s.txBuffer with
    | nil => simp
    | cons b rest =>
      rw [List.isEmpty_cons, Bool.not_false, Bool.true_and]
      by_cases whole : 16 + 10 * (b :: rest).length ≤ phase
      · rw [if_pos whole, if_pos (decide_eq_true (show frameLead + 10 * (b :: rest).length ≤ phase from whole))]
      · rw [if_neg whole,
          if_neg fun sent : decide (frameLead + 10 * (b :: rest).length ≤ phase) = true => whole (of_decide_eq_true sent)]
  have level : (if s.ltxe = true then ltxLevel s.txBuffer phase else true)
      = (!s.ltxe || decide (phase < 16) || (lineBits s.txBuffer).getD (phase - 16) true) := by
    cases s.ltxe with
    | false => rfl
    | true => by_cases lead : phase < 16 <;> simp [ltxLevel, frameLead, lead]
  simp only [sendBit, buffer, level]

/-- R87: the comparator takes a sample in the bit times of the frame's characters. -/
theorem sample_eq (level : Bool) (e : EchoComparator) (timing : Option Timing) :
    (timing.map (EchoComparator.sample level e)).getD e = { e with samples :=
      if (timing.any fun t => decide (16 ≤ t.phase ∧ t.phase < 16 + 10 * (frameBytes e.frame).length))
      then e.samples ++ [level] else e.samples } := by
  cases timing with
  | none => rfl
  | some t =>
    simp only [Option.map_some, Option.getD_some, Option.any_some, decide_eq_true_eq]
    unfold EchoComparator.sample frameEnd echoLength frameLead
    split <;> rfl

/-- The receiver does not look at the echo comparator. -/
theorem receiveBit_of_echo (level : Bool) (s : State) (echo : Option EchoComparator) :
    receiveBit level { s with echo := echo } = { receiveBit level s with echo := echo } := by
  unfold receiveBit
  dsimp only
  split
  · rfl
  · split
    · rfl
    · split <;> rfl

/-- R79 to R103: the passing of a bit time, the receiver's part first. -/
theorem passBitTime_eq (s : State) {received : State} (eq : receiveBit (decide (s.lrxLow = 0)) s = received)
    (same : received.txBuffer = s.txBuffer ∧ received.ltxe = s.ltxe) : passBitTime s = { received with
      timing := s.timing.map fun t => { t with phase := t.phase + 1 }
      silence := if s.station = .listening then s.silence + 1 else s.silence
      lrxLow := s.lrxLow - 1
      echo := s.echo.map fun e => { e with samples :=
        if (s.timing.any fun t => decide (16 ≤ t.phase ∧ t.phase < 16 + 10 * (frameBytes e.frame).length))
        then e.samples ++ [decide (s.lrxLow = 0)] else e.samples }
      txBuffer := if 16 + 10 * s.txBuffer.length ≤ (match s.timing with | none => 0 | some t => t.phase + 1) then []
        else s.txBuffer
      ltx := !s.ltxe || decide ((match s.timing with | none => 0 | some t => t.phase + 1) < 16)
        || (lineBits s.txBuffer).getD ((match s.timing with | none => 0 | some t => t.phase + 1) - 16) true } := by
  have phase : ((s.timing.map fun t => { t with phase := t.phase + 1 }).map Timing.phase).getD 0
      = match s.timing with | none => 0 | some t => t.phase + 1 := by
    cases s.timing <;> rfl
  unfold passBitTime
  dsimp only
  rw [phase, sendBit_eq, show (s.lrxLow == 0) = decide (s.lrxLow = 0) from rfl, watchEcho, receiveBit_of_echo, eq,
    same.1, same.2, funext fun e => sample_eq (decide (s.lrxLow = 0)) e s.timing]

section
variable {level : Bool} {s : State} {rx : Reception}

theorem receiveBit_of_none (none : s.reception = none) :
    receiveBit level s = { s with lineHigh := if level then min (s.lineHigh + 1) 4 else 0 } := by
  simp only [receiveBit, none, countHigh, idleBits]

theorem receiveBit_between (reception : s.reception = some rx) (between : rx.samples = none) :
    receiveBit level s = { s with
      reception := some { rx with age := rx.age + 1 }, lineHigh := if level then min (s.lineHigh + 1) 4 else 0 } := by
  simp only [receiveBit, reception, between, countHigh, idleBits]

theorem receiveBit_within {taken : List Bool} (reception : s.reception = some rx) (within : rx.samples = some taken)
    (few : taken.length < 9) : receiveBit level s = { s with
      reception := some { rx with age := rx.age + 1, samples := some (taken ++ [level]) } } := by
  simp only [receiveBit, reception, within, if_pos few]

/-- R79: ten samples make a character of the last nine. -/
theorem charOfSamples_eq {samples : List Bool} {c : RxChar}
    (spells : ∀ i : Fin 9, c.getLsbD i.val = samples.getD (i.val + 1) false) : charOfSamples samples = c :=
  set_ext fun i => by rw [charOfSamples, inSet_setOf, inSet, spells]

theorem receiveBit_last {taken : List Bool} {c : RxChar} (reception : s.reception = some rx)
    (within : rx.samples = some taken) (nine : taken.length = 9)
    (spells : ∀ i : Fin 9, c.getLsbD i.val = (taken ++ [level]).getD (i.val + 1) false) : receiveBit level s = { s with
      reception := some { rx with age := rx.age + 1, samples := none }
      rxBuffer := if rx.excess then s.rxBuffer else s.rxBuffer ++ [c]
      lineHigh := 0
      lineWait := if level then 0 else 1 } := by
  have stop : (if rxFramingError c then 1 else 0) = if level then 0 else 1 := by
    have last : c.getLsbD 8 = level := by
      refine (spells 8).trans ?_
      show (taken ++ [level]).getD 9 false = level
      rw [← nine]
      simp
    unfold rxFramingError
    rw [last]
    cases level <;> rfl
  simp only [receiveBit, reception, within, nine, Nat.lt_irrefl, if_false, keepCharacter, charOfSamples_eq spells, stop]

end

/-- Settles O2: with nothing due a bit time passes, in one of the receiver's four situations. -/
theorem idleStepPassesABitTime : Obligations.IdleStepPassesABitTime := by
  intro s empty host part level phase passed high
  rw [step_of_no_command empty, idleStep_of_none host part]
  refine ⟨fun none => ?_, fun rx reception => ⟨fun between => ?_, fun taken within few => ?_,
    fun taken c within nine spells => ?_⟩⟩
  · exact congrArg Host.Outcome.next (passBitTime_eq s (receiveBit_of_none none) ⟨rfl, rfl⟩)
  · exact congrArg Host.Outcome.next (passBitTime_eq s (receiveBit_between reception between) ⟨rfl, rfl⟩)
  · exact congrArg Host.Outcome.next (passBitTime_eq s (receiveBit_within reception within few) ⟨rfl, rfl⟩)
  · exact congrArg Host.Outcome.next (passBitTime_eq s (receiveBit_last reception within nine spells) ⟨rfl, rfl⟩)

/-! ## The outbox at the own slot start (R74) -/

/-- The intents that are taken depend on the requests alone. -/
theorem takeIntents_of_requests {s t : State} (requests : t.requests = s.requests) (l : List Intent) (room : Nat) :
    takeIntents t l room = takeIntents s l room := by
  have held : requestHeld t = requestHeld s := by unfold requestHeld; rw [requests]
  have leased : requestLeased t = requestLeased s := by unfold requestLeased; rw [requests]
  induction l generalizing room with
  | nil => rfl
  | cons i rest ih =>
    have asTaken : i.asTaken t = i.asTaken s := by unfold Intent.asTaken; rw [held]
    have items (j : Intent) : j.items t = j.items s := by unfold Intent.items; rw [held, leased]
    simp only [takeIntents, asTaken, items, ih]

/-- R74: whole intents from the head, as many as fit. -/
theorem takeIntents_spec (s : State) (l : List Intent) (room : Nat) : ∃ taken left, l = taken ++ left
    ∧ takeIntents s l room = (taken.map (fun i => (i.asTaken s).taken) ++ left,
      taken.flatMap fun i => (i.asTaken s).items s)
    ∧ (taken.flatMap fun i => (i.asTaken s).items s).length ≤ room
    ∧ ∀ i rest, left = i :: rest →
      room < (taken.flatMap fun i => (i.asTaken s).items s).length + ((i.asTaken s).items s).length := by
  induction l generalizing room with
  | nil => exact ⟨[], [], rfl, rfl, Nat.zero_le _, nofun⟩
  | cons i rest ih =>
    by_cases fits : ((i.asTaken s).items s).length ≤ room
    · obtain ⟨taken, left, rfl, eq, few, next⟩ := ih (room - ((i.asTaken s).items s).length)
      refine ⟨i :: taken, left, rfl, ?_, ?_, fun j more eq => ?_⟩
      · simp only [takeIntents, if_pos fits, eq, List.map_cons, List.flatMap_cons, List.cons_append]
      · rw [List.flatMap_cons, List.length_append]
        omega
      · have := next j more eq
        rw [List.flatMap_cons, List.length_append]
        omega
    · refine ⟨[], i :: rest, rfl, ?_, Nat.zero_le _, fun j more eq => ?_⟩
      · simp only [takeIntents, if_neg fits, List.map_nil, List.flatMap_nil, List.nil_append]
      · cases eq
        simpa using fits

/-- Settles O26: Table 4-8 for one intent of each kind; the list of them is taken from its head. -/
theorem outboxSuppliesIntentsFromItsHead : Obligations.OutboxSuppliesIntentsFromItsHead := by
  intro s held leased trail items inFlight asTaken
  have table (i : Intent) : (i.asTaken s).taken = asTaken i ∧ (i.asTaken s).items s = items i := by
    obtain ⟨kind, flying, trailing⟩ := i
    cases kind with
    | acquire lock => cases trailing <;> exact ⟨rfl, rfl⟩
    | release lock => cases trailing <;> exact ⟨rfl, rfl⟩
    | arrive barrier => cases trailing <;> exact ⟨rfl, rfl⟩
    | leave => cases trailing <;> exact ⟨rfl, rfl⟩
    | renew lock =>
      have same : requestHeld s lock = held lock := rfl
      cases is : held lock <;> cases trailing <;>
        simp [Intent.asTaken, Intent.taken, Intent.items, asTaken, items, inFlight, trail, same, is]
  have takens : (fun i => (i.asTaken s).taken) = asTaken := funext fun i => (table i).1
  have produced : (fun i => (i.asTaken s).items s) = items := funext fun i => (table i).2
  obtain ⟨taken, left, split, eq, few, next⟩ := takeIntents_spec s s.outbox 6
  rw [takens, produced] at eq
  rw [produced] at few next
  exact ⟨taken, left, split, eq, few, fun i rest head => (table i).2 ▸ next i rest head⟩

/-! ## The donor and its chunk (R130, R132) -/

/-- R130: the lowest unmarked member, in FOUNDING and SYNCED. -/
theorem isDonor_iff {s : State} (station : s.station = .founding ∨ s.station = .synced) : isDonor s = true ↔
    (∃ m, s.members[s.cfg.number] = some m ∧ m.joining = false)
      ∧ ∀ r : StationNo, r < s.cfg.number → ¬ ∃ m, s.members[r] = some m ∧ m.joining = false := by
  have state : (s.station = .founding || s.station = .synced : Bool) = true := by
    rcases station with h | h <;> rw [h] <;> rfl
  unfold isDonor
  rw [state, Bool.true_and, Bool.and_eq_true, isUnmarked_iff, List.all_eq_true]
  refine and_congr_right fun _ => ⟨fun lowest r below unmarked => ?_, fun lowest r _ => ?_⟩
  · have := lowest r (List.mem_finRange r)
    rw [(isUnmarked_iff s r).2 unmarked, decide_eq_true (show r < s.own from below)] at this
    cases this
  · cases unmarked : isUnmarked s r with
    | false => rw [Bool.and_false]; rfl
    | true => rw [decide_eq_false fun below : r < s.own => lowest r below ((isUnmarked_iff s r).1 unmarked)]; rfl

/-- What a search in an ascending list finds is the first that meets the test. -/
theorem find?_first {n : Nat} {p : Fin n → Bool} {l : List (Fin n)} (sorted : l.Pairwise (· < ·)) {k : Fin n}
    (found : l.find? p = some k) : p k = true ∧ k ∈ l ∧ ∀ j ∈ l, j < k → p j = false := by
  obtain ⟨holds, before, after, rfl, fails⟩ := List.find?_eq_some_iff_append.1 found
  refine ⟨holds, by simp, fun j mem below => ?_⟩
  rcases List.mem_append.1 mem with early | late
  · simpa using fails j early
  · obtain ⟨-, ordered, -⟩ := List.pairwise_append.1 sorted
    rcases List.mem_cons.1 late with rfl | behind
    · exact absurd below (lt_irrefl j)
    · exact absurd ((List.pairwise_cons.1 ordered).1 j behind) (not_lt_of_gt below)

theorem lowestChunk_zero : lowestChunk 0 = none := by decide

theorem exists_lowestChunk {set : ChunkSet} (nonempty : set ≠ 0) : ∃ k : ChunkNo, lowestChunk set = some k
    ∧ set.getLsbD k.val = true ∧ ∀ j : ChunkNo, j < k → set.getLsbD j.val = false := by
  have some_chunk : (lowestChunk set).isSome = true := by
    rw [lowestChunk, List.find?_isSome]
    by_contra absent
    refine nonempty (set_ext fun i => ?_)
    rw [inSet_zero]
    exact Bool.eq_false_iff.2 fun named => absent ⟨i, List.mem_finRange i, named⟩
  obtain ⟨k, found⟩ := Option.isSome_iff_exists.1 some_chunk
  obtain ⟨holds, -, first⟩ := find?_first (List.pairwise_lt_finRange 9) found
  exact ⟨k, found, holds, fun j below => first j (List.mem_finRange j) below⟩

/-- R130, R132: the chunk the own frame carries. -/
theorem chooseChunk_eq {s : State} (station : s.station = .founding ∨ s.station = .synced) {chunk : Option ChunkPart}
    (none : ¬ ((∃ m, s.members[s.cfg.number] = some m ∧ m.joining = false)
        ∧ ∀ r : StationNo, r < s.cfg.number → ¬ ∃ m, s.members[r] = some m ∧ m.joining = false) ∨ s.gathered = 0 →
      chunk = none)
    (lowest : ∀ k : ChunkNo, ((∃ m, s.members[s.cfg.number] = some m ∧ m.joining = false)
        ∧ ∀ r : StationNo, r < s.cfg.number → ¬ ∃ m, s.members[r] = some m ∧ m.joining = false) →
      s.gathered.getLsbD k.val = true → (∀ j : ChunkNo, j < k → s.gathered.getLsbD j.val = false) →
      chunk = some { number := k, body := chunkBody k s }) : chooseChunk s = chunk := by
  rw [← isDonor_iff station] at none lowest
  unfold chooseChunk
  split
  · rename_i donor
    by_cases empty : s.gathered = 0
    · rw [none (.inr empty), empty, lowestChunk_zero]
      rfl
    · obtain ⟨k, found, named, first⟩ := exists_lowestChunk empty
      rw [lowest k donor named first, found]
      rfl
  · rename_i other
    exact (none (.inl other)).symm

theorem chooseChunk_of_other {s : State} (founding : s.station ≠ .founding) (synced : s.station ≠ .synced) :
    chooseChunk s = none := by
  unfold chooseChunk isDonor
  simp [founding, synced]

/-! ## The own slot start, part by part -/

section
variable {s : State} {t : Timing}

theorem exec_ownSlotStart (quiet : s.work = []) (timing : s.timing = some t) (due : t.ownStartDue = true)
    (transmits : participates s = true) : exec .ownSlotStart s = .next (beginOwnSlot t s) := by
  have isDue : ownSlotStartDue s = true := by
    unfold ownSlotStartDue
    rw [quiet, transmits, timing]
    exact due
  show execOwnSlotStart s = _
  unfold execOwnSlotStart
  rw [if_pos isDue, timing]

theorem foundingStep_of_other (other : s.station ≠ .founding) : foundingStep s = s := if_neg other

theorem giveVerdict_agreed (agreed : s.mismatchCount ≤ s.matchCount) : giveVerdict s = resetTally s := by
  unfold giveVerdict
  dsimp only
  rw [if_neg]
  rintro ⟨diverged, -⟩
  have := of_decide_eq_true diverged
  omega

theorem giveVerdict_of_other (other : s.station ≠ .synced) : giveVerdict s = resetTally s := by
  unfold giveVerdict
  dsimp only
  rw [if_neg]
  rintro ⟨-, synced⟩
  exact other synced

theorem giveVerdict_diverged (diverged : s.matchCount < s.mismatchCount) (synced : s.station = .synced) :
    giveVerdict s = enterDiverged (resetTally s) := by
  unfold giveVerdict
  dsimp only
  rw [if_pos ⟨decide_eq_true diverged, synced⟩]

/-- R126, R145: a DIVERGED verdict starts the tally again of itself. -/
theorem enterDiverged_resetTally (s : State) : enterDiverged (resetTally s) = enterDiverged s := by
  rw [enterDiverged_events, enterDiverged_events, show lostEvents (resetTally s) = lostEvents s from rfl,
    placeEvents_of_same (s := s) (t := resetTally s) _ ⟨rfl, rfl, rfl⟩]
  have events := placeEvents_only (lostEvents s) s
  generalize placeEvents (lostEvents s) s = u at events ⊢
  rw [events]
  rfl

theorem supplyItems_synced (station : s.station = .synced ∨ s.station = .leaving) :
    supplyItems s = ({ s with outbox := (takeIntents s s.outbox 6).1 }, (takeIntents s s.outbox 6).2) := by
  unfold supplyItems
  rcases station with h | h <;> rw [h] <;> rfl

theorem supplyItems_of_other (synced : s.station ≠ .synced) (leaving : s.station ≠ .leaving) : supplyItems s = (s, []) := by
  unfold supplyItems
  cases station : s.station with
  | synced => exact absurd station synced
  | leaving => exact absurd station leaving
  | unconfigured | ready | listening | founding | joining => rfl

/-- R95: the own slot start from the state the verdict leaves, with what the outbox and the donor supply. -/
theorem beginOwnSlot_eq {v : State} {outbox : List Intent} {items : List Item} {chunk : Option ChunkPart}
    (verdict : giveVerdict (foundingStep s) = v) (supply : supplyItems v = ({ v with outbox := outbox }, items))
    (choose : chooseChunk v = chunk) : beginOwnSlot t s =
      startTransmission (buildFrame chunk items v) t { emptyGathered v with outbox := outbox } := by
  have same : chooseChunk { v with outbox := outbox } = chooseChunk v := rfl
  have gathered : emptyGathered { v with outbox := outbox } = { emptyGathered v with outbox := outbox } := by
    unfold emptyGathered
    dsimp only
    split <;> rfl
  unfold beginOwnSlot
  dsimp only
  rw [verdict, supply]
  dsimp only
  rw [same, choose, gathered]
  rfl

theorem emptyGathered_of_gathers {v : State} (station : v.station = .founding ∨ v.station = .synced) :
    emptyGathered v = { v with gathered := 0 } := if_pos station

theorem emptyGathered_of_other {v : State} (founding : v.station ≠ .founding) (synced : v.station ≠ .synced) :
    emptyGathered v = v := if_neg (not_or.2 ⟨founding, synced⟩)

/-- R81: a joiner's frame. -/
theorem beginOwnSlot_joining {v : State} (verdict : giveVerdict (foundingStep s) = v) (joining : v.station = .joining) :
    beginOwnSlot t s = startTransmission
      { station := v.own, join := true, round := roundCounter v, digest := none, want := some v.wanted, chunk := none
        items := [] } t v := by
  rw [beginOwnSlot_eq (outbox := v.outbox) (items := []) (chunk := none) verdict
    (supplyItems_of_other (by rw [joining]; decide) (by rw [joining]; decide))
    (chooseChunk_of_other (by rw [joining]; decide) (by rw [joining]; decide))]
  have frame : buildFrame none [] v =
      { station := v.own, join := true, round := roundCounter v, digest := none, want := some v.wanted, chunk := none
        items := [] } := by
    unfold buildFrame
    simp [joining]
  rw [frame, emptyGathered_of_other (by rw [joining]; decide) (by rw [joining]; decide)]

/-- R81: the frame of a station in another state, with its digest. -/
theorem buildFrame_digest {v : State} (other : v.station ≠ .joining) (chunk : Option ChunkPart) (items : List Item) :
    buildFrame chunk items v =
      { station := v.own, join := decide (v.station = .leaving) && v.leavingFromJoining, round := roundCounter v
        digest := some (replicaDigest v), want := none, chunk := chunk, items := items } := by
  unfold buildFrame
  simp [other]

end

theorem roundCounter_of_some {s : State} {t : Timing} (timing : s.timing = some t) : roundCounter s = t.round := by
  rw [roundCounter, timing]
  rfl

/-! ## The canonical encoding (R143) -/

theorem lsbFirst_presentOf {members : Vector (Option Member) 16} {present : StationSet}
    (names : ∀ r : StationNo, present.getLsbD r.val = (members[r]).isSome) : presentOf members = present :=
  set_ext fun i => by rw [presentOf, inSet_setOf, inSet, names]

theorem markedOf_eq {members : Vector (Option Member) 16} {marks : StationSet}
    (names : ∀ r : StationNo, marks.getLsbD r.val = (members[r]).any fun m => m.joining) : markedOf members = marks :=
  set_ext fun i => by
    rw [markedOf, inSet_setOf, inSet, names]
    cases members[i] <;> rfl

/-- Settles O23: with the verdict AGREED each part of the own slot start reads the replica as it stands. -/
theorem ownSlotStartInSyncedSendsAFrame : Obligations.OwnSlotStartInSyncedSendsAFrame := by
  intro s t present marks chunk synced quiet timing due agreed presents marked encoding unmarked donor absent lowest taken f
  have encodes : canonicalEncoding s.members s.barriers s.locks = encoding := by
    rw [canonicalEncoding, membershipBytes, lsbFirst_presentOf presents, markedOf_eq marked]
    rfl
  have verdict : giveVerdict (foundingStep s) = resetTally s := by
    rw [foundingStep_of_other (by rw [synced]; decide), giveVerdict_agreed agreed]
  have supply : supplyItems (resetTally s) = ({ resetTally s with outbox := taken.1 }, taken.2) := by
    rw [supplyItems_synced (s := resetTally s) (.inl synced), takeIntents_of_requests (s := s) (t := resetTally s) rfl]
    rfl
  have choose : chooseChunk (resetTally s) = chunk := chooseChunk_eq (s := resetTally s) (.inr synced) absent lowest
  have digest : replicaDigest (resetTally s) = crc16 encoding := congrArg crc16 encodes
  have round : roundCounter (resetTally s) = t.round := roundCounter_of_some timing
  have other : (resetTally s).station ≠ .joining := by rw [resetTally_station, synced]; decide
  have staying : decide ((resetTally s).station = .leaving) = false := by rw [resetTally_station, synced]; rfl
  refine ⟨encodes, ?_⟩
  rw [exec_ownSlotStart quiet timing due (by unfold participates; rw [synced]), beginOwnSlot_eq verdict supply choose,
    buildFrame_digest other, digest, round, staying, Bool.false_and, emptyGathered_of_gathers (v := resetTally s) (.inr synced)]
  rfl

/-- Settles O24: the verdict leads to JOINING, and the frame is a joiner's. -/
theorem ownSlotStartFindsDivergence : Obligations.OwnSlotStartFindsDivergence := by
  intro s t synced quiet timing due diverged f
  have verdict : giveVerdict (foundingStep s) = enterDiverged s := by
    rw [foundingStep_of_other (by rw [synced]; decide), giveVerdict_diverged diverged synced, enterDiverged_resetTally]
  have run := exec_ownSlotStart quiet timing due (by unfold participates; rw [synced])
  have events := placeEvents_only (lostEvents s) s
  rw [enterDiverged_events] at verdict
  generalize placeEvents (lostEvents s) s = u at events verdict ⊢
  have only := placeEvent_only (.state .joining .diverged)
    { ((u.withoutRecords).withoutReplica).withChunks 0 allChunks with station := .joining, disagreement := 0 }
  have own : (placeEvent (.state .joining .diverged)
      { ((u.withoutRecords).withoutReplica).withChunks 0 allChunks with
        station := .joining, disagreement := 0 }).own = s.cfg.number := by
    unfold State.own State.cfg
    rw [only.config]
    exact congrArg (fun c => (Option.getD c noConfig).number) events.config
  rw [run, beginOwnSlot_joining verdict only.station, own, roundCounter_of_some (only.timing.trans (events.timing.trans timing)),
    only.wanted]
  generalize placeEvent _ _ = v at only
  rw [only, events]
  rfl

/-- Settles O25: one case for each state, from the parts of the own slot start. -/
theorem ownSlotStartOutsideSynced : Obligations.OwnSlotStartOutsideSynced := by
  intro s t quiet timing due
  refine ⟨?joining, ?opening, ?leaving, ?completing⟩
  case joining =>
    intro joining f
    have verdict : giveVerdict (foundingStep s) = resetTally s := by
      rw [foundingStep_of_other (by rw [joining]; decide), giveVerdict_of_other (by rw [joining]; decide)]
    have round : roundCounter (resetTally s) = t.round := roundCounter_of_some timing
    rw [exec_ownSlotStart quiet timing due (by unfold participates; rw [joining]),
      beginOwnSlot_joining verdict joining, round]
    rfl
  case opening =>
    intro chunk founding opened unmarked donor absent lowest f
    let v : State := resetTally { s with foundingOpen := false }
    have station : v.station = .founding := founding
    have verdict : giveVerdict (foundingStep s) = v := by
      have opens : foundingStep s = { s with foundingOpen := false } := by
        unfold foundingStep
        rw [if_pos founding, if_pos opened]
      rw [opens]
      exact giveVerdict_of_other (by show s.station ≠ _; rw [founding]; decide)
    have supply : supplyItems v = ({ v with outbox := v.outbox }, []) :=
      supplyItems_of_other (by rw [station]; decide) (by rw [station]; decide)
    have choose : chooseChunk v = chunk := chooseChunk_eq (s := v) (.inl founding) absent lowest
    have round : roundCounter v = t.round := roundCounter_of_some timing
    have staying : decide (v.station = .leaving) = false := by rw [station]; rfl
    rw [exec_ownSlotStart quiet timing due (by unfold participates; rw [founding]), beginOwnSlot_eq verdict supply choose,
      buildFrame_digest (by rw [station]; decide), round, staying, Bool.false_and, emptyGathered_of_gathers (.inl station)]
    rfl
  case leaving =>
    intro leaving taken f
    have station : (resetTally s).station = .leaving := leaving
    have verdict : giveVerdict (foundingStep s) = resetTally s := by
      rw [foundingStep_of_other (by rw [leaving]; decide), giveVerdict_of_other (by rw [leaving]; decide)]
    have supply : supplyItems (resetTally s) = ({ resetTally s with outbox := taken.1 }, taken.2) := by
      rw [supplyItems_synced (s := resetTally s) (.inr leaving), takeIntents_of_requests (s := s) (t := resetTally s) rfl]
      rfl
    have choose : chooseChunk (resetTally s) = none :=
      chooseChunk_of_other (by rw [station]; decide) (by rw [station]; decide)
    have round : roundCounter (resetTally s) = t.round := roundCounter_of_some timing
    rw [exec_ownSlotStart quiet timing due (by unfold participates; rw [leaving]), beginOwnSlot_eq verdict supply choose,
      buildFrame_digest (by rw [station]; decide), round, decide_eq_true station, Bool.true_and,
      emptyGathered_of_other (by rw [station]; decide) (by rw [station]; decide)]
    rfl
  case completing =>
    intro founding closed
    have completes : foundingStep s = completeFounding s := by
      unfold foundingStep
      rw [if_pos founding, if_neg (by rw [closed]; exact Bool.false_ne_true)]
    have only := placeEvent_only (.state .synced .foundingComplete)
      { s with station := .synced, matchCount := 1, mismatchCount := 0 }
    have entered : completeFounding s = placeEvent (.state .synced .foundingComplete)
      { s with station := .synced, matchCount := 1, mismatchCount := 0 } := rfl
    rw [exec_ownSlotStart quiet timing due (by unfold participates; rw [founding])]
    generalize placeEvent _ _ = u at only entered ⊢
    have synced : u.station = .synced := only.station
    rw [exec_ownSlotStart (only.work.trans quiet) (only.timing.trans timing) due (by unfold participates; rw [synced])]
    unfold beginOwnSlot
    rw [completes, entered, foundingStep_of_other (s := u) (by rw [synced]; decide)]

/-- Settles O27: both are due by the phase, and do what they are named for. -/
theorem lineIsDrivenForTheFrame : Obligations.LineIsDrivenForTheFrame := by
  intro s e t echo timing endPhase
  refine ⟨fun released from12 before => ?_, fun driven after => ?_⟩
  · have due : ltxeDue s = true := by
      unfold ltxeDue ltxeLead frameEnd echoLength frameLead
      rw [echo, timing]
      simp only [released, Bool.not_false, Bool.true_and, Bool.and_eq_true, decide_eq_true_eq]
      exact ⟨from12, before⟩
    exact if_pos due
  · have due : transmissionEndDue s = true := by
      unfold transmissionEndDue frameEnd echoLength frameLead
      rw [echo, timing]
      simp only [driven, Bool.true_and, decide_eq_true_eq]
      exact after
    exact if_pos due

end Sys2Proof.Machine


/-! The own number's removal (R50, R52), the echo (R76, R77, R87, R88), receptions (R79, R83, R84, R99 to R106, R109), the
digest comparison (R146, R147) and the loss of synchronisation (R102, R125). -/

namespace Sys2Proof.Machine

/-! ## Transitions after events -/

/-- What a transition to READY keeps of a state are its other fields, its queue and its notices: an event placed before it
reaches only the last two. -/
theorem placeEvents_atRest {s t : State} (l : List Event) (queue : SameQueue s t) (rest : t.atRest = s.atRest) :
    (placeEvents l t).atRest = (placeEvents l s).atRest := by
  have answers := (queue.placeEvents l).answers
  have notices := (queue.placeEvents l).notices
  have onlyS := placeEvents_only l s
  have onlyT := placeEvents_only l t
  generalize placeEvents l s = u at answers notices onlyS ⊢
  generalize placeEvents l t = v at answers notices onlyT ⊢
  calc v.atRest = { t.atRest with answers := v.answers, notices := v.notices } := congrArg State.atRest onlyT
    _ = { s.atRest with answers := u.answers, notices := u.notices } := by rw [rest, answers, notices]
    _ = u.atRest := (congrArg State.atRest onlyS).symm

theorem placeEvents_atListening {s t : State} (l : List Event) (queue : SameQueue s t)
    (listening : t.atListening = s.atListening) : (placeEvents l t).atListening = (placeEvents l s).atListening := by
  have answers := (queue.placeEvents l).answers
  have notices := (queue.placeEvents l).notices
  have onlyS := placeEvents_only l s
  have onlyT := placeEvents_only l t
  generalize placeEvents l s = u at answers notices onlyS ⊢
  generalize placeEvents l t = v at answers notices onlyT ⊢
  calc v.atListening = { t.atListening with answers := v.answers, notices := v.notices } := congrArg State.atListening onlyT
    _ = { s.atListening with answers := u.answers, notices := u.notices } := by rw [listening, answers, notices]
    _ = u.atListening := (congrArg State.atListening onlyS).symm

theorem lostEvents_of_records {s t : State} (requests : t.requests = s.requests)
    (records : t.barrierRecords = s.barrierRecords) : lostEvents t = lostEvents s := by
  unfold lostEvents
  rw [requests, records]

theorem lostEvents_placeEvent (e : Event) (s : State) : lostEvents (placeEvent e s) = lostEvents s :=
  lostEvents_of_records (placeEvent_only e s).requests (placeEvent_only e s).barrierRecords

theorem lostEvents_placeEvents (l : List Event) (s : State) : lostEvents (placeEvents l s) = lostEvents s :=
  lostEvents_of_records (placeEvents_only l s).requests (placeEvents_only l s).barrierRecords

theorem lostEvents_atListening (s : State) : lostEvents s.atListening = [] :=
  lostEvents_of_none (fun lock => replicate_get _ lock) fun barrier => replicate_get _ barrier

/-! ## The removal of the own number (R50, R52) -/

/-- R11, R19: the station is told nothing of its own removal from the lock table. -/
theorem removeFromLocks_self (s : State) : ∃ locks, removeFromLocks s.own s = { s with locks := locks } := by
  refine List.foldlRecOn (motive := fun t : State => ∃ locks, t = { s with locks := locks }) allLocks _ ⟨s.locks, rfl⟩
    fun t ih lock _ => ?_
  obtain ⟨locks, rfl⟩ := ih
  unfold removeFromLock
  split
  · split
    · exact ⟨_, rfl⟩
    · split
      · rw [if_pos (show s.own = State.own { s with locks := locks } from rfl)]
        exact ⟨_, rfl⟩
      · exact ⟨_, rfl⟩
  · exact ⟨_, rfl⟩

/-- R32, R34: a completion without the own number is not reported. -/
theorem completeBarrier_of_absent {barrier : BarrierNo} {s : State} (absent : inSet s.own s.barriers[barrier].arrived = false) :
    completeBarrier barrier s = setBarrier barrier { generation := s.barriers[barrier].generation + 1, arrived := 0 } s := by
  simp only [completeBarrier, absent, Bool.false_eq_true, if_false]

theorem removeFromBarriers_self (s : State) : ∃ barriers, removeFromBarriers s.own s = { s with barriers := barriers } := by
  have left : ∃ barriers, removeFromBarriers s.own s = { s with barriers := barriers }
      ∧ ∀ b : BarrierNo, inSet s.own barriers[b].arrived = false := by
    refine List.foldlRecOn (motive := fun t : State => ∃ barriers, t = { s with barriers := barriers }
      ∧ ∀ b : BarrierNo, inSet s.own barriers[b].arrived = false) allBarriers _ ⟨_, rfl, fun b => ?_⟩ fun t ih b _ => ?_
    · rw [tabulate_get, inSet_setRemove, decide_eq_true rfl, Bool.not_true, Bool.and_false]
    · obtain ⟨barriers, rfl, absent⟩ := ih
      unfold testDuringRemoval
      split
      · rw [completeBarrier_of_absent (by exact absent b)]
        refine ⟨_, rfl, fun c => ?_⟩
        rw [set_get]
        split
        · exact inSet_zero s.own
        · exact absent c
      · exact ⟨barriers, rfl, absent⟩
  obtain ⟨barriers, eq, -⟩ := left
  exact ⟨barriers, eq⟩

/-- R50, R52: the own number leaves the replica, and the removal is handed to the station controller. -/
theorem removeStation_self (cause : LeaveCause) (s : State) : ∃ locks barriers, removeStation s.own cause s =
    ownRemoval cause (placeEvent (.memberLeft s.own cause)
      { s with locks := locks, barriers := barriers, members := s.members.set s.own none }) := by
  obtain ⟨locks, locksEq⟩ := removeFromLocks_self s
  obtain ⟨barriers, barriersEq⟩ := removeFromBarriers_self { s with locks := locks }
  refine ⟨locks, barriers, ?_⟩
  unfold removeStation
  dsimp only
  rw [locksEq, show removeFromBarriers s.own { s with locks := locks } = _ from barriersEq]
  have own : (placeEvent (.memberLeft s.own cause)
      { s with locks := locks, barriers := barriers, members := s.members.set s.own none }).own = s.own := by
    unfold State.own State.cfg
    rw [(placeEvent_only _ _).config]
  exact if_pos own.symm

theorem ownRemoval_leaving {cause : LeaveCause} {s : State} (cause_is : cause = .absent ∨ cause = .leave)
    (leaving : s.station = .leaving) : ownRemoval cause s = enterReady .left s := by
  unfold ownRemoval
  rw [leaving]
  rcases cause_is with rfl | rfl <;> rfl

theorem ownRemoval_evicted {s : State} (station : s.station = .founding ∨ s.station = .joining ∨ s.station = .synced) :
    ownRemoval .absent s = enterListening .evicted s := by
  unfold ownRemoval
  rcases station with h | h | h <;> rw [h]

/-- R52, R122: the removal of a leaving station's own number completes its STOP. -/
theorem removeStation_self_leaving {cause : LeaveCause} {s : State} (cause_is : cause = .absent ∨ cause = .leave)
    (leaving : s.station = .leaving) (law : RecordsLaw s) : removeStation s.own cause s =
      placeEvent (.state .ready .left) (placeEvent (.memberLeft s.own cause) s).atRest := by
  obtain ⟨locks, barriers, eq⟩ := removeStation_self cause s
  have only := placeEvent_only (.memberLeft s.own cause)
    { s with locks := locks, barriers := barriers, members := s.members.set s.own none }
  have lost : lostEvents (placeEvent (.memberLeft s.own cause)
      { s with locks := locks, barriers := barriers, members := s.members.set s.own none }) = [] :=
    (lostEvents_placeEvent _ _).trans
      (lostEvents_of_recordsLaw (s := s) law (by rw [leaving]; decide) (by rw [leaving]; decide))
  rw [eq, ownRemoval_leaving cause_is (only.station.trans leaving), enterReady_of_no_records _ lost]
  exact congrArg _ (placeEvents_atRest [.memberLeft s.own cause] (s := s) ⟨rfl, rfl, rfl⟩ rfl)

/-- R52, R124: the removal for absence of the own number evicts the station. -/
theorem removeStation_self_evicted {s : State}
    (station : s.station = .founding ∨ s.station = .joining ∨ s.station = .synced) : removeStation s.own .absent s =
      placeEvent (.state .listening .evicted)
        (placeEvents (lostEvents s) (placeEvent (.memberLeft s.own .absent) s)).atListening := by
  obtain ⟨locks, barriers, eq⟩ := removeStation_self .absent s
  have only := placeEvent_only (.memberLeft s.own .absent)
    { s with locks := locks, barriers := barriers, members := s.members.set s.own none }
  have lost : lostEvents (placeEvent (.memberLeft s.own .absent)
      { s with locks := locks, barriers := barriers, members := s.members.set s.own none }) = lostEvents s :=
    lostEvents_placeEvent _ _
  rw [eq, ownRemoval_evicted (by rw [only.station]; exact station), enterListening_events, lost]
  exact congrArg _ (placeEvents_atListening (.memberLeft s.own .absent :: lostEvents s) (s := s) ⟨rfl, rfl, rfl⟩ rfl)

/-! ## Membership handling that changes nothing -/

theorem handleJoin_without (r : StationNo) (join : Bool) {s : State} (without : membershipHeld s = false) :
    handleJoin r join s = s := by
  simp only [handleJoin, without, Bool.false_eq_true, if_false]

/-- R44: a frame whose JOIN flag agrees with the mark changes nothing. -/
theorem handleJoin_agrees {r : StationNo} {join : Bool} {s : State} {m : Member} (member : s.members[r] = some m)
    (agrees : m.joining = join) : handleJoin r join s = s := by
  unfold handleJoin
  split
  · subst agrees
    rw [member]
    cases mark : m.joining <;> simp [mark]
  · rfl

theorem completeCatchUp_of_other {s : State} (other : s.station ≠ .joining) : completeCatchUp s = s :=
  if_neg fun h => other h.1

theorem applyLeave_of_present {r : StationNo} {s : State} {m : Member} (member : s.members[r] = some m) :
    applyLeave r s = removeStation r .leave s := by
  unfold applyLeave isPresent
  rw [member]
  rfl

/-- R122: without membership the own LEAVE completes the STOP. -/
theorem applyLeave_completes {r : StationNo} {s : State} (absent : s.members[r] = none) (own : r = s.own)
    (leaving : s.station = .leaving) (without : membershipHeld s = false) (law : RecordsLaw s) :
    applyLeave r s = placeEvent (.state .ready .left) s.atRest := by
  have none : lostEvents s = [] := lostEvents_of_recordsLaw law (by rw [leaving]; decide) (by rw [leaving]; decide)
  unfold applyLeave isPresent
  rw [absent, Option.isSome_none, if_neg Bool.false_ne_true, if_pos ⟨own, leaving, without⟩,
    enterReady_of_no_records _ none]

theorem applyLeave_of_absent {r : StationNo} {s : State} (absent : s.members[r] = none)
    (stays : r ≠ s.own ∨ s.station ≠ .leaving ∨ membershipHeld s = true) : applyLeave r s = s := by
  unfold applyLeave isPresent
  rw [absent, Option.isSome_none, if_neg Bool.false_ne_true, if_neg]
  rintro ⟨own, leaving, without⟩
  rcases stays with h | h | h
  · exact h own
  · exact h leaving
  · rw [without] at h
    cases h

/-! ## The echo -/

section
variable {s : State} {e : EchoComparator} {t : Timing}

theorem echoDue_of_phase (echo : s.echo = some e) (timing : s.timing = some t) (quiet : s.work = [])
    (released : s.ltxe = false) (phase : 16 + 10 * (frameBytes e.frame).length + 4 ≤ t.phase) : echoDue s = true := by
  unfold echoDue frameEnd echoLength frameLead idleBits
  rw [echo, timing, quiet, released]
  exact decide_eq_true phase

/-- On an empty queue the echo is judged when it falls due. -/
theorem step_judges_echo (echo : s.echo = some e) (timing : s.timing = some t) (quiet : s.work = [])
    (released : s.ltxe = false) (phase : 16 + 10 * (frameBytes e.frame).length + 4 ≤ t.phase) (queue : s.pending = [])
    (commands : s.commands = []) (started : t.ownStartDue = false) : step s = exec (.echoJudged false [] false) s := by
  have start : ownSlotStartDue s = false := by
    unfold ownSlotStartDue
    rw [timing, Option.map_some, Option.getD_some, started, Bool.and_false]
  have drive : ltxeDue s = false := by
    unfold ltxeDue frameEnd echoLength frameLead
    rw [echo, timing]
    dsimp only
    rw [show decide (t.phase < 16 + 10 * (frameBytes e.frame).length + 2) = false from decide_eq_false (by omega),
      Bool.and_false]
  have release : transmissionEndDue s = false := by
    unfold transmissionEndDue
    rw [echo, timing]
    dsimp only
    rw [released, Bool.false_and]
  have due : lineDue s = some (.echoJudged false [] false) := by
    unfold lineDue
    rw [start, drive, release, echoDue_of_phase echo timing quiet released phase]
    rfl
  rw [step_of_no_command queue, idleStep_of_part (hostDue_of_no_record commands) ((partDue_of_no_work quiet).trans due)]

theorem exec_echoJudged_good {early after : Bool} {samples : List Bool} (due : echoDue s = true) (echo : s.echo = some e)
    (timing : s.timing = some t) (good : echoGood (e.reported early samples after) = true) :
    exec (.echoJudged early samples after) s
      = .next (echoWellFormed (e.reported early samples after) t (endEchoReception t (e.after || after) s)) := by
  show execEchoJudged early samples after s = _
  unfold execEchoJudged
  rw [if_pos due, echo, timing]
  dsimp only
  rw [if_pos good]
  rfl

theorem exec_echoJudged_corrupt {early after : Bool} {samples : List Bool} (due : echoDue s = true)
    (echo : s.echo = some e) (timing : s.timing = some t) (bad : echoGood (e.reported early samples after) = false) :
    exec (.echoJudged early samples after) s
      = .next (echoCorrupted t (endEchoReception t (e.after || after) s)) := by
  show execEchoJudged early samples after s = _
  unfold execEchoJudged
  rw [if_pos due, echo, timing]
  dsimp only
  rw [if_neg (Bool.eq_false_iff.1 bad)]
  rfl

end

theorem settleIntent_eq (i : Intent) : settleIntent i = if i.inFlight = false then some i
    else match i.kind, i.trailing with
      | .acquire lock, .queued | .renew lock, .queued | .release lock, .queued =>
        some { kind := .release lock, inFlight := false, trailing := .none }
      | _, _ => none := by
  obtain ⟨kind, flying, trailing⟩ := i
  cases flying
  · rfl
  · cases kind <;> cases trailing <;> rfl

theorem usableOf_eq (own : Bool) (f : Frame) :
    usableOf own f = { own := own, join := f.join, leave := decide (Item.leave ∈ f.items) } := by
  rw [usableOf, List.contains_eq_mem]

/-- Settles O28: the judgement, the settlement and the frame's own steps; a LEAVE alone meets a state that its JOIN flag and
the test for the end of catch-up leave as it is. -/
theorem goodEchoAppliesTheOwnFrame : Obligations.GoodEchoAppliesTheOwnFrame := by
  intro s e t echo timing quiet released phase early after samples sent f judged ownReception settle settled
  have good : echoGood (e.reported false samples false) = true :=
    (echoGood_iff _).2 ⟨by rw [EchoComparator.reported, early]; rfl, sent, by rw [EchoComparator.reported, after]; rfl⟩
  have settles : settleIntent = settle := funext settleIntent_eq
  have judged_eq : judged = .next (processOwnFrame f settled) := by
    refine (exec_echoJudged_good (echoDue_of_phase echo timing quiet released phase) echo timing good).trans ?_
    rw [echoWellFormed, settleOutbox, settles, usableOf_eq, after]
    rfl
  have frame_eq : processOwnFrame f settled
      = f.items.foldl (applyItem f.station) (completeCatchUp (handleJoin f.station f.join settled)) := rfl
  refine ⟨judged_eq, fun none queue commands started => ?_, frame_eq, fun leaving own leave law => ?_⟩
  · rw [step_judges_echo echo timing quiet released phase queue commands started, ← none]
  · have station : settled.station = .leaving := leaving
    have applies (joins : handleJoin f.station f.join settled = settled) :
        judged = .next (applyLeave s.cfg.number settled) := by
      rw [judged_eq, frame_eq, joins, completeCatchUp_of_other (by rw [station]; decide), leave, own]
      rfl
    refine ⟨fun m member agrees => ?_, fun without absent => ?_⟩
    · have leaves : applyLeave s.cfg.number settled = removeStation settled.own .leave settled :=
        applyLeave_of_present (s := settled) (m := m) member
      have removes := removeStation_self_leaving (s := settled) (.inr rfl) station law
      have rests : (placeEvent (.memberLeft settled.own .leave) settled).atRest
          = (placeEvent (.memberLeft s.cfg.number .leave) s).atRest :=
        placeEvents_atRest [.memberLeft s.cfg.number .leave] ⟨rfl, rfl, rfl⟩ rfl
      rw [applies (handleJoin_agrees (m := m) (by rw [own]; exact member) agrees), leaves, removes, rests]
    · have completes := applyLeave_completes (s := settled) (r := s.cfg.number) absent rfl station without law
      rw [applies (handleJoin_without _ _ without), completes]
      rfl

theorem requeueIntent_eq (i : Intent) : requeueIntent i = if i.inFlight then
    { i with inFlight := false, trailing := if i.trailing = .none then .none else .queued } else i := by
  obtain ⟨kind, flying, trailing⟩ := i
  cases flying
  · rfl
  · cases trailing <;> rfl

/-- Settles O29: the judgement, and the intents' return in and outside FOUNDING. -/
theorem corruptEchoReturnsTheIntents : Obligations.CorruptEchoReturnsTheIntents := by
  intro s e t early after samples echo timing quiet released phase wrong ends returned
  have bad : echoGood (e.reported early samples after) = false := by
    rw [Bool.eq_false_iff, Ne, echoGood_iff]
    rintro ⟨noEarly, same, noAfter⟩
    obtain ⟨quietBefore, reportedBefore⟩ := Bool.or_eq_false_iff.1 noEarly
    obtain ⟨quietAfter, reportedAfter⟩ := Bool.or_eq_false_iff.1 noAfter
    rcases wrong with h | h | h | h | h
    · rw [quietBefore] at h; cases h
    · rw [reportedBefore] at h; cases h
    · exact h same
    · rw [quietAfter] at h; cases h
    · rw [reportedAfter] at h; cases h
  have returns : requeueOutbox { endEchoReception t (e.after || after) s with
      echo := none, timing := some { t with echoCorrupt := true } } = returned := by
    rw [requeueOutbox, funext requeueIntent_eq, endEchoReception, endsWithEcho, Bool.not_or]
  have corrupts := exec_echoJudged_corrupt (early := early) (after := after) (samples := samples)
    (echoDue_of_phase echo timing quiet released phase) echo timing bad
  rw [echoCorrupted, returns] at corrupts
  refine ⟨fun noEarly none noAfter queue commands started => ?_, fun other => ?_, fun founding law => ?_⟩
  · rw [step_judges_echo echo timing quiet released phase queue commands started, noEarly, none, noAfter]
  · exact corrupts.trans (congrArg _ (if_neg other))
  · have none : lostEvents returned = [] :=
      lostEvents_of_recordsLaw (s := s) law (by rw [founding]; decide) (by rw [founding]; decide)
    rw [corrupts, if_pos (show returned.station = .founding from founding), abandonFounding,
      enterListening_of_no_records _ none]

/-! ## The start bit of a reception -/

theorem finishWork_of_none {s : State} (none : s.work = []) : finishWork s = s := by
  have steps (n : Nat) : finishSteps n s = s := by
    cases n with
    | zero => rfl
    | succ n => rw [finishSteps, none]; rfl
  exact steps workBound

theorem receives_iff (s : State) : receives s = true ↔ s.station ≠ .unconfigured ∧ s.station ≠ .ready := by
  unfold receives
  cases s.station <;> simp

section
variable {s : State} {low : Nat}

theorem lineFalls_unheard (unheard : (receives s && lineRested s && decide (0 < low)) = false) : lineFalls low s = { s with
    lrxLow := low, lineHigh := 0, lineWait := if s.lineWait ≤ s.lineHigh then 0 else s.lineWait } := by
  unfold lineFalls
  rw [unheard]
  unfold lineRested
  by_cases rested : s.lineWait ≤ s.lineHigh
  · simp only [decide_eq_true rested, if_true, if_pos rested, Bool.false_eq_true, if_false]
  · simp only [decide_eq_false rested, if_neg rested, Bool.false_eq_true, if_false]

theorem lineFalls_heard (hears : receives s = true) (rested : s.lineWait ≤ s.lineHigh) (falls : 0 < low) :
    lineFalls low s = { acceptStartBit { s with lineWait := 0 } with lrxLow := low, lineHigh := 0 } := by
  have line : lineRested s = true := decide_eq_true rested
  simp only [lineFalls, hears, line, decide_eq_true falls, Bool.and_self, if_true]

end

/-- R87: a start bit is noted in the current slot's timing, and spoils the echo that is watched for. -/
theorem noteStartBit_eq (s : State) : noteStartBit s = { s with
    timing := s.timing.map fun t => { t with startBit := true }
    echo := s.echo.map fun e => (s.timing.map fun t => e.startBit t).getD e } := by
  unfold noteStartBit watchEcho
  cases s.timing <;> rfl

theorem startBit_eq (e : EchoComparator) (t : Timing) : e.startBit t = { e with
    early := e.early || decide (t.phase < 16)
    after := e.after || decide (16 + 10 * (frameBytes e.frame).length ≤ t.phase
      ∧ t.phase < 16 + 10 * (frameBytes e.frame).length + 4) } := by
  rw [Bool.decide_and]
  rfl

/-- Settles O30: the falls that are not accepted, and the accepted ones by what is in progress. -/
theorem startBitBeginsAReception : Obligations.StartBitBeginsAReception := by
  intro s low quiet fallen spoiled
  have run : exec (.receptionBegins low) s = .next (lineFalls low s) :=
    congrArg (fun u => Host.Outcome.next (lineFalls low u)) (finishWork_of_none quiet)
  have spoils (e : EchoComparator) (t : Timing) : e.startBit t = spoiled e t := startBit_eq e t
  rw [run]
  refine ⟨fun refused => ?_, fun falls configured started rested => ?_⟩
  · have unheard : (receives s && lineRested s && decide (0 < low)) = false := by
      rcases refused with h | h | h | h
      · rw [h, decide_eq_false (lt_irrefl 0), Bool.and_false]
      · rw [show receives s = false by unfold receives; rw [h], Bool.false_and, Bool.false_and]
      · rw [show receives s = false by unfold receives; rw [h], Bool.false_and, Bool.false_and]
      · rw [show lineRested s = false from decide_eq_false (Nat.not_le.2 h), Bool.and_false, Bool.false_and]
    rw [lineFalls_unheard unheard]
  · rw [lineFalls_heard ((receives_iff s).2 ⟨configured, started⟩) rested falls]
    have wait : fallen = { s with lrxLow := low, lineHigh := 0, lineWait := 0 } := by
      show { s with lrxLow := low, lineHigh := 0, lineWait := if s.lineWait ≤ s.lineHigh then 0 else s.lineWait } = _
      rw [if_pos rested]
    rw [wait]
    refine ⟨fun rx taken reception within => ?_, fun rx reception between => ?_, fun none noTiming => ?_,
      fun t none timing => ?_⟩
    · simp only [acceptStartBit, reception, within, Option.isSome_some, if_true]
    · simp only [acceptStartBit, reception, between, Option.isSome_none, Bool.false_eq_true, if_false, noteStartBit_eq,
        Reception.nextCharacter, receiveCapacity]
      have whole : frameWhole s.rxBuffer
          = (expectedLength (s.rxBuffer.map rxData)).any fun n => decide (n ≤ s.rxBuffer.length) := by
        unfold frameWhole
        cases expectedLength (s.rxBuffer.map rxData) <;> rfl
      have watched : (fun e : EchoComparator => (s.timing.map fun t => e.startBit t).getD e)
          = fun e => match s.timing with
            | none => e
            | some t => spoiled e t := by
        funext e
        cases s.timing with
        | none => rfl
        | some t => exact spoils e t
      rw [whole, watched] <;> rfl
    · simp only [acceptStartBit, none, noTiming]
      rfl
    · simp only [acceptStartBit, none, timing, noteStartBit_eq, beginReception, newReception, Option.map_some,
        Option.getD_some]
      have watched (u : Timing) (phase : u.phase = t.phase) :
          (fun e : EchoComparator => e.startBit u) = fun e => spoiled e t := by
        funext e
        rw [← spoils e t, startBit_eq, startBit_eq, phase]
      rw [watched { t with begun := true, windowHeard := t.windowHeard || decide (t.phase ≤ silenceWindow) } rfl] <;> rfl

/-! ## The end of a reception -/

section
variable {s : State} {rx : Reception} {chars : List RxChar}

theorem exec_receptionEnded (quiet : s.work = []) (reception : s.reception = some rx) :
    exec (.receptionEnded chars) s
      = .next (if rx.counts then judged rx (receivedFrame rx (s.rxBuffer ++ chars)) s.received else s.received) := by
  show execReceptionEnded chars s = _
  unfold execReceptionEnded
  rw [finishWork_of_none quiet]
  dsimp only
  rw [reception]
  rfl

/-- R85: the frame of a reception that is handed on. -/
theorem exec_receptionEnded_frame {f : Frame} (quiet : s.work = []) (reception : s.reception = some rx)
    (counts : rx.counts = true) (whole : rx.excess = false) (frame : wellFormedFrame (s.rxBuffer ++ chars) = some f) :
    exec (.receptionEnded chars) s = .next (judged rx (some f) s.received) := by
  have few : (s.rxBuffer ++ chars).length ≤ receiveCapacity := by
    by_contra many
    have tooLong : receptionEnd (s.rxBuffer ++ chars) = .tooLong := if_pos (Nat.not_le.1 many)
    rw [wellFormedFrame, tooLong, if_neg (fun h => nomatch h.1)] at frame
    cases frame
  rw [exec_receptionEnded quiet reception, counts, if_pos rfl, receivedFrame, if_pos ⟨whole, few⟩, frame]

end

/-- Settles O31: a reception without a frame is judged to nothing. -/
theorem badReceptionHasNoEffect : Obligations.BadReceptionHasNoEffect := by
  intro s rx quiet reception
  refine ⟨fun chars bad => ?_, fun age => ?_, fun queue commands noEcho started between high => ?_⟩
  · rw [exec_receptionEnded quiet reception]
    cases counts : rx.counts with
    | false => rfl
    | true =>
      have none : receivedFrame rx (s.rxBuffer ++ chars) = none := by
        unfold receivedFrame
        split
        · rename_i fits
          rcases bad with h | h | h | h
          · rw [counts] at h; cases h
          · rw [fits.1] at h; cases h
          · exact absurd fits.2 (Nat.not_le.2 h)
          · exact h
        · rfl
      rw [none]
      rfl
  · have due : timeLimitDue s = true := by
      unfold timeLimitDue
      rw [reception, quiet]
      exact decide_eq_true age
    show execReceptionTimeLimit s = _
    unfold execReceptionTimeLimit
    rw [if_pos due, reception]
    dsimp only
    split <;> rfl
  · have start : ownSlotStartDue s = false := by
      unfold ownSlotStartDue
      cases timing : s.timing with
      | none => rw [Option.map_none, Option.getD_none, Bool.and_false]
      | some t => rw [Option.map_some, Option.getD_some, started t timing, Bool.and_false]
    have due : lineDue s = some (.receptionEnded []) := by
      have ended : receptionEndDue s = true := by
        unfold receptionEndDue
        rw [reception, quiet]
        dsimp only
        rw [between]
        exact decide_eq_true high
      unfold lineDue
      rw [start, show ltxeDue s = false by unfold ltxeDue; rw [noEcho],
        show transmissionEndDue s = false by unfold transmissionEndDue; rw [noEcho],
        show echoDue s = false by unfold echoDue; rw [noEcho], ended]
      rfl
    rw [step_of_no_command queue, idleStep_of_part (hostDue_of_no_record commands) ((partDue_of_no_work quiet).trans due)]

/-! ## A frame in JOINING, SYNCED and LEAVING -/

theorem inPlace_iff (rx : Reception) (f : Frame) :
    inPlace rx f = true ↔ rx.late = false ∧ rx.place = some (f.station, f.round) := by
  rw [inPlace, Bool.and_eq_true, Bool.not_eq_true', beq_iff_eq]

theorem inPlace_eq_false {rx : Reception} {f : Frame} (out : rx.late = true ∨ rx.place ≠ some (f.station, f.round)) :
    inPlace rx f = false := by
  rw [Bool.eq_false_iff, Ne, inPlace_iff]
  rintro ⟨prompt, place⟩
  rcases out with late | other
  · rw [prompt] at late; cases late
  · exact other place

theorem judged_takeFrame {s : State} (station : s.station = .joining ∨ s.station = .synced ∨ s.station = .leaving)
    (rx : Reception) (f : Frame) : judged rx (some f) s = takeFrame rx f s := by
  rcases station with h | h | h <;> simp only [judged, h]

section
variable {f : Frame} {s : State} {d : Word16}

theorem compareDigest_same (digest : f.digest = some d) (synced : s.station = .synced)
    (member : isUnmarked s f.station = true) (same : d = replicaDigest s) :
    compareDigest f s = { s with matchCount := s.matchCount + 1 } := by
  simp only [compareDigest, digest, synced, member, and_self, if_true, if_pos same]

theorem compareDigest_other (digest : f.digest = some d) (synced : s.station = .synced)
    (member : isUnmarked s f.station = true) (other : d ≠ replicaDigest s) :
    compareDigest f s = placeEvent (.digestMismatch f.station) { s with mismatchCount := s.mismatchCount + 1 } := by
  simp only [compareDigest, digest, synced, member, and_self, if_true, if_neg other]

theorem compareDigest_none (nothing : f.digest = none ∨ s.station ≠ .synced ∨ isUnmarked s f.station = false) :
    compareDigest f s = s := by
  unfold compareDigest
  split
  · rfl
  · rename_i d digest
    refine if_neg fun ⟨synced, member⟩ => ?_
    rcases nothing with h | h | h
    · rw [digest] at h; cases h
    · exact h synced
    · rw [member] at h; cases h

end

theorem isUnmarked_eq_false {s : State} {r : StationNo} (marked : ∀ m, s.members[r] = some m → m.joining = true) :
    isUnmarked s r = false := by
  rw [Bool.eq_false_iff, Ne, isUnmarked_iff]
  rintro ⟨m, member, unmarked⟩
  rw [marked m member] at unmarked
  cases unmarked

/-- Settles O32: a frame in place is realigned to and processed, one out of place is counted; the comparison of digests
by its conditions. -/
theorem frameIsTakenByItsPlace : Obligations.FrameIsTakenByItsPlace := by
  refine ⟨fun s rx t chars f station quiet reception counts whole timing frame => ?_, fun f s => ⟨rfl, ?_, ?_⟩⟩
  · rw [exec_receptionEnded_frame quiet reception counts whole frame, judged_takeFrame (s := s.received) station, takeFrame]
    refine ⟨fun prompt place => ?_, fun out => ?_⟩
    · rw [if_pos ((inPlace_iff rx f).2 ⟨prompt, place⟩), show s.received.timing = some t from timing, Option.map_some,
        Timing.realigned, usableOf_eq]
      rfl
    · rw [inPlace_eq_false out, if_neg Bool.false_ne_true]
      refine ⟨fun first => ?_, fun again => ?_⟩
      · rw [if_neg (show ¬ 2 ≤ s.received.disagreement + 1 from fun h => by
          rw [show s.received.disagreement = 0 from first] at h; omega), show s.received.disagreement = 0 from first]
      · rw [if_pos (show 2 ≤ s.received.disagreement + 1 from Nat.succ_le_succ again), show s.received.work = [] from quiet]
  · intro d m digest synced member unmarked
    have isMember : isUnmarked s f.station = true := (isUnmarked_iff s f.station).2 ⟨m, member, unmarked⟩
    exact ⟨compareDigest_same digest synced isMember, compareDigest_other digest synced isMember⟩
  · intro nothing
    exact compareDigest_none (nothing.imp_right (Or.imp_right isUnmarked_eq_false))

/-! ## A frame in LISTENING and FOUNDING -/

section
variable {s : State} {f : Frame} {placed : Bool} {age : Nat}

theorem hearFrame_own (own : f.station = s.cfg.number) (none : lostEvents s = []) : hearFrame f placed age s =
    placeEvent (.state .ready .numberInUse) ({ s with silence := 0 } : State).atRest := by
  unfold hearFrame
  exact (if_pos own).trans (enterReady_of_no_records _ none)

theorem hearFrame_unplaced (other : f.station ≠ s.cfg.number) (unplaced : s.timing = none ∨ placed = false) :
    hearFrame f placed age s = if f.station.val < s.cfg.roundSize
      then { s with silence := 0, timing := some (tentativeTiming f age) } else { s with silence := 0 } := by
  unfold hearFrame
  refine (if_neg other).trans ?_
  rcases unplaced with none | rfl
  · simp only [none]
    rfl
  · simp only [Bool.false_eq_true, if_false]
    split <;> rfl

theorem hearFrame_confirms {t : Timing} (other : f.station ≠ s.cfg.number) (timing : s.timing = some t) :
    hearFrame f true age s = placeEvent (.state .joining .timingAcquired)
      { ((({ s with silence := 0 } : State).withoutReplica).withChunks 0 allChunks) with
        station := .joining
        disagreement := 0
        timing := some { t with
          confirmed := true, phase := 16 + age, held := false, usable := some (usableOf false f) } } := by
  unfold hearFrame
  refine (if_neg other).trans ?_
  simp only [timing, if_true]
  rfl

end

/-- Settles O33: the frame heard in LISTENING, and in FOUNDING the same after the transition. -/
theorem frameHeardInListening : Obligations.FrameHeardInListening := by
  intro s rx chars f quiet reception counts whole law frame tentative
  have run := exec_receptionEnded_frame quiet reception counts whole frame
  refine ⟨?_, ?_⟩
  · intro listening heard
    have none : lostEvents s = [] := lostEvents_of_recordsLaw law (by rw [listening]; decide) (by rw [listening]; decide)
    have hears : judged rx (some f) s.received = hearFrame f (inPlace rx f) rx.age s.received := by
      simp only [judged, show s.received.station = .listening from listening]
    rw [run, hears]
    refine ⟨fun own => ?_, fun other out => ?_, fun t other timing prompt place => ?_⟩
    · exact congrArg _ (hearFrame_own (s := s.received) own none)
    · exact congrArg _ (hearFrame_unplaced (s := s.received) other (out.imp_right inPlace_eq_false))
    · rw [(inPlace_iff rx f).2 ⟨prompt, place⟩, hearFrame_confirms (s := s.received) other timing, usableOf_eq]
  · intro founding abandoned
    have noRecords : lostEvents s.received = [] :=
      lostEvents_of_recordsLaw (s := s) law (by rw [founding]; decide) (by rw [founding]; decide)
    have hears : judged rx (some f) s.received = hearFrame f false rx.age abandoned := by
      simp only [judged, show s.received.station = .founding from founding]
      rw [abandonFounding, enterListening_of_no_records _ noRecords]
    have only : OnlyAnswers s.received.atListening abandoned := placeEvent_only _ _
    have lost : lostEvents abandoned = [] := (lostEvents_placeEvent _ _).trans (lostEvents_atListening _)
    have silence : ({ abandoned with silence := 0 } : State) = abandoned := by
      rw [← show abandoned.silence = 0 from only.silence]
    have number : abandoned.cfg = s.cfg := congrArg (fun c => c.getD noConfig) only.config
    rw [run, hears]
    refine ⟨fun own => ?_, fun other => ?_⟩
    · rw [hearFrame_own (by rw [number]; exact own) lost, silence]
    · rw [hearFrame_unplaced (by rw [number]; exact other) (.inl only.timing), silence, number]
      split
      · show Host.Outcome.next { abandoned with silence := 0, timing := some (tentativeTiming f rx.age) } = _
        rw [← show abandoned.silence = 0 from only.silence]
        rfl
      · rw [← show abandoned.timing = none from only.timing]

/-! ## The loss of synchronisation -/

/-- Settles O34: the transition, and then the frame is heard without timing. -/
theorem syncLossReturnsToListening : Obligations.SyncLossReturnsToListening := by
  intro s f age rest work
  have run : exec .syncLost s = .next (resumeWork (loseSync f age { s with work := rest })) := by
    show Host.Outcome.next (doSyncLost s) = _
    unfold doSyncLost
    rw [work]
  have lost (station : s.station = .joining ∨ s.station = .synced) : loseSync f age { s with work := rest }
      = hearFrame f false age
        (placeEvent (.state .listening .syncLost) (placeEvents (lostEvents s) s).atListening) := by
    rw [← enterListening_events, ← enterListening_of_work _ s rest]
    rcases station with h | h <;> simp only [loseSync, h]
  have events := placeEvents_only (lostEvents s) s
  generalize placeEvents (lostEvents s) s = u at events lost ⊢
  have only := placeEvent_only (.state .listening .syncLost) u.atListening
  have none : lostEvents (placeEvent (.state .listening .syncLost) u.atListening) = [] :=
    (lostEvents_placeEvent _ _).trans (lostEvents_atListening _)
  generalize placeEvent (.state .listening .syncLost) u.atListening = v at lost only none ⊢
  have number : v.cfg = s.cfg := congrArg (fun c => c.getD noConfig) (only.config.trans events.config)
  have silence : ({ v with silence := 0 } : State) = v := by rw [← show v.silence = 0 from only.silence]
  have quiet : v.work = [] := only.work
  rw [run]
  refine ⟨fun station other => ?_, fun station own => ?_, fun leaving law => ?_⟩
  · rw [lost station, hearFrame_unplaced (by rw [number]; exact other) (.inl only.timing), silence, number]
    split
    · rw [resumeWork_of_none (by exact quiet)]
      show Host.Outcome.next { v with silence := 0, timing := some (tentativeTiming f age) } = _
      rw [← show v.silence = 0 from only.silence]
      rfl
    · rw [resumeWork_of_none quiet, ← show v.timing = .none from only.timing]
  · rw [lost station, hearFrame_own (by rw [number]; exact own) none, silence,
      resumeWork_of_none ((placeEvent_work _ _).trans rfl)]
  · have left : loseSync f age { s with work := rest } = enterReady .syncLost { s with work := rest } := by
      simp only [loseSync, leaving]
    rw [left, resumeWork_of_none (enterReady_work _ _), enterReady_of_work, enterReady_of_no_records _
      (lostEvents_of_recordsLaw law (by rw [leaving]; decide) (by rw [leaving]; decide))]

end Sys2Proof.Machine


/-! The work of a slot end: the accounting, the orphan count and the leaving count (R49, R122, R139), the round end's visits
(R16 to R18, R63), the next slot (R95, R98), and the steps that a slot end may wait for. -/

namespace Sys2Proof.Machine

/-! ## Visiting a table in order (R17, R63) -/

/-- Visit the places of a table in order, changing each by `next`, up to the first at which the visit stops. -/
def visit {α : Type} {n : Nat} (stops : Fin n → α → Bool) (next : Fin n → α → α) :
    List (Fin n) → Vector α n → Vector α n × Option (Fin n)
  | [], v => (v, none)
  | i :: rest, v => if stops i v[i] then (v, some i) else visit stops next rest (v.set i (next i v[i]))

theorem vector_ext {α : Type} {n : Nat} {v w : Vector α n} (same : ∀ i : Fin n, v[i] = w[i]) : v = w :=
  Vector.ext fun i h => same ⟨i, h⟩

/-- Over an ascending list the visit changes the places before the first that stops it. -/
theorem visit_eq {α : Type} {n : Nat} (stops : Fin n → α → Bool) (next : Fin n → α → α) {l : List (Fin n)}
    (sorted : l.Pairwise (· < ·)) (v : Vector α n) : visit stops next l v =
      (tabulate fun i => if i ∈ l ∧ ((l.find? fun j => stops j v[j]).all fun stop => decide (i < stop)) = true
        then next i v[i] else v[i], l.find? fun j => stops j v[j]) := by
  induction l generalizing v with
  | nil =>
    refine Prod.ext (vector_ext fun i => ?_) rfl
    rw [tabulate_get, if_neg fun h => List.not_mem_nil h.1]
    rfl
  | cons i rest ih =>
    obtain ⟨first, sorted⟩ := List.pairwise_cons.1 sorted
    rw [visit]
    by_cases stop : stops i v[i] = true
    · have here : ((i :: rest).find? fun j => stops j v[j]) = some i := List.find?_cons_of_pos stop
      rw [if_pos stop, here]
      refine Prod.ext (vector_ext fun j => ?_) rfl
      show v[j] = (tabulate _)[j]
      rw [tabulate_get]
      refine (if_neg ?_).symm
      rintro ⟨mem, below⟩
      have below : j < i := of_decide_eq_true below
      rcases List.mem_cons.1 mem with rfl | behind
      · exact lt_irrefl _ below
      · exact lt_asymm below (first j behind)
    · have later (j : Fin n) (mem : j ∈ rest) : (v.set i (next i v[i]))[j] = v[j] := by
        rw [set_get, if_neg (ne_of_gt (first j mem))]
      have found : (rest.find? fun j => stops j (v.set i (next i v[i]))[j]) = rest.find? fun j => stops j v[j] :=
        List.find?_congr fun j mem => by rw [later j mem]
      have behind : ((i :: rest).find? fun j => stops j v[j]) = rest.find? fun j => stops j v[j] :=
        List.find?_cons_of_neg stop
      rw [if_neg stop, ih sorted, found, behind]
      refine Prod.ext (vector_ext fun j => ?_) rfl
      dsimp only
      rw [tabulate_get, tabulate_get]
      by_cases here : j = i
      · subst here
        have stays : ((rest.find? fun k => stops k v[k]).all fun stop => decide (j < stop)) = true := by
          cases find : rest.find? fun k => stops k v[k] with
          | none => rfl
          | some k => exact decide_eq_true (first k (List.mem_of_find?_eq_some find))
        rw [if_neg fun h => lt_irrefl j (first j h.1), if_pos ⟨List.mem_cons_self, stays⟩, set_get, if_pos rfl]
      · have same : (v.set i (next i v[i]))[j] = v[j] := by rw [set_get, if_neg here]
        rw [same]
        exact if_congr (and_congr_left fun _ => by rw [List.mem_cons, or_iff_right here]) rfl rfl

theorem val_allLocks (i : Nat) (bound : i < allLocks.length) : (allLocks[i]).val = i := by
  simp [allLocks]

theorem mem_locksFrom (start : Nat) (lock : LockNo) : lock ∈ locksFrom start ↔ start ≤ lock.val := by
  have split : List.take start allLocks ++ locksFrom start = allLocks := List.take_append_drop start allLocks
  constructor
  · intro mem
    obtain ⟨i, bound, rfl⟩ := List.mem_drop_iff_getElem.1 mem
    rw [val_allLocks]
    exact Nat.le_add_right start i
  · intro above
    rcases List.mem_append.1 (by rw [split]; exact List.mem_finRange lock : lock ∈ List.take start allLocks ++ locksFrom start)
      with early | late
    · obtain ⟨i, bound, rfl⟩ := List.mem_take_iff_getElem.1 early
      rw [val_allLocks] at above
      omega
    · exact late

theorem locksFrom_sorted (start : Nat) : (locksFrom start).Pairwise (· < ·) :=
  (List.pairwise_lt_finRange 64).drop

theorem find?_locksFrom (start : Nat) (p : LockNo → Bool) :
    (locksFrom start).find? p = (List.finRange 64).find? fun lock => decide (start ≤ lock.val) && p lock := by
  have early : (List.take start allLocks).find? (fun lock => decide (start ≤ lock.val) && p lock) = none := by
    refine List.find?_eq_none.2 fun lock mem => ?_
    obtain ⟨i, bound, rfl⟩ := List.mem_take_iff_getElem.1 mem
    rw [val_allLocks, decide_eq_false (by omega), Bool.false_and]
    exact Bool.false_ne_true
  rw [← List.take_append_drop start (List.finRange 64), List.find?_append,
    show (List.take start (List.finRange 64)).find? _ = none from early, Option.none_or]
  exact List.find?_congr fun lock mem => by
    rw [decide_eq_true ((mem_locksFrom start lock).1 mem), Bool.true_and]

/-- The lease tick stops at an entry in place whose level would reach 0. -/
def leaseStops (s : State) (lock : LockNo) (e : LockEntry) : Bool :=
  match e with
  | .held _ (some level) _ => lockInPlace s lock && decide (level.toNat ≤ 1)
  | .held _ none _ | .free => false

/-- The entry one level lower. -/
def leaseLowered (s : State) (lock : LockNo) (e : LockEntry) : LockEntry :=
  match e with
  | .held holder (some level) waiters => if lockInPlace s lock then .held holder (some (level - 1)) waiters else e
  | .held _ none _ | .free => e

/-- The wait remaining that the countdown lowers. -/
def countedWait (q : Option Request) : Option (Request × Nat) :=
  match q with
  | none => none
  | some q => if q.state = .pending ∨ q.state = .waiting then q.wait.map fun w => (q, w) else none

/-- The wait countdown stops at a request whose wait would reach 0. -/
def waitStops (q : Option Request) : Bool := (countedWait q).any fun qw => decide (qw.2 ≤ 1)

/-- The request with its wait one lower. -/
def waitLowered (q : Option Request) : Option Request :=
  match countedWait q with
  | some (q, w) => some { q with wait := some (w - 1) }
  | none => q

theorem setLock_self {s : State} {lock : LockNo} {e : LockEntry} (entry : s.locks[lock] = e) : setLock lock e s = s := by
  unfold setLock
  rw [set_self lock entry]

theorem setRequest_self {s : State} {lock : LockNo} {q : Option Request} (request : s.requests[lock] = q) :
    setRequest lock q s = s := by
  unfold setRequest
  rw [set_self lock request]

theorem visitLeases_cons (lock : LockNo) (rest : List LockNo) (s : State) : visitLeases (lock :: rest) s =
    if leaseStops s lock s.locks[lock] then (s, some lock)
    else visitLeases rest (setLock lock (leaseLowered s lock s.locks[lock]) s) := by
  rw [visitLeases]
  cases entry : s.locks[lock] with
  | free => exact (congrArg _ (setLock_self entry).symm)
  | held holder lease waiters =>
    cases lease with
    | none => exact (congrArg _ (setLock_self entry).symm)
    | some level =>
      dsimp only [leaseStops, leaseLowered]
      by_cases place : lockInPlace s lock = true
      · simp only [place, if_true, Bool.true_and, decide_eq_true_iff]
      · simp only [place, Bool.false_eq_true, if_false, Bool.false_and, setLock_self entry]

theorem visitLeases_eq_visit (l : List LockNo) (s : State) : visitLeases l s =
    ({ s with locks := (visit (leaseStops s) (leaseLowered s) l s.locks).1 },
      (visit (leaseStops s) (leaseLowered s) l s.locks).2) := by
  induction l generalizing s with
  | nil => rfl
  | cons lock rest ih =>
    rw [visitLeases_cons, visit]
    split
    · rfl
    · exact ih _

theorem Request.counts_iff (q : Request) : q.counts = true ↔ (q.state = .pending ∨ q.state = .waiting) ∧ q.wait.isSome = true := by
  unfold Request.counts
  cases q.state <;> simp

theorem countedWait_of_counts {q : Request} {w : Nat} (counts : q.counts = true) (wait : q.wait = some w) :
    countedWait (some q) = some (q, w) := by
  rw [countedWait, if_pos ((Request.counts_iff q).1 counts).1, wait]
  rfl

theorem countedWait_of_not_counts {q : Request} (idle : ¬ q.counts = true) : countedWait (some q) = none := by
  rw [countedWait]
  split
  · rename_i state
    cases wait : q.wait with
    | none => rfl
    | some w => exact absurd ((Request.counts_iff q).2 ⟨state, by rw [wait]; rfl⟩) idle
  · rfl

theorem countWaits_cons (lock : LockNo) (rest : List LockNo) (s : State) : countWaits (lock :: rest) s =
    if waitStops s.requests[lock] then (s, some lock)
    else countWaits rest (setRequest lock (waitLowered s.requests[lock]) s) := by
  rw [countWaits]
  cases request : s.requests[lock] with
  | none => exact (congrArg _ (setRequest_self request).symm)
  | some q =>
    dsimp only
    by_cases counts : q.counts = true
    · obtain ⟨w, wait⟩ := Option.isSome_iff_exists.1 ((Request.counts_iff q).1 counts).2
      rw [if_pos counts, wait, waitStops, waitLowered, countedWait_of_counts counts wait]
      simp only [Option.any_some, decide_eq_true_iff]
    · rw [if_neg counts, waitStops, waitLowered, countedWait_of_not_counts counts]
      exact (congrArg _ (setRequest_self request).symm)

theorem countWaits_eq_visit (l : List LockNo) (s : State) : countWaits l s =
    ({ s with requests := (visit (fun _ => waitStops) (fun _ => waitLowered) l s.requests).1 },
      (visit (fun _ => waitStops) (fun _ => waitLowered) l s.requests).2) := by
  induction l generalizing s with
  | nil => rfl
  | cons lock rest ih =>
    rw [countWaits_cons, visit]
    split
    · rfl
    · exact ih _

/-- The lease tick from a lock on. -/
theorem visitLeases_eq (start : Nat) (s : State) : visitLeases (locksFrom start) s =
    let expires := (List.finRange 64).find? fun lock => decide (start ≤ lock.val) && leaseStops s lock s.locks[lock]
    ({ s with locks := tabulate fun lock =>
        if start ≤ lock.val ∧ (expires.all fun stop => decide (lock < stop)) = true
          then leaseLowered s lock s.locks[lock] else s.locks[lock] }, expires) := by
  rw [visitLeases_eq_visit, visit_eq _ _ (locksFrom_sorted start), find?_locksFrom]
  simp only [mem_locksFrom]

/-- The wait countdown from a lock on. -/
theorem countWaits_eq (start : Nat) (s : State) : countWaits (locksFrom start) s =
    let ends := (List.finRange 64).find? fun lock => decide (start ≤ lock.val) && waitStops s.requests[lock]
    ({ s with requests := tabulate fun lock =>
        if start ≤ lock.val ∧ (ends.all fun stop => decide (lock < stop)) = true
          then waitLowered s.requests[lock] else s.requests[lock] }, ends) := by
  rw [countWaits_eq_visit, visit_eq _ _ (locksFrom_sorted start), find?_locksFrom]
  simp only [mem_locksFrom]

/-! ## One item of work after another -/

section
variable {rest : List Work} {s u : State}

theorem doWork_leaseTick_done {start : Nat} (visits : visitLeases (locksFrom start) s = (u, none)) :
    doWork (.leaseTick start :: rest) s = doWork rest u := by
  rw [doWork, visits]

theorem doWork_leaseTick_stops {start : Nat} {lock : LockNo} (visits : visitLeases (locksFrom start) s = (u, some lock)) :
    doWork (.leaseTick start :: rest) s = { u with work := .leaseExpiry lock :: .leaseTick (lock.val + 1) :: rest } := by
  rw [doWork, visits]

theorem doWork_waitCountdown_idle {start : Nat} (idle : countsWaits s = false) :
    doWork (.waitCountdown start :: rest) s = doWork rest s := by
  rw [doWork, idle]
  rfl

theorem doWork_waitCountdown_done {start : Nat} (counts : countsWaits s = true)
    (visits : countWaits (locksFrom start) s = (u, none)) :
    doWork (.waitCountdown start :: rest) s = doWork rest u := by
  rw [doWork, counts, visits]
  rfl

theorem doWork_waitCountdown_stops {start : Nat} {lock : LockNo} (counts : countsWaits s = true)
    (visits : countWaits (locksFrom start) s = (u, some lock)) :
    doWork (.waitCountdown start :: rest) s = { u with work := .waitExpiry lock :: .waitCountdown (lock.val + 1) :: rest } := by
  rw [doWork, counts, visits]
  rfl

theorem doWork_accounting_done (accounts : accountSlot s = (u, none)) :
    doWork (.accounting :: rest) s = doWork rest u := by
  rw [doWork, accounts]

theorem doWork_accounting_stops {r : StationNo} (accounts : accountSlot s = (u, some r)) :
    doWork (.accounting :: rest) s = { u with work := .absenceRemoval r :: rest } := by
  rw [doWork, accounts]

theorem doWork_orphanUpdate_done (updates : updateOrphan s = (u, false)) :
    doWork (.orphanUpdate :: rest) s = doWork rest u := by
  rw [doWork, updates]

theorem doWork_orphanUpdate_stops (updates : updateOrphan s = (u, true)) :
    doWork (.orphanUpdate :: rest) s = { u with work := .orphanAction :: rest } := by
  rw [doWork, updates]

theorem doWork_leavingUpdate_done (updates : updateLeaving s = (u, false)) :
    doWork (.leavingUpdate :: rest) s = doWork rest u := by
  rw [doWork, updates]

theorem doWork_leavingUpdate_stops (updates : updateLeaving s = (u, true)) :
    doWork (.leavingUpdate :: rest) s = { u with work := .leavingExpiry :: rest } := by
  rw [doWork, updates]

theorem doWork_nextSlot_last : doWork [.nextSlot] s = { beginSlot s with work := [] } := by
  rw [doWork, doWork]

theorem resumeWork_of_work (work : s.work = rest) : resumeWork s = doWork rest s := by
  rw [resumeWork, work]

end

theorem countsWaits_iff (s : State) : countsWaits s = true ↔ s.station = .joining ∨ s.station = .synced := by
  rw [countsWaits, Bool.or_eq_true, beq_iff_eq, beq_iff_eq]

/-! ## The next slot (R95, R98) -/

theorem nextSlot_ne_zero {slot : StationNo} (below : slot.val + 1 < 16) : slot + 1 ≠ 0 := by
  intro zero
  have value := congrArg Fin.val zero
  simp only [Fin.val_add, Fin.val_zero, Fin.val_one] at value
  omega

theorem beginSlot_of_timing {s : State} {t : Timing} (timing : s.timing = some t) (size : s.cfg.roundSize ≤ 16) :
    beginSlot s = { s with
      timing := some (t.following s.cfg.roundSize fun r => participates s && decide (r = s.cfg.number)) } := by
  unfold beginSlot
  rw [timing]
  dsimp only [slotAfter, Timing.following]
  split
  · rw [if_neg (nextSlot_ne_zero (by omega))]
    rfl
  · rfl

theorem participates_of_station {s : State} (station : s.station = .founding ∨ s.station = .joining ∨ s.station = .synced
    ∨ s.station = .leaving) : participates s = true := by
  unfold participates
  rcases station with h | h | h | h <;> rw [h]

theorem doWork_nextSlot {s : State} {t : Timing} (timing : s.timing = some t) (size : s.cfg.roundSize ≤ 16)
    (takesPart : participates s = true) : doWork [.nextSlot] s = { s with
      work := [], timing := some (t.following s.cfg.roundSize fun r => decide (r = s.cfg.number)) } := by
  rw [doWork_nextSlot_last, beginSlot_of_timing timing size, takesPart]
  simp only [Bool.true_and]

/-- Settles O47: the two visits of a round end, and the items of work that make them. -/
theorem roundEndVisitsRunInAscendingOrder : Obligations.RoundEndVisitsRunInAscendingOrder := by
  intro s start rest runsOut lowered waits counted expires ends ticked passed
  have ticks : visitLeases (locksFrom start) s = (ticked, expires) := visitLeases_eq start s
  have counts : countWaits (locksFrom start) s = (passed, ends) := countWaits_eq start s
  refine ⟨⟨ticks, counts⟩, fun stop found => ?_, fun none => ?_, fun station => ⟨fun stop found => ?_, fun none => ?_⟩,
    fun notJoining notSynced => ?_, fun t timing size station => ?_⟩
  · exact doWork_leaseTick_stops (ticks.trans (by rw [found]))
  · exact doWork_leaseTick_done (ticks.trans (by rw [none]))
  · exact doWork_waitCountdown_stops ((countsWaits_iff s).2 station) (counts.trans (by rw [found]))
  · exact doWork_waitCountdown_done ((countsWaits_iff s).2 station) (counts.trans (by rw [none]))
  · exact doWork_waitCountdown_idle
      (Bool.eq_false_iff.2 fun h => ((countsWaits_iff s).1 h).elim notJoining notSynced)
  · exact doWork_nextSlot timing size (participates_of_station station)

/-! ## The end of a slot (R95, R97, R98) -/

/-- A reception that was not begun in the slot's window does not hold the slot's end. -/
theorem holdsSlotEnd_eq_false {s : State} {t : Timing}
    (free : ∀ rx, s.reception = some rx → rx.counts = false ∨ rx.late = true ∨ rx.place ≠ some (t.slot, t.round)) :
    holdsSlotEnd s t = false := by
  unfold holdsSlotEnd
  cases reception : s.reception with
  | none => rfl
  | some rx =>
    dsimp only
    rcases free rx reception with h | h | h
    · rw [h]; rfl
    · rw [h, Bool.not_true, Bool.and_false, Bool.false_and]
    · rw [beq_false_of_ne h, Bool.and_false]

section
variable {s : State} {t : Timing} {c : Instr}

theorem ownSlotStartDue_eq_false (timing : s.timing = some t) (started : t.ownStartDue = false) :
    ownSlotStartDue s = false := by
  unfold ownSlotStartDue
  rw [timing, Option.map_some, Option.getD_some, started, Bool.and_false]

theorem slotEndDue_of_phase (quiet : s.work = []) (timing : s.timing = some t) (released : t.held = false)
    (started : ownSlotStartDue s = false) (late : s.cfg.slotLength ≤ t.phase) : slotEndDue s = true := by
  unfold slotEndDue
  rw [timing, quiet, started]
  dsimp only
  rw [released, decide_eq_true late]
  rfl

theorem exec_slotEnd_held (due : slotEndDue s = true) (timing : s.timing = some t) (holds : holdsSlotEnd s t = true) :
    exec .slotEnd s = .next { s with timing := some { t with held := true } } := by
  show execSlotEnd s = _
  unfold execSlotEnd
  rw [if_pos due, timing]
  exact if_pos holds

theorem exec_slotEnd (due : slotEndDue s = true) (timing : s.timing = some t) (free : holdsSlotEnd s t = false) :
    exec .slotEnd s = .next (endSlot t s) := by
  show execSlotEnd s = _
  unfold execSlotEnd
  rw [if_pos due, timing]
  exact if_neg (Bool.eq_false_iff.1 free)

theorem exec_heldSlotEnd (due : heldSlotEndDue s = true) (timing : s.timing = some t) :
    exec .heldSlotEnd s = .next (endSlot t s) := by
  show execHeldSlotEnd s = _
  unfold execHeldSlotEnd
  rw [if_pos due, timing]

/-- The slot end takes place at SLOT_END, or at HELD_SLOT_END when it was held. -/
theorem exec_endSlot (which : (c = .slotEnd ∧ t.held = false) ∨ (c = .heldSlotEnd ∧ t.held = true))
    (quiet : s.work = []) (timing : s.timing = some t) (started : ownSlotStartDue s = false)
    (late : s.cfg.slotLength ≤ t.phase)
    (free : ∀ rx, s.reception = some rx → rx.counts = false ∨ rx.late = true ∨ rx.place ≠ some (t.slot, t.round)) :
    exec c s = .next (endSlot t s) := by
  have released := holdsSlotEnd_eq_false free
  rcases which with ⟨rfl, notHeld⟩ | ⟨rfl, held⟩
  · exact exec_slotEnd (slotEndDue_of_phase quiet timing notHeld started late) timing released
  · refine exec_heldSlotEnd ?_ timing
    unfold heldSlotEndDue
    rw [timing, quiet]
    dsimp only
    rw [held, released, decide_eq_true late]
    rfl

end

/-- What the slot end goes on with: the next slot, and at the round end the two visits before it. -/
def slotTail (s : State) (t : Timing) : List Work :=
  if t.slot.val + 1 < s.cfg.roundSize then [.nextSlot]
  else if t.round.toNat % s.cfg.leasePeriod = 0 then
    if Config.countdownFirst s.freeIndex then [.waitCountdown 0, .leaseTick 0, .nextSlot]
    else [.leaseTick 0, .waitCountdown 0, .nextSlot]
  else [.waitCountdown 0, .nextSlot]

theorem roundEndWork_nextSlot (s : State) (t : Timing) : roundEndWork t s ++ [.nextSlot] = slotTail s t := by
  unfold roundEndWork slotTail
  split
  · rfl
  · split
    · split <;> rfl
    · rfl

theorem slotEndWork_of_participates {s : State} (t : Timing) (takesPart : participates s = true) :
    slotEndWork t s = accountingWork s ++ slotTail s t := by
  rw [slotEndWork, if_pos takesPart, List.append_assoc, roundEndWork_nextSlot]

/-! A round end where nothing runs. -/

section
variable {s : State}

theorem visitLeases_of_nothing (l : List LockNo)
    (none : ∀ lock : LockNo, ∀ holder level waiters, s.locks[lock] ≠ .held holder (some level) waiters) :
    visitLeases l s = (s, .none) := by
  induction l with
  | nil => rfl
  | cons lock rest ih =>
    rw [visitLeases]
    cases entry : s.locks[lock] with
    | free => exact ih
    | held holder lease waiters =>
      cases lease with
      | none => exact ih
      | some level => exact absurd entry (none lock holder level waiters)

theorem countWaits_of_nothing (l : List LockNo)
    (none : ∀ lock : LockNo, ∀ q, s.requests[lock] = some q → q.counts = false) : countWaits l s = (s, .none) := by
  induction l with
  | nil => rfl
  | cons lock rest ih =>
    rw [countWaits]
    cases request : s.requests[lock] with
    | none => exact ih
    | some q => exact (if_neg (Bool.eq_false_iff.1 (none lock q request))).trans ih

theorem doWork_leaseTick_of_nothing (nothing : nothingRuns s) (start : Nat) (rest : List Work) :
    doWork (.leaseTick start :: rest) s = doWork rest s :=
  doWork_leaseTick_done (visitLeases_of_nothing _ nothing.1)

theorem doWork_waitCountdown_of_nothing (nothing : nothingRuns s) (start : Nat) (rest : List Work) :
    doWork (.waitCountdown start :: rest) s = doWork rest s := by
  cases counts : countsWaits s with
  | false => exact doWork_waitCountdown_idle counts
  | true => exact doWork_waitCountdown_done counts (countWaits_of_nothing _ nothing.2)

/-- R95: within a round, or at a round end where nothing runs, the slot end brings the next slot alone; the members, counts
and records of the state `u` in which it goes on may be others than those at its start. -/
theorem doWork_slotTail {u : State} {t : Timing} (quiet : u.work = []) (timing : u.timing = some t)
    (size : u.cfg.roundSize ≤ 16) (takesPart : participates u = true)
    (idle : t.slot.val + 1 < s.cfg.roundSize ∨ nothingRuns u) : doWork (slotTail s t) u =
      { u with timing := some (t.following u.cfg.roundSize fun r => decide (r = u.cfg.number)) } := by
  have next : doWork [.nextSlot] u =
      { u with timing := some (t.following u.cfg.roundSize fun r => decide (r = u.cfg.number)) } := by
    rw [doWork_nextSlot timing size takesPart, ← quiet]
  unfold slotTail
  split
  · exact next
  · rename_i roundEnd
    have nothing : nothingRuns u := idle.resolve_left roundEnd
    split
    · split
      · rw [doWork_waitCountdown_of_nothing nothing, doWork_leaseTick_of_nothing nothing, next]
      · rw [doWork_leaseTick_of_nothing nothing, doWork_waitCountdown_of_nothing nothing, next]
    · rw [doWork_waitCountdown_of_nothing nothing, next]

end

/-- Settles O35: the slot without a start bit, the hold, and the slots in LISTENING. -/
theorem slotsFollowOneAnother : Obligations.SlotsFollowOneAnother := by
  intro s t timing
  refine ⟨fun unheard loud passed => ?_, fun quiet late =>
    ⟨fun rx released started reception counts prompt place => ?_, fun c which listening size free => ?_⟩⟩
  · have due : silenceWindowEndDue s = true := by
      unfold silenceWindowEndDue
      rw [timing]
      dsimp only
      rw [unheard, loud]
      exact decide_eq_true passed
    show execSilenceWindowEnd s = _
    rw [execSilenceWindowEnd, if_pos due, timing, Option.map_some]
  · refine exec_slotEnd_held
      (slotEndDue_of_phase quiet timing released (ownSlotStartDue_eq_false timing started) late) timing ?_
    unfold holdsSlotEnd
    rw [reception]
    dsimp only
    rw [counts, prompt, place, beq_self_eq_true]
    rfl
  · have absent : participates s = false := by unfold participates; rw [listening]
    have started : ownSlotStartDue s = false := by
      rw [ownSlotStartDue, absent, Bool.and_false, Bool.false_and]
    rw [exec_endSlot which quiet timing started late free, endSlot, slotEndWork, absent, if_neg Bool.false_ne_true,
      doWork_nextSlot_last, beginSlot_of_timing (s := { s with freeIndex := s.freeIndex + 1 }) timing size, ← quiet]
    have outside : participates { s with freeIndex := s.freeIndex + 1 } = false := absent
    simp only [outside, Bool.false_and]
    rfl

/-! ## The accounting of the slot's owner (R49) -/

section
variable {s : State} {t : Timing} {m : Member}

theorem accountsAbsence_of_station (station : s.station = .founding ∨ s.station = .joining ∨ s.station = .synced
    ∨ s.station = .leaving) : accountsAbsence s = membershipHeld s := by
  unfold accountsAbsence
  rcases station with h | h | h | h <;> rw [h]

theorem accountSlot_absent (timing : s.timing = some t) (absent : s.members[t.slot] = none) :
    accountSlot s = (s, none) := by
  unfold accountSlot
  rw [timing]
  dsimp only
  rw [absent]
  exact ite_self _

theorem accountSlot_idle (timing : s.timing = some t) (idle : accountsAbsence s = false) : accountSlot s = (s, none) := by
  unfold accountSlot
  rw [timing]
  exact if_neg (Bool.eq_false_iff.1 idle)

theorem accountSlot_heard (timing : s.timing = some t) (accounts : accountsAbsence s = true)
    (member : s.members[t.slot] = some m) (heard : t.usable.isSome = true) :
    accountSlot s = (setMember t.slot (some { m with absence := 0 }) s, none) := by
  unfold accountSlot
  rw [timing]
  dsimp only
  rw [if_pos accounts, member]
  exact if_pos heard

theorem accountSlot_missed (timing : s.timing = some t) (accounts : accountsAbsence s = true)
    (member : s.members[t.slot] = some m) (missed : t.usable = none) (below : m.absence + 1 < s.cfg.absenceLimit) :
    accountSlot s = (setMember t.slot (some { m with absence := m.absence + 1 }) s, none) := by
  unfold accountSlot
  rw [timing]
  dsimp only
  rw [if_pos accounts, member, missed]
  exact (if_neg Bool.false_ne_true).trans (if_neg (Nat.not_le.2 below))

theorem accountSlot_removal (timing : s.timing = some t) (accounts : accountsAbsence s = true)
    (member : s.members[t.slot] = some m) (missed : t.usable = none) (limit : s.cfg.absenceLimit ≤ m.absence + 1) :
    accountSlot s = (s, some t.slot) := by
  unfold accountSlot
  rw [timing]
  dsimp only
  rw [if_pos accounts, member, missed]
  exact (if_neg Bool.false_ne_true).trans (if_pos limit)

/-! ## The leaving count (R122) -/

theorem updateLeaving_idle (timing : s.timing = some t) (idle : s.station ≠ .leaving ∨ t.echoCorrupt = false
    ∨ t.slot ≠ s.cfg.number ∨ ∃ m, s.members[s.cfg.number] = some m) : updateLeaving s = (s, false) := by
  unfold updateLeaving
  rw [timing]
  refine if_neg ?_
  rintro ⟨leaving, own, corrupt, absent⟩
  rcases idle with h | h | h | ⟨m, h⟩
  · exact h leaving
  · rw [corrupt] at h; cases h
  · exact h own
  · unfold isPresent at absent
    rw [show s.members[s.own] = some m from h] at absent
    cases absent

theorem updateLeaving_counts (timing : s.timing = some t) (leaving : s.station = .leaving) (own : t.slot = s.cfg.number)
    (corrupt : t.echoCorrupt = true) (absent : s.members[s.cfg.number] = none) : updateLeaving s =
      ({ s with leavingCount := s.leavingCount + 1 }, decide (s.cfg.absenceLimit ≤ s.leavingCount + 1)) := by
  unfold updateLeaving
  rw [timing]
  refine if_pos ⟨leaving, own, corrupt, ?_⟩
  unfold isPresent
  rw [show s.members[s.own] = none from absent]
  rfl

/-- The slot end outside JOINING: the accounting, the leaving count, and the rest. -/
theorem endSlot_outside_joining (station : s.station = .founding ∨ s.station = .synced ∨ s.station = .leaving) :
    endSlot t s = doWork (.accounting :: .leavingUpdate :: slotTail s t) { s with freeIndex := s.freeIndex + 1 } := by
  have takesPart : participates s = true :=
    participates_of_station (station.imp_right .inr)
  have outside : s.station ≠ .joining := by rcases station with h | h | h <;> rw [h] <;> decide
  rw [endSlot, slotEndWork_of_participates t takesPart, accountingWork, if_neg outside]
  rfl

end

/-- Settles O36: the owner's four situations at the slot end, and what it goes on with. -/
theorem slotEndAccountsTheOwner : Obligations.SlotEndAccountsTheOwner := by
  unfold Obligations.SlotEndAccountsTheOwner
  intro s t c which quiet timing started late size free held station tail accounted
  have kind : s.station = .founding ∨ s.station = .synced ∨ s.station = .leaving :=
    station.imp_right (Or.imp_right And.left)
  have participant : s.station = .founding ∨ s.station = .joining ∨ s.station = .synced ∨ s.station = .leaving :=
    kind.imp_right .inr
  have accounts : accountsAbsence s = true := (accountsAbsence_of_station participant).trans held
  have run : exec c s = .next (doWork (.accounting :: .leavingUpdate :: tail) (accounted s.members)) :=
    (exec_endSlot which quiet timing (ownSlotStartDue_eq_false timing started) late free).trans
      (congrArg _ (endSlot_outside_joining kind))
  have goesOn {members : Vector (Option Member) 16} (present : ∀ m, s.members[s.cfg.number] = some m →
      ∃ m, members[s.cfg.number] = some m) :
      doWork (.leavingUpdate :: tail) (accounted members) = doWork tail (accounted members) := by
    refine doWork_leavingUpdate_done (updateLeaving_idle (s := accounted members) timing ?_)
    rcases station with h | h | ⟨-, h⟩
    · exact .inl (by rw [show (accounted members).station = _ from h]; decide)
    · exact .inl (by rw [show (accounted members).station = _ from h]; decide)
    · exact .inr (h.imp_right (Or.imp_right fun ⟨m, own⟩ => present m own))
  have stays (m' : Member) : ∀ m, s.members[s.cfg.number] = some m →
      ∃ m, (s.members.set t.slot (some m'))[s.cfg.number] = some m := by
    intro m own
    rw [set_get]
    split
    · exact ⟨m', rfl⟩
    · exact ⟨m, own⟩
  refine ⟨fun absent => ?_, fun m member heard => ?_, fun m member missed below => ?_,
    fun m member missed limit => ?_, fun idle members => ?_⟩
  · rw [run, doWork_accounting_done (accountSlot_absent (s := accounted s.members) timing absent)]
    exact congrArg _ (goesOn fun m own => ⟨m, own⟩)
  · rw [run, doWork_accounting_done (accountSlot_heard (s := accounted s.members) timing accounts member
      (Option.isSome_iff_ne_none.2 heard))]
    exact congrArg _ (goesOn (stays _))
  · rw [run, doWork_accounting_done (accountSlot_missed (s := accounted s.members) timing accounts member missed below)]
    exact congrArg _ (goesOn (stays _))
  · rw [run, doWork_accounting_stops (accountSlot_removal (s := accounted s.members) timing accounts member missed limit)]
  · exact doWork_slotTail (s := s) (u := accounted members) quiet timing size
      (participates_of_station participant) idle

/-! ## The leaving count's end (R122) -/

/-- Settles O40: the count, and the STOP that it completes. -/
theorem leavingCountCompletesTheStop : Obligations.LeavingCountCompletesTheStop := by
  unfold Obligations.LeavingCountCompletesTheStop
  intro s leaving law
  refine ⟨?_, fun rest work => ?_⟩
  · intro t c which quiet timing started late size free own corrupt absent tail counted
    have begun : exec c s =
        .next (doWork (.accounting :: .leavingUpdate :: tail) { s with freeIndex := s.freeIndex + 1 }) :=
      (exec_endSlot which quiet timing (ownSlotStartDue_eq_false timing started) late free).trans
        (congrArg _ (endSlot_outside_joining (.inr (.inr leaving))))
    have run : exec c s = .next (doWork (.leavingUpdate :: tail) { s with freeIndex := s.freeIndex + 1 }) :=
      begun.trans (congrArg _ (doWork_accounting_done (accountSlot_absent
        (s := { s with freeIndex := s.freeIndex + 1 }) timing
        ((congrArg (fun r : StationNo => s.members[r]) own).trans absent))))
    have counts := updateLeaving_counts (s := { s with freeIndex := s.freeIndex + 1 }) timing leaving own corrupt absent
    refine ⟨fun below => ?_, fun limit => ?_, fun idle => ?_⟩
    · rw [run, doWork_leavingUpdate_done (counts.trans (congrArg _ (decide_eq_false (Nat.not_le.2 below))))]
    · rw [run, doWork_leavingUpdate_stops (counts.trans (congrArg _ (decide_eq_true limit)))]
    · exact doWork_slotTail (s := s) (u := counted) quiet timing size
        (participates_of_station (.inr (.inr (.inr leaving)))) idle
  · have run : exec .leavingCountExpiry s = .next (resumeWork (enterReady .left { s with work := rest })) := by
      show Host.Outcome.next (doLeavingExpiry s) = _
      unfold doLeavingExpiry
      rw [work]
      exact congrArg _ (if_pos leaving)
    rw [run, resumeWork_of_none (enterReady_work _ _), enterReady_of_work, enterReady_of_no_records _
      (lostEvents_of_recordsLaw law (by rw [leaving]; decide) (by rw [leaving]; decide))]

/-! ## The slot end in JOINING (R139, R141) -/

/-- The orphan count after the slot. -/
def orphanCountAfter (s : State) (t : Timing) : Nat :=
  if t.usable.any (fun u => !u.own && !u.join) then 0 else s.orphanCount + 1

/-- The state with the orphan count and the JOIN-heard record of the slot. -/
def orphanCounted (s : State) (t : Timing) : State :=
  { s with
    orphanCount := orphanCountAfter s t
    joinHeard := if t.usable.any (fun u => u.join && !u.leave) then s.joinHeard ||| BitVec.twoPow 16 t.slot.val
      else s.joinHeard &&& ~~~ BitVec.twoPow 16 t.slot.val }

/-- The owner's count has reached its limit: its removal falls due. -/
def removalDue (s : State) (t : Timing) : Prop :=
  s.installed.getLsbD 0 = true ∧ t.usable = none ∧
    ∃ m, s.members[t.slot] = some m ∧ s.cfg.absenceLimit ≤ m.absence + 1

/-- The members with the owner accounted. -/
def accountedMembers (s : State) (t : Timing) : Vector (Option Member) 16 :=
  match s.members[t.slot] with
  | none => s.members
  | some m =>
    if s.installed.getLsbD 0 then
      s.members.set t.slot (some { m with absence := if t.usable.isSome then 0 else m.absence + 1 })
    else s.members

section
variable {s : State} {t : Timing}

theorem updateOrphan_eq (timing : s.timing = some t) (joining : s.station = .joining) :
    updateOrphan s = (orphanCounted s t, decide (2 * s.cfg.roundSize ≤ orphanCountAfter s t)) := by
  unfold updateOrphan
  split
  · rename_i none
    rw [timing] at none
    cases none
  · rename_i u some
    obtain rfl : t = u := Option.some.inj (timing.symm.trans some)
    exact if_pos joining

theorem accountSlot_of_removalDue (timing : s.timing = some t) (joining : s.station = .joining)
    (removal : removalDue s t) : accountSlot s = (s, some t.slot) := by
  obtain ⟨held, missed, m, member, limit⟩ := removal
  exact accountSlot_removal timing ((accountsAbsence_of_station (.inr (.inl joining))).trans held) member missed limit

theorem accountSlot_of_not_removalDue (timing : s.timing = some t) (joining : s.station = .joining)
    (stays : ¬ removalDue s t) : accountSlot s = ({ s with members := accountedMembers s t }, none) := by
  have accounts := accountsAbsence_of_station (s := s) (.inr (.inl joining))
  cases member : s.members[t.slot] with
  | none =>
    rw [accountSlot_absent timing member, accountedMembers, member]
  | some m =>
    cases held : membershipHeld s with
    | false =>
      have unheld : ¬ s.installed.getLsbD 0 = true := Bool.eq_false_iff.1 held
      rw [accountSlot_idle timing (accounts.trans held), accountedMembers, member]
      simp only [if_neg unheld]
    | true =>
      have installed : s.installed.getLsbD 0 = true := held
      cases usable : t.usable with
      | some u =>
        rw [accountSlot_heard timing (accounts.trans held) member (by rw [usable]; rfl), accountedMembers, member, usable]
        simp only [if_pos installed]
        rfl
      | none =>
        have below : m.absence + 1 < s.cfg.absenceLimit :=
          Nat.not_le.1 fun limit => stays ⟨installed, usable, m, member, limit⟩
        rw [accountSlot_missed timing (accounts.trans held) member usable below, accountedMembers, member, usable]
        simp only [if_pos installed]
        rfl

/-- The slot end in JOINING: either of the two updates may be first. -/
theorem endSlot_joining (joining : s.station = .joining) : endSlot t s =
    doWork (if Config.orphanFirst s.freeIndex then .orphanUpdate :: .accounting :: slotTail s t
      else .accounting :: .orphanUpdate :: slotTail s t) { s with freeIndex := s.freeIndex + 1 } := by
  rw [endSlot, slotEndWork_of_participates t (participates_of_station (.inr (.inl joining))), accountingWork,
    if_pos joining]
  split <;> rfl

end

/-- Settles O37: the two updates in either order, each going on or waiting for its step. -/
theorem slotEndCountsOrphanSlots : Obligations.SlotEndCountsOrphanSlots := by
  unfold Obligations.SlotEndCountsOrphanSlots
  intro s t c which joining quiet timing started late size free tail count bit flags begun counted removal members
  have run : exec c s = .next (doWork (if Config.orphanFirst s.freeIndex then .orphanUpdate :: .accounting :: tail
      else .accounting :: .orphanUpdate :: tail) begun) :=
    (exec_endSlot which quiet timing (ownSlotStartDue_eq_false timing started) late free).trans
      (congrArg _ (endSlot_joining joining))
  have orphans (members : Vector (Option Member) 16) : updateOrphan { begun with members := members } =
      ({ counted with members := members }, decide (2 * s.cfg.roundSize ≤ count)) :=
    updateOrphan_eq (s := { begun with members := members }) timing joining
  have accounted (stays : ¬ removal) : accountSlot begun = ({ begun with members := members }, none) :=
    accountSlot_of_not_removalDue (s := begun) timing joining stays
  have accountedAfter (stays : ¬ removal) : accountSlot counted = ({ counted with members := members }, none) :=
    accountSlot_of_not_removalDue (s := counted) timing joining stays
  refine ⟨fun below stays => ?_, fun first => ⟨fun below removes => ?_, fun limit => ?_⟩,
    fun last => ⟨fun removes => ?_, fun limit stays => ?_⟩, fun idle => ?_⟩
  · have under := decide_eq_false (Nat.not_le.2 below)
    rw [run]
    split
    · rw [doWork_orphanUpdate_done ((orphans s.members).trans (congrArg _ under)),
        show doWork (.accounting :: tail) counted = _ from doWork_accounting_done (accountedAfter stays)]
    · rw [doWork_accounting_done (accounted stays), doWork_orphanUpdate_done ((orphans members).trans (congrArg _ under))]
  · have under := decide_eq_false (Nat.not_le.2 below)
    rw [run, if_pos first, doWork_orphanUpdate_done ((orphans s.members).trans (congrArg _ under))]
    exact congrArg _ (doWork_accounting_stops (accountSlot_of_removalDue (s := counted) timing joining removes))
  · rw [run, if_pos first]
    exact congrArg _ (doWork_orphanUpdate_stops ((orphans s.members).trans (congrArg _ (decide_eq_true limit))))
  · rw [run, if_neg (Bool.eq_false_iff.1 last)]
    exact congrArg _ (doWork_accounting_stops (accountSlot_of_removalDue (s := begun) timing joining removes))
  · rw [run, if_neg (Bool.eq_false_iff.1 last), doWork_accounting_done (accounted stays)]
    exact congrArg _ (doWork_orphanUpdate_stops ((orphans members).trans (congrArg _ (decide_eq_true limit))))
  · exact doWork_slotTail (s := s) (u := { counted with members := members }) quiet timing size
      (participates_of_station (.inr (.inl joining))) idle

/-! ## The removal for absence (R49 to R52) -/

theorem removeStation_other_work {r : StationNo} (cause : LeaveCause) {s : State} (other : r ≠ s.own) :
    (removeStation r cause s).work = s.work := by
  obtain ⟨u, -, only, -, eq⟩ := removeStation_eq r cause s
  have own : u.own = s.own := by unfold State.own State.cfg; rw [only.config]
  rw [eq, if_neg (by rw [own]; exact other), only.work]

/-- Settles O38: another station's removal, and the own number's in each state. -/
theorem absenceRemovesAMember : Obligations.AbsenceRemovesAMember := by
  unfold Obligations.AbsenceRemovesAMember
  intro s r rest work left
  have run : exec .absenceRemoval s = .next (resumeWork (removeStation r .absent { s with work := rest })) := by
    show Host.Outcome.next (doAbsenceRemoval s) = _
    unfold doAbsenceRemoval
    rw [work]
  refine ⟨fun other => ?_, fun own station => ?_, fun own leaving law => ?_⟩
  · rw [run, resumeWork_of_work (removeStation_other_work .absent (s := { s with work := rest }) other)]
  · have evicts := removeStation_self_evicted (s := { s with work := rest }) station
    have listens := placeEvents_atListening (.memberLeft s.own .absent :: lostEvents s) (s := s)
      (t := { s with work := rest }) ⟨rfl, rfl, rfl⟩ rfl
    rw [placeEvents_cons, placeEvents_cons] at listens
    rw [lostEvents_work, show State.own { s with work := rest } = s.own from rfl, listens] at evicts
    rw [run, own, show removeStation s.cfg.number .absent { s with work := rest } = _ from evicts,
      resumeWork_of_none ((placeEvent_work _ _).trans rfl)]
    rfl
  · have removes := removeStation_self_leaving (s := { s with work := rest }) (.inl rfl) leaving law
    have rests := placeEvents_atRest [.memberLeft s.own .absent] (s := s) (t := { s with work := rest }) ⟨rfl, rfl, rfl⟩ rfl
    rw [placeEvents_cons, placeEvents_cons, placeEvents_nil, placeEvents_nil] at rests
    rw [show State.own { s with work := rest } = s.own from rfl, rests] at removes
    rw [run, own, show removeStation s.cfg.number .absent { s with work := rest } = _ from removes,
      resumeWork_of_none ((placeEvent_work _ _).trans rfl)]
    rfl

/-! ## The orphan action (R140) -/

theorem enterOrphanFounded_event (group : StationSet) (s : State) : enterOrphanFounded group s =
    placeEvent (.state .synced .orphanFounded) { (s.withoutReplica).withChunks allChunks 0 with
      station := .synced
      members := tabulate fun r =>
        if group.getLsbD r.val then some { joining := decide (r ≠ s.cfg.number), absence := 0 } else none } := rfl

/-- R140: the lowest of an orphaned group founds it anew. -/
theorem orphanAct_lowest {s : State} (lowest : ∀ r : StationNo, r < s.own → inSet r (setAdd s.own s.joinHeard) = false) :
    orphanAct s = enterOrphanFounded (setAdd s.own s.joinHeard) s := by
  refine if_pos (List.all_eq_true.2 fun r _ => ?_)
  by_cases below : r < s.own
  · rw [lowest r below, Bool.and_false]; rfl
  · rw [decide_eq_false below, Bool.false_and]; rfl

theorem orphanAct_other {s : State} {r : StationNo} (below : r < s.own)
    (named : inSet r (setAdd s.own s.joinHeard) = true) : orphanAct s = restartCatchUp s := by
  refine if_neg fun all => ?_
  have at_r := List.all_eq_true.1 all r (List.mem_finRange r)
  rw [decide_eq_true below, named] at at_r
  cases at_r

/-- Settles O39: the lowest of J and any other. -/
theorem orphanActionFoundsOrRestarts : Obligations.OrphanActionFoundsOrRestarts := by
  unfold Obligations.OrphanActionFoundsOrRestarts
  intro s rest joining work group left
  have filters : rest.filter (· != .accounting) = left :=
    List.filter_congr fun w _ => Bool.eq_iff_iff.2 (by rw [bne_iff_ne, decide_eq_true_iff])
  have run : exec .orphanFounded s = .next (resumeWork (orphanAct { s with work := left })) := by
    show Host.Outcome.next (doOrphanAction s) = _
    unfold doOrphanAction
    rw [work]
    dsimp only
    rw [if_pos joining, filters]
  refine ⟨fun lowest => ?_, fun ⟨r, below, named⟩ => ?_⟩
  · rw [run, orphanAct_lowest (s := { s with work := left }) lowest, enterOrphanFounded_event,
      resumeWork_of_work ((placeEvent_work _ _).trans rfl)]
    rfl
  · rw [run, orphanAct_other (s := { s with work := left }) below named,
      resumeWork_of_work (s := restartCatchUp { s with work := left }) rfl]
    rfl

/-! ## A lease expires, a wait runs out (R18, R62, R63) -/

section
variable {s : State} {lock : LockNo} {q : Request}

theorem reportExpiry_lost (request : s.requests[lock] = some q) (state : q.state = .held ∨ q.state = .releasing) :
    reportExpiry lock s = endRequest lock (.leaseLost q.tag lock) s := by
  unfold reportExpiry
  rw [request]
  rcases state with h | h <;> simp only [h]

theorem reportExpiry_timedOut (request : s.requests[lock] = some q) (state : q.state = .expiring) :
    reportExpiry lock s = endRequest lock (.timedOut q.tag lock) s := by
  unfold reportExpiry
  rw [request]
  simp only [state]

theorem expireWait_pending (request : s.requests[lock] = some q) (state : q.state = .pending) :
    expireWait lock s = endRequest lock (.timedOut q.tag lock) s := by
  unfold expireWait
  rw [request]
  simp only [state]

theorem expireWait_waiting (request : s.requests[lock] = some q) (state : q.state = .waiting) : expireWait lock s =
    queueIntent (.release lock) (setRequest lock (some { q with wait := none, state := .expiring }) s) := by
  unfold expireWait
  rw [request]
  simp only [state]

theorem holderOf_passEntry (waiters : List Waiter) : holderOf (passEntry waiters) = waiters.head?.map Waiter.station := by
  cases waiters <;> rfl

variable {holder : StationNo} {lease : Option (BitVec 3)} {waiters : List Waiter}

theorem expireLease_foreign (entry : s.locks[lock] = .held holder lease waiters) (foreign : holder ≠ s.own)
    (next : waiters.head?.map Waiter.station ≠ some s.own) : expireLease lock s = setLock lock (passEntry waiters) s := by
  unfold expireLease
  rw [entry]
  dsimp only
  rw [if_neg (show ¬ holder = (setLock lock (passEntry waiters) s).own from foreign), holderOf_passEntry]
  exact if_neg next

theorem expireLease_holder (entry : s.locks[lock] = .held holder lease waiters) (own : holder = s.own)
    (next : waiters.head?.map Waiter.station ≠ some s.own) :
    expireLease lock s = reportExpiry lock (setLock lock (passEntry waiters) s) := by
  have same : (reportExpiry lock (setLock lock (passEntry waiters) s)).own = s.own := by
    unfold State.own State.cfg
    rw [(reportExpiry_only _ _).config]
    rfl
  unfold expireLease
  rw [entry]
  dsimp only
  rw [if_pos (show holder = (setLock lock (passEntry waiters) s).own from own), holderOf_passEntry, same, if_neg next]

theorem expireLease_passes (entry : s.locks[lock] = .held holder lease waiters) (foreign : holder ≠ s.own)
    (next : waiters.head?.map Waiter.station = some s.own) :
    expireLease lock s = reportPass lock (setLock lock (passEntry waiters) s) := by
  unfold expireLease
  rw [entry]
  dsimp only
  rw [if_neg (show ¬ holder = (setLock lock (passEntry waiters) s).own from foreign), holderOf_passEntry]
  exact if_pos next

end

/-- Settles O41: the pass, with the report to the holder or to the next. -/
theorem leaseExpiryPassesTheLock : Obligations.LeaseExpiryPassesTheLock := by
  unfold Obligations.LeaseExpiryPassesTheLock
  intro s lock rest holder lease waiters work entry passed next
  have run : exec .leaseExpiry s = .next (doWork rest (expireLease lock { s with work := rest })) := by
    show Host.Outcome.next (doLeaseExpiry s) = _
    unfold doLeaseExpiry
    rw [work]
    exact congrArg _ (resumeWork_of_work (expireLease_only _ _).work)
  have passes : setLock lock (passEntry waiters) { s with work := rest } = passed := by
    cases waiters <;> rfl
  rw [run]
  refine ⟨fun foreign other => ?_, fun q own other request => ⟨fun state => ?_, fun state => ?_⟩,
    fun q foreign reaches request => ⟨fun state => ?_, fun state => ?_⟩⟩
  · rw [expireLease_foreign (s := { s with work := rest }) entry foreign other, passes]
  · rw [expireLease_holder (s := { s with work := rest }) entry own other, passes,
      reportExpiry_lost (s := passed) request state, endRequest_eq]
  · rw [expireLease_holder (s := { s with work := rest }) entry own other, passes,
      reportExpiry_timedOut (s := passed) request state, endRequest_eq]
  · rw [expireLease_passes (s := { s with work := rest }) entry foreign reaches, passes,
      reportPass_waiting (s := passed) request state]
    rfl
  · have settled : reportPass lock passed = passed := reportPass_of_not_waiting fun q' present waiting => by
      obtain rfl : q = q' := Option.some.inj (request.symm.trans present)
      rcases state with h | h <;> rw [waiting] at h <;> cases h
    rw [expireLease_passes (s := { s with work := rest }) entry foreign reaches, passes, settled]

/-- Settles O42: the end of a PENDING and of a WAITING request's wait. -/
theorem waitLimitExpiryEndsTheWait : Obligations.WaitLimitExpiryEndsTheWait := by
  intro s lock rest q work request
  have run : exec .waitLimitExpiry s = .next (doWork rest (expireWait lock { s with work := rest })) := by
    show Host.Outcome.next (doWaitExpiry s) = _
    unfold doWaitExpiry
    rw [work]
    exact congrArg _ (resumeWork_of_work (expireWait_only _ _).work)
  rw [run]
  refine ⟨fun state => ?_, fun state => ?_⟩
  · rw [expireWait_pending (s := { s with work := rest }) request state, endRequest_eq]
  · rw [expireWait_waiting (s := { s with work := rest }) request state]
    rfl

/-! ## Founding (R103, R107) -/

theorem enterFounding_event (s : State) : enterFounding s = placeEvent (.state .founding .founded)
    { (s.withoutReplica).withChunks allChunks 0 with
      station := .founding
      members := tabulate fun r => if r = s.cfg.number then some { joining := false, absence := 0 } else none
      reception := s.reception.map Reception.placeless
      timing := some (freshSlot true s.cfg.number 0 true)
      silence := 0, disagreement := 0, foundingOpen := true } := by
  have alone : (tabulate fun r => if inSet r (setAdd s.own 0) then some { joining := decide (r ≠ s.own), absence := 0 } else none)
      = tabulate fun r : StationNo => if r = s.cfg.number then some ({ joining := false, absence := 0 } : Member) else none := by
    refine vector_ext fun r => ?_
    rw [tabulate_get, tabulate_get, inSet_setAdd, inSet_zero]
    by_cases own : r = s.cfg.number
    · subst own
      simp [State.own]
    · rw [if_neg own, decide_eq_false (show ¬ r = s.own from own)]
      rfl
  rw [← alone]
  rfl

/-- Settles O43: the silence is long enough, and the founding is the transition of that name. -/
theorem silenceLeadsToFounding : Obligations.SilenceLeadsToFounding := by
  intro s listening quiet silent
  have due : foundedDue s = true := by
    rw [foundedDue, quiet, listening, decide_eq_true (show foundingWindow s ≤ s.silence from silent)]
    rfl
  show execFounded s = _
  rw [execFounded, if_pos due, enterFounding_event]

end Sys2Proof.Machine


/-! The items of a frame (R10 to R15, R30 to R33, R48), the removal of a station (R19, R34, R50) and the present set after a
frame (R43 to R47). -/

namespace Sys2Proof.Machine

/-! ## RENEW (R15) -/

section
variable {s : State} {sender : StationNo} {lock : LockNo}

theorem applyItem_renew (member : isUnmarked s sender = true) (place : lockInPlace s lock = true) :
    applyItem sender s (.renew lock) = setLock lock (renewEntry sender s.locks[lock]) s := by
  simp only [applyItem, admissible, member, place, Bool.and_self, if_true]
  rfl

theorem renewEntry_holder (level : BitVec 3) (waiters : List Waiter) :
    renewEntry sender (.held sender (some level) waiters) = .held sender (some 7#3) waiters := if_pos rfl

theorem renewEntry_other {e : LockEntry} (other : ∀ level waiters, e ≠ .held sender (some level) waiters) :
    renewEntry sender e = e := by
  unfold renewEntry
  split
  · rename_i holder level waiters
    refine if_neg ?_
    rintro rfl
    exact other level waiters rfl
  · rfl
  · rfl

end

/-- Settles O45: the holder's leased entry, and every other. -/
theorem renewItemRestoresTheLease : Obligations.RenewItemRestoresTheLease := by
  intro s sender lock member place
  rw [applyItem_renew member place]
  refine ⟨fun level waiters entry => ?_, fun other => ?_⟩
  · rw [entry, renewEntry_holder]
    rfl
  · rw [renewEntry_other other]
    exact setLock_self rfl

/-! ## RELEASE (R10, R12 to R14, R60, R61) -/

/-- The report of the own RELEASE, and none of another's (R60). -/
def tellRelease (sender : StationNo) (lock : LockNo) (s : State) : State :=
  if sender = s.own then reportRelease lock s else s

/-- The entry with the sender's RELEASE applied. -/
def released (sender : StationNo) (lock : LockNo) (s : State) : State :=
  setLock lock (entryWithout sender s.locks[lock]) s

section
variable {s : State} {sender : StationNo} {lock : LockNo} {q : Request}

theorem applyItem_release (member : isUnmarked s sender = true) (place : lockInPlace s lock = true) :
    applyItem sender s (.release lock) = applyRelease sender lock s := by
  simp only [applyItem, admissible, member, place, Bool.and_self, if_true]

theorem tellRelease_only (sender : StationNo) (lock : LockNo) (s : State) : OnlyRecords s (tellRelease sender lock s) := by
  unfold tellRelease
  split
  · exact reportRelease_only lock s
  · exact .refl s

theorem OnlyRecords.own {s t : State} (h : OnlyRecords s t) : t.own = s.own := by
  unfold State.own State.cfg
  rw [h.config]

/-- R60, R61: the RELEASE that passes the lock to the own station. -/
theorem applyRelease_passes {lease : Option (BitVec 3)} {w : Waiter} {others : List Waiter}
    (entry : s.locks[lock] = .held sender lease (w :: others)) (own : w.station = s.own) :
    applyRelease sender lock s = reportPass lock (tellRelease sender lock (released sender lock s)) := by
  have same : (tellRelease sender lock (setLock lock (passEntry (w :: others)) s)).own = s.own :=
    (tellRelease_only _ _ _).own
  unfold applyRelease released
  rw [entry, entryWithout_holder]
  exact (if_pos rfl).trans (if_pos (by
    show some w.station = some (tellRelease sender lock (setLock lock (passEntry (w :: others)) s)).own
    rw [same, own]))

/-- R60: any other RELEASE. -/
theorem applyRelease_stays
    (keeps : ∀ lease w others, s.locks[lock] = .held sender lease (w :: others) → w.station ≠ s.own) :
    applyRelease sender lock s = tellRelease sender lock (released sender lock s) := by
  unfold applyRelease released
  cases entry : s.locks[lock] with
  | free =>
    rw [entryWithout, setLock_self entry]
    rfl
  | held holder lease waiters =>
    by_cases holds : holder = sender
    · subst holds
      have same : (tellRelease holder lock (setLock lock (passEntry waiters) s)).own = s.own :=
        (tellRelease_only _ _ _).own
      rw [entryWithout_holder]
      refine (if_pos rfl).trans (if_neg ?_)
      show ¬ holderOf (passEntry waiters) = some (tellRelease holder lock (setLock lock (passEntry waiters) s)).own
      rw [same, holderOf_passEntry]
      cases waiters with
      | nil => exact fun h => nomatch h
      | cons w others => exact fun h => keeps lease w others entry (Option.some.inj h)
    · rw [entryWithout_other holds]
      exact if_neg holds

theorem applyRelease_locks (sender : StationNo) (lock : LockNo) (s : State) :
    (applyRelease sender lock s).locks = s.locks.set lock (entryWithout sender s.locks[lock]) := by
  have told : (tellRelease sender lock (released sender lock s)).locks = (released sender lock s).locks :=
    (tellRelease_only _ _ _).locks
  by_cases passes : ∃ lease w others, s.locks[lock] = .held sender lease (w :: others) ∧ w.station = s.own
  · obtain ⟨lease, w, others, entry, own⟩ := passes
    rw [applyRelease_passes entry own, reportPass_locks, told]
    rfl
  · rw [applyRelease_stays fun lease w others entry own => passes ⟨lease, w, others, entry, own⟩, told]
    rfl

theorem reportRelease_none (none : s.requests[lock] = none) : reportRelease lock s = s := by
  unfold reportRelease
  rw [none]

theorem reportRelease_releasing (request : s.requests[lock] = some q) (state : q.state = .releasing) :
    reportRelease lock s = endRequest lock (.released q.tag lock) s := by
  simp only [reportRelease, request, state]

theorem reportRelease_expiring (request : s.requests[lock] = some q) (state : q.state = .expiring) :
    reportRelease lock s = endRequest lock (.timedOut q.tag lock) s := by
  simp only [reportRelease, request, state]

theorem reportRelease_settled (request : s.requests[lock] = some q)
    (state : q.state = .pending ∨ q.state = .waiting ∨ q.state = .held) : reportRelease lock s = s := by
  rcases state with h | h | h <;> simp only [reportRelease, request, h]

theorem reportPass_none (none : s.requests[lock] = none) : reportPass lock s = s :=
  reportPass_of_not_waiting fun q request => by rw [none] at request; cases request

theorem endRequest_requests (lock : LockNo) (e : Event) (s : State) : (endRequest lock e s).requests[lock] = none := by
  rw [endRequest_eq]
  exact (set_get _ _ _ _).trans (if_pos rfl)

/-- R60: the own RELEASE whose report ends the request, whether or not the lock passes. -/
theorem applyRelease_ends {e : Event} (own : sender = s.own)
    (ends : reportRelease lock (released sender lock s) = endRequest lock e (released sender lock s)) :
    applyRelease sender lock s = endRequest lock e (released sender lock s) := by
  have told : tellRelease sender lock (released sender lock s) = endRequest lock e (released sender lock s) :=
    (if_pos (show sender = (released sender lock s).own from own)).trans ends
  by_cases passes : ∃ lease w others, s.locks[lock] = .held sender lease (w :: others) ∧ w.station = s.own
  · obtain ⟨lease, w, others, entry, next⟩ := passes
    rw [applyRelease_passes entry next, told, reportPass_none (endRequest_requests _ _ _)]
  · rw [applyRelease_stays fun lease w others entry next => passes ⟨lease, w, others, entry, next⟩, told]

theorem withdraw_eq (r : StationNo) (waiters : List Waiter) :
    withdraw r waiters = waiters.filter fun w => decide (w.station ≠ r) :=
  List.filter_congr fun w _ => Bool.eq_iff_iff.2 (by rw [bne_iff_ne, decide_eq_true_iff])

end

/-- Settles O46: the entry by its cases, and the report to the own request. -/
theorem releaseItemPassesOrWithdraws : Obligations.ReleaseItemPassesOrWithdraws := by
  unfold Obligations.ReleaseItemPassesOrWithdraws
  intro s sender lock member place item after entered passesTo
  have applied : item = applyRelease sender lock s := applyItem_release member place
  have locks : after = s.locks.set lock (entryWithout sender s.locks[lock]) :=
    (congrArg State.locks applied).trans (applyRelease_locks sender lock s)
  have enters : released sender lock s = entered := by
    show { s with locks := s.locks.set lock (entryWithout sender s.locks[lock]) } = { s with locks := after }
    rw [locks]
  have keeps (not : ¬ passesTo s.cfg.number) : item = tellRelease sender lock entered := by
    rw [applied, applyRelease_stays fun lease w others entry own => not ⟨lease, w, others, entry, own⟩, enters]
  have ends {e : Event} (own : sender = s.own) (report : reportRelease lock entered = endRequest lock e entered) :
      item = endRequest lock e entered := by
    rw [← enters] at report ⊢
    exact applied.trans (applyRelease_ends own report)
  refine ⟨fun free => ?_, fun lease entry => ?_, fun lease w waiters entry => ?_, fun holder lease waiters other entry => ?_,
    fun q own request => ⟨fun state => ?_, fun state => ?_, fun state not => ?_⟩,
    fun q foreign passes request state => ?_, fun foreign quiet => ?_, fun none => ?_⟩
  · rw [locks, free]
    exact set_self lock free
  · rw [locks, entry, entryWithout_holder]
    rfl
  · rw [locks, entry, entryWithout_holder]
    rfl
  · rw [locks, entry, entryWithout_other other, withdraw_eq]
  · rw [ends own (reportRelease_releasing (s := entered) request state), endRequest_eq]
  · rw [ends own (reportRelease_expiring (s := entered) request state), endRequest_eq]
  · rw [keeps not]
    exact (if_pos (show sender = entered.own from own)).trans (reportRelease_settled (s := entered) request state)
  · obtain ⟨lease, w, others, entry, own⟩ := passes
    have untold : tellRelease sender lock entered = entered := if_neg foreign
    rw [applied, applyRelease_passes entry own, enters, untold, reportPass_waiting (s := entered) request state]
    rfl
  · have untold : tellRelease sender lock entered = entered := if_neg foreign
    by_cases passes : passesTo s.cfg.number
    · obtain ⟨lease, w, others, entry, own⟩ := passes
      have idle := quiet.resolve_left (not_not_intro ⟨lease, w, others, entry, own⟩)
      rw [applied, applyRelease_passes entry own, enters, untold, reportPass_of_not_waiting (s := entered) idle]
    · rw [keeps passes, untold]
  · have untold : tellRelease sender lock entered = entered := by
      unfold tellRelease
      rw [reportRelease_none (s := entered) none, ite_self]
    by_cases passes : passesTo s.cfg.number
    · obtain ⟨lease, w, others, entry, own⟩ := passes
      rw [applied, applyRelease_passes entry own, enters, untold, reportPass_none (s := entered) none]
    · rw [keeps passes, untold]

/-! ## ARRIVE (R30 to R33, R71) -/

theorem applyItem_arrive {s : State} {sender : StationNo} {barrier : BarrierNo} (member : isUnmarked s sender = true)
    (held : membershipHeld s = true) : applyItem sender s (.arrive barrier) = applyArrive sender barrier s := by
  simp only [applyItem, admissible, member, held, Bool.and_self, if_true]

/-- R31: the completion test once a sender has arrived. -/
theorem completionTest_setAdd (sender : StationNo) (arrived : StationSet) (s : State) :
    completionTest (setAdd sender arrived) (requiredSet s) = true ↔
      ∀ r : StationNo, ∀ m, s.members[r] = some m → m.joining = false → inSet r (setAdd sender arrived) = true := by
  rw [completionTest_eq_true_iff, subset_iff]
  have nonempty : setAdd sender arrived ≠ 0 := by
    intro empty
    have mem : inSet sender (setAdd sender arrived) = true := by rw [inSet_setAdd]; simp
    rw [empty, inSet_zero] at mem
    cases mem
  constructor
  · rintro ⟨-, all⟩ r m member unmarked
    exact all r ((isUnmarked_iff s r).2 ⟨m, member, unmarked⟩)
  · intro all
    refine ⟨nonempty, fun r required => ?_⟩
    obtain ⟨m, member, unmarked⟩ := (isUnmarked_iff s r).1 required
    exact all r m member unmarked

section
variable {s : State} {sender : StationNo} {barrier : BarrierNo}

theorem arriveState_entry : (arriveState sender barrier s).barriers[barrier] = arriveEntry sender s.barriers[barrier] :=
  (set_get _ _ _ _).trans (if_pos rfl)

theorem arriveState_record : (arriveState sender barrier s).barrierRecords[barrier] = recordAfterArrive sender barrier s :=
  (set_get _ _ _ _).trans (if_pos rfl)

theorem completionRecord_arriveState : completionRecord (arriveState sender barrier s) barrier =
    if inSet s.own (setAdd sender s.barriers[barrier].arrived)
      then (recordAfterArrive sender barrier s).filter BarrierRecord.arrived else none := by
  unfold completionRecord
  rw [arriveState_entry, arriveState_record]
  rfl

end

/-- Settles O48: an ARRIVE again, a new one that leaves the barrier open, and one that completes it. -/
theorem arriveItemCompletesABarrier : Obligations.ArriveItemCompletesABarrier := by
  unfold Obligations.ArriveItemCompletesABarrier
  intro s sender barrier member held e arrived complete item record completed
  have applied : item = applyArrive sender barrier s := applyItem_arrive member held
  have test : completionTest (setAdd sender e.arrived) (requiredSet s) = true ↔ complete :=
    completionTest_setAdd sender e.arrived s
  refine ⟨fun again => applied.trans (applyArrive_again again), fun new incomplete => ?_, fun new completes => ?_⟩
  · rw [applied, applyArrive_new new, if_neg fun h => incomplete (test.1 h)]
    rfl
  · have done : item = completeBarrier barrier (arriveState sender barrier s) := by
      rw [applied, applyArrive_new new, if_pos (test.2 completes)]
    refine ⟨fun q own ends stands => ?_, fun quiet => ?_⟩
    · have told : completionRecord (arriveState sender barrier s) barrier = some q := by
        rw [completionRecord_arriveState, if_pos (by exact stands)]
        exact Option.filter_eq_some_iff.2 ⟨own, ends⟩
      have same : SameQueue completed (arriveState sender barrier s) := ⟨rfl, rfl, rfl⟩
      have generation : (arriveEntry sender s.barriers[barrier]).generation = e.generation := rfl
      have placed := placeEvent_of_same (.barrierDone q.tag barrier e.generation) same
      have only : _ = _ := placeEvent_only (.barrierDone q.tag barrier e.generation) completed
      rw [done, completeBarrier_of_some told, arriveState_entry, generation, endBarrierRecord_eq, placed]
      generalize placeEvent (.barrierDone q.tag barrier e.generation) completed = u at only ⊢
      rw [only]
      simp only [setBarrier, arriveState, Vector.set_set]
      rfl
    · have untold : completionRecord (arriveState sender barrier s) barrier = none := by
        rw [completionRecord_arriveState]
        split
        · rename_i stands
          rcases quiet with h | h | h
          · rw [show recordAfterArrive sender barrier s = none from h]; rfl
          · refine Option.eq_none_iff_forall_ne_some.2 fun q found => ?_
            obtain ⟨own, ends⟩ := Option.filter_eq_some_iff.1 found
            rw [h q own] at ends
            cases ends
          · rw [show inSet s.own (setAdd sender s.barriers[barrier].arrived) = false from h] at stands
            cases stands
        · rfl
      rw [done, completeBarrier_of_none untold, arriveState_entry]
      simp only [setBarrier, arriveState, Vector.set_set]
      rfl

/-! ## The removal of another station (R19, R34, R50) -/

section
variable {r : StationNo} {s : State} {cause : LeaveCause}

theorem OnlyReplica.own {s t : State} (h : OnlyReplica s t) : t.own = s.own := by
  unfold State.own State.cfg
  rw [h.config]

theorem removeStation_other (cause : LeaveCause) (other : r ≠ s.own) : removeStation r cause s =
    placeEvent (.memberLeft r cause) (setMember r none (removeFromBarriers r (removeFromLocks r s))) := by
  unfold removeStation
  dsimp only
  have own := (removeFromBarriers_onlyBarriers r (removeFromLocks r s)).own.trans (removeFromLocks_onlyLocks r s).own
  generalize removeFromBarriers r (removeFromLocks r s) = b at own ⊢
  have same : (placeEvent (.memberLeft r cause) (setMember r none b)).own = b.own := (placeEvent_only _ _).records.own
  rw [same, own, if_neg other]

/-- R71: the own record that a removal of another station ends at a barrier. -/
def recordEnded (r : StationNo) (s : State) (barrier : BarrierNo) : Option BarrierRecord :=
  if completesWithout r s barrier ∧ inSet s.own (arrivedWithout r s barrier) then
    (s.barrierRecords[barrier]).filter fun q => q.arrived
  else none

theorem removalRecord_withdrawArrivals (r : StationNo) (s : State) (barrier : BarrierNo) :
    removalRecord r (withdrawArrivals r s) barrier = recordEnded r s barrier := by
  unfold removalRecord completionRecord recordEnded
  rw [removalCompletes_withdrawArrivals, withdrawArrivals_get]
  by_cases completes : completesWithout r s barrier = true
  · rw [if_pos completes]
    exact if_congr (by rw [and_iff_right completes]; rfl) rfl rfl
  · rw [if_neg completes, if_neg fun h => completes h.1]

/-- R71: its event. -/
def endedEvent (r : StationNo) (s : State) (barrier : BarrierNo) : Option Event :=
  (recordEnded r s barrier).map fun q => .barrierDone q.tag barrier s.barriers[barrier].generation

theorem removalEvent_withdrawArrivals (r : StationNo) (s : State) :
    removalEvent r (withdrawArrivals r s) = endedEvent r s := by
  funext barrier
  unfold removalEvent endedEvent
  rw [removalRecord_withdrawArrivals, withdrawArrivals_get]

/-- R34, R71: the barrier table's part of a removal: the events, the records and the intents. -/
theorem removeFromBarriers_records (r : StationNo) (s : State) :
    SameQueue (placeEvents (allBarriers.filterMap (endedEvent r s)) s) (removeFromBarriers r s)
      ∧ (∀ B : BarrierNo, (removeFromBarriers r s).barrierRecords[B]
        = if (recordEnded r s B).isSome then none else s.barrierRecords[B])
      ∧ (removeFromBarriers r s).outbox
        = s.outbox.filter fun i => allBarriers.all fun b => !((recordEnded r s b).isSome && i.refersToBarrier b) := by
  obtain ⟨queue, records, outbox⟩ :=
    testDuringRemoval_fold_records r allBarriers (List.nodup_finRange 8) (withdrawArrivals r s)
  rw [removalEvent_withdrawArrivals] at queue
  have same : SameQueue s (withdrawArrivals r s) := ⟨rfl, rfl, rfl⟩
  refine ⟨(same.placeEvents _).trans queue, fun B => (records B).trans ?_, outbox.trans ?_⟩
  · rw [removalRecord_withdrawArrivals]
    exact if_congr (and_iff_right (List.mem_finRange B)) rfl rfl
  · simp only [removalRecord_withdrawArrivals]
    rfl

theorem recordEnded_of_onlyLocks {a : State} (only : OnlyLocks s a) (r : StationNo) (barrier : BarrierNo) :
    recordEnded r a barrier = recordEnded r s barrier := by
  unfold recordEnded completesWithout arrivedWithout
  rw [only.barriers, only.barrierRecords, only.own, requiredSet_of_members only.members]

/-- The events of a removal of another station, in order. -/
def removalEvents (r : StationNo) (cause : LeaveCause) (s : State) : List Event :=
  allLocks.filterMap (passEvent r s) ++ allBarriers.filterMap (endedEvent r s) ++ [.memberLeft r cause]

/-- R19, R34, R50, R61, R71: the removal of another station, block by block. -/
theorem removeStation_other_eq (cause : LeaveCause) (other : r ≠ s.own) : removeStation r cause s =
    { placeEvents (removalEvents r cause s) s with
      locks := tabulate fun lock => if lockInPlace s lock then entryWithout r s.locks[lock] else s.locks[lock]
      barriers := tabulate fun barrier => if completesWithout r s barrier
        then { generation := s.barriers[barrier].generation + 1, arrived := 0 }
        else { generation := s.barriers[barrier].generation, arrived := arrivedWithout r s barrier }
      members := s.members.set r none
      requests := tabulate (requestAfterPass r s)
      barrierRecords := tabulate fun barrier =>
        if (recordEnded r s barrier).isSome then none else s.barrierRecords[barrier]
      outbox := s.outbox.filter fun i =>
        allBarriers.all fun b => !((recordEnded r s b).isSome && i.refersToBarrier b) } := by
  have locksOnly := removeFromLocks_onlyLocks r s
  have locks := removeFromLocks_get r (s := s)
  obtain ⟨locksQueue, requests⟩ := removeFromLocks_requests other
  rw [removeStation_other cause other]
  generalize removeFromLocks r s = a at locksOnly locks locksQueue requests ⊢
  have barriersOnly := removeFromBarriers_onlyBarriers r a
  have barriers := removeFromBarriers_get r a
  obtain ⟨barriersQueue, records, outbox⟩ := removeFromBarriers_records r a
  have events : allBarriers.filterMap (endedEvent r a) = allBarriers.filterMap (endedEvent r s) :=
    List.filterMap_congr fun b _ => by rw [endedEvent, recordEnded_of_onlyLocks locksOnly, locksOnly.barriers, endedEvent]
  have queue : SameQueue (placeEvents (allLocks.filterMap (passEvent r s) ++ allBarriers.filterMap (endedEvent r s)) s)
      (removeFromBarriers r a) := by
    rw [placeEvents_append, ← events]
    exact (locksQueue.placeEvents _).trans barriersQueue
  generalize removeFromBarriers r a = b at barriersOnly barriers records outbox queue ⊢
  have final : SameQueue (placeEvents (removalEvents r cause s) s) (placeEvent (.memberLeft r cause) (setMember r none b)) := by
    rw [removalEvents, placeEvents_append]
    exact (queue.trans (u := setMember r none b) ⟨rfl, rfl, rfl⟩).placeEvent (.memberLeft r cause)
  have placed : _ = _ := placeEvent_only (.memberLeft r cause) (setMember r none b)
  have only : _ = _ := placeEvents_only (removalEvents r cause s) s
  generalize placeEvents (removalEvents r cause s) s = u at final only ⊢
  rw [placed, final.answers, final.notices, only]
  have lockTable : b.locks = tabulate fun lock => if lockInPlace s lock then entryWithout r s.locks[lock] else s.locks[lock] := by
    rw [barriersOnly.locks]
    refine vector_ext fun lock => (locks lock).trans ?_
    rw [tabulate_get]
  have barrierTable : b.barriers = tabulate fun barrier => if completesWithout r s barrier
      then { generation := s.barriers[barrier].generation + 1, arrived := 0 }
      else { generation := s.barriers[barrier].generation, arrived := arrivedWithout r s barrier } := by
    refine vector_ext fun barrier => (barriers barrier).trans ?_
    rw [tabulate_get, completesWithout, arrivedWithout, locksOnly.barriers, requiredSet_of_members locksOnly.members]
    rfl
  have requestTable : b.requests = tabulate (requestAfterPass r s) := by
    rw [barriersOnly.requests]
    exact vector_ext fun lock => (requests lock).trans (tabulate_get _ lock).symm
  have recordTable : b.barrierRecords = tabulate fun barrier =>
      if (recordEnded r s barrier).isSome then none else s.barrierRecords[barrier] := by
    refine vector_ext fun barrier => (records barrier).trans ?_
    rw [tabulate_get, recordEnded_of_onlyLocks locksOnly, locksOnly.barrierRecords]
  have intents : b.outbox = s.outbox.filter fun i =>
      allBarriers.all fun c => !((recordEnded r s c).isSome && i.refersToBarrier c) := by
    rw [outbox, locksOnly.outbox]
    simp only [recordEnded_of_onlyLocks locksOnly]
  have members : b.members = s.members := barriersOnly.members.trans locksOnly.members
  rw [← lockTable, ← barrierTable, ← requestTable, ← recordTable, ← intents, ← members]
  unfold OnlyBarriers at barriersOnly
  unfold OnlyLocks at locksOnly
  rw [barriersOnly, locksOnly]
  rfl

end

/-- R34: the completion of a barrier during a removal, member by member. -/
theorem completesWithout_eq (r : StationNo) (s : State) (barrier : BarrierNo) : completesWithout r s barrier =
    (decide (arrivedWithout r s barrier ≠ 0) && (List.finRange 16).all fun k => decide (k = r)
      || (s.members[k]).all (fun m => m.joining) || (arrivedWithout r s barrier).getLsbD k.val) := by
  unfold completesWithout
  rw [Bool.eq_iff_iff, completionTest_eq_true_iff, subset_iff, Bool.and_eq_true, decide_eq_true_iff, List.all_eq_true]
  refine and_congr_right fun _ => ?_
  have each (k : StationNo) : (inSet k (setRemove r (requiredSet s)) = true → inSet k (arrivedWithout r s barrier) = true)
      ↔ (decide (k = r) || (s.members[k]).all (fun m => m.joining) || (arrivedWithout r s barrier).getLsbD k.val) = true := by
    rw [inSet_setRemove, inSet_requiredSet, inSet]
    cases s.members[k] with
    | none => simp
    | some m => cases marked : m.joining <;> by_cases eq : k = r <;> simp [eq, marked]
  exact ⟨fun all k _ => (each k).1 (all k), fun all k => (each k).2 (all k (List.mem_finRange k))⟩

/-- Settles O49: the removal block by block, and the LEAVE item's three situations. -/
theorem removalLeavesNoTrace : Obligations.RemovalLeavesNoTrace := by
  unfold Obligations.RemovalLeavesNoTrace
  refine ⟨?_, fun s r => ⟨fun m member => applyLeave_of_present member,
    fun absent stays => applyLeave_of_absent absent stays,
    fun absent own leaving without law => applyLeave_completes absent own leaving without law⟩⟩
  intro s r cause other after granted arrived complete done events
  have completes (barrier : BarrierNo) : completesWithout r s barrier = complete barrier := completesWithout_eq r s barrier
  have grants : passGrant r s = granted := rfl
  have ends : recordEnded r s = done := by
    funext barrier
    unfold recordEnded
    rw [completes]
    rfl
  have tells : removalEvents r cause s = events := by
    unfold removalEvents passEvent endedEvent
    rw [grants, ends]
    rfl
  have entries (lock : LockNo) : (if lockInPlace s lock then entryWithout r s.locks[lock] else s.locks[lock]) =
      match s.locks[lock] with
      | .free => .free
      | .held holder lease waiters =>
        if lockInPlace s lock then
          if holder = r then
            match waiters with
            | [] => .free
            | w :: others => .held w.station (if w.leased then some 7#3 else none) others
          else .held holder lease (waiters.filter fun w => decide (w.station ≠ r))
        else .held holder lease waiters := by
    cases entry : s.locks[lock] with
    | free => exact ite_self _
    | held holder lease waiters =>
      dsimp only [entryWithout]
      rw [withdraw_eq]
      cases waiters <;> rfl
  refine (removeStation_other_eq cause other).trans ?_
  rw [tells, ends]
  simp only [entries, completes]
  rfl

/-! ## The present set after a frame (R43 to R47) -/

theorem placeEvent_notices (e : Event) (s : State) : (placeEvent e s).notices = addNotice (kindOf e) s.notices
    ∨ (placeEvent e s).notices = addNotice .overrun (addNotice (kindOf e) s.notices) := by
  unfold placeEvent
  dsimp only
  split
  · exact .inl rfl
  · split
    · exact .inl rfl
    · exact .inr rfl

/-- R175: the notice of an event. -/
theorem placeEvent_notices_own (e : Event) (s : State) :
    inSet (noticeBit (kindOf e)) (placeEvent e s).notices = true := by
  rcases placeEvent_notices e s with h | h <;> rw [h] <;> simp only [addNotice, inSet_setAdd, decide_true, Bool.or_true,
    Bool.true_or]

/-- R175: a notice stays when an event is placed. -/
theorem placeEvent_notices_kept (e : Event) {s : State} {i : Fin 15} (noticed : inSet i s.notices = true) :
    inSet i (placeEvent e s).notices = true := by
  rcases placeEvent_notices e s with h | h <;> rw [h] <;> simp only [addNotice, inSet_setAdd, noticed, Bool.true_or]

section
variable {r : StationNo} {s : State} {m : Member}

theorem handleJoin_adds (held : membershipHeld s = true) (absent : s.members[r] = none) :
    handleJoin r true s = addMember r s := by
  simp only [handleJoin, held, absent, if_true]

theorem handleJoin_stranger (absent : s.members[r] = none) : handleJoin r false s = s := by
  simp only [handleJoin, absent, ite_self]

theorem handleJoin_rejoins (held : membershipHeld s = true) (member : s.members[r] = some m)
    (unmarked : m.joining = false) : handleJoin r true s = addMember r (removeStation r .rejoin s) := by
  simp only [handleJoin, held, member, unmarked, if_true, Bool.false_eq_true, if_false]

theorem handleJoin_syncs (held : membershipHeld s = true) (member : s.members[r] = some m) (marked : m.joining = true) :
    handleJoin r false s = placeEvent (.memberSynced r) (setMember r (some { m with joining := false }) s) := by
  simp only [handleJoin, held, member, marked, if_true]

theorem addMember_members (r : StationNo) (s : State) :
    (addMember r s).members = s.members.set r (some { joining := true, absence := 0 }) := (placeEvent_only _ _).members

end

/-- What a frame's comparison, wanted set and the test for the end of catch-up leave alone. -/
structure ReplicaStays (s t : State) : Prop where
  members : t.members = s.members
  locks : t.locks = s.locks
  barriers : t.barriers = s.barriers
  notices : ∀ i, inSet i s.notices = true → inSet i t.notices = true

theorem ReplicaStays.trans {s t u : State} (h : ReplicaStays s t) (k : ReplicaStays t u) : ReplicaStays s u :=
  ⟨k.members.trans h.members, k.locks.trans h.locks, k.barriers.trans h.barriers, fun i mem => k.notices i (h.notices i mem)⟩

theorem ReplicaStays.placeEvent (e : Event) {s t : State} (h : ReplicaStays s t) : ReplicaStays s (placeEvent e t) :=
  have only := placeEvent_only e t
  ⟨only.members.trans h.members, only.locks.trans h.locks, only.barriers.trans h.barriers,
    fun i mem => placeEvent_notices_kept e (h.notices i mem)⟩

theorem gatherWanted_stays (f : Frame) (s : State) : ReplicaStays s (gatherWanted f s) := by
  unfold gatherWanted
  split
  · exact ⟨rfl, rfl, rfl, fun _ mem => mem⟩
  · split
    · exact ⟨rfl, rfl, rfl, fun _ mem => mem⟩
    · exact ⟨rfl, rfl, rfl, fun _ mem => mem⟩

theorem completeCatchUp_stays (s : State) : ReplicaStays s (completeCatchUp s) := by
  unfold completeCatchUp
  split
  · have resets : ReplicaStays s { resetTally (setChunks allChunks 0 s) with station := .synced } :=
      ⟨rfl, rfl, rfl, fun _ mem => mem⟩
    exact resets.placeEvent (.state .synced .caughtUp)
  · exact ⟨rfl, rfl, rfl, fun _ mem => mem⟩

/-- The comparison changes the tally, the answer queue and the notice set alone. -/
theorem compareDigest_only (f : Frame) (s : State) : OnlyAnswers s { compareDigest f s with
    matchCount := s.matchCount, mismatchCount := s.mismatchCount } := by
  unfold compareDigest
  split
  · rfl
  · split
    · split
      · rfl
      · have only : _ = _ := placeEvent_only (.digestMismatch f.station) { s with mismatchCount := s.mismatchCount + 1 }
        generalize placeEvent (.digestMismatch f.station) { s with mismatchCount := s.mismatchCount + 1 } = u at only ⊢
        rw [only]
        rfl
    · rfl

/-- The frame's membership step runs on a state with the same replica, and what follows it leaves the replica. -/
theorem processFrame_stays {f : Frame} {s : State} (items : f.items = []) (chunk : f.chunk = none) :
    ∃ u : State, u.members = s.members ∧ u.locks = s.locks ∧ u.barriers = s.barriers ∧ u.own = s.own
      ∧ membershipHeld u = membershipHeld s ∧ ReplicaStays (handleJoin f.station f.join u) (processFrame f s) := by
  have only := compareDigest_only f s
  have config : (compareDigest f s).config = s.config := only.config
  refine ⟨compareDigest f s, only.members, only.locks, only.barriers, ?_, ?_, ?_⟩
  · unfold State.own State.cfg
    rw [config]
  · unfold membershipHeld chunkInstalled
    rw [show (compareDigest f s).installed = s.installed from only.installed]
  · unfold processFrame installChunk
    dsimp only
    rw [items, chunk]
    exact (gatherWanted_stays f _).trans (completeCatchUp_stays _)

/-- Settles O50: Table 3-3, cell by cell. -/
theorem frameUpdatesThePresentSet : Obligations.FrameUpdatesThePresentSet := by
  unfold Obligations.FrameUpdatesThePresentSet
  intro f s items chunk foreign held r after replicaKept
  obtain ⟨u, members, locks, barriers, own, holds, stays⟩ := processFrame_stays (s := s) items chunk
  have there : membershipHeld u = true := holds.trans held
  have other : f.station ≠ u.own := by rw [own]; exact foreign
  have unchanged (same : handleJoin f.station f.join u = u) : after.members = s.members ∧ replicaKept := by
    rw [same] at stays
    exact ⟨stays.members.trans members, stays.locks.trans locks, stays.barriers.trans barriers⟩
  refine ⟨fun absent join => ?_, fun m member marked join => ?_, fun m member unmarked join => ?_,
    fun m member marked join => ?_, fun unmarked join => ?_⟩
  · rw [join, handleJoin_adds there (by rw [members]; exact absent)] at stays
    have only := placeEvent_only (.memberJoined f.station) (setMember f.station (some { joining := true, absence := 0 }) u)
    exact ⟨stays.members.trans ((addMember_members _ u).trans (by rw [members])),
      ⟨stays.locks.trans (only.locks.trans locks), stays.barriers.trans (only.barriers.trans barriers)⟩,
      stays.notices 9 (placeEvent_notices_own (.memberJoined f.station) _)⟩
  · exact unchanged (handleJoin_agrees (m := m) (by rw [members]; exact member) (by rw [join, marked]))
  · rw [join, handleJoin_rejoins there (by rw [members]; exact member) unmarked, removeStation_other .rejoin other] at stays
    have lockStep := removeFromLocks_onlyLocks f.station u
    have barrierStep := removeFromBarriers_onlyBarriers f.station (removeFromLocks f.station u)
    generalize removeFromBarriers f.station (removeFromLocks f.station u) = b at barrierStep stays
    have left : (placeEvent (.memberLeft f.station .rejoin) (setMember f.station none b)).members = s.members.set f.station none := by
      rw [(placeEvent_only _ _).members, setMember_members, barrierStep.members, lockStep.members, members]
    refine ⟨stays.members.trans ((addMember_members _ _).trans ?_), stays.notices 9
      (placeEvent_notices_own (.memberJoined f.station) _), stays.notices 11 ?_⟩
    · rw [left, Vector.set_set]
    · exact placeEvent_notices_kept (.memberJoined f.station)
        (placeEvent_notices_own (.memberLeft f.station .rejoin) (setMember f.station none b))
  · rw [join, handleJoin_syncs there (by rw [members]; exact member) marked] at stays
    have only := placeEvent_only (.memberSynced f.station) (setMember f.station (some { m with joining := false }) u)
    exact ⟨stays.members.trans (only.members.trans (by rw [setMember_members, members])),
      ⟨stays.locks.trans (only.locks.trans locks), stays.barriers.trans (only.barriers.trans barriers)⟩,
      stays.notices 10 (placeEvent_notices_own (.memberSynced f.station) _)⟩
  · refine unchanged ?_
    rw [join]
    cases member : u.members[f.station] with
    | none => exact handleJoin_stranger member
    | some m => exact handleJoin_agrees member (unmarked m (by rw [← members]; exact member))

end Sys2Proof.Machine


/-! The whole machine: every command has a next state and leaves the waiting queue (logs 1, 16), and what a command other
than a hard reset does to the configuration, the station state and the notices (R111, R114, R116, R172, R175). -/

namespace Sys2Proof.Machine

/-! ## Every command answers, and the waiting commands stay -/

theorem loseRecords_pending (s : State) : (loseRecords s).pending = s.pending := (loseRecords_only s).pending

theorem changeState_pending (state : StationState) (cause : StateCause) (s : State) :
    (changeState state cause s).pending = s.pending := (placeEvent_only _ _).pending

theorem enterReady_pending (cause : StateCause) (s : State) : (enterReady cause s).pending = s.pending := by
  have lost := loseRecords_pending s
  unfold enterReady
  generalize loseRecords s = u at lost ⊢
  exact (changeState_pending _ _ _).trans lost

theorem enterListening_pending (cause : StateCause) (s : State) : (enterListening cause s).pending = s.pending := by
  have lost := loseRecords_pending s
  unfold enterListening
  generalize loseRecords s = u at lost ⊢
  exact (changeState_pending _ _ _).trans lost

theorem enterDiverged_pending (s : State) : (enterDiverged s).pending = s.pending := by
  have lost := loseRecords_pending s
  unfold enterDiverged
  generalize loseRecords s = u at lost ⊢
  exact (changeState_pending _ _ _).trans lost

theorem enterLeaving_pending (s : State) : (enterLeaving s).pending = s.pending := by
  have lost := loseRecords_pending s
  unfold enterLeaving
  generalize loseRecords s = u at lost ⊢
  exact (changeState_pending _ _ _).trans lost

/-- No move touches the waiting commands (logs 1, 16). -/
theorem Move.pending {s t : State} (h : Move s t) : t.pending = s.pending := by
  cases h with
  | placeEvent e => exact (placeEvent_only e s).pending
  | beginSlot => rw [beginSlot_eq s]
  | arrive r b member held => exact (congrArg State.pending (applyArrive_onlyBarriers r b s) :)
  | remove r cause =>
    have locks := removeFromLocks_only r s
    generalize removeFromLocks r s = a at locks ⊢
    have barriers := removeFromBarriers_only r a
    generalize removeFromBarriers r a = b at barriers ⊢
    exact (placeEvent_only _ _).pending.trans (barriers.pending.trans locks.pending)
  | installChunk f =>
    rcases installChunk_cases f s with eq | ⟨c, -, -, -, -, eq⟩ | ⟨k, body, entries, -, -, -, -, -, eq⟩
    · rw [eq]
    · rw [eq]; rfl
    · rw [eq]; rfl
  | enterReady cause _ => exact enterReady_pending cause s
  | enterListening cause _ => exact enterListening_pending cause s
  | enterJoining t u _ _ _ _ => exact changeState_pending _ _ _
  | enterFounding _ => exact changeState_pending _ _ _
  | completeFounding _ => exact changeState_pending _ _ _
  | enterCaughtUp _ _ => exact changeState_pending _ _ _
  | enterDiverged _ => exact enterDiverged_pending s
  | enterLeaving _ => exact enterLeaving_pending s
  | enterOrphanFounded group _ => exact changeState_pending _ _ _
  | enterConfigured c _ _ => exact changeState_pending _ _ _
  | _ => rfl

/-- No command stops the machine. -/
theorem exists_exec_next (c : Instr) (s : State) : ∃ t, exec c s = .next t := by
  cases c with
  | sselAssert mosi =>
    show ∃ t, execSselAssert mosi s = .next t
    unfold execSselAssert
    split
    · exact ⟨_, rfl⟩
    · split <;> exact ⟨_, rfl⟩
  | cut =>
    show ∃ t, execCut s = .next t
    unfold execCut
    split <;> exact ⟨_, rfl⟩
  | peek =>
    show ∃ t, execPeek s = .next t
    unfold execPeek
    split <;> exact ⟨_, rfl⟩
  | sselNegated =>
    show ∃ t, execSselNegated s = .next t
    unfold execSselNegated
    split <;> exact ⟨_, rfl⟩
  | unknownCommand =>
    show ∃ t, execUnknownCommand s = .next t
    unfold execUnknownCommand
    split
    · exact ⟨_, rfl⟩
    · split <;> exact ⟨_, rfl⟩
  | ownSlotStart =>
    show ∃ t, execOwnSlotStart s = .next t
    unfold execOwnSlotStart
    split
    · split <;> exact ⟨_, rfl⟩
    · exact ⟨_, rfl⟩
  | ltxeAsserted =>
    show ∃ t, execLtxeAsserted s = .next t
    unfold execLtxeAsserted
    split <;> exact ⟨_, rfl⟩
  | transmissionEnd =>
    show ∃ t, execTransmissionEnd s = .next t
    unfold execTransmissionEnd
    split <;> exact ⟨_, rfl⟩
  | echoJudged early samples after =>
    show ∃ t, execEchoJudged early samples after s = .next t
    unfold execEchoJudged
    split
    · split
      · dsimp only
        split <;> exact ⟨_, rfl⟩
      · exact ⟨_, rfl⟩
    · exact ⟨_, rfl⟩
  | receptionEnded chars =>
    show ∃ t, execReceptionEnded chars s = .next t
    unfold execReceptionEnded
    generalize finishWork s = u
    dsimp only
    split <;> exact ⟨_, rfl⟩
  | receptionTimeLimit =>
    show ∃ t, execReceptionTimeLimit s = .next t
    unfold execReceptionTimeLimit
    split
    · split
      · dsimp only
        split <;> exact ⟨_, rfl⟩
      · exact ⟨_, rfl⟩
    · exact ⟨_, rfl⟩
  | silenceWindowEnd =>
    show ∃ t, execSilenceWindowEnd s = .next t
    unfold execSilenceWindowEnd
    split <;> exact ⟨_, rfl⟩
  | slotEnd =>
    show ∃ t, execSlotEnd s = .next t
    unfold execSlotEnd
    split
    · split
      · split <;> exact ⟨_, rfl⟩
      · exact ⟨_, rfl⟩
    · exact ⟨_, rfl⟩
  | heldSlotEnd =>
    show ∃ t, execHeldSlotEnd s = .next t
    unfold execHeldSlotEnd
    split
    · split <;> exact ⟨_, rfl⟩
    · exact ⟨_, rfl⟩
  | founded =>
    show ∃ t, execFounded s = .next t
    unfold execFounded
    split <;> exact ⟨_, rfl⟩
  | _ => exact ⟨_, rfl⟩

/-- Settles O52: a command's effect is a chain of moves, and none touches the waiting commands. -/
theorem everyCommandHasANextState : Obligations.EveryCommandHasANextState := by
  intro c s
  obtain ⟨t, next⟩ := exists_exec_next c s
  exact ⟨t, next, (exec_moves c s t next).keep (P := fun u => u.pending = s.pending)
    (fun _ _ move same => move.pending.trans same) rfl⟩

/-! ## What goes on without a reset (R111, R114, R116, R172, R175)

`Goes s t`: configuration and event mask stand, UNCONFIGURED is not entered, a change of the station state is noticed, and a
notice of STATE stays. Every operation but the hard reset, STATUS and an accepted CONFIGURE goes so. -/

/-- The notice of STATE (bit 13). -/
def stateNoticed (s : State) : Prop := inSet (13 : Fin 15) s.notices = true

structure Goes (s t : State) : Prop where
  config : t.config = s.config
  mask : t.eventMask = s.eventMask
  configured : s.station ≠ .unconfigured → t.station ≠ .unconfigured
  change : t.station = s.station ∨ stateNoticed t
  stays : stateNoticed s → stateNoticed t

section
variable {s t u : State}

theorem Goes.of_same (station : t.station = s.station) (config : t.config = s.config) (mask : t.eventMask = s.eventMask)
    (notices : t.notices = s.notices) : Goes s t :=
  ⟨config, mask, fun h => by rw [station]; exact h, .inl station, fun h => by unfold stateNoticed; rw [notices]; exact h⟩

theorem Goes.refl (s : State) : Goes s s := .of_same rfl rfl rfl rfl

theorem Goes.trans (h : Goes s t) (k : Goes t u) : Goes s u where
  config := k.config.trans h.config
  mask := k.mask.trans h.mask
  configured := fun start => k.configured (h.configured start)
  change := by
    rcases k.change with same | noticed
    · rcases h.change with first | noticed
      · exact .inl (same.trans first)
      · exact .inr (k.stays noticed)
    · exact .inr noticed
  stays := fun start => k.stays (h.stays start)

/-- Only other fields change after it. -/
theorem Goes.then_same (h : Goes s t) (station : u.station = t.station) (config : u.config = t.config)
    (mask : u.eventMask = t.eventMask) (notices : u.notices = t.notices) : Goes s u :=
  h.trans (.of_same station config mask notices)

theorem Goes.onlyIf {p : Prop} [Decidable p] {f : State → State} (h : Goes s u) (k : ∀ u, Goes u (f u)) :
    Goes s (if p then f u else u) := by
  split
  · exact h.trans (k u)
  · exact h

theorem Goes.foldl {α : Type} {f : State → α → State} (each : ∀ u a, Goes u (f u a)) (l : List α) (h : Goes s t) :
    Goes s (l.foldl f t) := by
  induction l generalizing t with
  | nil => exact h
  | cons a l ih => exact ih (h.trans (each t a))

theorem placeEvent_goes (e : Event) (s : State) : Goes s (placeEvent e s) :=
  have only := placeEvent_only e s
  ⟨only.config, only.eventMask, fun h => by rw [only.station]; exact h, .inl only.station, placeEvent_notices_kept e⟩

/-- R114: a transition is noticed. -/
theorem changeState_goes {state : StationState} (cause : StateCause) (entered : state ≠ .unconfigured) (s : State) :
    Goes s (changeState state cause s) := by
  have only := placeEvent_only (.state state cause) { resetTally s with station := state }
  refine ⟨only.config, only.eventMask, fun _ => ?_, .inr (placeEvent_notices_own (.state state cause) _), fun noticed =>
    placeEvent_notices_kept (.state state cause) (s := { resetTally s with station := state }) noticed⟩
  rw [changeState, only.station]
  exact entered

end

/-! The records. -/

theorem endRequest_goes (lock : LockNo) (e : Event) (s : State) : Goes s (endRequest lock e s) :=
  (placeEvent_goes e s).then_same rfl rfl rfl rfl

theorem endBarrierRecord_goes (b : BarrierNo) (e : Event) (s : State) : Goes s (endBarrierRecord b e s) :=
  (placeEvent_goes e s).then_same rfl rfl rfl rfl

theorem setRequest_goes (lock : LockNo) (q : Option Request) (s : State) : Goes s (setRequest lock q s) :=
  .of_same rfl rfl rfl rfl

theorem setLock_goes (lock : LockNo) (e : LockEntry) (s : State) : Goes s (setLock lock e s) := .of_same rfl rfl rfl rfl

theorem setMember_goes (r : StationNo) (m : Option Member) (s : State) : Goes s (setMember r m s) :=
  .of_same rfl rfl rfl rfl

theorem changeRequest_goes (lock : LockNo) (q : Option Request) (e : Event) (s : State) :
    Goes s (placeEvent e (setRequest lock q s)) := (setRequest_goes lock q s).trans (placeEvent_goes e _)

theorem loseRecords_goes (s : State) : Goes s (loseRecords s) := by
  have queue := loseRecords_queue s
  have only := loseRecords_only s
  have placed : Goes s (placeEvents (lostEvents s) s) := Goes.foldl (fun u e => placeEvent_goes e u) _ (.refl s)
  exact ⟨only.config, only.eventMask, fun h => by rw [only.station]; exact h, .inl only.station, fun h => by
    unfold stateNoticed
    rw [queue.notices]
    exact placed.stays h⟩

theorem reportAcquire_goes (lock : LockNo) (o : AcquireReport) (s : State) : Goes s (reportAcquire lock o s) := by
  unfold reportAcquire
  split
  · exact .refl s
  · split
    · exact changeRequest_goes _ _ _ s
    · exact changeRequest_goes _ _ _ s
    · exact endRequest_goes _ _ s
    · exact endRequest_goes _ _ s
    all_goals exact .refl s

theorem reportRelease_goes (lock : LockNo) (s : State) : Goes s (reportRelease lock s) := by
  unfold reportRelease
  split
  · exact .refl s
  · split
    · exact endRequest_goes _ _ s
    · exact endRequest_goes _ _ s
    all_goals exact .refl s

theorem reportPass_goes (lock : LockNo) (s : State) : Goes s (reportPass lock s) := by
  unfold reportPass
  split
  · exact .refl s
  · split
    · exact changeRequest_goes _ _ _ s
    all_goals exact .refl s

theorem reportExpiry_goes (lock : LockNo) (s : State) : Goes s (reportExpiry lock s) := by
  unfold reportExpiry
  split
  · exact .refl s
  · split
    · exact endRequest_goes _ _ s
    · exact endRequest_goes _ _ s
    · exact endRequest_goes _ _ s
    all_goals exact .refl s

theorem reportArrive_goes (barrier : BarrierNo) (s : State) : Goes s (reportArrive barrier s) := by
  unfold reportArrive
  split
  · exact .refl s
  · exact .of_same rfl rfl rfl rfl

theorem reportCompletion_goes (barrier : BarrierNo) (generation : BitVec 8) (s : State) :
    Goes s (reportCompletion barrier generation s) := by
  unfold reportCompletion
  split
  · exact .refl s
  · split
    · exact endBarrierRecord_goes _ _ s
    · exact .refl s

theorem hostRelease_goes (lock : LockNo) (s : State) : Goes s (hostRelease lock s) := by
  unfold hostRelease
  split
  · exact .refl s
  · dsimp only
    split
    · split
      · exact .of_same rfl rfl rfl rfl
      · exact endRequest_goes _ _ s
    · exact .of_same rfl rfl rfl rfl
    · split
      · exact .of_same rfl rfl rfl rfl
      · split <;> exact .of_same rfl rfl rfl rfl
    · exact .refl s
    · exact .refl s

theorem hostRenew_goes (lock : LockNo) (s : State) : Goes s (hostRenew lock s) := by
  unfold hostRenew
  split
  · exact .refl s
  · exact .of_same rfl rfl rfl rfl

theorem expireWait_goes (lock : LockNo) (s : State) : Goes s (expireWait lock s) := by
  unfold expireWait
  split
  · exact .refl s
  · split
    · exact endRequest_goes _ _ s
    · exact .of_same rfl rfl rfl rfl
    all_goals exact .refl s

theorem countWaits_goes (l : List LockNo) (s : State) : Goes s (countWaits l s).1 := by
  rw [countWaits_eq_visit]
  exact .of_same rfl rfl rfl rfl

theorem supplyItems_goes (s : State) : Goes s (supplyItems s).1 := by
  unfold supplyItems
  split <;> exact .of_same rfl rfl rfl rfl

/-! The lock table, the barrier table and the membership. -/

theorem passLock_goes (lock : LockNo) (waiters : List Waiter) (s : State) : Goes s (passLock lock waiters s) :=
  (setLock_goes lock _ s).onlyIf (reportPass_goes lock)

theorem applyAcquire_goes (r : StationNo) (lock : LockNo) (leased : Bool) (s : State) :
    Goes s (applyAcquire r lock leased s) := (setLock_goes lock _ s).onlyIf (reportAcquire_goes lock _)

theorem tellRelease_goes (r : StationNo) (lock : LockNo) (s : State) : Goes s (tellRelease r lock s) :=
  (Goes.refl s).onlyIf (reportRelease_goes lock)

theorem applyRelease_goes (r : StationNo) (lock : LockNo) (s : State) : Goes s (applyRelease r lock s) := by
  have told : Goes s (tellRelease r lock (released r lock s)) := (setLock_goes lock _ s).trans (tellRelease_goes r lock _)
  by_cases passes : ∃ lease w others, s.locks[lock] = .held r lease (w :: others) ∧ w.station = s.own
  · obtain ⟨lease, w, others, entry, own⟩ := passes
    rw [applyRelease_passes entry own]
    exact told.trans (reportPass_goes lock _)
  · rw [applyRelease_stays fun lease w others entry own => passes ⟨lease, w, others, entry, own⟩]
    exact told

theorem visitLeases_goes (l : List LockNo) (s : State) : Goes s (visitLeases l s).1 := by
  rw [visitLeases_eq_visit]
  exact .of_same rfl rfl rfl rfl

theorem expireLease_goes (lock : LockNo) (s : State) : Goes s (expireLease lock s) := by
  unfold expireLease
  split
  · exact .refl s
  · exact ((setLock_goes lock _ s).onlyIf (reportExpiry_goes lock)).onlyIf (reportPass_goes lock)

theorem removeFromLock_goes (r : StationNo) (lock : LockNo) (s : State) : Goes s (removeFromLock r lock s) := by
  unfold removeFromLock
  split
  · split
    · exact .refl s
    · split
      · split
        · exact setLock_goes _ _ s
        · exact passLock_goes _ _ s
      · exact setLock_goes _ _ s
  · exact .refl s

theorem removeFromLocks_goes (r : StationNo) (s : State) : Goes s (removeFromLocks r s) :=
  Goes.foldl (fun u L => removeFromLock_goes r L u) allLocks (.refl s)

theorem completeBarrier_goes (barrier : BarrierNo) (s : State) : Goes s (completeBarrier barrier s) :=
  ((Goes.refl s).onlyIf (reportCompletion_goes barrier _)).then_same rfl rfl rfl rfl

theorem applyArrive_goes (r : StationNo) (barrier : BarrierNo) (s : State) : Goes s (applyArrive r barrier s) := by
  cases arrived : inSet r s.barriers[barrier].arrived with
  | true =>
    rw [applyArrive_again arrived]
    exact .of_same rfl rfl rfl rfl
  | false =>
    rw [applyArrive_new arrived]
    have arrives : Goes s (arriveState r barrier s) := .of_same rfl rfl rfl rfl
    exact arrives.onlyIf (completeBarrier_goes barrier)

theorem removeFromBarriers_goes (r : StationNo) (s : State) : Goes s (removeFromBarriers r s) :=
  Goes.foldl (fun u b => (Goes.refl u).onlyIf (completeBarrier_goes b)) allBarriers (.of_same rfl rfl rfl rfl)

/-! The transitions. -/

theorem enterReady_goes (cause : StateCause) (s : State) : Goes s (enterReady cause s) := by
  have lost := loseRecords_goes s
  unfold enterReady
  generalize loseRecords s = u at lost ⊢
  refine Goes.trans ?_ (changeState_goes (state := .ready) cause (by decide) _)
  exact lost.then_same rfl rfl rfl rfl

theorem enterListening_goes (cause : StateCause) (s : State) : Goes s (enterListening cause s) := by
  have lost := loseRecords_goes s
  unfold enterListening
  generalize loseRecords s = u at lost ⊢
  refine Goes.trans ?_ (changeState_goes (state := .listening) cause (by decide) _)
  exact lost.then_same rfl rfl rfl rfl

theorem enterJoining_goes (cause : StateCause) (s : State) : Goes s (enterJoining cause s) := by
  unfold enterJoining
  refine Goes.trans ?_ (changeState_goes (state := .joining) cause (by decide) _)
  exact .of_same rfl rfl rfl rfl

theorem enterFounding_goes (s : State) : Goes s (enterFounding s) := by
  unfold enterFounding
  refine Goes.trans ?_ (changeState_goes (state := .founding) .founded (by decide) _)
  exact .of_same rfl rfl rfl rfl

theorem completeFounding_goes (s : State) : Goes s (completeFounding s) :=
  changeState_goes .foundingComplete (by decide) s

theorem enterCaughtUp_goes (s : State) : Goes s (enterCaughtUp s) := by
  unfold enterCaughtUp
  refine Goes.trans ?_ (changeState_goes (state := .synced) .caughtUp (by decide) _)
  exact .of_same rfl rfl rfl rfl

theorem enterDiverged_goes (s : State) : Goes s (enterDiverged s) := by
  have lost := loseRecords_goes s
  unfold enterDiverged
  generalize loseRecords s = u at lost ⊢
  refine Goes.trans ?_ (changeState_goes (state := .joining) .diverged (by decide) _)
  exact lost.then_same rfl rfl rfl rfl

theorem enterLeaving_goes (s : State) : Goes s (enterLeaving s) := by
  have lost := loseRecords_goes s
  unfold enterLeaving
  generalize loseRecords s = u at lost ⊢
  refine Goes.trans ?_ (changeState_goes (state := .leaving) .stopping (by decide) _)
  exact lost.then_same rfl rfl rfl rfl

theorem enterOrphanFounded_goes (group : StationSet) (s : State) : Goes s (enterOrphanFounded group s) := by
  unfold enterOrphanFounded
  refine Goes.trans ?_ (changeState_goes (state := .synced) .orphanFounded (by decide) _)
  exact .of_same rfl rfl rfl rfl

theorem ownRemoval_goes (cause : LeaveCause) (s : State) : Goes s (ownRemoval cause s) := by
  unfold ownRemoval
  split
  · exact enterListening_goes _ s
  · exact enterListening_goes _ s
  · exact enterListening_goes _ s
  · exact enterReady_goes _ s
  · exact enterReady_goes _ s
  · exact .refl s

theorem removeStation_goes (r : StationNo) (cause : LeaveCause) (s : State) : Goes s (removeStation r cause s) := by
  have locks := removeFromLocks_goes r s
  unfold removeStation
  dsimp only
  generalize removeFromLocks r s = a at locks ⊢
  have barriers := removeFromBarriers_goes r a
  generalize removeFromBarriers r a = b at barriers ⊢
  exact (((locks.trans barriers).trans (setMember_goes r none b)).trans (placeEvent_goes _ _)).onlyIf (ownRemoval_goes cause)

theorem addMember_goes (r : StationNo) (s : State) : Goes s (addMember r s) :=
  (setMember_goes r _ s).trans (placeEvent_goes _ _)

theorem handleJoin_goes (r : StationNo) (join : Bool) (s : State) : Goes s (handleJoin r join s) := by
  unfold handleJoin
  split
  · split
    · exact addMember_goes r s
    · exact .refl s
    · split
      · exact .refl s
      · exact (removeStation_goes r .rejoin s).trans (addMember_goes r _)
    · split
      · exact (setMember_goes r _ s).trans (placeEvent_goes _ _)
      · exact .refl s
  · exact .refl s

/-! The processing of a frame. -/

theorem applyLeave_goes (r : StationNo) (s : State) : Goes s (applyLeave r s) := by
  unfold applyLeave
  split
  · exact removeStation_goes r .leave s
  · split
    · exact enterReady_goes _ s
    · exact .refl s

theorem applyItem_goes (r : StationNo) (s : State) (item : Item) : Goes s (applyItem r s item) := by
  unfold applyItem
  split
  · exact applyLeave_goes r s
  · exact (Goes.refl s).onlyIf (applyAcquire_goes r _ _)
  · exact (Goes.refl s).onlyIf (applyRelease_goes r _)
  · exact (Goes.refl s).onlyIf fun u => setLock_goes _ _ u
  · exact (Goes.refl s).onlyIf (applyArrive_goes r _)

theorem applyItems_goes (r : StationNo) (items : List Item) (s : State) : Goes s (applyItems r items s) :=
  Goes.foldl (applyItem_goes r) items (.refl s)

theorem compareDigest_goes (f : Frame) (s : State) : Goes s (compareDigest f s) := by
  unfold compareDigest
  split
  · exact .refl s
  · split
    · split
      · exact .of_same rfl rfl rfl rfl
      · have counted : Goes s { s with mismatchCount := s.mismatchCount + 1 } := .of_same rfl rfl rfl rfl
        exact counted.trans (placeEvent_goes _ _)
    · exact .refl s

theorem gatherWanted_goes (f : Frame) (s : State) : Goes s (gatherWanted f s) := by
  unfold gatherWanted
  split
  · exact .refl s
  · split <;> exact .of_same rfl rfl rfl rfl

theorem installChunk_goes (f : Frame) (s : State) : Goes s (installChunk f s) := by
  rcases installChunk_cases f s with eq | ⟨c, -, -, -, -, eq⟩ | ⟨k, body, entries, -, -, -, -, -, eq⟩
  · rw [eq]; exact .refl s
  · rw [eq]; exact .of_same rfl rfl rfl rfl
  · rw [eq]; exact .of_same rfl rfl rfl rfl

theorem completeCatchUp_goes (s : State) : Goes s (completeCatchUp s) := (Goes.refl s).onlyIf enterCaughtUp_goes

theorem processFrame_goes (f : Frame) (s : State) : Goes s (processFrame f s) :=
  ((((compareDigest_goes f s).trans (handleJoin_goes _ _ _)).trans (gatherWanted_goes f _)).trans
    ((installChunk_goes f _).trans (completeCatchUp_goes _))).trans (applyItems_goes _ _ _)

theorem processOwnFrame_goes (f : Frame) (s : State) : Goes s (processOwnFrame f s) :=
  ((handleJoin_goes _ _ s).trans (completeCatchUp_goes _)).trans (applyItems_goes _ _ _)

/-! The slot timer. -/

theorem setTentative_goes (f : Frame) (age : Nat) (s : State) : Goes s (setTentative f age s) := by
  unfold setTentative
  split <;> exact .of_same rfl rfl rfl rfl

theorem hearFrame_goes (f : Frame) (placed : Bool) (age : Nat) (s : State) : Goes s (hearFrame f placed age s) := by
  have quiet : Goes s { s with silence := 0 } := .of_same rfl rfl rfl rfl
  unfold hearFrame
  dsimp only
  split
  · exact quiet.trans (enterReady_goes _ _)
  · split
    · exact quiet.trans (setTentative_goes f age _)
    · rename_i t _
      split
      · have confirmed : Goes s { s with
            silence := 0, timing := some { t.realigned f age with confirmed := true } } := .of_same rfl rfl rfl rfl
        exact confirmed.trans (enterJoining_goes _ _)
      · exact quiet.trans (setTentative_goes f age _)

theorem abandonFounding_goes (heard : Option (Frame × Nat)) (s : State) : Goes s (abandonFounding heard s) := by
  have enter := enterListening_goes .foundingAbandoned s
  unfold abandonFounding
  dsimp only
  split
  · exact enter
  · exact enter.trans (hearFrame_goes _ _ _ _)

theorem takeFrame_goes (rx : Reception) (f : Frame) (s : State) : Goes s (takeFrame rx f s) := by
  unfold takeFrame
  split
  · have realigned : Goes s { s with timing := s.timing.map fun t => t.realigned f rx.age, disagreement := 0 } :=
      .of_same rfl rfl rfl rfl
    exact realigned.trans (processFrame_goes f _)
  · split <;> exact .of_same rfl rfl rfl rfl

theorem judged_goes (rx : Reception) (frame : Option Frame) (s : State) : Goes s (judged rx frame s) := by
  unfold judged
  split
  · exact .refl s
  · split
    · exact hearFrame_goes _ _ _ s
    · exact abandonFounding_goes _ s
    · exact takeFrame_goes _ _ s
    · exact takeFrame_goes _ _ s
    · exact takeFrame_goes _ _ s
    · exact .refl s
    · exact .refl s

theorem loseSync_goes (f : Frame) (age : Nat) (s : State) : Goes s (loseSync f age s) := by
  unfold loseSync
  split
  · exact (enterListening_goes _ s).trans (hearFrame_goes _ _ _ _)
  · exact (enterListening_goes _ s).trans (hearFrame_goes _ _ _ _)
  · exact enterReady_goes _ s
  all_goals exact .refl s

theorem accountSlot_goes (s : State) : Goes s (accountSlot s).1 := by
  unfold accountSlot
  split
  · exact .refl s
  · split
    · split
      · exact .refl s
      · split
        · exact setMember_goes _ _ s
        · split
          · exact .refl s
          · exact setMember_goes _ _ s
    · exact .refl s

theorem updateOrphan_goes (s : State) : Goes s (updateOrphan s).1 := by
  unfold updateOrphan
  split
  · exact .refl s
  · split <;> exact .of_same rfl rfl rfl rfl

theorem updateLeaving_goes (s : State) : Goes s (updateLeaving s).1 := by
  unfold updateLeaving
  split
  · exact .refl s
  · split <;> exact .of_same rfl rfl rfl rfl

theorem orphanAct_goes (s : State) : Goes s (orphanAct s) := by
  unfold orphanAct
  dsimp only
  split
  · exact enterOrphanFounded_goes _ s
  · exact .of_same rfl rfl rfl rfl

theorem beginSlot_goes (s : State) : Goes s (beginSlot s) := by
  rw [beginSlot_eq s]
  exact .of_same rfl rfl rfl rfl

theorem work_goes (s : State) (work : List Work) : Goes s { s with work := work } := .of_same rfl rfl rfl rfl

theorem doWork_goes (l : List Work) (s : State) : Goes s (doWork l s) := by
  induction l generalizing s with
  | nil => exact work_goes s []
  | cons w rest ih =>
    unfold doWork
    split
    · have h := accountSlot_goes s
      split <;> (rename_i eq; rw [eq] at h)
      · exact h.trans (ih _)
      · exact h.trans (work_goes _ _)
    · have h := updateOrphan_goes s
      split <;> (rename_i eq; rw [eq] at h)
      · exact h.trans (ih _)
      · exact h.trans (work_goes _ _)
    · have h := updateLeaving_goes s
      split <;> (rename_i eq; rw [eq] at h)
      · exact h.trans (ih _)
      · exact h.trans (work_goes _ _)
    · rename_i start
      have h := visitLeases_goes (locksFrom start) s
      split <;> (rename_i eq; rw [eq] at h)
      · exact h.trans (ih _)
      · exact h.trans (work_goes _ _)
    · rename_i start
      split
      · have h := countWaits_goes (locksFrom start) s
        split <;> (rename_i eq; rw [eq] at h)
        · exact h.trans (ih _)
        · exact h.trans (work_goes _ _)
      · exact ih s
    · exact (beginSlot_goes s).trans (ih _)
    all_goals exact work_goes s _

theorem resumeWork_goes (s : State) : Goes s (resumeWork s) := doWork_goes s.work s

theorem endSlot_goes (t : Timing) (s : State) : Goes s (endSlot t s) :=
  Goes.trans (t := { s with freeIndex := s.freeIndex + 1 }) (.of_same rfl rfl rfl rfl) (doWork_goes _ _)

/-- The step that the head of the work waits for is done, and the work goes on. -/
theorem doStep_goes {f : State → State} (step : ∀ u, Goes u (f u)) (s : State) (rest : List Work) :
    Goes s (resumeWork (f { s with work := rest })) :=
  ((work_goes s rest).trans (step _)).trans (resumeWork_goes _)

theorem doAbsenceRemoval_goes (s : State) : Goes s (doAbsenceRemoval s) := by
  unfold doAbsenceRemoval
  split
  · exact doStep_goes (removeStation_goes _ _) s _
  · exact .refl s

theorem doOrphanAction_goes (s : State) : Goes s (doOrphanAction s) := by
  unfold doOrphanAction
  split
  · split
    · exact doStep_goes orphanAct_goes s _
    · exact doStep_goes (f := id) Goes.refl s _
  · exact .refl s

theorem doLeavingExpiry_goes (s : State) : Goes s (doLeavingExpiry s) := by
  unfold doLeavingExpiry
  split
  · split
    · exact doStep_goes (enterReady_goes _) s _
    · exact doStep_goes (f := id) Goes.refl s _
  · exact .refl s

theorem doLeaseExpiry_goes (s : State) : Goes s (doLeaseExpiry s) := by
  unfold doLeaseExpiry
  split
  · exact doStep_goes (expireLease_goes _) s _
  · exact .refl s

theorem doWaitExpiry_goes (s : State) : Goes s (doWaitExpiry s) := by
  unfold doWaitExpiry
  split
  · exact doStep_goes (expireWait_goes _) s _
  · exact .refl s

theorem doSyncLost_goes (s : State) : Goes s (doSyncLost s) := by
  unfold doSyncLost
  split
  · exact doStep_goes (loseSync_goes _ _) s _
  · exact .refl s

theorem doHead_goes (s : State) : Goes s (doHead s) := by
  unfold doHead
  split
  · exact doAbsenceRemoval_goes s
  · exact doOrphanAction_goes s
  · exact doLeavingExpiry_goes s
  · exact doLeaseExpiry_goes s
  · exact doWaitExpiry_goes s
  · exact doSyncLost_goes s
  all_goals exact resumeWork_goes s

theorem finishWork_goes (s : State) : Goes s (finishWork s) := by
  unfold finishWork
  induction workBound generalizing s with
  | zero => exact .refl s
  | succ n ih =>
    unfold finishSteps
    split
    · exact .refl s
    · exact (doHead_goes s).trans (ih _)

/-! The own slot start, the echo and the receiver. -/

theorem foundingStep_goes (s : State) : Goes s (foundingStep s) := by
  unfold foundingStep
  split
  · split
    · exact .of_same rfl rfl rfl rfl
    · exact completeFounding_goes s
  · exact .refl s

theorem giveVerdict_goes (s : State) : Goes s (giveVerdict s) :=
  Goes.onlyIf (u := resetTally s) (.of_same rfl rfl rfl rfl) enterDiverged_goes

theorem beginOwnSlot_goes (t : Timing) (s : State) : Goes s (beginOwnSlot t s) := by
  have begun := (foundingStep_goes s).trans (giveVerdict_goes _)
  unfold beginOwnSlot
  dsimp only
  generalize giveVerdict (foundingStep s) = a at begun ⊢
  have supplied := begun.trans (supplyItems_goes a)
  generalize supplyItems a = b at supplied ⊢
  have emptied : Goes b.1 (emptyGathered b.1) := by
    unfold emptyGathered
    split <;> exact .of_same rfl rfl rfl rfl
  exact (supplied.trans emptied).then_same rfl rfl rfl rfl

theorem echoWellFormed_goes (e : EchoComparator) (t : Timing) (s : State) : Goes s (echoWellFormed e t s) :=
  Goes.trans (t := settleOutbox { s with
    echo := none, timing := some { t with usable := some (usableOf true e.frame) } }) (.of_same rfl rfl rfl rfl)
    (processOwnFrame_goes _ _)

theorem echoCorrupted_goes (t : Timing) (s : State) : Goes s (echoCorrupted t s) :=
  Goes.onlyIf (u := requeueOutbox { s with echo := none, timing := some { t with echoCorrupt := true } })
    (.of_same rfl rfl rfl rfl) (abandonFounding_goes none)

theorem acceptStartBit_goes (s : State) : Goes s (acceptStartBit s) := by
  unfold acceptStartBit
  split
  · split <;> exact .of_same rfl rfl rfl rfl
  · exact .of_same rfl rfl rfl rfl
  · exact .of_same rfl rfl rfl rfl

theorem lineFalls_goes (low : Nat) (s : State) : Goes s (lineFalls low s) := by
  have rested : Goes s (if lineRested s then { s with lineWait := 0 } else s) := by
    split <;> exact .of_same rfl rfl rfl rfl
  exact (rested.onlyIf acceptStartBit_goes).then_same rfl rfl rfl rfl

theorem finishReception_goes (rx : Reception) (chars : List RxChar) (s : State) : Goes s (finishReception rx chars s) :=
  Goes.onlyIf (u := restLine (endReception s)) (.of_same rfl rfl rfl rfl) (judged_goes _ _)

/-! The host port. -/

theorem completeCode_goes (code : Byte) (s : State) : Goes s (completeCode code s) := by
  unfold completeCode
  split
  · split
    · exact .of_same rfl rfl rfl rfl
    · split
      · exact .of_same rfl rfl rfl rfl
      · split <;> exact .of_same rfl rfl rfl rfl
  · exact .refl s

theorem collectByte_goes (s : State) (b : Byte) : Goes s (collectByte s b) := by
  unfold collectByte
  split
  · dsimp only
    split
    · exact .of_same rfl rfl rfl rfl
    · split
      · exact .of_same rfl rfl rfl rfl
      · split
        · unfold takeRecord
          split <;> exact .of_same rfl rfl rfl rfl
        · exact .of_same rfl rfl rfl rfl
  · exact .refl s

theorem byteSent_goes (s : State) : Goes s (byteSent s) := by
  unfold byteSent
  split
  · dsimp only
    split <;> exact .of_same rfl rfl rfl rfl
  · exact .refl s

theorem byteComplete_goes (b : Byte) (s : State) : Goes s (byteComplete b s) := by
  unfold byteComplete
  split
  · exact completeCode_goes b s
  · exact collectByte_goes s b
  · exact byteSent_goes s
  all_goals exact .refl s

theorem clockBit_goes (s : State) (mosi : Bool) : Goes s (clockBit s mosi) := by
  unfold clockBit
  dsimp only
  split
  · refine Goes.trans ?_ (.of_same (s := byteComplete _ _) rfl rfl rfl rfl)
    refine Goes.trans ?_ (byteComplete_goes _ _)
    exact .of_same rfl rfl rfl rfl
  · exact .of_same rfl rfl rfl rfl

theorem clockBits_goes (mosi : List Bool) (s : State) : Goes s (clockBits mosi s) :=
  Goes.foldl clockBit_goes mosi (.refl s)

theorem clockCode_goes (code : Byte) (s : State) : Goes s (clockCode code s) := by
  unfold clockCode
  split
  · exact (Goes.refl s).onlyIf (clockBits_goes _)
  all_goals exact .refl s

theorem transact_goes (code : Byte) (phase : State → Bool) (mosi : List Bool) (s : State) :
    Goes s (transact code phase mosi s) := by
  unfold transact
  dsimp only
  split
  · exact (clockCode_goes code s).trans (clockBits_goes mosi _)
  · exact .refl s

/-! The command processor. -/

/-- What the common checks leave of a command. -/
theorem takeCommand_cases (kind : CommandKind) (act : CommandRecord → State → State) (s : State) :
    takeCommand kind act s = s ∨ (∃ r reason, takeCommand kind act s = refuse r reason (dequeue s))
      ∨ ∃ r, actsIn kind s.station = true ∧ takeCommand kind act s = act r (dequeue s) := by
  unfold takeCommand
  split
  · exact .inl rfl
  · rename_i r rest head
    split
    · split
      · exact .inr (.inl ⟨r, _, rfl⟩)
      · split
        · rename_i acts
          exact .inr (.inr ⟨r, acts, rfl⟩)
        · exact .inr (.inl ⟨r, _, rfl⟩)
    · exact .inl rfl

theorem refuse_goes (r : CommandRecord) (reason : RefusalReason) (s : State) : Goes s (refuse r reason s) :=
  .of_same rfl rfl rfl rfl

theorem accept_goes (r : CommandRecord) (s : State) : Goes s (accept r s) := .of_same rfl rfl rfl rfl

theorem takeCommand_goes {kind : CommandKind} {act : CommandRecord → State → State}
    (acts : ∀ r u, Goes u (act r u)) (s : State) : Goes s (takeCommand kind act s) := by
  have taken : Goes s (dequeue s) := .of_same rfl rfl rfl rfl
  rcases takeCommand_cases kind act s with eq | ⟨r, reason, eq⟩ | ⟨r, -, eq⟩ <;> rw [eq]
  · exact .refl s
  · exact taken.trans (refuse_goes r reason _)
  · exact taken.trans (acts r _)

theorem withLock_goes {r : CommandRecord} {act : LockNo → State → State} {s : State} (acts : ∀ L, Goes s (act L s)) :
    Goes s (withLock r act s) := by
  unfold withLock
  split
  · exact refuse_goes r _ s
  · exact acts _

theorem actStop_goes (r : CommandRecord) (s : State) : Goes s (actStop r s) := by
  unfold actStop
  split
  · exact (accept_goes r s).trans (enterReady_goes _ _)
  · exact (accept_goes r s).trans (enterLeaving_goes _)

theorem actAcquire_goes (r : CommandRecord) (s : State) : Goes s (actAcquire r s) := by
  refine withLock_goes fun L => ?_
  split
  · exact refuse_goes r _ s
  · split
    · exact refuse_goes r _ s
    · exact .of_same rfl rfl rfl rfl

theorem actRelease_goes (r : CommandRecord) (s : State) : Goes s (actRelease r s) := by
  refine withLock_goes fun L => ?_
  split
  · exact refuse_goes r _ s
  · split
    · exact refuse_goes r _ s
    · exact refuse_goes r _ s
    all_goals exact (accept_goes r s).trans (hostRelease_goes _ _)

theorem actRenew_goes (r : CommandRecord) (s : State) : Goes s (actRenew r s) := by
  refine withLock_goes fun L => ?_
  split
  · exact refuse_goes r _ s
  · split
    · exact refuse_goes r _ s
    · split
      · exact (accept_goes r s).trans (hostRenew_goes _ _)
      · exact refuse_goes r _ s

theorem actArrive_goes (r : CommandRecord) (s : State) : Goes s (actArrive r s) := by
  unfold actArrive
  split
  · exact refuse_goes r _ s
  · split
    · exact refuse_goes r _ s
    · exact .of_same rfl rfl rfl rfl

theorem actConfigure_idle {s : State} (configured : s.station ≠ .unconfigured) :
    Goes s (takeCommand .configure actConfigure s) := by
  have taken : Goes s (dequeue s) := .of_same rfl rfl rfl rfl
  rcases takeCommand_cases .configure actConfigure s with eq | ⟨r, reason, eq⟩ | ⟨r, acts, -⟩
  · rw [eq]
    exact .refl s
  · rw [eq]
    exact taken.trans (refuse_goes r reason _)
  · cases station : s.station <;> rw [station] at acts configured <;> first | exact absurd rfl configured | cases acts

/-! ## Every command -/

/-- Every command but the hard reset, STATUS and a CONFIGURE of an unconfigured station. -/
theorem exec_goes {c : Instr} {s t : State} (next : exec c s = .next t) (reset : c ≠ .hardReset) (status : c ≠ .status)
    (configure : c ≠ .configure ∨ s.station ≠ .unconfigured) : Goes s t := by
  cases c with
  | hardReset => exact absurd rfl reset
  | status => exact absurd rfl status
  | configure =>
    cases next
    exact actConfigure_idle (configure.resolve_left (not_not_intro rfl))
  | sselAssert mosi =>
    change execSselAssert mosi s = .next t at next
    unfold execSselAssert at next
    split at next
    · cases next
      exact Goes.trans (t := beginTransaction s) (.of_same rfl rfl rfl rfl) (clockBits_goes _ _)
    · split at next
      · cases next; exact clockBits_goes _ s
      · cases next; exact .refl s
  | commandTransaction mosi => cases next; exact transact_goes _ _ mosi s
  | answerTransaction mosi => cases next; exact transact_goes _ _ mosi s
  | cut =>
    change execCut s = .next t at next
    unfold execCut at next
    split at next <;> cases next
    · exact .of_same rfl rfl rfl rfl
    · exact .refl s
  | sselNegated =>
    change execSselNegated s = .next t at next
    unfold execSselNegated at next
    split at next <;> cases next
    · exact .of_same rfl rfl rfl rfl
    · exact .refl s
  | peek =>
    change execPeek s = .next t at next
    unfold execPeek at next
    split at next <;> cases next
    · exact clockCode_goes _ s
    · exact .refl s
  | unknownCommand =>
    change execUnknownCommand s = .next t at next
    unfold execUnknownCommand at next
    split at next
    · cases next; exact .refl s
    · split at next <;> cases next
      · exact .of_same rfl rfl rfl rfl
      · exact .refl s
  | start => cases next; exact takeCommand_goes (fun r u => (accept_goes r u).trans (enterListening_goes _ _)) s
  | stop => cases next; exact takeCommand_goes actStop_goes s
  | abandon => cases next; exact takeCommand_goes (fun r u => (accept_goes r u).trans (enterReady_goes _ _)) s
  | acquire => cases next; exact takeCommand_goes actAcquire_goes s
  | release => cases next; exact takeCommand_goes actRelease_goes s
  | renew => cases next; exact takeCommand_goes actRenew_goes s
  | arrive => cases next; exact takeCommand_goes actArrive_goes s
  | queryLock => cases next; exact takeCommand_goes (fun r u => withLock_goes fun _ => .of_same rfl rfl rfl rfl) s
  | queryMembers => cases next; exact takeCommand_goes (act := actQueryMembers) (fun r u => .of_same rfl rfl rfl rfl) s
  | ownSlotStart =>
    change execOwnSlotStart s = .next t at next
    unfold execOwnSlotStart at next
    split at next
    · split at next <;> cases next
      · exact beginOwnSlot_goes _ s
      · exact .refl s
    · cases next; exact .refl s
  | ltxeAsserted =>
    change execLtxeAsserted s = .next t at next
    unfold execLtxeAsserted at next
    split at next <;> cases next <;> exact .of_same rfl rfl rfl rfl
  | transmissionEnd =>
    change execTransmissionEnd s = .next t at next
    unfold execTransmissionEnd at next
    split at next <;> cases next <;> exact .of_same rfl rfl rfl rfl
  | echoJudged early samples after =>
    change execEchoJudged early samples after s = .next t at next
    unfold execEchoJudged at next
    split at next
    · split at next
      · rename_i e u _ _
        have ended (after : Bool) : Goes s (endEchoReception u after s) := .of_same rfl rfl rfl rfl
        dsimp only at next
        split at next <;> cases next
        · exact (ended _).trans (echoWellFormed_goes _ _ _)
        · exact (ended _).trans (echoCorrupted_goes _ _)
      · cases next; exact .refl s
    · cases next; exact .refl s
  | receptionBegins low => cases next; exact (finishWork_goes s).trans (lineFalls_goes low _)
  | receptionEnded chars =>
    change execReceptionEnded chars s = .next t at next
    unfold execReceptionEnded at next
    have finished := finishWork_goes s
    dsimp only at next
    generalize finishWork s = u at finished next
    split at next <;> cases next
    · exact finished.trans (finishReception_goes _ _ _)
    · exact finished
  | receptionTimeLimit =>
    change execReceptionTimeLimit s = .next t at next
    unfold execReceptionTimeLimit at next
    split at next
    · split at next
      · have ended : Goes s (awaitRest (endReception s)) := .of_same rfl rfl rfl rfl
        dsimp only at next
        split at next <;> cases next
        · exact ended.trans (judged_goes _ _ _)
        · exact ended
      · cases next; exact .refl s
    · cases next; exact .refl s
  | syncLost => cases next; exact doSyncLost_goes s
  | silenceWindowEnd =>
    change execSilenceWindowEnd s = .next t at next
    unfold execSilenceWindowEnd at next
    split at next <;> cases next <;> exact .of_same rfl rfl rfl rfl
  | slotEnd =>
    change execSlotEnd s = .next t at next
    unfold execSlotEnd at next
    split at next
    · split at next
      · split at next <;> cases next
        · exact .of_same rfl rfl rfl rfl
        · exact endSlot_goes _ s
      · cases next; exact .refl s
    · cases next; exact .refl s
  | heldSlotEnd =>
    change execHeldSlotEnd s = .next t at next
    unfold execHeldSlotEnd at next
    split at next
    · split at next <;> cases next
      · exact endSlot_goes _ s
      · exact .refl s
    · cases next; exact .refl s
  | absenceRemoval => cases next; exact doAbsenceRemoval_goes s
  | orphanFounded => cases next; exact doOrphanAction_goes s
  | leavingCountExpiry => cases next; exact doLeavingExpiry_goes s
  | leaseExpiry => cases next; exact doLeaseExpiry_goes s
  | waitLimitExpiry => cases next; exact doWaitExpiry_goes s
  | founded =>
    change execFounded s = .next t at next
    unfold execFounded at next
    split at next <;> cases next
    · exact enterFounding_goes s
    · exact .refl s

/-- STATUS changes the queues and the notice set alone. -/
theorem exec_status_keeps {s t : State} (next : exec .status s = .next t) :
    t.station = s.station ∧ t.config = s.config ∧ t.eventMask = s.eventMask := by
  cases next
  rcases takeCommand_cases .status actStatus s with eq | ⟨r, reason, eq⟩ | ⟨r, -, eq⟩ <;> rw [eq] <;> exact ⟨rfl, rfl, rfl⟩

/-- An accepted CONFIGURE is noticed, and a refused one changes no state. -/
theorem exec_configure_noticed {s t : State} (next : exec .configure s = .next t) :
    t.station = s.station ∨ stateNoticed t := by
  cases next
  rcases takeCommand_cases .configure actConfigure s with eq | ⟨r, reason, eq⟩ | ⟨r, -, eq⟩ <;> rw [eq]
  · exact .inl rfl
  · exact .inl rfl
  · unfold actConfigure
    split
    · exact .inl rfl
    · exact .inr (placeEvent_notices_own (.state .ready .configured) _)

/-- Settles O53: every command but the hard reset goes so, and STATUS changes no state. -/
theorem configurationStandsUntilReset : Obligations.ConfigurationStandsUntilReset := by
  intro c s t next reset configured
  by_cases status : c = .status
  · subst status
    obtain ⟨station, config, mask⟩ := exec_status_keeps next
    exact ⟨by rw [station]; exact configured, config, mask⟩
  · have goes := exec_goes next reset status (.inr configured)
    exact ⟨goes.configured configured, goes.config, goes.mask⟩

/-- Settles O54: a change of state places the STATE event, and the notice stays to the command's end. -/
theorem everyTransitionIsNoticed : Obligations.EveryTransitionIsNoticed := by
  intro c s t next reset changed
  have noticed : t.station = s.station ∨ stateNoticed t := by
    by_cases status : c = .status
    · subst status
      exact .inl (exec_status_keeps next).1
    · by_cases configure : c = .configure
      · subst configure
        exact exec_configure_noticed next
      · exact (exec_goes next reset status (.inl configure)).change
  exact noticed.resolve_left changed

end Sys2Proof.Machine


/-! The bytes of a frame and what a reception gives back (R79, R82, R83, R85, R180, Tables 12-7 and 12-8). -/

namespace Sys2Proof.Machine

/-! ## Bytes and words -/

theorem msbFirst_eq (w : Word16) : msbFirst w = [byteOf (w.toNat / 256), byteOf (w.toNat % 256)] := by
  have both := lsbFirst_eq w
  obtain ⟨low, high⟩ := List.cons.inj both
  rw [msbFirst, low, (List.cons.inj high).1]

theorem toNat_wordOf (high low : Byte) : (wordOf high low).toNat = 256 * high.toNat + low.toNat := by
  have below := low.isLt
  rw [wordOf, BitVec.toNat_append, Nat.shiftLeft_eq, Nat.mul_comm, ← Nat.two_pow_add_eq_or_of_lt below]

theorem wordOf_high_low (w : Word16) : wordOf (highByte w) (lowByte w) = w := by
  apply BitVec.eq_of_toNat_eq
  have below := w.isLt
  rw [toNat_wordOf, highByte, lowByte, BitVec.toNat_setWidth, BitVec.toNat_setWidth, BitVec.toNat_ushiftRight,
    Nat.shiftRight_eq_div_pow]
  omega

theorem byteOf_toNat (b : Byte) : byteOf b.toNat = b := (BitVec.ofNat_toNat 8 b).trans (BitVec.setWidth_eq b)

/-- R180: bits 9 to 15 of a wanted set are held at 0. -/
theorem highBits_setWidth (set : ChunkSet) : set.setWidth 16 &&& 0xFE00#16 = 0 := by
  apply BitVec.eq_of_getLsbD_eq
  intro i bound
  by_cases low : i < 9
  · have : i = 0 ∨ i = 1 ∨ i = 2 ∨ i = 3 ∨ i = 4 ∨ i = 5 ∨ i = 6 ∨ i = 7 ∨ i = 8 := by omega
    rcases this with rfl | rfl | rfl | rfl | rfl | rfl | rfl | rfl | rfl <;> simp
  · simp [BitVec.getLsbD_of_ge set i (by omega)]

theorem highBits_wordOf {high low : Byte} (big : 1 < high.toNat) : wordOf high low &&& 0xFE00#16 ≠ 0 := by
  have bits : ∀ h : Byte, 1 < h.toNat → ∃ i : Fin 7, h.getLsbD (i.val + 1) = true := by decide
  obtain ⟨i, set⟩ := bits high big
  intro zero
  have mask : ∀ i : Fin 7, (0xFE00#16).getLsbD (i.val + 9) = true := by decide
  have bit : (wordOf high low &&& 0xFE00#16).getLsbD (i.val + 9) = true := by
    rw [BitVec.getLsbD_and, mask, Bool.and_true, wordOf, BitVec.getLsbD_append, if_neg (by omega),
      show i.val + 9 - 8 = i.val + 1 by omega, set]
  rw [zero, show (0 : Word16) = 0#16 from rfl, BitVec.getLsbD_zero] at bit
  cases bit

/-! ## Items (Table 12-8) -/

theorem toNat_byteOf_of_lt {n : Nat} (below : n < 256) : (byteOf n).toNat = n := by
  rw [toNat_byteOf, Nat.mod_eq_of_lt below]

theorem readLock_byteOf (lock : LockNo) : readLock (byteOf lock.val) = some lock :=
  readLock_eq_some (toNat_byteOf_of_lt (by have := lock.isLt; omega))

theorem readBarrier_byteOf (barrier : BarrierNo) : readBarrier (byteOf barrier.val) = some barrier := by
  have value : (byteOf barrier.val).toNat = barrier.val := toNat_byteOf_of_lt (by have := barrier.isLt; omega)
  unfold readBarrier
  rw [dif_pos (by rw [value]; exact barrier.isLt)]
  exact congrArg some (Fin.ext value)

theorem readItems_cons {kind operand : Byte} {i : Item} (read : readItem kind operand = some i) (rest : List Byte) :
    readItems (kind :: operand :: rest) = (readItems rest).map (i :: ·) := by
  rw [readItems, read]
  cases readItems rest <;> rfl

theorem readItems_itemBytes (i : Item) (rest : List Byte) :
    readItems (itemBytes i ++ rest) = (readItems rest).map (i :: ·) := by
  cases i with
  | acquire lock leased =>
    refine readItems_cons ?_ rest
    cases leased
    · exact congrArg (Option.map (Item.acquire · false)) (readLock_byteOf lock)
    · exact congrArg (Option.map (Item.acquire · true)) (readLock_byteOf lock)
  | release lock =>
    refine readItems_cons ?_ rest
    exact congrArg (Option.map Item.release) (readLock_byteOf lock)
  | renew lock =>
    refine readItems_cons ?_ rest
    exact congrArg (Option.map Item.renew) (readLock_byteOf lock)
  | arrive barrier =>
    refine readItems_cons ?_ rest
    exact congrArg (Option.map Item.arrive) (readBarrier_byteOf barrier)
  | leave => exact readItems_cons rfl rest

/-- The items of a frame read back. -/
theorem readItems_flatMap (items : List Item) : readItems (items.flatMap itemBytes) = some items := by
  induction items with
  | nil => rfl
  | cons i rest ih => rw [List.flatMap_cons, readItems_itemBytes, ih, Option.map_some]

theorem itemBytes_length (i : Item) : (itemBytes i).length = 2 := by cases i <;> rfl

theorem flatMap_itemBytes_length (items : List Item) : (items.flatMap itemBytes).length = 2 * items.length := by
  induction items with
  | nil => rfl
  | cons i rest ih => rw [List.flatMap_cons, List.length_append, itemBytes_length, ih, List.length_cons]; omega

/-- Items read from pairs of bytes, one item for each pair. -/
theorem readItems_pairs {pairs : List (Byte × Byte)} {items : List Item}
    (read : readItems (pairs.flatMap fun p => [p.1, p.2]) = some items) :
    items.length = pairs.length ∧ ∀ p ∈ pairs, ∃ i ∈ items, readItem p.1 p.2 = some i := by
  induction pairs generalizing items with
  | nil => cases read; exact ⟨rfl, fun _ mem => absurd mem List.not_mem_nil⟩
  | cons p rest ih =>
    rw [List.flatMap_cons] at read
    cases first : readItem p.1 p.2 with
    | none =>
      rw [show [p.1, p.2] ++ rest.flatMap (fun p => [p.1, p.2]) = p.1 :: p.2 :: rest.flatMap fun p => [p.1, p.2] from rfl,
        readItems, first] at read
      cases read
    | some i =>
      rw [show [p.1, p.2] ++ rest.flatMap (fun p => [p.1, p.2]) = p.1 :: p.2 :: rest.flatMap fun p => [p.1, p.2] from rfl,
        readItems_cons first, Option.map_eq_some_iff] at read
      obtain ⟨others, readRest, rfl⟩ := read
      obtain ⟨length, each⟩ := ih readRest
      refine ⟨congrArg (· + 1) length, fun q mem => ?_⟩
      rcases List.mem_cons.1 mem with rfl | mem
      · exact ⟨i, List.mem_cons_self, first⟩
      · obtain ⟨j, member, eq⟩ := each q mem
        exact ⟨j, List.mem_cons_of_mem _ member, eq⟩

/-- R180: an item of unknown kind, or with an operand out of range. -/
theorem readItem_eq_none {kind operand : Byte} (unknown : kind ∉ [0x01#8, 0x81#8, 0x02#8, 0x03#8, 0x04#8, 0x05#8]
    ∨ (kind ∈ [0x01#8, 0x81#8, 0x02#8, 0x03#8] ∧ 63 < operand.toNat) ∨ (kind = 0x04#8 ∧ 7 < operand.toNat)
    ∨ (kind = 0x05#8 ∧ operand ≠ 0)) : readItem kind operand = none := by
  rcases unknown with other | ⟨lock, above⟩ | ⟨rfl, above⟩ | ⟨rfl, operand⟩
  · simp only [List.mem_cons, List.not_mem_nil, or_false, not_or] at other
    obtain ⟨a, b, c, d, e, f⟩ := other
    simp [readItem, a, b, c, d, e, f]
  · simp only [List.mem_cons, List.not_mem_nil, or_false] at lock
    rcases lock with rfl | rfl | rfl | rfl <;> simp [readItem, readLock_of_gt above]
  · simp [readItem, readBarrier_of_gt above]
  · simp [readItem]
    exact operand

/-- The kind 05h alone reads as LEAVE. -/
theorem readItem_leave {kind operand : Byte} {i : Item} (read : readItem kind operand = some i) :
    kind = 0x05#8 ↔ i = .leave := by
  by_cases leave : kind = 0x05#8
  · subst leave
    obtain ⟨-, same⟩ := Option.ite_none_right_eq_some.1 (show (if (0x05#8 == 0x05#8 && operand == 0) = true then
      some Item.leave else none) = some i from read)
    exact iff_of_true rfl (Option.some.inj same).symm
  · refine iff_of_false leave ?_
    rintro rfl
    unfold readItem at read
    rw [beq_eq_false_iff_ne.2 leave, Bool.false_and, if_neg Bool.false_ne_true] at read
    split_ifs at read <;> obtain ⟨_, -, other⟩ := Option.map_eq_some_iff.1 read <;> cases other

/-! ## The header (Table 12-7) -/

/-- Byte 0 of a header by its station and flags. -/
theorem header_bits : ∀ (station : StationNo) (j d w c : Bool),
    let b := byteOf (station.val + 16 * j.toNat + 32 * d.toNat + 64 * w.toNat + 128 * c.toNat)
    stationOf b = station ∧ b.getLsbD 4 = j ∧ b.getLsbD 5 = d ∧ b.getLsbD 6 = w ∧ b.getLsbD 7 = c := by
  decide

theorem headerByte_bits (f : Frame) : stationOf (headerByte f) = f.station ∧ (headerByte f).getLsbD 4 = f.join
    ∧ (headerByte f).getLsbD 5 = f.digest.isSome ∧ (headerByte f).getLsbD 6 = f.want.isSome
    ∧ (headerByte f).getLsbD 7 = f.chunk.isSome :=
  header_bits f.station f.join f.digest.isSome f.want.isSome f.chunk.isSome

/-! ## Reading the parts (R85) -/

/-- What the parts make of a frame, by the header byte, the round's bytes, the words and the chunk that follow, and the
items as far as they can be read. -/
def readTail (b0 r0 r1 : Byte) (digest want : Word16) (number : Nat) (body : List Byte) (items : Option (List Item)) :
    Option Frame :=
  if b0.getLsbD 6 && want &&& 0xFE00#16 != 0 then none
  else if b0.getLsbD 7 && decide (number > 8) then none
  else
    match items with
    | none => none
    | some items =>
      if items.contains .leave && decide (items.length ≠ 1) then none
      else if b0.getLsbD 4 && items.any (· != .leave) then none
      else some {
        station := stationOf b0
        join := b0.getLsbD 4
        round := wordOf r1 r0
        digest := if b0.getLsbD 5 then some digest else none
        want := if b0.getLsbD 6 then some (want.setWidth 9) else none
        chunk := if b0.getLsbD 7 then some ⟨Fin.ofNat 9 number, body⟩ else none
        items := items }

/-- A part that is present exactly when its flag is set, left behind. -/
theorem drop_part {flag : Bool} {n : Nat} {part : List Byte} (length : part.length = if flag then n else 0)
    (rest : List Byte) : (if flag then (part ++ rest).drop n else part ++ rest) = rest := by
  cases flag with
  | false => rw [if_neg Bool.false_ne_true] at length ⊢; rw [List.length_eq_zero_iff.1 length, List.nil_append]
  | true => rw [if_pos rfl] at length ⊢; rw [← length, List.drop_left]

section
variable {b0 r0 r1 count : Byte} {digest want chunk items check : List Byte}

/-- The parts of a frame cut by the flags and the count. -/
theorem readParts_eq (digestLength : digest.length = if b0.getLsbD 5 then 2 else 0)
    (wantLength : want.length = if b0.getLsbD 6 then 2 else 0)
    (chunkLength : chunk.length = if b0.getLsbD 7 then chunkPartLength ((chunk ++ (items ++ check)).headD 0).toNat else 0)
    (itemsLength : items.length = 2 * count.toNat) :
    readParts (b0 :: r0 :: r1 :: count :: (digest ++ (want ++ (chunk ++ (items ++ check))))) =
      readTail b0 r0 r1 (headMsb (digest ++ (want ++ (chunk ++ (items ++ check)))))
        (headLsb (want ++ (chunk ++ (items ++ check)))) ((chunk ++ (items ++ check)).headD 0).toNat
        (((chunk ++ (items ++ check)).drop 1).take (chunkPartLength ((chunk ++ (items ++ check)).headD 0).toNat - 1))
        (readItems items) := by
  unfold readParts
  dsimp only
  rw [drop_part digestLength, drop_part wantLength, drop_part chunkLength, ← itemsLength, List.take_left]
  rfl

variable {d w : Word16} {number : Nat} {body : List Byte} {is : List Item}

theorem readTail_no_items : readTail b0 r0 r1 d w number body none = none := by
  unfold readTail
  split
  · rfl
  · split <;> rfl

theorem readTail_wide_want (flag : b0.getLsbD 6 = true) (wide : w &&& 0xFE00#16 ≠ 0) (items : Option (List Item)) :
    readTail b0 r0 r1 d w number body items = none :=
  if_pos (by rw [flag, bne_iff_ne.2 wide]; rfl)

/-- R85: LEAVE stands alone, and JOIN beside LEAVE at most. -/
theorem readTail_bad_items (bad : (.leave ∈ is ∧ is.length ≠ 1) ∨ (b0.getLsbD 4 = true ∧ ∃ i ∈ is, i ≠ .leave)) :
    readTail b0 r0 r1 d w number body (some is) = none := by
  unfold readTail
  split
  · rfl
  · split
    · rfl
    · dsimp only
      rcases bad with ⟨leave, several⟩ | ⟨join, i, mem, other⟩
      · rw [if_pos (by rw [List.contains_eq_mem, decide_eq_true leave, decide_eq_true several]; rfl)]
      · have any : is.any (· != .leave) = true := List.any_eq_true.2 ⟨i, mem, bne_iff_ne.2 other⟩
        split
        · rfl
        · rw [if_pos (by rw [join, any]; rfl)]

theorem readTail_good (narrow : b0.getLsbD 6 = true → w &&& 0xFE00#16 = 0) (small : b0.getLsbD 7 = true → number ≤ 8)
    (alone : .leave ∈ is → is.length = 1) (joins : b0.getLsbD 4 = true → ∀ i ∈ is, i = .leave) :
    readTail b0 r0 r1 d w number body (some is) = some {
      station := stationOf b0
      join := b0.getLsbD 4
      round := wordOf r1 r0
      digest := if b0.getLsbD 5 then some d else none
      want := if b0.getLsbD 6 then some (w.setWidth 9) else none
      chunk := if b0.getLsbD 7 then some ⟨Fin.ofNat 9 number, body⟩ else none
      items := is } := by
  unfold readTail
  rw [if_neg, if_neg]
  · dsimp only
    rw [if_neg, if_neg]
    · rw [Bool.and_eq_true, List.any_eq_true]
      rintro ⟨join, i, mem, other⟩
      exact bne_iff_ne.1 other (joins join i mem)
    · rw [Bool.and_eq_true, List.contains_eq_mem, decide_eq_true_iff, decide_eq_true_iff]
      exact fun h => h.2 (alone h.1)
  · rw [Bool.and_eq_true, decide_eq_true_iff]
    exact fun h => absurd (small h.1) (Nat.not_le.2 h.2)
  · rw [Bool.and_eq_true, bne_iff_ne]
    exact fun h => h.2 (narrow h.1)

end

/-! ## The well-formed test (R83, R85) -/

section
variable {chars : List RxChar}

theorem receptionEnd_eq_complete_iff :
    receptionEnd chars = .complete ↔ chars.length ≤ 95 ∧ expectedLength (chars.map rxData) = some chars.length := by
  unfold receptionEnd
  by_cases long : chars.length > receiveCapacity
  · rw [if_pos long]
    exact ⟨fun h => (nomatch h), fun h => absurd h.1 (Nat.not_le.2 long)⟩
  · rw [if_neg long]
    have fits : chars.length ≤ 95 := Nat.not_lt.1 long
    cases expected : expectedLength (chars.map rxData) with
    | none => exact ⟨fun h => (nomatch h), fun h => nomatch h.2⟩
    | some n =>
      dsimp only
      by_cases short : chars.length < n
      · rw [if_pos short]
        exact ⟨fun h => (nomatch h), fun h => absurd (Option.some.inj h.2) (ne_of_gt short)⟩
      · rw [if_neg short]
        by_cases exact_length : chars.length = n
        · rw [if_pos exact_length]
          exact ⟨fun _ => ⟨fits, congrArg some exact_length.symm⟩, fun _ => rfl⟩
        · rw [if_neg exact_length]
          exact ⟨fun h => (nomatch h), fun h => absurd (Option.some.inj h.2).symm exact_length⟩

/-- R85: a frame has its expected length, no framing error and a good check. -/
theorem wellFormedFrame_eq (fits : chars.length ≤ 95) (expected : expectedLength (chars.map rxData) = some chars.length)
    (framed : chars.any rxFramingError = false) (check : checkGood (chars.map rxData) = true) :
    wellFormedFrame chars = readParts (chars.map rxData) :=
  if_pos ⟨receptionEnd_eq_complete_iff.2 ⟨fits, expected⟩, framed, check⟩

theorem wellFormedFrame_of_length (wrong : 95 < chars.length ∨ expectedLength (chars.map rxData) ≠ some chars.length) :
    wellFormedFrame chars = none :=
  if_neg fun h => by
    obtain ⟨fits, expected⟩ := receptionEnd_eq_complete_iff.1 h.1
    rcases wrong with long | other
    · omega
    · exact other expected

theorem wellFormedFrame_of_framing (error : ∃ c ∈ chars, c.getLsbD 8 = false) : wellFormedFrame chars = none :=
  if_neg fun h => by
    obtain ⟨c, mem, low⟩ := error
    have none_low := List.any_eq_false.1 h.2.1 c mem
    exact none_low (by rw [rxFramingError, low]; rfl)

theorem wellFormedFrame_of_parts (unreadable : readParts (chars.map rxData) = none) : wellFormedFrame chars = none := by
  unfold wellFormedFrame
  rw [unreadable, ite_self]

/-- R82: the check is the CRC of the bytes before it. -/
theorem checkGood_iff (content : List Byte) (high low : Byte) : checkGood (content ++ [high, low]) = true ↔
    msbFirst (crc16 content) = [high, low] := by
  have before : (content ++ [high, low]).length - 2 = content.length := by
    rw [List.length_append]
    rfl
  unfold checkGood
  rw [before, List.take_left, List.drop_left, Bool.and_eq_true, beq_iff_eq, decide_eq_true_iff, List.length_append]
  exact and_iff_right (Nat.le_add_left 2 _)

theorem wellFormedFrame_of_check {content : List Byte} {high low : Byte} (bytes : chars.map rxData = content ++ [high, low])
    (wrong : 256 * high.toNat + low.toNat ≠ (crc16 content).toNat) : wellFormedFrame chars = none :=
  if_neg fun h => by
    have check := h.2.2
    rw [bytes, checkGood_iff, msbFirst] at check
    obtain ⟨rfl, rest⟩ := List.cons.inj check
    obtain ⟨rfl, -⟩ := List.cons.inj rest
    exact wrong (by rw [← toNat_wordOf, wordOf_high_low])

theorem optionalLength_eq (header : Byte) : optionalLength header =
    (if header.getLsbD 5 then 2 else 0) + (if header.getLsbD 6 then 2 else 0) := by
  unfold optionalLength
  cases header.getLsbD 5 <;> cases header.getLsbD 6 <;> rfl

section
variable {header low high count : Byte} {rest : List Byte}

theorem expectedLength_of_many (many : 6 < count.toNat) : expectedLength (header :: low :: high :: count :: rest) = none :=
  if_pos many

theorem expectedLength_plain (few : count.toNat ≤ 6) (plain : header.getLsbD 7 = false) :
    expectedLength (header :: low :: high :: count :: rest)
      = some (4 + optionalLength header + 2 * count.toNat + 2) := by
  unfold expectedLength
  dsimp only
  rw [if_neg (Nat.not_lt.2 few), if_neg (Bool.eq_false_iff.1 plain)]

theorem expectedLength_cut (chunk : header.getLsbD 7 = true) (short : rest[optionalLength header]? = none) :
    expectedLength (header :: low :: high :: count :: rest) = none := by
  unfold expectedLength
  dsimp only
  rw [if_pos chunk, short]
  exact ite_self _

theorem expectedLength_chunk {k : Byte} (few : count.toNat ≤ 6) (chunk : header.getLsbD 7 = true)
    (number : rest[optionalLength header]? = some k) : expectedLength (header :: low :: high :: count :: rest) =
      if 8 < k.toNat then none
      else some (4 + optionalLength header + chunkPartLength k.toNat + 2 * count.toNat + 2) := by
  unfold expectedLength
  dsimp only
  rw [if_neg (Nat.not_lt.2 few), if_pos chunk, number]

end

/-- R83: no frame is expected to have fewer than six bytes. -/
theorem le_expectedLength {bytes : List Byte} {n : Nat} (expected : expectedLength bytes = some n) : 6 ≤ n := by
  unfold expectedLength at expected
  split at expected
  · split at expected
    · cases expected
    · split at expected
      · split at expected
        · cases expected
        · split at expected
          · cases expected
          · cases expected
            omega
      · cases expected
        omega
  · cases expected

end

/-! ## A frame's own characters -/

theorem rxData_charsOf (bytes : List Byte) : (charsOf bytes).map rxData = bytes := by
  have back : ∀ b : Byte, rxData (b.setWidth 9 ||| 0x100#9) = b := by decide
  rw [charsOf, List.map_map]
  exact (List.map_congr_left fun b _ => back b).trans (List.map_id bytes)

theorem charsOf_framed (bytes : List Byte) : (charsOf bytes).any rxFramingError = false := by
  have stop : ∀ b : Byte, rxFramingError (b.setWidth 9 ||| 0x100#9) = false := by decide
  rw [charsOf, List.any_map, List.any_eq_false]
  exact fun b _ => Bool.eq_false_iff.1 (stop b)

/-- The digest's bytes. -/
def digestPart (f : Frame) : List Byte :=
  match f.digest with
  | none => []
  | some d => msbFirst d

/-- The wanted set's bytes. -/
def wantPart (f : Frame) : List Byte :=
  match f.want with
  | none => []
  | some w => chunkSetBytes w

/-- The chunk's bytes. -/
def chunkPart (f : Frame) : List Byte :=
  match f.chunk with
  | none => []
  | some c => byteOf c.number.val :: c.body

theorem frameContent_eq (f : Frame) : frameContent f = headerByte f :: lowByte f.round :: highByte f.round ::
    byteOf f.items.length :: (digestPart f ++ (wantPart f ++ (chunkPart f ++ f.items.flatMap itemBytes))) := by
  unfold frameContent lsbFirst digestPart wantPart chunkPart
  simp only [List.cons_append, List.nil_append, List.append_assoc] <;> rfl

theorem digestPart_length (f : Frame) : (digestPart f).length = if f.digest.isSome then 2 else 0 := by
  unfold digestPart
  cases f.digest <;> rfl

theorem wantPart_length (f : Frame) : (wantPart f).length = if f.want.isSome then 2 else 0 := by
  unfold wantPart
  cases f.want <;> rfl

section
variable {f : Frame}

theorem chunkNumber_toNat (k : ChunkNo) : (byteOf k.val).toNat = k.val :=
  toNat_byteOf_of_lt (by have := k.isLt; omega)

theorem chunkPartLength_eq (k : ChunkNo) : chunkPartLength (byteOf k.val).toNat = if k = 0 then 37 else 73 := by
  rw [chunkNumber_toNat, chunkPartLength]
  exact if_congr (by rw [Fin.ext_iff]; rfl) rfl rfl

/-- The chunk part of a proper frame has the length its number gives. -/
theorem chunkPart_length (proper : f.proper) (rest : List Byte) : (chunkPart f).length =
    if f.chunk.isSome then chunkPartLength ((chunkPart f ++ rest).headD 0).toNat else 0 := by
  unfold chunkPart
  cases chunk : f.chunk with
  | none => rfl
  | some c =>
    have body := proper.chunk c chunk
    show c.body.length + 1 = chunkPartLength (byteOf c.number.val).toNat
    rw [body, chunkPartLength_eq]
    split <;> rfl

theorem count_toNat (proper : f.proper) : (byteOf f.items.length).toNat = f.items.length :=
  toNat_byteOf_of_lt (by have := proper.items; omega)

theorem chunkPart_length_le (proper : f.proper) : (chunkPart f).length ≤ 73 := by
  rw [chunkPart_length proper []]
  unfold chunkPartLength
  split
  · split <;> omega
  · omega

theorem frameContent_length (f : Frame) : (frameContent f).length =
    4 + (if f.digest.isSome then 2 else 0) + (if f.want.isSome then 2 else 0) + (chunkPart f).length + 2 * f.items.length := by
  rw [frameContent_eq]
  simp only [List.length_cons, List.length_append, digestPart_length, wantPart_length, flatMap_itemBytes_length]
  omega

theorem frameBytes_length_eq (f : Frame) : (frameBytes f).length = (frameContent f).length + 2 := by
  rw [frameBytes, List.length_append]
  rfl

theorem frameBytes_eq (f : Frame) : frameBytes f = headerByte f :: lowByte f.round :: highByte f.round ::
    byteOf f.items.length :: (digestPart f ++ (wantPart f ++ (chunkPart f ++ (f.items.flatMap itemBytes
      ++ msbFirst (crc16 (frameContent f)))))) := by
  rw [frameBytes]
  nth_rw 1 [frameContent_eq]
  simp only [List.cons_append, List.append_assoc]

/-- A proper frame has the length that its own bytes announce. -/
theorem expectedLength_frameBytes (proper : f.proper) :
    expectedLength (frameBytes f) = some (frameBytes f).length := by
  obtain ⟨-, -, digestFlag, wantFlag, chunkFlag⟩ := headerByte_bits f
  have few : (byteOf f.items.length).toNat ≤ 6 := by rw [count_toNat proper]; exact proper.items
  have optional : optionalLength (headerByte f) = (if f.digest.isSome then 2 else 0) + (if f.want.isSome then 2 else 0) := by
    rw [optionalLength_eq, digestFlag, wantFlag]
  rw [frameBytes_length_eq, frameContent_length, frameBytes_eq]
  cases chunk : f.chunk with
  | none =>
    rw [expectedLength_plain few (by rw [chunkFlag, chunk]; rfl), optional, count_toNat proper,
      show (chunkPart f).length = 0 by unfold chunkPart; rw [chunk]; rfl]
    congr 1
    omega
  | some c =>
    have part : chunkPart f = byteOf c.number.val :: c.body := by unfold chunkPart; rw [chunk]
    have place : (digestPart f ++ (wantPart f ++ (chunkPart f ++ (f.items.flatMap itemBytes
        ++ msbFirst (crc16 (frameContent f))))))[optionalLength (headerByte f)]? = some (byteOf c.number.val) := by
      rw [← List.append_assoc, List.getElem?_append_right (by
        rw [List.length_append, digestPart_length, wantPart_length, optional]), List.length_append, digestPart_length,
        wantPart_length, optional, Nat.sub_self, part]
      rfl
    have length := chunkPart_length proper []
    rw [if_pos (by rw [chunk]; rfl), part] at length
    rw [expectedLength_chunk few (by rw [chunkFlag, chunk]; rfl) place, if_neg (by
      rw [chunkNumber_toNat]; have := c.number.isLt; omega), optional, count_toNat proper, part, length]
    show some _ = some _
    congr 1
    simp only [List.cons_append, List.headD_cons]
    omega

/-- R85: the parts of a proper frame are read back. -/
theorem readParts_frameBytes (proper : f.proper) : readParts (frameBytes f) = some f := by
  obtain ⟨stationBits, joinFlag, digestFlag, wantFlag, chunkFlag⟩ := headerByte_bits f
  rw [frameBytes_eq, readParts_eq (by rw [digestFlag]; exact digestPart_length f) (by rw [wantFlag]; exact wantPart_length f)
    (by rw [chunkFlag]; exact chunkPart_length proper _)
    (by rw [flatMap_itemBytes_length, count_toNat proper]), readItems_flatMap, readTail_good, stationBits, joinFlag,
    digestFlag, wantFlag, chunkFlag, wordOf_high_low]
  · have digests : (if f.digest.isSome then some (headMsb (digestPart f ++ (wantPart f ++ (chunkPart f
        ++ (f.items.flatMap itemBytes ++ msbFirst (crc16 (frameContent f))))))) else none) = f.digest := by
      unfold digestPart
      cases f.digest with
      | none => rfl
      | some d => exact congrArg some (wordOf_high_low d)
    have wants : (if f.want.isSome then some ((headLsb (wantPart f ++ (chunkPart f ++ (f.items.flatMap itemBytes
        ++ msbFirst (crc16 (frameContent f)))))).setWidth 9) else none) = f.want := by
      unfold wantPart
      cases f.want with
      | none => rfl
      | some w =>
        show some ((wordOf (highByte (w.setWidth 16)) (lowByte (w.setWidth 16))).setWidth 9) = some w
        rw [wordOf_high_low, BitVec.setWidth_setWidth_of_le _ (by omega), BitVec.setWidth_eq]
    rw [digests, wants]
    cases chunk : f.chunk with
    | none =>
      obtain ⟨station, join, round, digest, want, part, items⟩ := f
      cases chunk
      rfl
    | some c =>
      have part : chunkPart f = byteOf c.number.val :: c.body := by unfold chunkPart; rw [chunk]
      have body := proper.chunk c chunk
      have bytes : (c.body ++ (f.items.flatMap itemBytes ++ msbFirst (crc16 (frameContent f)))).take
          (chunkPartLength (byteOf c.number.val).toNat - 1) = c.body := by
        rw [chunkPartLength_eq, show (if c.number = 0 then 37 else 73) - 1 = c.body.length by rw [body]; split <;> rfl,
          List.take_left]
      have number : Fin.ofNat 9 c.number.val = c.number := Fin.ext (Nat.mod_eq_of_lt c.number.isLt)
      rw [chunkNumber_toNat] at bytes
      rw [part]
      simp only [List.cons_append, List.headD_cons, List.drop_succ_cons, List.drop_zero, chunkNumber_toNat, bytes, number,
        Option.isSome_some, if_true]
      rw [show (some { number := c.number, body := c.body } : Option ChunkPart) = f.chunk from chunk.symm]
  · intro flag
    rw [wantFlag] at flag
    obtain ⟨w, want⟩ := Option.isSome_iff_exists.1 flag
    rw [wantPart, want]
    show wordOf (highByte (w.setWidth 16)) (lowByte (w.setWidth 16)) &&& 0xFE00#16 = 0
    rw [wordOf_high_low, highBits_setWidth]
  · intro flag
    rw [chunkFlag] at flag
    obtain ⟨c, chunk⟩ := Option.isSome_iff_exists.1 flag
    rw [chunkPart, chunk]
    show (byteOf c.number.val).toNat ≤ 8
    rw [chunkNumber_toNat]
    have := c.number.isLt
    omega
  · exact fun leave => by rw [proper.leave leave]; rfl
  · intro flag
    rw [joinFlag] at flag
    exact proper.join flag

/-- R79, R82, R85: the characters of a proper frame give it back. -/
theorem wellFormedFrame_charsOf (proper : f.proper) : wellFormedFrame (charsOf (frameBytes f)) = some f := by
  have length : (charsOf (frameBytes f)).length = (frameBytes f).length := List.length_map _
  have fits : (frameBytes f).length ≤ 95 := by
    have := chunkPart_length_le proper
    have := proper.items
    rw [frameBytes_length_eq, frameContent_length]
    split <;> split <;> omega
  rw [wellFormedFrame_eq, rxData_charsOf, readParts_frameBytes proper]
  · rw [length]; exact fits
  · rw [rxData_charsOf, length, expectedLength_frameBytes proper]
  · exact charsOf_framed _
  · rw [rxData_charsOf]
    exact (checkGood_iff _ _ _).2 rfl

end

/-! ## The whole statement -/

theorem headerByte_eq (f : Frame) : headerByte f = byteOf (f.station.val + (if f.join then 16 else 0)
    + (if f.digest.isSome then 32 else 0) + (if f.want.isSome then 64 else 0) + (if f.chunk.isSome then 128 else 0)) := by
  have weight (b : Bool) (n : Nat) : n * b.toNat = if b then n else 0 := by cases b <;> simp
  rw [headerByte, weight, weight, weight, weight]

/-- Tables 12-7 and 12-8: the bytes of a frame before its check. -/
theorem frameContent_layout {f : Frame} {item : Item → List Byte} (items : ∀ i, itemBytes i = item i) : frameContent f =
    [byteOf (f.station.val + (if f.join then 16 else 0) + (if f.digest.isSome then 32 else 0)
        + (if f.want.isSome then 64 else 0) + (if f.chunk.isSome then 128 else 0))
      , byteOf (f.round.toNat % 256), byteOf (f.round.toNat / 256), byteOf f.items.length]
    ++ (f.digest.toList.flatMap fun d => [byteOf (d.toNat / 256), byteOf (d.toNat % 256)])
    ++ (f.want.toList.flatMap fun w => [byteOf (w.toNat % 256), byteOf (w.toNat / 256)])
    ++ (f.chunk.toList.flatMap fun c => byteOf c.number.val :: c.body)
    ++ f.items.flatMap item := by
  have digests : digestPart f = f.digest.toList.flatMap fun d => [byteOf (d.toNat / 256), byteOf (d.toNat % 256)] := by
    unfold digestPart
    cases f.digest with
    | none => rfl
    | some d => exact msbFirst_eq d
  have wants : wantPart f = f.want.toList.flatMap fun w => [byteOf (w.toNat % 256), byteOf (w.toNat / 256)] := by
    unfold wantPart
    cases f.want with
    | none => rfl
    | some w => exact chunkSetBytes_eq w
  have chunks : chunkPart f = f.chunk.toList.flatMap fun c => byteOf c.number.val :: c.body := by
    unfold chunkPart
    cases f.chunk with
    | none => rfl
    | some c => exact (List.append_nil _).symm
  have round : [lowByte f.round, highByte f.round] = [byteOf (f.round.toNat % 256), byteOf (f.round.toNat / 256)] :=
    lsbFirst_eq f.round
  obtain ⟨low, high⟩ := List.cons.inj round
  rw [frameContent_eq, headerByte_eq, low, (List.cons.inj high).1, digests, wants, chunks, show itemBytes = item from funext items]
  simp only [List.cons_append, List.nil_append, List.append_assoc]

section
variable {chars : List RxChar} {header low high count : Byte} {digest want chunk check : List Byte}
  {pairs : List (Byte × Byte)}

/-- R85, R180: a reception of the right shape whose parts break a condition is corrupt. -/
theorem wellFormedFrame_of_bad_parts
    (bytes : chars.map rxData = header :: low :: high :: count :: digest ++ want ++ chunk
      ++ pairs.flatMap (fun item => [item.1, item.2]) ++ check)
    (digestLength : digest.length = if header.getLsbD 5 then 2 else 0)
    (wantLength : want.length = if header.getLsbD 6 then 2 else 0)
    (chunkLength : chunk.length = if header.getLsbD 7 then (if chunk.head? = some 0 then 37 else 73) else 0)
    (pairsLength : pairs.length = count.toNat)
    (bad : (∃ p ∈ pairs, readItem p.1 p.2 = none) ∨ (∃ b ∈ want.tail, 1 < b.toNat)
      ∨ ((∃ p ∈ pairs, p.1 = 0x05#8) ∧ pairs.length ≠ 1) ∨ (header.getLsbD 4 = true ∧ ∃ p ∈ pairs, p.1 ≠ 0x05#8)) :
    wellFormedFrame chars = none := by
  apply wellFormedFrame_of_parts
  have whole : (header :: low :: high :: count :: digest ++ want ++ chunk ++ pairs.flatMap (fun item => [item.1, item.2])
      ++ check) = header :: low :: high :: count :: (digest ++ (want ++ (chunk
        ++ (pairs.flatMap (fun item => [item.1, item.2]) ++ check)))) := by
    simp only [List.cons_append, List.append_assoc]
  have number (rest : List Byte) : chunk.length =
      if header.getLsbD 7 then chunkPartLength ((chunk ++ rest).headD 0).toNat else 0 := by
    rw [chunkLength]
    cases flag : header.getLsbD 7 with
    | false => rfl
    | true =>
      rw [flag, if_pos rfl] at chunkLength
      cases chunk with
      | nil =>
        rw [List.length_nil] at chunkLength
        split at chunkLength <;> cases chunkLength
      | cons k body =>
        rw [if_pos rfl, if_pos rfl, chunkPartLength]
        exact if_congr (by
          rw [List.head?_cons, Option.some.injEq, List.cons_append, List.headD_cons]
          exact BitVec.toNat_inj.symm) rfl rfl
  have evenLength : (pairs.flatMap fun item => [item.1, item.2]).length = 2 * count.toNat := by
    rw [← pairsLength, List.length_flatMap]
    simp [Nat.mul_comm]
  rw [bytes, whole, readParts_eq digestLength wantLength (number _) evenLength]
  by_cases wide : ∃ b ∈ want.tail, 1 < b.toNat
  · obtain ⟨b, mem, big⟩ := wide
    match want, mem, wantLength with
    | [a, c], mem, wantLength =>
      obtain rfl : b = c := List.mem_singleton.1 mem
      refine readTail_wide_want ?_ (highBits_wordOf big) _
      by_contra unset
      rw [if_neg unset] at wantLength
      cases wantLength
    | a :: c :: d :: rest, _, wantLength =>
      split at wantLength
      · exact absurd wantLength (by simp)
      · cases wantLength
  · cases read : readItems (pairs.flatMap fun item => [item.1, item.2]) with
    | none => exact readTail_no_items
    | some items =>
      obtain ⟨length, each⟩ := readItems_pairs read
      rcases bad with ⟨p, mem, unknown⟩ | h | ⟨⟨p, mem, leave⟩, several⟩ | ⟨join, p, mem, other⟩
      · obtain ⟨i, -, eq⟩ := each p mem
        rw [unknown] at eq
        cases eq
      · exact absurd h wide
      · obtain ⟨i, member, eq⟩ := each p mem
        obtain rfl := (readItem_leave eq).1 leave
        exact readTail_bad_items (.inl ⟨member, by rw [length]; exact several⟩)
      · obtain ⟨i, member, eq⟩ := each p mem
        exact readTail_bad_items (.inr ⟨join, i, member, fun leave => other ((readItem_leave eq).2 leave)⟩)

/-- R83: a reception whose length is not the one its header, count and chunk number give is corrupt. -/
theorem wellFormedFrame_of_header {rest : List Byte} {parts : Nat}
    (bytes : chars.map rxData = header :: low :: high :: count :: rest) (optional : optionalLength header = parts) :
    (6 < count.toNat → wellFormedFrame chars = none)
      ∧ (header.getLsbD 7 = false → chars.length ≠ 4 + parts + 2 * count.toNat + 2 → wellFormedFrame chars = none)
      ∧ (header.getLsbD 7 = true → rest.length ≤ parts → wellFormedFrame chars = none)
      ∧ ∀ k : Byte, header.getLsbD 7 = true → rest[parts]? = some k →
        (8 < k.toNat ∨ chars.length ≠ 4 + parts + (if k = 0 then 37 else 73) + 2 * count.toNat + 2 →
          wellFormedFrame chars = none) := by
  subst optional
  have many : 6 < count.toNat → wellFormedFrame chars = none := fun many =>
    wellFormedFrame_of_length (.inr (by rw [bytes, expectedLength_of_many many]; exact fun h => nomatch h))
  refine ⟨many, fun plain other => ?_, fun flag short => ?_, fun k flag number wrong => ?_⟩
  · rcases Nat.lt_or_ge 6 count.toNat with above | few
    · exact many above
    · refine wellFormedFrame_of_length (.inr ?_)
      rw [bytes, expectedLength_plain few plain]
      exact fun eq => other (Option.some.inj eq).symm
  · refine wellFormedFrame_of_length (.inr ?_)
    rw [bytes, expectedLength_cut flag (List.getElem?_eq_none short)]
    exact fun h => nomatch h
  · rcases Nat.lt_or_ge 6 count.toNat with above | few
    · exact many above
    · refine wellFormedFrame_of_length (.inr ?_)
      have zero : (if k.toNat = 0 then 37 else 73) = if k = 0 then 37 else 73 :=
        if_congr (BitVec.toNat_inj (y := 0)) rfl rfl
      rw [bytes, expectedLength_chunk few flag number, chunkPartLength, zero]
      rcases wrong with big | other
      · rw [if_pos big]
        exact fun h => nomatch h
      · split
        · exact fun h => nomatch h
        · exact fun eq => other (Option.some.inj eq).symm

end

/-- Settles O59: the read-back of a proper frame, the layout, and the conditions that a corrupt reception breaks. -/
theorem framesReadBackWholeAndOthersAreCorrupt : Obligations.FramesReadBackWholeAndOthersAreCorrupt := by
  unfold Obligations.FramesReadBackWholeAndOthersAreCorrupt
  refine ⟨fun f proper => wellFormedFrame_charsOf proper, ?_, fun chars => ⟨wellFormedFrame_of_framing,
    fun content high low => wellFormedFrame_of_check, fun short => ?_, ?_⟩, ?_⟩
  · intro f flag item content
    have layout : frameContent f = content := frameContent_layout fun i => by
      cases i with
      | acquire lock leased => cases leased <;> rfl
      | _ => rfl
    rw [frameBytes, layout, msbFirst_eq]
  · rcases short with few | many
    · refine wellFormedFrame_of_length (.inr fun expected => ?_)
      have := le_expectedLength expected
      omega
    · exact wellFormedFrame_of_length (.inl many)
  · intro header low high count rest bytes parts
    exact wellFormedFrame_of_header bytes (optionalLength_eq header)
  · intro chars header low high count digest want chunk items check bytes digestLength wantLength chunkLength itemsLength
      _ unknown bad
    exact wellFormedFrame_of_bad_parts bytes digestLength wantLength chunkLength itemsLength
      (bad.imp_left fun ⟨p, mem, h⟩ => ⟨p, mem, readItem_eq_none h⟩)

end Sys2Proof.Machine


/-! The chunk bodies and their installation (R22 to R24, R37, R38, R53 to R55, R131, R133, R134, R136, Tables 12-9
and 12-10). -/

namespace Sys2Proof.Machine

/-! ## Lock entries (Table 12-10) -/

theorem readLease_leaseByte {lease : Option (BitVec 3)} (law : lease ≠ some 0#3) : readLease (leaseByte lease) = some lease := by
  have leased : ∀ level : BitVec 3, level ≠ 0#3 → readLease (leaseByte (some level)) = some (some level) := by decide
  cases lease with
  | none => rfl
  | some level => exact leased level fun zero => law (congrArg some zero)

theorem leaseByte_of_readLease {b : Byte} {lease : Option (BitVec 3)} (read : readLease b = some lease) :
    leaseByte lease = b := by
  have back : ∀ b : Byte, ((readLease b).all fun lease => leaseByte lease == b) = true := by decide
  have here := back b
  rw [read] at here
  exact beq_iff_eq.1 here

theorem readWaiter_waiterByte (w : Waiter) : readWaiter (waiterByte w) = some w := by
  obtain ⟨station, leased⟩ := w
  revert station leased
  decide

theorem waiterByte_of_readWaiter {b : Byte} {w : Waiter} (read : readWaiter b = some w) : waiterByte w = b := by
  have back : ∀ b : Byte, ((readWaiter b).all fun w => waiterByte w == b) = true := by decide
  have here := back b
  rw [read] at here
  exact beq_iff_eq.1 here

theorem readWaiters_map (waiters : List Waiter) : readWaiters (waiters.map waiterByte) = some waiters := by
  induction waiters with
  | nil => rfl
  | cons w rest ih => rw [List.map_cons, readWaiters, readWaiter_waiterByte, ih]

theorem map_of_readWaiters {bytes : List Byte} {waiters : List Waiter} (read : readWaiters bytes = some waiters) :
    waiters.map waiterByte = bytes := by
  induction bytes generalizing waiters with
  | nil => cases read; rfl
  | cons b rest ih =>
    unfold readWaiters at read
    split at read
    · rename_i w ws first others
      cases read
      rw [List.map_cons, waiterByte_of_readWaiter first, ih others]
    · cases read

theorem holderByte_bits : ∀ holder : StationNo, let b := 0x80#8 ||| byteOf holder.val
    (b == 0) = false ∧ b.getLsbD 7 = true ∧ midBitsZero b = true ∧ stationOf b = holder := by
  decide

theorem holderByte_of_bits : ∀ b : Byte, b.getLsbD 7 = true → midBitsZero b = true →
    0x80#8 ||| byteOf (stationOf b).val = b := by
  decide

theorem waiterCount_toNat {waiters : List Waiter} (few : waiters.length ≤ 6) :
    (byteOf waiters.length).toNat = waiters.length := toNat_byteOf_of_lt (by omega)

theorem lockEntryBytes_length {e : LockEntry} (law : lockEntryLaw e = true) : (lockEntryBytes e).length = 9 := by
  cases e with
  | free => rfl
  | held holder lease waiters =>
    obtain ⟨-, few, -⟩ := (lockEntryLaw_held holder lease waiters).1 law
    simp only [lockEntryBytes, zeroBytes, List.length_append, List.length_cons, List.length_nil, List.length_map,
      List.length_replicate]
    omega

/-- R22: a lawful entry is read back from its nine bytes. -/
theorem readLockEntry_lockEntryBytes {e : LockEntry} (law : lockEntryLaw e = true) :
    readLockEntry (lockEntryBytes e) = some e := by
  cases e with
  | free => rfl
  | held holder lease waiters =>
    obtain ⟨level, few, -⟩ := (lockEntryLaw_held holder lease waiters).1 law
    obtain ⟨nonzero, top, mid, station⟩ := holderByte_bits holder
    have mapped : (waiters.map waiterByte).length = waiters.length := List.length_map _
    have length : (waiters.map waiterByte ++ zeroBytes (6 - waiters.length)).length = 6 := by
      rw [List.length_append, mapped, zeroBytes, List.length_replicate]
      omega
    have taken : (waiters.map waiterByte ++ zeroBytes (6 - waiters.length)).take waiters.length = waiters.map waiterByte :=
      List.take_left' mapped
    have dropped : (waiters.map waiterByte ++ zeroBytes (6 - waiters.length)).drop waiters.length
        = zeroBytes (6 - waiters.length) := List.drop_left' mapped
    show readLockEntry ((0x80#8 ||| byteOf holder.val) :: leaseByte lease :: byteOf waiters.length
      :: (waiters.map waiterByte ++ zeroBytes (6 - waiters.length))) = _
    unfold readLockEntry
    dsimp only
    rw [nonzero, top, mid, station, waiterCount_toNat few, length, taken, dropped, decide_eq_true few, beq_self_eq_true,
      readLease_leaseByte level, readWaiters_map]
    exact if_pos law

/-- R23, R180: nine bytes read as an entry are that entry's. -/
theorem lockEntryBytes_of_readLockEntry {bytes : List Byte} {e : LockEntry} (read : readLockEntry bytes = some e) :
    lockEntryBytes e = bytes := by
  unfold readLockEntry at read
  split at read
  · rename_i b0 b1 b2 places
    split at read
    · rename_i zero
      split at read
      · rename_i rest
        cases read
        simp only [Bool.and_eq_true, beq_iff_eq] at zero rest
        obtain ⟨⟨rfl, rfl⟩, rfl⟩ := rest
        rw [zero]
        rfl
      · cases read
    · split at read
      · rename_i checks
        simp only [Bool.and_eq_true, decide_eq_true_iff, beq_iff_eq] at checks
        obtain ⟨⟨⟨⟨top, mid⟩, few⟩, six⟩, zeros⟩ := checks
        split at read
        · rename_i lease waiters leased waiting
          dsimp only at read
          split at read
          · cases read
            have mapped := map_of_readWaiters waiting
            have count : waiters.length = b2.toNat := by
              have := congrArg List.length mapped
              rw [List.length_map, List.length_take, six] at this
              omega
            rw [lockEntryBytes, holderByte_of_bits b0 top mid, leaseByte_of_readLease leased, mapped, count, byteOf_toNat,
              ← zeros, List.take_append_drop]
            rfl
          · cases read
        · cases read
      · cases read
  · cases read

theorem readLockEntries_flatMap {entries : List LockEntry} (law : ∀ e ∈ entries, lockEntryLaw e = true) :
    readLockEntries entries.length (entries.flatMap lockEntryBytes) = some entries := by
  induction entries with
  | nil => rfl
  | cons e rest ih =>
    have first := law e List.mem_cons_self
    have length := lockEntryBytes_length first
    rw [List.length_cons, readLockEntries, List.flatMap_cons, List.take_left' length, List.drop_left' length,
      readLockEntry_lockEntryBytes first, ih fun e mem => law e (List.mem_cons_of_mem _ mem)]

theorem flatMap_of_readLockEntries {n : Nat} {bytes : List Byte} {entries : List LockEntry}
    (read : readLockEntries n bytes = some entries) : entries.flatMap lockEntryBytes = bytes := by
  induction n generalizing bytes entries with
  | zero =>
    cases bytes with
    | nil => cases read; rfl
    | cons b rest => cases read
  | succ n ih =>
    unfold readLockEntries at read
    split at read
    · rename_i e es first others
      cases read
      rw [List.flatMap_cons, lockEntryBytes_of_readLockEntry first, ih others, List.take_append_drop]
    · cases read

/-! ## Lock chunks (R22, R23, R54) -/

theorem readLockChunk_flatMap {unmarked : StationSet} {entries : List LockEntry} (length : entries.length = 8)
    (law : ∀ e ∈ entries, lockEntryLaw e = true) (names : ∀ e ∈ entries, namesOnly unmarked e = true) :
    readLockChunk unmarked (entries.flatMap lockEntryBytes) = some entries := by
  unfold readLockChunk
  rw [← length, readLockEntries_flatMap law]
  exact if_pos (List.all_eq_true.2 names)

theorem flatMap_of_readLockChunk {unmarked : StationSet} {body : List Byte} {entries : List LockEntry}
    (read : readLockChunk unmarked body = some entries) : entries.flatMap lockEntryBytes = body := by
  unfold readLockChunk at read
  split at read
  · rename_i es h
    split at read
    · cases read
      exact flatMap_of_readLockEntries h
    · cases read
  · cases read

theorem locksOfChunk_length : ∀ k : ChunkNo, k ≠ 0 → (locksOfChunk k).length = 8 := by decide

theorem locksOfChunk_get : ∀ lock : LockNo, (locksOfChunk (chunkOfLock lock))[lock.val % 8]? = some lock := by decide

/-- R22: a lock chunk of a lawful replica is read back by its own members. -/
theorem readLockChunk_chunkBody {s : State} (laws : Laws s) {k : ChunkNo} (lockChunk : k ≠ 0) :
    readLockChunk (requiredSet s) (chunkBody k s) = some ((locksOfChunk k).map fun lock => s.locks[lock]) := by
  obtain ⟨-, names, -⟩ := laws.replica
  have bytes : chunkBody k s = ((locksOfChunk k).map fun lock => s.locks[lock]).flatMap lockEntryBytes := by
    rw [chunkBody, if_neg lockChunk, lockChunkBody, List.flatMap_map]
  rw [bytes]
  refine readLockChunk_flatMap (by rw [List.length_map, locksOfChunk_length k lockChunk]) ?_ ?_
  · intro e mem
    obtain ⟨lock, -, rfl⟩ := List.mem_map.1 mem
    exact laws.lockTable lock
  · intro e mem
    obtain ⟨lock, -, rfl⟩ := List.mem_map.1 mem
    exact names lock

/-! ## Chunk 0 (Table 12-9) -/

theorem getLsbD_wordAt (body : List Byte) (i : Nat) (r : StationNo) :
    (wordAt body i).getLsbD r.val = (body.getD (i + r.val / 8) 0).getLsbD (r.val % 8) := by
  have bound := r.isLt
  rw [wordAt, wordOf, BitVec.getLsbD_append]
  by_cases low : r.val < 8
  · rw [if_pos low, Nat.div_eq_of_lt low, Nat.mod_eq_of_lt low, Nat.add_zero]
  · rw [if_neg low, show r.val / 8 = 1 by omega, show r.val % 8 = r.val - 8 by omega]

/-- A body of 36 bytes reads as the chunk whose sets, counts and barriers it spells bit by bit. -/
theorem readChunk0_eq_some {body : List Byte} {c : Chunk0} (length : body.length = 36)
    (membership : ∀ r : StationNo, c.present.getLsbD r.val = (body.getD (r.val / 8) 0).getLsbD (r.val % 8)
      ∧ c.marks.getLsbD r.val = (body.getD (2 + r.val / 8) 0).getLsbD (r.val % 8)
      ∧ c.counts[r] = if r.val % 2 = 0 then (body.getD (4 + r.val / 2) 0).toNat % 16
          else (body.getD (4 + r.val / 2) 0).toNat / 16)
    (barriers : ∀ b : BarrierNo, c.barriers[b].generation = body.getD (12 + 3 * b.val) 0
      ∧ ∀ r : StationNo, c.barriers[b].arrived.getLsbD r.val
          = (body.getD (13 + 3 * b.val + r.val / 8) 0).getLsbD (r.val % 8)) : readChunk0 body = some c := by
  obtain ⟨present, marks, counts, table⟩ := c
  have presentEq : wordAt body 0 = present := set_ext fun r => by
    obtain ⟨bit, -, -⟩ := membership r
    rw [inSet, getLsbD_wordAt, Nat.zero_add, ← bit, inSet]
  have marksEq : wordAt body 2 = marks := set_ext fun r => by
    obtain ⟨-, bit, -⟩ := membership r
    rw [inSet, getLsbD_wordAt, ← bit, inSet]
  have countsEq : (tabulate fun r : StationNo =>
      if r.val % 2 = 0 then (body.getD (4 + r.val / 2) 0).toNat % 16 else (body.getD (4 + r.val / 2) 0).toNat / 16)
      = counts := vector_ext fun r => by
    obtain ⟨-, -, count⟩ := membership r
    rw [tabulate_get, ← count]
  have tableEq : (tabulate fun b : BarrierNo =>
      (⟨body.getD (12 + 3 * b.val) 0, wordAt body (13 + 3 * b.val)⟩ : BarrierEntry)) = table := vector_ext fun b => by
    obtain ⟨generation, bits⟩ := barriers b
    rw [tabulate_get, ← generation]
    exact congrArg (BarrierEntry.mk table[b].generation) (set_ext (b := table[b].arrived) fun r =>
      (getLsbD_wordAt _ _ r).trans (bits r).symm)
  unfold readChunk0
  rw [if_pos length, presentEq, marksEq, tableEq]
  exact congrArg (fun counts => some (Chunk0.mk present marks counts table)) countsEq

section
variable (members : Vector (Option Member) 16) (barriers : Vector BarrierEntry 8)

theorem chunk0Body_absence (k : Fin 8) : (chunk0Body members barriers).getD (4 + k.val) 0 =
    byteOf (absenceOf members ⟨2 * k.val, by omega⟩ + 16 * absenceOf members ⟨2 * k.val + 1, by omega⟩) := by
  fin_cases k <;> rfl

theorem chunk0Body_generation (b : BarrierNo) :
    (chunk0Body members barriers).getD (12 + 3 * b.val) 0 = barriers[b].generation := by
  fin_cases b <;> rfl

theorem chunk0Body_arrived (b : BarrierNo) : wordAt (chunk0Body members barriers) (13 + 3 * b.val) = barriers[b].arrived := by
  refine Eq.trans ?_ (wordOf_high_low barriers[b].arrived)
  fin_cases b <;> rfl

/-- R24, R38: chunk 0 is read back where every count fits into four bits. -/
theorem readChunk0_chunk0Body (low : ∀ r, absenceOf members r < 16) : readChunk0 (chunk0Body members barriers) =
    some ⟨presentOf members, markedOf members, tabulate (absenceOf members), barriers⟩ := by
  have present : wordAt (chunk0Body members barriers) 0 = presentOf members := wordOf_high_low _
  have marks : wordAt (chunk0Body members barriers) 2 = markedOf members := wordOf_high_low _
  refine readChunk0_eq_some rfl (fun r => ⟨?_, ?_, ?_⟩) fun b => ⟨(chunk0Body_generation members barriers b).symm, fun r => ?_⟩
  · rw [← present, getLsbD_wordAt, Nat.zero_add]
  · rw [← marks, getLsbD_wordAt]
  · have bound := r.isLt
    have even := low ⟨2 * (r.val / 2), by omega⟩
    have odd := low ⟨2 * (r.val / 2) + 1, by omega⟩
    rw [show 4 + r.val / 2 = 4 + (⟨r.val / 2, by omega⟩ : Fin 8).val from rfl, chunk0Body_absence,
      toNat_byteOf_of_lt (by dsimp only; omega)]
    refine (tabulate_get _ r).trans ?_
    split
    · have here : r = ⟨2 * (r.val / 2), by omega⟩ := Fin.ext (by dsimp only; omega)
      rw [Nat.add_mul_mod_self_left, Nat.mod_eq_of_lt even, ← here]
    · have here : r = ⟨2 * (r.val / 2) + 1, by omega⟩ := Fin.ext (by dsimp only; omega)
      rw [Nat.add_mul_div_left _ _ (by omega), Nat.div_eq_of_lt even, Nat.zero_add, ← here]
  · rw [← getLsbD_wordAt, chunk0Body_arrived]

end

/-- R39, R116: a lawful replica's counts lie below 8. -/
theorem absence_lt {s : State} (laws : Laws s) (r : StationNo) : absenceOf s.members r < 16 := by
  unfold absenceOf
  cases member : s.members[r] with
  | none => exact Nat.zero_lt_succ _
  | some m =>
    have below := laws.absence r m member
    have limit : s.cfg.absenceLimit ≤ 8 := by
      have law := laws.config
      unfold ConfigLaw at law
      unfold State.cfg
      cases config : s.config with
      | none => exact Nat.zero_le 8
      | some c =>
        rw [config] at law
        obtain ⟨-, -, -, -, -, -, -, -, -, limit, -⟩ := law
        exact limit
    exact Nat.lt_of_lt_of_le below (limit.trans (by omega))

theorem members_of_chunk0 (members : Vector (Option Member) 16) (r : StationNo) : members[r] =
    if (presentOf members).getLsbD r.val then
      some { joining := (markedOf members).getLsbD r.val, absence := (tabulate (absenceOf members))[r] } else none := by
  have present : (presentOf members).getLsbD r.val = members[r].isSome := inSet_setOf _ r
  have marks : (markedOf members).getLsbD r.val = (members[r].map Member.joining).getD false := inSet_setOf _ r
  rw [present, marks, tabulate_get, absenceOf]
  cases members[r] <;> rfl


/-! ## The checks of chunk 0 (R37, R53) -/

theorem inSet_chunk0Unmarked (c : Chunk0) (r : StationNo) :
    inSet r c.unmarked = true ↔ c.present.getLsbD r.val = true ∧ c.marks.getLsbD r.val = false := by
  rw [Chunk0.unmarked, inSet_and, inSet_not, Bool.and_eq_true, Bool.not_eq_true']
  rfl

theorem completionTest_eq_false_iff (arrived required : StationSet) : completionTest arrived required = false ↔
    arrived = 0 ∨ ∃ r, inSet r required = true ∧ inSet r arrived = false := by
  rw [Bool.eq_false_iff, Ne, completionTest_eq_true_iff, subset_iff, not_and_or, not_not, not_forall]
  simp only [Classical.not_imp, Bool.not_eq_true]

/-- R53, spelled out. -/
theorem membershipCheck_iff (c : Chunk0) (sender : StationNo) (s : State) : membershipCheck c sender s = true ↔
    (∀ r : StationNo, (c.present.getLsbD r.val = true → r.val < s.cfg.roundSize)
        ∧ c.counts[r] < s.cfg.absenceLimit ∧ (c.present.getLsbD r.val = false → c.counts[r] = 0)
        ∧ (c.marks.getLsbD r.val = true → c.present.getLsbD r.val = true))
      ∧ (c.present.getLsbD sender.val = true ∧ c.marks.getLsbD sender.val = false)
      ∧ (c.present.getLsbD s.cfg.number.val = true → c.marks.getLsbD s.cfg.number.val = true) := by
  have stations : (∀ r : StationNo, r ∈ allStations) := List.mem_finRange
  simp only [membershipCheck, Bool.and_eq_true, List.all_eq_true, subset_iff, inSet_chunk0Unmarked, Bool.or_eq_true,
    Bool.not_eq_true', decide_eq_true_iff, beq_iff_eq, stations, forall_true_left]
  have implies : ∀ (a : Bool) (p : Prop), (a = false ∨ p) ↔ (a = true → p) := by
    intro a p; cases a <;> simp
  have otherwise : ∀ (a : Bool) (p : Prop), (a = true ∨ p) ↔ (a = false → p) := by
    intro a p; cases a <;> simp
  simp only [implies, otherwise]
  constructor
  · rintro ⟨⟨⟨each, marks⟩, sends⟩, own⟩
    exact ⟨fun r => ⟨(each r).1.1, (each r).1.2, (each r).2, marks r⟩, sends, own⟩
  · rintro ⟨each, sends, own⟩
    exact ⟨⟨⟨fun r => ⟨⟨(each r).1, (each r).2.1⟩, (each r).2.2.1⟩, fun r => (each r).2.2.2⟩, sends⟩, own⟩

/-- R37, spelled out. -/
theorem barrierCheck_iff (c : Chunk0) : barrierCheck c = true ↔ ∀ b : BarrierNo,
    (∀ r : StationNo, c.barriers[b].arrived.getLsbD r.val = true →
        c.present.getLsbD r.val = true ∧ c.marks.getLsbD r.val = false)
      ∧ (c.barriers[b].arrived = 0 ∨ ∃ r : StationNo, (c.present.getLsbD r.val = true ∧ c.marks.getLsbD r.val = false)
          ∧ c.barriers[b].arrived.getLsbD r.val = false) := by
  simp only [barrierCheck, List.all_eq_true, Bool.and_eq_true, Bool.not_eq_true', subset_iff, inSet_chunk0Unmarked,
    completionTest_eq_false_iff]
  exact ⟨fun all b => all b (List.mem_finRange b), fun all b _ => all b⟩

/-! ## What a joiner does with a chunk (R131, R133, R134, R136) -/

theorem gatherWanted_joins {f : Frame} {s : State} {w : ChunkSet} (want : f.want = some w) (join : f.join = true)
    (gathers : s.station = .founding ∨ s.station = .synced) :
    gatherWanted f s = { s with gathered := s.gathered ||| w } := by
  unfold gatherWanted
  rw [want]
  exact if_pos ⟨gathers, join⟩

theorem gatherWanted_other {f : Frame} {s : State}
    (other : f.want = none ∨ f.join = false ∨ (s.station ≠ .founding ∧ s.station ≠ .synced)) : gatherWanted f s = s := by
  unfold gatherWanted
  cases want : f.want with
  | none => rfl
  | some w =>
    refine if_neg fun ⟨state, join⟩ => ?_
    rcases other with none | plain | ⟨unfounded, unsynced⟩
    · rw [want] at none
      cases none
    · rw [join] at plain
      cases plain
    · exact state.elim unfounded unsynced

theorem completeCatchUp_done {s : State} (joining : s.station = .joining) (wanted : s.wanted = 0)
    (present : ∃ m, s.members[s.cfg.number] = some m) : completeCatchUp s = enterCaughtUp s := by
  obtain ⟨m, member⟩ := present
  have here : isPresent s s.own = true := by
    show (s.members[s.cfg.number]).isSome = true
    rw [member]
    rfl
  exact if_pos ⟨joining, wanted, here⟩

theorem completeCatchUp_waits {s : State}
    (waits : s.station ≠ .joining ∨ s.wanted ≠ 0 ∨ s.members[s.cfg.number] = none) : completeCatchUp s = s := by
  refine if_neg fun ⟨joining, wanted, present⟩ => ?_
  rcases waits with other | more | absent
  · exact other joining
  · exact more wanted
  · have here : (s.members[s.cfg.number]).isSome = true := present
    rw [absent] at here
    cases here

theorem installChunk_idle {f : Frame} {s : State} (idle : f.chunk = none ∨ s.station ≠ .joining ∨ f.join = true) :
    installChunk f s = s := by
  unfold installChunk
  cases chunk : f.chunk with
  | none => rfl
  | some c =>
    refine if_neg fun ⟨joining, plain, _⟩ => ?_
    rcases idle with none | other | join
    · rw [chunk] at none
      cases none
    · exact other joining
    · rw [plain] at join
      cases join

section
variable {f : Frame} {s : State} {k : ChunkNo} {body : List Byte} (chunk : f.chunk = some { number := k, body := body })
include chunk

theorem installChunk_unwanted (unwanted : s.wanted.getLsbD k.val = false) : installChunk f s = s := by
  unfold installChunk
  rw [chunk]
  exact if_neg fun ⟨_, _, wanted⟩ => Bool.eq_false_iff.1 unwanted wanted

theorem installChunk_ineligible (lockChunk : k ≠ 0) (ineligible : (membershipHeld s && isUnmarked s f.station) = false) :
    installChunk f s = s := by
  unfold installChunk
  rw [chunk]
  dsimp only
  split
  · exact if_neg (Bool.eq_false_iff.1 ineligible)
  · rfl

variable (joining : s.station = .joining) (plain : f.join = false) (wanted : s.wanted.getLsbD k.val = true)
include joining plain wanted

theorem installChunk_zero (zero : k = 0) {c : Chunk0} (read : readChunk0 body = some c) : installChunk f s =
    if (membershipCheck c f.station s && barrierCheck c) = true then markInstalled 0 (installChunk0 c s) else s := by
  unfold installChunk
  rw [chunk]
  dsimp only
  rw [if_pos ⟨joining, plain, wanted⟩, if_pos zero, read]

theorem installChunk_lock (lockChunk : k ≠ 0) (eligible : (membershipHeld s && isUnmarked s f.station) = true) :
    installChunk f s = match readLockChunk (requiredSet s) body with
      | none => s
      | some entries => markInstalled k (installLocks k entries s) := by
  unfold installChunk
  rw [chunk]
  dsimp only
  rw [if_pos ⟨joining, plain, wanted⟩, if_neg lockChunk]
  exact if_pos eligible

end

/-! ## Table 12-10 and the laws of an entry, as R1 to R3 and R54 put them -/

theorem lockEntryBytes_held (holder : StationNo) (lease : Option (BitVec 3)) (waiters : List Waiter) :
    lockEntryBytes (.held holder lease waiters) =
      [byteOf (128 + holder.val), (match lease with | none => 0 | some level => byteOf (128 + level.toNat)),
          byteOf waiters.length]
        ++ waiters.map (fun w => byteOf (w.station.val + if w.leased then 128 else 0))
        ++ List.replicate (6 - waiters.length) 0 := by
  have top : ∀ holder : StationNo, 0x80#8 ||| byteOf holder.val = byteOf (128 + holder.val) := by decide
  have level : leaseByte lease = match lease with | none => 0 | some level => byteOf (128 + level.toNat) := by
    cases lease with
    | none => rfl
    | some level => exact leaseByte_some level
  have waiting : waiters.map waiterByte = waiters.map fun w => byteOf (w.station.val + if w.leased then 128 else 0) :=
    List.map_congr_left fun w _ => waiterByte_eq w
  show [0x80#8 ||| byteOf holder.val, leaseByte lease, byteOf waiters.length]
    ++ (waiters.map waiterByte ++ zeroBytes (6 - waiters.length)) = _
  rw [top, level, waiting, List.append_assoc, zeroBytes]

theorem lawful_held_iff (s : State) (holder : StationNo) (lease : Option (BitVec 3)) (waiters : List Waiter) :
    (lockEntryLaw (.held holder lease waiters) = true ∧ namesOnly (requiredSet s) (.held holder lease waiters) = true) ↔
      lease ≠ some 0 ∧ waiters.length ≤ 6 ∧ (waiters.map Waiter.station).Nodup
        ∧ (∀ w ∈ waiters, w.station ≠ holder ∧ ∃ m, s.members[w.station] = some m ∧ m.joining = false)
        ∧ ∃ m, s.members[holder] = some m ∧ m.joining = false := by
  have unmarked : ∀ r, inSet r (requiredSet s) = true ↔ ∃ m, s.members[r] = some m ∧ m.joining = false := isUnmarked_iff s
  rw [lockEntryLaw_held, namesOnly_held]
  simp only [unmarked, List.mem_map, not_exists, not_and]
  constructor
  · rintro ⟨⟨level, few, distinct, apart⟩, holds, waits⟩
    exact ⟨level, few, distinct, fun w mem => ⟨apart w mem, waits w mem⟩, holds⟩
  · rintro ⟨level, few, distinct, each, holds⟩
    exact ⟨⟨level, few, distinct, fun w mem => (each w mem).1⟩, holds, fun w mem => (each w mem).2⟩

theorem chunkOfLock_eq_iff (lock : LockNo) (k : ChunkNo) : chunkOfLock lock = k ↔ lock.val / 8 + 1 = k.val :=
  Fin.ext_iff

/-- The locks a lock chunk replaces, by the number of its first one. -/
theorem installLocks_eq (k : ChunkNo) (entries : List LockEntry) (s : State) : installLocks k entries s =
    { s with locks := tabulate fun lock =>
        if lock.val / 8 + 1 = k.val then entries.getD (lock.val % 8) .free else s.locks[lock] } := by
  unfold installLocks
  simp only [chunkOfLock_eq_iff]

/-! ## O60 -/

/-- Settles O60: the byte layouts are read back entry by entry, and each outcome of a chunk is one branch of
`installChunk` under the checks spelled out above. -/
theorem chunksCarryTheReplicaAndInstall : Obligations.ChunksCarryTheReplicaAndInstall := by
  unfold Obligations.ChunksCarryTheReplicaAndInstall
  refine ⟨fun s laws => ⟨?_, fun k lockChunk => ?_⟩, fun f s => ⟨?_, gatherWanted_other, ?_, completeCatchUp_waits,
    installChunk_idle⟩, fun f s k body chunk => ⟨installChunk_unwanted chunk, ?_, ?_⟩⟩
  · exact ⟨_, readChunk0_chunk0Body s.members s.barriers (absence_lt laws), rfl, members_of_chunk0 s.members⟩
  · refine ⟨_, readLockChunk_chunkBody laws lockChunk, by rw [List.length_map, locksOfChunk_length k lockChunk], ?_⟩
    rintro lock rfl
    rw [List.getElem?_map, locksOfChunk_get]
    rfl
  · exact fun w want join gathers => gatherWanted_joins want join gathers
  · exact fun joining wanted present => (completeCatchUp_done joining wanted present).trans rfl
  · intro lockChunk ineligible
    refine installChunk_ineligible chunk lockChunk (Bool.and_eq_false_iff.2 ?_)
    exact ineligible.imp id isUnmarked_eq_false
  · intro joining plain wanted
    refine ⟨?_, ?_⟩
    · intro zero length c membership barriers
      have result := installChunk_zero chunk joining plain wanted zero (readChunk0_eq_some length membership barriers)
      subst zero
      have checks := Bool.and_eq_true_iff.trans (and_congr (membershipCheck_iff c f.station s) (barrierCheck_iff c))
      refine ⟨fun good => ?_, fun bad => ?_⟩
      · obtain ⟨each, sends, own, table⟩ := good
        exact result.trans (if_pos (checks.2 ⟨⟨each, sends, own⟩, table⟩))
      · refine result.trans (if_neg fun passed => bad ?_)
        obtain ⟨⟨each, sends, own⟩, table⟩ := checks.1 passed
        exact ⟨each, sends, own, table⟩
    · intro lockChunk zeroInstalled m member unmarkedSender
      have eligible : (membershipHeld s && isUnmarked s f.station) = true :=
        Bool.and_eq_true_iff.2 ⟨zeroInstalled, (isUnmarked_iff s f.station).2 ⟨m, member, unmarkedSender⟩⟩
      have result := installChunk_lock chunk joining plain wanted lockChunk eligible
      intro unmarked lawful waiter entry
      have entryEq : entry = lockEntryBytes := funext fun
        | .free => rfl
        | .held holder lease waiters => (lockEntryBytes_held holder lease waiters).symm
      have lawfulIff : ∀ e, lawful e ↔ lockEntryLaw e = true ∧ namesOnly (requiredSet s) e = true := fun
        | .free => ⟨fun _ => ⟨rfl, rfl⟩, fun _ => trivial⟩
        | .held holder lease waiters => (lawful_held_iff s holder lease waiters).symm
      rw [entryEq]
      refine ⟨?_, ?_⟩
      · rintro entries length each rfl
        rw [result, readLockChunk_flatMap length (fun e mem => ((lawfulIff e).1 (each e mem)).1)
          fun e mem => ((lawfulIff e).1 (each e mem)).2]
        exact congrArg (markInstalled k) (installLocks_eq k entries s)
      · intro unlike
        rw [result]
        split
        · rfl
        · rename_i entries read
          obtain ⟨length, law, names⟩ := readLockChunk_entries read
          exact absurd (flatMap_of_readLockChunk read).symm
            (unlike entries length fun e mem => (lawfulIff e).2 ⟨law e mem, names e mem⟩)

end Sys2Proof.Machine
